-- ==== Sys2Proof/Word.lean ====
section
/-! DEFINITION. The word types of the Kyica: bytes, 32-bit register and instruction words, 64-bit addresses and set
values, lane masks and rows of 32 lane words (R7, R17, R33). -/

namespace Sys2Proof

/-- One byte of memory (R7). -/
abbrev Byte := BitVec 8

/-- One 32-bit register or instruction word (R17, R33). -/
abbrev Word := BitVec 32

/-- One 64-bit value: an address pair, a set value, a stamp (R36, R269). -/
abbrev DWord := BitVec 64

/-- A set of the 32 lanes of a warp: bit `j` stands for lane `j`. -/
abbrev Lanes := BitVec 32

/-- A warp-register or a queue row: 32 lane words, lane 0 first (R17). -/
abbrev Row := List Word

end Sys2Proof
end

