-- ==== Sys2Proof/Syntax.lean ====
section
/-! DEFINITION. The operands, modifiers and causes of the Kyica, and the one inductive `Instr`: a constructor for every
row of the opcode table, instruction words first and the machine's own events after them. -/

namespace Sys2Proof

/-- A name of the 8-bit register space (R22). -/
inductive Reg where
  | v (n : Fin 192)
  | g (n : Fin 48)
  | q (n : Fin 8)
  | zero
  | laneid
  | warpix
  | wgid
  | coreix
  | vaultix
  | cyc
  deriving DecidableEq, Repr

/-- The second source of a TRI word: a register, or the 24-bit payload of a class I prefix word (R37). -/
inductive Src where
  | reg (r : Reg)
  | imm (payload : BitVec 24)
  deriving DecidableEq, Repr

/-- The signed immediate of a PAIR word, alone or widened by a class I prefix word (R37). -/
inductive Imm8 where
  | short (i8 : BitVec 8)
  | long (payload : BitVec 24) (i8 : BitVec 8)
  deriving DecidableEq, Repr

/-- The access sizes of the M prefix class (R39). -/
inductive Size where
  | b8 | b16 | b32 | b64 | b128
  deriving DecidableEq, Repr

/-- The order codes of the M prefix class (R39). -/
inductive Order where
  | relaxed | acq | rel | ar
  deriving DecidableEq, Repr

/-- The ordering scopes (R11, R47). -/
inductive Scope where
  | core | quad | die | pkg | pod
  deriving DecidableEq, Repr

/-- The L1 modifiers of the M prefix class (R39, R185). -/
inductive Cache where
  | dflt | cs | cv
  deriving DecidableEq, Repr

/-- The payload of an M class prefix word (R39). -/
structure Mods where
  noret : Bool
  cache : Cache
  rp    : Bool
  order : Order
  scope : Scope
  sign  : Bool
  size  : Size
  deriving DecidableEq, Repr

/-- The widths of the W prefix class (R39). -/
inductive Width where
  | w2 | w4 | w8 | w16 | w32
  deriving DecidableEq, Repr

/-- The payload of an A class prefix word: live-in base and count, live-out count (R39). -/
structure Footprint where
  base : BitVec 8
  nin  : BitVec 8
  nout : BitVec 8
  deriving DecidableEq, Repr

/-- The FENCE kinds (R47). -/
inductive FenceKind where
  | none | acq | rel | ar
  deriving DecidableEq, Repr

/-- The conditions of STEST (R41). -/
inductive Cond where
  | eq | ne | lt | ge | ltn | gen | flt | fge | feq | fne | fun_ | tst | ntst
  deriving DecidableEq, Repr

/-- The operations of REDUX and SCAN (R45). -/
inductive RedOp where
  | add | min | max | minn | maxn | and | or | xor | fadd | fmin | fmax
  deriving DecidableEq, Repr

/-- The operations of ATOM (R46). -/
inductive AtomOp where
  | add | and | or | xor | min | max | minn | maxn | xchg | cas | incw | decw | fadd | fmin | fmax
  deriving DecidableEq, Repr

/-- The trap causes (R355). -/
inductive Cause where
  | illegalOp
  | illegalField
  | illegalOperand
  | illegalPfx
  | priv
  | misalign
  | pageNotPresent
  | pageProt
  | space
  | qsramBound
  | regBound
  | barrierClobber
  | wstoreRo
  | setForeign
  | setBusy
  | setHeap
  | setNest
  | tileLive
  | tileCfg
  | fmtScale
  | fibreOrder
  | windowWrite
  | stampExpired
  | stampPlain
  | clockWide
  | dTable
  | queueMisuse
  | barOverflow
  | cbMisuse
  | trap
  | syscall
  | bkpt
  | regEcc
  | dataLost
  | accessFault
  deriving DecidableEq, Repr

/-- The code of a cause (R355). -/
def Cause.code : Cause → BitVec 8
  | .illegalOp => 0x01
  | .illegalField => 0x02
  | .illegalOperand => 0x03
  | .illegalPfx => 0x04
  | .priv => 0x05
  | .misalign => 0x08
  | .pageNotPresent => 0x09
  | .pageProt => 0x0A
  | .space => 0x0B
  | .qsramBound => 0x0C
  | .regBound => 0x0D
  | .barrierClobber => 0x0E
  | .wstoreRo => 0x0F
  | .setForeign => 0x10
  | .setBusy => 0x11
  | .setHeap => 0x12
  | .setNest => 0x13
  | .tileLive => 0x14
  | .tileCfg => 0x15
  | .fmtScale => 0x16
  | .fibreOrder => 0x17
  | .windowWrite => 0x18
  | .stampExpired => 0x19
  | .stampPlain => 0x1A
  | .clockWide => 0x1B
  | .dTable => 0x1C
  | .queueMisuse => 0x1D
  | .barOverflow => 0x1E
  | .cbMisuse => 0x1F
  | .trap => 0x20
  | .syscall => 0x21
  | .bkpt => 0x22
  | .regEcc => 0x23
  | .dataLost => 0x24
  | .accessFault => 0x25

/-- The control registers of the map of R346. -/
inductive Csr where
  | round
  | tvec
  | cause
  | epc
  | ftab
  | ftabhi
  | applystk
  | priv
  | vault
  | pd
  | events
  | tcmp
  | tcmphi
  | laststamp
  | laststamphi
  | region
  | region2
  | dmode
  | clkw
  | wrefresh
  | swapwait
  | tmode
  | tscale
  | svec
  | scause
  | sepc
  | ptbase
  | ptbasehi
  | hptbase
  | hptbasehi
  | vwbase
  | vwbasehi
  | sdom
  | toffset
  | toffsethi
  deriving DecidableEq, Repr

/-- The number of a control register (R346). -/
def Csr.num : Csr → BitVec 12
  | .round => 0x000
  | .tvec => 0x001
  | .cause => 0x002
  | .epc => 0x003
  | .ftab => 0x004
  | .ftabhi => 0x005
  | .applystk => 0x006
  | .priv => 0x007
  | .vault => 0x008
  | .pd => 0x009
  | .events => 0x00A
  | .tcmp => 0x00B
  | .tcmphi => 0x00C
  | .laststamp => 0x00D
  | .laststamphi => 0x00E
  | .region => 0x00F
  | .region2 => 0x010
  | .dmode => 0x011
  | .clkw => 0x012
  | .wrefresh => 0x013
  | .swapwait => 0x014
  | .tmode => 0x015
  | .tscale => 0x016
  | .svec => 0x100
  | .scause => 0x101
  | .sepc => 0x102
  | .ptbase => 0x103
  | .ptbasehi => 0x104
  | .hptbase => 0x105
  | .hptbasehi => 0x106
  | .vwbase => 0x107
  | .vwbasehi => 0x108
  | .sdom => 0x109
  | .toffset => 0x10A
  | .toffsethi => 0x10B

/-- The owner of a 256-byte granule of instruction memory (R308). -/
inductive GranOwner where
  | none
  | dom (d : Nat)
  | supervisor
  deriving DecidableEq, Repr

/-- The MMIO registers that a host or supervisor write reaches and that have no event of their own
(R175, R380, R385 to R395); `control` is a core, die or domain copy of a control register (R346). `readOnly` stands for every register whose writes are ignored;
the others are what the supervisor does at the host's request or with physical addresses. -/
inductive MmioReg where
  | fwaddr
  | fwlen
  | vbnext (vault : Nat)
  | talert (die : Nat)
  | tretain (die : Nat)
  | win (slot : Nat)
  | wsel (core : Nat)
  | praddr (core : Nat)
  | prwg (core : Nat)
  | savebase (core : Nat)
  | backbase (core : Nat)
  | backsize (core : Nat)
  | strap (core : Nat)
  | pcap
  | podix
  | bcnsrc
  | hbeaconu
  | mailback (die : Nat)
  | octl (dom : Nat)
  | tsize (dom : Nat)
  | barm (dom k : Nat)
  | counter (dom k : Nat)
  | logbase (dom : Nat)
  | logsize (dom : Nat)
  | control (unit : Nat) (csr : Csr)
  | readOnly
  /-- A write at an offset of BAR0, which the map of R386 decodes. -/
  | bar0 (off : Nat)
  /-- A read of up to 8 bytes at an offset of BAR0; the value takes no part. -/
  | read (off n : Nat)
  /-- One half of an entry of the MSI-X table of a link, behind BAR4 (R384). -/
  | msixEntry (link vector half : Nat)
  /-- The supervisor's physical store, under its own tag (R328, R368); the value takes no part. -/
  | physical (pa : Nat) (bytes : List Byte)
  /-- A word of instruction memory that the supervisor writes, with the owner of its granule (R84, R85). -/
  | code (core word : Nat) (owner : GranOwner)
  /-- A read of physical memory by the supervisor or the host, which is how table entries read back (R328, R336, R337); the value takes no
  part. -/
  | physicalRead (pa n : Nat)
  /-- The supervisor makes the page at a physical address stamped, where bit 0 of the value is set, or plain again (R215). -/
  | page (pa size : Nat)
  /-- The host asks the supervisor to load an image into a domain; the code base, and for each section it maps the address and the table
  entries that map it, are the supervisor's choice (R84, R345). -/
  | load (dom base : Nat) (image : List Byte) (places : List (Nat × List (Nat × DWord)))
  /-- The supervisor unloads the image of a handle (R85). -/
  | unload (handle : Nat)
  /-- The host asks for the report of a domain with a nonce (R345). -/
  | report (dom : Nat) (nonce : BitVec 512)
  /-- A mapping the supervisor holds for a page or window block of a domain, with the place of its entry; the value is what the
  entry will be (R413). -/
  | holds (dom va size entry : Nat)
  /-- The owner epoch that the supervisor gives a domain (R329, R334). -/
  | epoch (dom : Nat)
  /-- A read of a copy of a control register (R346); the value takes no part. -/
  | readControl (unit : Nat) (csr : Csr)
  /-- A read of a warp's copy of a control register (R346). -/
  | readWarp (core set warp : Nat) (csr : Csr)
  /-- A read of the last guest time returned to a domain (R341, R347). -/
  | lastTime (dom : Nat)
  /-- A read of an entry of the MSI-X table of a link, with its pending bit, behind BAR4 (R384). -/
  | msixRead (link vector : Nat)
  /-- A read of both bounds of a die's interval (R212). -/
  | interval (die : Nat)
  /-- A read of how a controller of a die stands: 0 its host link, 1 to 3 its die-to-die links, 4 its PMC, 5 to 8 its fabric ports (R2). -/
  | controller (die k : Nat)
  /-- A read of the identity's public key, or of its certificate (R345). -/
  | identity (cert : Bool) (off n : Nat)
  /-- The host says that a warp stopped at a BKPT goes on (R377, R413). -/
  | goOn (core set warp : Nat)
  deriving DecidableEq, Repr

/-- A place in a register that fails its error check (R366). -/
inductive RegSite where
  | v (n lane : Nat)
  | g (n : Nat)
  | s (n : Nat)
  | f (n : Nat)
  | stack
  | queue (q row : Nat)
  | tile (t row : Nat)
  | ias (col : Nat)
  deriving DecidableEq, Repr

/-- What the device reads or runs again after an error that no code corrects (R364): a byte of memory, a load in flight, an
atomic request, a copy or chain, an array operation, a register of a warp or of its workgroup, a word of code. -/
inductive Replay where
  | byte (pa : Nat)
  | flight (core idx : Nat)
  | atomic (quad idx : Nat)
  | copy (core op : Nat)
  | array (core : Nat)
  | reg (core set warp : Nat) (site : RegSite)
  | code (core word : Nat)
  deriving DecidableEq, Repr

/-- Where data that no instruction waits for is lost (R367): a dirty line of a core's L1 or a stamped version that awaits visibility, by
its place in the list, a granule of a vault's remap move, a byte of memory that scrubbing finds bad. -/
inductive Lost where
  | l1
  | move
  | version
  | scrub
  deriving DecidableEq, Repr

/-- An access in flight, by its place, and the byte of it that an event performs: none for all that are left (R195). -/
structure FlightPart where
  idx  : Nat
  part : Option Nat
  deriving DecidableEq, Repr

/-- An entry of a core's array sequencer, by its place (R144). -/
structure ArrayPlace where
  core : Nat
  idx  : Nat
  deriving DecidableEq, Repr

/-- An entry of a core's array sequencer, and a row of its stream (R155, R156). -/
structure ArrayRow where
  core : Nat
  idx  : Nat
  row  : Nat
  deriving DecidableEq, Repr

/-- The unit or operation that goes on after a stop, and whether the device runs it again by itself after a transient error (R364). -/
structure Restart where
  unit   : Nat
  replay : Bool
  deriving DecidableEq, Repr

/-- A warp of a workgroup and one of its lanes (R216). -/
structure HeldLane where
  warp : Nat
  lane : Nat
  deriving DecidableEq, Repr

/-- The port of a flit that is sent again, and the domain it belongs to (R364, R382). -/
structure ResentFlit where
  port : Nat
  dom  : Nat
  deriving DecidableEq, Repr

/-- The domain whose access an error was corrected for, and the bank of a vault whose repair that exhausts, if any (R175, R364). -/
structure Correction where
  dom   : Nat
  spent : Option (Nat × Nat)
  deriving DecidableEq, Repr

/-- The steps of the machine: every instruction word of the opcode maps (R50, R51) with its operands and the payload
of its prefix word, and every event of the opcode table with the units it acts on. -/
inductive Instr where
  /-- ADD (R117). -/
  | add (d a : Reg) (b : Src)
  /-- SUB (R117). -/
  | sub (d a : Reg) (b : Src)
  /-- MUL (R117). -/
  | mul (d a : Reg) (b : Src)
  /-- MULHI (R117). -/
  | mulhi (d a : Reg) (b : Src)
  /-- MULHN (R117). -/
  | mulhn (d a : Reg) (b : Src)
  /-- MAD (R117). -/
  | mad (d a : Reg) (b : Src)
  /-- MIN (R117). -/
  | min (d a : Reg) (b : Src)
  /-- MAX (R117). -/
  | max (d a : Reg) (b : Src)
  /-- MINN (R117). -/
  | minn (d a : Reg) (b : Src)
  /-- MAXN (R117). -/
  | maxn (d a : Reg) (b : Src)
  /-- ABS (R117). -/
  | abs (d a : Reg)
  /-- AND (R117). -/
  | and (d a : Reg) (b : Src)
  /-- OR (R117). -/
  | or (d a : Reg) (b : Src)
  /-- XOR (R117). -/
  | xor (d a : Reg) (b : Src)
  /-- ANDN (R117). -/
  | andn (d a : Reg) (b : Src)
  /-- SHL (R117). -/
  | shl (d a : Reg) (b : Src)
  /-- SHR (R117). -/
  | shr (d a : Reg) (b : Src)
  /-- SAR (R117). -/
  | sar (d a : Reg) (b : Src)
  /-- ROTL (R117). -/
  | rotl (d a : Reg) (b : Src)
  /-- CLZ (R117). -/
  | clz (d a : Reg)
  /-- POPC (R117). -/
  | popc (d a : Reg)
  /-- BREV (R117). -/
  | brev (d a : Reg)
  /-- BFX (R117). -/
  | bfx (d a : Reg) (b : Src)
  /-- BFI (R117). -/
  | bfi (d a : Reg) (b : Src)
  /-- ADDI (R118). -/
  | addi (d a : Reg) (i : Imm8)
  /-- SHLI (R118). -/
  | shli (d a : Reg) (n : BitVec 8)
  /-- SHRI (R118). -/
  | shri (d a : Reg) (n : BitVec 8)
  /-- SARI (R118). -/
  | sari (d a : Reg) (n : BitVec 8)
  /-- MOVI (R119). -/
  | movi (d : Reg) (i16 : BitVec 16)
  /-- MOVHI (R119). -/
  | movhi (d : Reg) (i16 : BitVec 16)
  /-- MOV (R119). -/
  | mov (d a : Reg)
  /-- SETV (R120). -/
  | setv (d : Reg) (st : Fin 16)
  /-- FADD (R122). -/
  | fadd (d a : Reg) (b : Src)
  /-- FSUB (R122). -/
  | fsub (d a : Reg) (b : Src)
  /-- FMUL (R122). -/
  | fmul (d a : Reg) (b : Src)
  /-- FFMA (R122). -/
  | ffma (d a : Reg) (b : Src)
  /-- FMIN (R123). -/
  | fmin (d a : Reg) (b : Src)
  /-- FMAX (R123). -/
  | fmax (d a : Reg) (b : Src)
  /-- FABS (R124). -/
  | fabs (d a : Reg)
  /-- FNEG (R124). -/
  | fneg (d a : Reg)
  /-- FRCP (R126). -/
  | frcp (d a : Reg)
  /-- FRSQ (R126). -/
  | frsq (d a : Reg)
  /-- FSQRT (R122). -/
  | fsqrt (d a : Reg)
  /-- FDIV (R122). -/
  | fdiv (d a : Reg) (b : Src)
  /-- FEXP2 (R126). -/
  | fexp2 (d a : Reg)
  /-- FLOG2 (R126). -/
  | flog2 (d a : Reg)
  /-- FSINP (R126). -/
  | fsinp (d a : Reg)
  /-- FCOSP (R126). -/
  | fcosp (d a : Reg)
  /-- FTANH (R126). -/
  | ftanh (d a : Reg)
  /-- FRND (R125). -/
  | frnd (d a : Reg) (n : BitVec 8)
  /-- HADD2B (R128). -/
  | hadd2b (d a : Reg) (b : Src)
  /-- HMUL2B (R128). -/
  | hmul2b (d a : Reg) (b : Src)
  /-- HFMA2B (R128). -/
  | hfma2b (d a : Reg) (b : Src)
  /-- HADD2H (R128). -/
  | hadd2h (d a : Reg) (b : Src)
  /-- HMUL2H (R128). -/
  | hmul2h (d a : Reg) (b : Src)
  /-- HFMA2H (R128). -/
  | hfma2h (d a : Reg) (b : Src)
  /-- CVT (R129). -/
  | cvt (d a : Reg) (code : BitVec 8) (sat : Option Bool)
  /-- XPND (R130). -/
  | xpnd (d a : Reg) (code : BitVec 8)
  /-- PACK (R131). -/
  | pack (d a : Reg) (code : BitVec 8) (sat : Option Bool)
  /-- QSCALE (R132). -/
  | qscale (d a : Reg) (code : BitVec 8) (sat : Option Bool)
  /-- BCMP (R133). -/
  | bcmp (d a b : Reg)
  /-- BZERO (R134). -/
  | bzero (d a : Reg)
  /-- CRC32C (R135). -/
  | crc32c (d a b : Reg)
  /-- HMIX (R136). -/
  | hmix (d a b : Reg)
  /-- MOVXR (R137). -/
  | movxr (d : Reg) (gx : Fin 48) (i8 : BitVec 8)
  /-- MOVXW (R137). -/
  | movxw (d : Reg) (gx : Fin 48) (i8 : BitVec 8)
  /-- SHFL (R317). -/
  | shfl (d a b : Reg) (w : Option Width)
  /-- SHFLUP (R317). -/
  | shflup (d a : Reg) (n : BitVec 8) (w : Option Width)
  /-- SHFLDN (R317). -/
  | shfldn (d a : Reg) (n : BitVec 8) (w : Option Width)
  /-- SHFLX (R317). -/
  | shflx (d a : Reg) (n : BitVec 8) (w : Option Width)
  /-- REDUX (R318). -/
  | redux (d a : Reg) (op : RedOp)
  /-- SCAN (R318). -/
  | scan (d a : Reg) (op : RedOp) (excl : Bool)
  /-- STEST (R315). -/
  | stest (c : Cond) (st sf : Fin 16) (a : Reg) (b : Src)
  /-- LD (R224). -/
  | ld (d a : Reg) (i8 : BitVec 8) (m : Option Mods)
  /-- ST (R224). -/
  | st (d a : Reg) (i8 : BitVec 8) (m : Option Mods)
  /-- ATOM (R229). -/
  | atom (op : AtomOp) (d a : Reg) (m : Option Mods)
  /-- LDAS (R233). -/
  | ldas (d a b : Reg) (m : Option Mods)
  /-- STS (R232). -/
  | sts (d a b : Reg) (m : Option Mods)
  /-- POLL (R227). -/
  | poll (d a : Reg) (i8 : BitVec 8) (m : Option Mods)
  /-- FGETC (R257). -/
  | fgetc (f : Fin 8) (d : Reg)
  /-- FGETV (R257). -/
  | fgetv (f : Fin 8) (d : Reg)
  /-- TRD (R149). -/
  | trd (d : Reg) (tile : Fin 8) (col : Bool) (gx : Fin 48) (imm6 : Fin 64) (hi : Option Bool)
  /-- TWR (R149). -/
  | twr (d : Reg) (tile : Fin 8) (col : Bool) (gx : Fin 48) (imm6 : Fin 64) (hi : Option Bool)
  /-- TACC (R149). -/
  | tacc (d : Reg) (tile : Fin 8) (col : Bool) (gx : Fin 48) (imm6 : Fin 64) (hi : Option Bool)
  /-- GADD (R138). -/
  | gadd (d a : Reg) (b : Src)
  /-- GSUB (R138). -/
  | gsub (d a : Reg) (b : Src)
  /-- GMUL (R138). -/
  | gmul (d a : Reg) (b : Src)
  /-- GAND (R138). -/
  | gand (d a : Reg) (b : Src)
  /-- GOR (R138). -/
  | gor (d a : Reg) (b : Src)
  /-- GXOR (R138). -/
  | gxor (d a : Reg) (b : Src)
  /-- GSHL (R138). -/
  | gshl (d a : Reg) (b : Src)
  /-- GSHR (R138). -/
  | gshr (d a : Reg) (b : Src)
  /-- GSAR (R138). -/
  | gsar (d a : Reg) (b : Src)
  /-- GMIN (R138). -/
  | gmin (d a : Reg) (b : Src)
  /-- GMAX (R138). -/
  | gmax (d a : Reg) (b : Src)
  /-- GADDI (R138). -/
  | gaddi (d a : Reg) (i : Imm8)
  /-- GMOVI (R138). -/
  | gmovi (d : Reg) (i16 : BitVec 16)
  /-- GMOVHI (R138). -/
  | gmovhi (d : Reg) (i16 : BitVec 16)
  /-- GMOV (R138). -/
  | gmov (d a : Reg)
  /-- GRDL (R139). -/
  | grdl (d : Reg) (a : Fin 192) (b : Reg)
  /-- GSLT (R138). -/
  | gslt (d a : Reg) (b : Src)
  /-- GSLTN (R138). -/
  | gsltn (d a : Reg) (b : Src)
  /-- GSEQ (R138). -/
  | gseq (d a : Reg) (b : Src)
  /-- GLD (R225). -/
  | gld (d a : Reg) (i8 : BitVec 8) (m : Option Mods)
  /-- GST (R225). -/
  | gst (d a : Reg) (i8 : BitVec 8) (m : Option Mods)
  /-- BR (R307). -/
  | br (off : BitVec 24)
  /-- BRZ (R307). -/
  | brz (a : Fin 48) (off : BitVec 16)
  /-- BRNZ (R307). -/
  | brnz (a : Fin 48) (off : BitVec 16)
  /-- BRSE (R307). -/
  | brse (st : Fin 16) (off : BitVec 20)
  /-- BRSNE (R307). -/
  | brsne (st : Fin 16) (off : BitVec 20)
  /-- CALL (R307). -/
  | call (off : BitVec 24)
  /-- CALLR (R307). -/
  | callr (a : Reg)
  /-- RET (R307). -/
  | ret (a : Reg)
  /-- JMPR (R307). -/
  | jmpr (a : Reg)
  /-- SUNION (R311). -/
  | sunion (sd sa sb : Fin 16)
  /-- SINTER (R311). -/
  | sinter (sd sa sb : Fin 16)
  /-- SDIFF (R311). -/
  | sdiff (sd sa sb : Fin 16)
  /-- SMOV (R311). -/
  | smov (sd sa : Fin 16)
  /-- SALL (R311). -/
  | sall (sd : Fin 16)
  /-- SNONE (R311). -/
  | snone (sd : Fin 16)
  /-- SCOUNT (R312). -/
  | scount (d : Reg) (st : Fin 16)
  /-- SFIRST (R311). -/
  | sfirst (sd sa : Fin 16)
  /-- SLD (R314). -/
  | sld (sd : Fin 16) (a : Fin 48) (i8 : BitVec 8)
  /-- SST (R314). -/
  | sst (sd : Fin 16) (a : Fin 48) (i8 : BitVec 8)
  /-- APPLY (R316). -/
  | apply (st : Fin 16) (off : BitVec 20) (fp : Option Footprint)
  /-- AEND (R277). -/
  | aend
  /-- SFROMV (R313). -/
  | sfromv (d : Fin 48) (st : Fin 16)
  /-- STOV (R313). -/
  | stov (d : Fin 48) (st : Fin 16)
  /-- SFREE (R311). -/
  | sfree (sd : Fin 16)
  /-- BARINIT (R237). -/
  | barinit (a : Fin 48) (b : Reg)
  /-- ARRIVE (R238). -/
  | arrive (a : Fin 48) (b : Reg)
  /-- WAITPH (R240). -/
  | waitph (a : Fin 48) (b : Reg) (swap : Option Bool)
  /-- FENCE (R235). -/
  | fence (sc : Scope) (kind : FenceKind) (hv : Bool)
  /-- WAITC (R236). -/
  | waitc (ld st cp tl : Fin 64)
  /-- YIELD (R325). -/
  | yield
  /-- COPY (R241). -/
  | copy (a : Fin 48) (sc : Option Scope)
  /-- BINDW (R248). -/
  | bindw (a : Fin 48) (slot : Fin 16)
  /-- UNBINDW (R249). -/
  | unbindw (slot : Fin 16)
  /-- VCHAIN (R165). -/
  | vchain (a : Fin 48) (sc : Option Scope)
  /-- LOADW (R151). -/
  | loadw (a : Fin 48) (latch : Fin 2)
  /-- MLOOP (R154). -/
  | mloop (a : Fin 48)
  /-- MMASK (R157). -/
  | mmask (a : Fin 48)
  /-- TCFG (R146). -/
  | tcfg (cfg : Fin 2) (discard : Option Bool)
  /-- TZERO (R147). -/
  | tzero (tile : Fin 16)
  /-- TREL (R147). -/
  | trel (tile : Fin 16)
  /-- RFLUSH (R169). -/
  | rflush
  /-- CBINIT (R250). -/
  | cbinit (a : Fin 48) (b : Reg)
  /-- CBACQ (R252). -/
  | cbacq (a : Fin 48) (b : Reg) (swap : Option Bool)
  /-- CBREL (R253). -/
  | cbrel (a : Fin 48) (b : Reg)
  /-- CLKIV (R234). -/
  | clkiv (d : Fin 12)
  /-- FOPEN (R255). -/
  | fopen (f : Fin 8) (a : Fin 48) (b : Reg)
  /-- FADV (R256). -/
  | fadv (f : Fin 8) (a : Reg)
  /-- FTEND (R257). -/
  | ftend (f : Fin 8) (st : Fin 16)
  /-- FCLOSE (R255). -/
  | fclose (f : Fin 8)
  /-- FMERGE (R258). -/
  | fmerge (f a b : Fin 8)
  /-- FSEEK (R256). -/
  | fseek (f : Fin 8) (a : Reg)
  /-- SPAWN (R319). -/
  | spawn (d : Reg) (a : Fin 48)
  /-- LAUNCH (R320). -/
  | launch (d : Reg) (a : Fin 48)
  /-- END (R321). -/
  | endWarp
  /-- EXIT (R322). -/
  | exit
  /-- GROW (R323). -/
  | grow (n : BitVec 8)
  /-- SHRINK (R323). -/
  | shrink (n : BitVec 8)
  /-- JOIN (R324). -/
  | join (a : Fin 48) (b : Reg) (swap : Option Bool)
  /-- ALD (R326). -/
  | ald (q : Fin 8) (a : Fin 48) (i8 : BitVec 8)
  /-- TIME (R378). -/
  | time (d : Fin 48)
  /-- ENTER (R376). -/
  | enter (i16 : BitVec 16)
  /-- LEAVE (R376). -/
  | leave (i16 : BitVec 16)
  /-- MARK (R376). -/
  | mark (i16 : BitVec 16)
  /-- BKPT (R376). -/
  | bkpt (i16 : BitVec 16)
  /-- CSRR (R348). -/
  | csrr (x : Reg) (csr : Csr)
  /-- CSRW (R348). -/
  | csrw (x : Reg) (csr : Csr)
  /-- TRAP (R349). -/
  | trap (i16 : BitVec 16)
  /-- SYSCALL (R349). -/
  | syscall (i16 : BitVec 16)
  /-- RTE (R359). -/
  | rte
  /-- TLBINV (R351). -/
  | tlbinv (a : Fin 48)
  /-- CFLUSH (R352). -/
  | cflush (a b : Reg)
  /-- WAITEV (R353). -/
  | waitev (a : Reg)
  /-- LOGCTL_OFF (R371). -/
  | logctlOff (a : Reg)
  /-- LOGCTL_RECORD (R371). -/
  | logctlRecord (a : Reg)
  /-- LOGCTL_REPLAY (R371). -/
  | logctlReplay (a : Reg)
  /-- LOGCTL_READ_POSITION (R371). -/
  | logctlReadPosition (a : Reg)
  /-- NOP (R325). -/
  | nop
  /-- PFX (R38). -/
  | pfx (payload : BitVec 24)
  /-- ILLEGAL_WORD (R52). -/
  | illegalWord (c : Cause)
  /-- LOAD_RETURN (R195, R222): the whole access, or one byte of it alone. -/
  | loadReturn (core : Nat) (which : FlightPart)
  /-- STORE_PERFORMED (R195, R222): the whole access, or one byte of it alone. -/
  | storePerformed (core : Nat) (which : FlightPart)
  /-- L1_LINE_WRITEBACK (R203). -/
  | l1LineWriteback (core idx : Nat)
  /-- MITTEN_SERVE (R229). -/
  | mittenServe (quad : Nat)
  /-- ATOMIC_REQUEST_REPEAT (R365). -/
  | atomicRequestRepeat (quad idx : Nat)
  /-- PAGE_WALK_COMPLETE (R338). -/
  | pageWalkComplete (core dom : Nat) (va : DWord) (store : Bool)
  /-- ALD_ROW_RETURN (R286). -/
  | aldRowReturn (core set : Nat)
  /-- ARRAY_CLAIM_GRANT (R142). -/
  | arrayClaimGrant (core : Nat)
  /-- ARRAY_STATE_GIVE_UP (R143). -/
  | arrayStateGiveUp (core : Nat)
  /-- LOADW_COMPLETE (R152). -/
  | loadwComplete (at_ : ArrayPlace)
  /-- MLOOP_STEP (R155). -/
  | mloopStep (core : Nat)
  /-- MLOOP_COMPLETE (R158). -/
  | mloopComplete (core : Nat)
  /-- TZERO_COMPLETE (R147). -/
  | tzeroComplete (core : Nat)
  /-- ARRAY_STREAM_FAULT (R161). -/
  | arrayStreamFault (at_ : ArrayRow)
  /-- ARRAY_OP_RESTART (R162). -/
  | arrayOpRestart (at_ : Restart)
  /-- WEIGHT_BANK_REFRESH (R184). -/
  | weightBankRefresh (die bank : Nat)
  /-- COPY_GRANULE_LAND (R244). -/
  | copyGranuleLand (core op row piece : Nat)
  /-- COPY_COMPLETE (R244). -/
  | copyComplete (core op : Nat)
  /-- CB_PIECE_START (R251). -/
  | cbPieceStart (core op : Nat)
  /-- SIGNAL_COPY_START (R245). -/
  | signalCopyStart (core op : Nat)
  /-- REMOTE_LANDING_ACK (R246). -/
  | remoteLandingAck (core op row piece : Nat)
  /-- COPY_FAULT (R247). -/
  | copyFault (core op row piece : Nat)
  /-- COPY_RESTART (R247). -/
  | copyRestart (core : Nat) (op : Restart)
  /-- CHAIN_COMPLETE (R167). -/
  | chainComplete (core op : Nat)
  /-- CHAIN_FAULT (R167). -/
  | chainFault (core op : Nat)
  /-- EPOCH_CLOSE (R169). -/
  | epochClose (launch : Nat)
  /-- BEACON_ARRIVAL (R212). -/
  | beaconArrival (die lo hi : Nat)
  /-- STAMP_VERSION_ARRIVE (R214). -/
  | stampVersionArrive (idx : Nat)
  /-- STAMP_VERSION_VISIBLE (R214). -/
  | stampVersionVisible (idx : Nat)
  /-- LDAS_ANSWER (R216). -/
  | ldasAnswer (core set : Nat) (lane : HeldLane)
  /-- TCMP_REACHED (R353). -/
  | tcmpReached (dom : Nat)
  /-- LAUNCH_ACCEPT (R289). -/
  | launchAccept (die : Nat)
  /-- WORKGROUP_RECORD_PUSH (R291). -/
  | workgroupRecordPush (die : Nat)
  /-- PENDING_LAUNCH_REFILL (R288). -/
  | pendingLaunchRefill (core : Nat)
  /-- CONTINUATION_REFILL (R294). -/
  | continuationRefill (core prio : Nat)
  /-- RECORD_POP (R295). -/
  | recordPop (core : Nat)
  /-- ISSUE_SELECT (R298). -/
  | issueSelect (core pipe : Nat)
  /-- WATCHED_LINE_WRITE (R300). -/
  | watchedLineWrite (core set warp : Nat)
  /-- SWAPWAIT_EXPIRY (R302). -/
  | swapwaitExpiry (core set warp : Nat)
  /-- SWAP_OUT (R302). -/
  | swapOut (core set warp : Nat)
  /-- GROW_STALL_CHECK (R303). -/
  | growStallCheck (core : Nat)
  /-- GROW_GRANT (R303). -/
  | growGrant (core : Nat)
  /-- WORKGROUP_END (R266). -/
  | workgroupEnd (core set : Nat)
  /-- GRID_COMPLETE (R267). -/
  | gridComplete (launch : Nat)
  /-- PREEMPT_REQUEST (R360). -/
  | preemptRequest (core : Nat) (hold : Bool)
  /-- PREEMPTED_RECORD_PUSH (R360). -/
  | preemptedRecordPush (core : Nat)
  /-- PREEMPT_SAVE (R360). -/
  | preemptSave (core : Nat)
  /-- STALL_SAMPLE (R381). -/
  | stallSample (core : Nat)
  /-- CLOCK_CHANGE_DONE (R391). -/
  | clockChangeDone (die : Nat)
  /-- QUAD_WAKE_DONE (R391). -/
  | quadWakeDone (die quad : Nat)
  /-- VAULT_QUIESCE_DONE (R175). -/
  | vaultQuiesceDone (vault : Nat)
  /-- REMAP_GRANULE_MOVE (R176). -/
  | remapGranuleMove (vault : Nat) (readable : Bool)
  /-- FLIT_RESEND (R364). -/
  | flitResend (die : Nat) (flit : ResentFlit)
  /-- ECC_CORRECTION (R364). -/
  | eccCorrection (fix : Correction)
  /-- READ_REISSUE (R364). -/
  | readReissue (what : Replay) (failed : Nat)
  /-- ASYNC_DATA_LOST (R367). -/
  | asyncDataLost (die unit : Nat) (what : Lost) (at_ : Nat)
  /-- POWER_ON_RESET (R388). -/
  | powerOnReset
  /-- HRESET (R388). -/
  | hreset (value : Word)
  /-- FWGO (R388). -/
  | fwgo
  /-- FIRMWARE_VERIFIED (R344). -/
  | firmwareVerified (ok : Bool) (readError : Bool)
  /-- BOOT_READY (R388). -/
  | bootReady
  /-- ADMIT (R390). -/
  | hostPush (bytes : List Byte) (link : Nat)
  /-- DOORBELL (R387). -/
  | doorbell (dom : Nat)
  /-- MAILBOX (R389). -/
  | mailbox (die : Nat) (value : DWord)
  /-- DCTL_STOP (R342). -/
  | dctlStop (dom : Nat)
  /-- DCTL_START (R342). -/
  | dctlStart (dom : Nat)
  /-- QUAD_ASSIGNMENT_WRITE (R331). -/
  | quadAssignmentWrite (quad : Nat) (value : DWord)
  /-- SHARE (R297). -/
  | share (core : Nat) (value : BitVec 128)
  /-- KEY (R340). -/
  | key (dom : Nat) (key : BitVec 512)
  /-- STATE_WINDOW_WRITE (R387). -/
  | stateWindowWrite (core off : Nat) (bytes : List Byte)
  /-- HOST_WINDOW_READ (R385). -/
  | hostWindowRead (slot off n : Nat)
  /-- HOST_WINDOW_WRITE (R385). -/
  | hostWindowWrite (slot off : Nat) (bytes : List Byte)
  /-- VAULT_QUIESCE (R177). -/
  | vaultQuiesce (vault : Nat)
  /-- VAULT_QUIESCE_RELEASE (R177). -/
  | vaultQuiesceRelease (vault : Nat)
  /-- REMAP_GO (R176). -/
  | remapGo (vault : Nat)
  /-- PSTATE (R391). -/
  | pstate (die : Nat) (value : Word)
  /-- QPARK (R391). -/
  | qpark (die : Nat) (value : BitVec 16)
  /-- POWER_CAP_THROTTLE (R391). -/
  | powerCapThrottle (watts : Nat)
  /-- PTHROT_CLEAR (R391). -/
  | pthrotClear (die : Nat)
  /-- TLOST_CLEAR (R380). -/
  | tlostClear (dom : Nat)
  /-- TBASE (R383). -/
  | tbase (dom : Nat) (value : DWord)
  /-- THERMAL_ALERT (R392). -/
  | thermalAlert (die zone temp : Nat)
  /-- THERMAL_TRIP (R392). -/
  | thermalTrip (die zone temp : Nat)
  /-- TRIP_CLEAR (R392). -/
  | tripClear (die : Nat)
  /-- RETENTION_LIMIT (R392). -/
  | retentionLimit (die zone : Nat)
  /-- VALVE_ADJUST (R15). -/
  | valveAdjust (die zone : Nat) (a b c : Byte)
  /-- HBEACON (R395). -/
  | hbeacon (t : DWord)
  /-- FABRIC_LINK_UP (R394). -/
  | fabricLinkUp (die port peer : Nat)
  /-- REGISTER_WRITE (R386). -/
  | registerWrite (reg : MmioReg) (value : DWord)
  /-- FABRIC_LINK_DOWN (R394). -/
  | fabricLinkDown (die port : Nat)
  /-- WEIGHT_WINDOW_OPEN (R183). -/
  | weightWindowOpen (die dom : Nat)
  /-- WEIGHT_WINDOW_CLOSE (R211). -/
  | weightWindowClose (die : Nat)
  /-- DOMAIN_CREATE (R347). -/
  | domainCreate (dom : Nat)
  /-- DOMAIN_DESTROY (R329). -/
  | domainDestroy (dom : Nat)
  /-- SUPERVISOR_ENDS_WORKGROUP (R356). -/
  | supervisorEndsWorkgroup (core set : Nat) (cause : Cause) (addr : DWord)
  deriving DecidableEq, Repr

end Sys2Proof
end

