-- ==== Sys2Proof/WellFormed.lean ====
section
/-! DEFINITION. Which instructions the encodings allow: the operand kinds of R36, the modifier rules of R39 and the code
ranges of R43 to R47. -/

namespace Sys2Proof

/-- The number of a register in the 8-bit space (R22). -/
def Reg.num : Reg → BitVec 8
  | .v n => BitVec.ofNat 8 n.val
  | .g n => BitVec.ofNat 8 (192 + n.val)
  | .q n => BitVec.ofNat 8 (240 + n.val)
  | .zero => 248
  | .laneid => 249
  | .warpix => 250
  | .wgid => 251
  | .coreix => 252
  | .vaultix => 253
  | .cyc => 254

/-- L-form destinations: `v`, `q` and `zero` (R36). -/
def Reg.isLaneDst : Reg → Bool
  | .v _ | .q _ | .zero => true
  | _ => false

/-- G-form sources: everything but the lane registers (R36). -/
def Reg.isUniSrc : Reg → Bool
  | .v _ => false
  | _ => true

/-- G-form destinations: `g`, `q` and `zero` (R36). -/
def Reg.isUniDst : Reg → Bool
  | .g _ | .q _ | .zero => true
  | _ => false

/-- A lane register whose number is a multiple of `k` (R36). -/
def Reg.isV (k : Nat) : Reg → Bool
  | .v n => n.val % k == 0
  | _ => false

/-- A uniform register at the even half of a pair that is not `g47` (R36). -/
def evenG (n : Fin 48) : Bool := n.val % 2 == 0

/-- A uniform pair (R36). -/
def Reg.isUPair : Reg → Bool
  | .g n => evenG n
  | _ => false

/-- An L-form address pair (R36, R218). -/
def Reg.isAddr (r : Reg) : Bool := r.isV 2 || r.isUPair

/-- A destination of the order log's read position: `g` or `q` (R371). -/
def Reg.isLogDst : Reg → Bool
  | .g _ | .q _ => true
  | _ => false

/-- Registers that one access of a size fills (R39). -/
def Size.regs : Size → Nat
  | .b64 => 2
  | .b128 => 4
  | _ => 1

/-- Bytes of one access (R39). -/
def Size.bytes : Size → Nat
  | .b8 => 1
  | .b16 => 2
  | .b32 => 4
  | .b64 => 8
  | .b128 => 16

/-- The data operand of a lane access of a size, written (`dst`) or read (R36, R39, R223). -/
def Reg.isLaneData (dst : Bool) (sz : Size) (r : Reg) : Bool :=
  if sz.regs = 1 then !dst || r.isLaneDst
  else r.isV sz.regs || (match r with | .q _ => true | _ => false)

/-- The data operand of LDAS and STS (R39, R232): a lane pair or quadruple at 64 and 128 bits, whatever the register kind. -/
def Reg.isStampData (dst : Bool) (sz : Size) (r : Reg) : Bool :=
  if sz.regs = 1 then !dst || r.isLaneDst else r.isV sz.regs

/-- The data operand of a uniform access of a size (R223, R225). -/
def Reg.isUniData (dst : Bool) (sz : Size) (r : Reg) : Bool :=
  if sz.regs = 1 then (if dst then r.isUniDst else r.isUniSrc)
  else r.isUPair || (match r with | .q _ => true | _ => false)

/-- The second source of an L-form word (R37): a packed-pair immediate has no bits above 15. -/
def Src.fits (packed : Bool) : Src → Bool
  | .reg _ => true
  | .imm p => !packed || decide (p.toNat < 65536)

/-- The second source of a G-form word (R36, R37). -/
def Src.fitsUni : Src → Bool
  | .reg r => r.isUniSrc
  | .imm _ => true

/-- The defaults of an instruction without an M prefix word (R39). -/
def Mods.dflt : Mods where
  noret := false
  cache := .dflt
  rp := false
  order := .relaxed
  scope := .core
  sign := false
  size := .b32

/-- The modifiers in force: those of the prefix word, or the defaults (R39). -/
def modsOf (m : Option Mods) : Mods := m.getD Mods.dflt

/-- The access size in force (R39). -/
def sizeOf (m : Option Mods) : Size := (modsOf m).size

/-- The order includes an acquire (R196). -/
def Order.isAcq : Order → Bool
  | .acq | .ar => true
  | _ => false

/-- The order includes a release (R196). -/
def Order.isRel : Order → Bool
  | .rel | .ar => true
  | _ => false

/-- The M layout rules common to every instruction: promotion needs an acquire, a relaxed access names no scope, only
narrow sizes extend a sign (R39). -/
def Mods.layoutOk (m : Mods) : Bool :=
  (!m.rp || m.order.isAcq) && (decide (m.order ≠ .relaxed) || decide (m.scope = .core)) &&
    (!m.sign || decide (m.size = .b8) || decide (m.size = .b16))

/-- M rules of LD (`wide`), POLL and GLD: no release (R39). -/
def loadMods (wide : Bool) (m : Mods) : Bool :=
  !m.noret && !m.order.isRel && (wide || decide (m.size ≠ .b128))

/-- M rules of ST (`wide`) and GST: no acquire, no sign (R39). -/
def storeMods (wide : Bool) (m : Mods) : Bool :=
  !m.noret && !m.order.isAcq && !m.sign && (wide || decide (m.size ≠ .b128))

/-- M rules of ATOM: 32 or 64 bits (R39). -/
def atomMods (m : Mods) : Bool := decide (m.size = .b32) || decide (m.size = .b64)

/-- M rules of LDAS and STS: relaxed, 32 bits or more (R39, R232, R233). -/
def stampMods (m : Mods) : Bool :=
  !m.noret && decide (m.order = .relaxed) && decide (m.size ≠ .b8) && decide (m.size ≠ .b16)

/-- An optional M prefix word keeps the layout and the instruction's own rules (R39). -/
def modsFit (own : Mods → Bool) : Option Mods → Bool
  | none => true
  | some m => m.layoutOk && own m

/-- The sizes an atomic operation lists (R46). -/
def AtomOp.sizeOk (op : AtomOp) (sz : Size) : Bool :=
  match op with
  | .incw | .decw | .fadd | .fmin | .fmax => decide (sz = .b32)
  | _ => decide (sz = .b32) || decide (sz = .b64)

/-- The registers of an atomic operand: CAS takes a compare and a new value (R46, R228). -/
def AtomOp.regs (op : AtomOp) (sz : Size) : Nat :=
  match op with
  | .cas => 2 * sz.regs
  | _ => sz.regs

/-- A 4-bit format id that names an integer format (R42). -/
def fmtIsInt (f : Nat) : Bool := decide (f < 8)

/-- A format id that names `f32` or a float that CVT converts with it (R43). -/
def fmtIsNarrowFloat (f : Nat) : Bool := decide (9 ≤ f) && decide (f ≤ 12)

/-- The legal CVT codes (R43). -/
def cvtLegal (code : BitVec 8) : Bool :=
  let d := code.toNat / 16
  let s := code.toNat % 16
  (fmtIsInt d && fmtIsInt s && decide (d ≠ s)) || (fmtIsInt s && decide (d = 8)) || (decide (s = 8) && fmtIsInt d) ||
    (decide (s = 8) && fmtIsNarrowFloat d) || (decide (d = 8) && fmtIsNarrowFloat s)

/-- A 64-bit side of CVT is a lane pair (R43). -/
def cvtSide (r : Reg) (f : Nat) : Bool := !(decide (f = 3) || decide (f = 7)) || r.isV 2

/-- The FENCE fields that are legal together (R47). -/
def fenceOk (sc : Scope) (k : FenceKind) (hv : Bool) : Bool :=
  match k with
  | .none => decide (sc = .core) && hv
  | _ => true

/-- The return label of APPLY lies at least one word on (R316). -/
def applyOffOk (off : BitVec 20) : Bool := decide (1 ≤ off.toInt)

/-- The layout of a footprint (R39). -/
def Footprint.ok (f : Footprint) : Bool :=
  decide (1 ≤ f.nin.toNat) && decide (f.nout.toNat ≤ f.nin.toNat) && decide (f.base.toNat + f.nin.toNat ≤ 192)

/-- An optional A prefix word keeps its layout (R39). -/
def fpFit : Option Footprint → Bool
  | none => true
  | some f => f.ok

/-- The instruction is one that the encodings can form (R35 to R48). -/
def Instr.wf : Instr → Bool
  | .add d _ b => d.isLaneDst && b.fits false
  | .sub d _ b => d.isLaneDst && b.fits false
  | .mul d _ b => d.isLaneDst && b.fits false
  | .mulhi d _ b => d.isLaneDst && b.fits false
  | .mulhn d _ b => d.isLaneDst && b.fits false
  | .mad d _ b => d.isLaneDst && b.fits false
  | .min d _ b => d.isLaneDst && b.fits false
  | .max d _ b => d.isLaneDst && b.fits false
  | .minn d _ b => d.isLaneDst && b.fits false
  | .maxn d _ b => d.isLaneDst && b.fits false
  | .and d _ b => d.isLaneDst && b.fits false
  | .or d _ b => d.isLaneDst && b.fits false
  | .xor d _ b => d.isLaneDst && b.fits false
  | .andn d _ b => d.isLaneDst && b.fits false
  | .shl d _ b => d.isLaneDst && b.fits false
  | .shr d _ b => d.isLaneDst && b.fits false
  | .sar d _ b => d.isLaneDst && b.fits false
  | .rotl d _ b => d.isLaneDst && b.fits false
  | .bfx d _ b => d.isLaneDst && b.fits false
  | .bfi d _ b => d.isLaneDst && b.fits false
  | .fadd d _ b => d.isLaneDst && b.fits false
  | .fsub d _ b => d.isLaneDst && b.fits false
  | .fmul d _ b => d.isLaneDst && b.fits false
  | .ffma d _ b => d.isLaneDst && b.fits false
  | .fmin d _ b => d.isLaneDst && b.fits false
  | .fmax d _ b => d.isLaneDst && b.fits false
  | .fdiv d _ b => d.isLaneDst && b.fits false
  | .hadd2b d _ b => d.isLaneDst && b.fits true
  | .hmul2b d _ b => d.isLaneDst && b.fits true
  | .hfma2b d _ b => d.isLaneDst && b.fits true
  | .hadd2h d _ b => d.isLaneDst && b.fits true
  | .hmul2h d _ b => d.isLaneDst && b.fits true
  | .hfma2h d _ b => d.isLaneDst && b.fits true
  | .abs d _ => d.isLaneDst
  | .clz d _ => d.isLaneDst
  | .popc d _ => d.isLaneDst
  | .brev d _ => d.isLaneDst
  | .mov d _ => d.isLaneDst
  | .fabs d _ => d.isLaneDst
  | .fneg d _ => d.isLaneDst
  | .frcp d _ => d.isLaneDst
  | .frsq d _ => d.isLaneDst
  | .fsqrt d _ => d.isLaneDst
  | .fexp2 d _ => d.isLaneDst
  | .flog2 d _ => d.isLaneDst
  | .fsinp d _ => d.isLaneDst
  | .fcosp d _ => d.isLaneDst
  | .ftanh d _ => d.isLaneDst
  | .bzero d _ => d.isLaneDst
  | .addi d _ _ => d.isLaneDst
  | .shli d _ n => d.isLaneDst && decide (n.toNat < 32)
  | .shri d _ n => d.isLaneDst && decide (n.toNat < 32)
  | .sari d _ n => d.isLaneDst && decide (n.toNat < 32)
  | .frnd d _ n => d.isLaneDst && decide (n.toNat < 5)
  | .movi d _ => d.isLaneDst
  | .movhi d _ => d.isLaneDst
  | .setv d _ => d.isLaneDst
  | .cvt d a code _ => cvtLegal code && cvtSide d (code.toNat / 16) && d.isLaneDst && cvtSide a (code.toNat % 16)
  | .pack d a code _ => decide (code.toNat < 4) && d.isLaneDst && a.isV (if code.toNat < 2 then 2 else 4)
  | .qscale d _ code _ => decide (code.toNat < 3) && d.isV 2
  | .xpnd d _ code => decide (code.toNat < 4) && d.isLaneDst && (decide (2 ≤ code.toNat) || d.isV 2)
  | .bcmp d _ _ => d.isLaneDst
  | .crc32c d _ _ => d.isLaneDst
  | .hmix d _ _ => d.isLaneDst
  | .movxr d _ _ => d.isV 1
  | .movxw d _ _ => d.isV 1
  | .shfl d _ _ _ => d.isLaneDst
  | .shflup d _ n _ => d.isLaneDst && decide (n.toNat < 32)
  | .shfldn d _ n _ => d.isLaneDst && decide (n.toNat < 32)
  | .shflx d _ n _ => d.isLaneDst && decide (n.toNat < 32)
  | .redux d _ _ => d.isLaneDst
  | .scan d _ _ _ => d.isLaneDst
  | .stest _ sx sf _ b => decide (sx ≠ sf) && b.fits false
  | .ld d a _ m => modsFit (loadMods true) m && d.isLaneData true (sizeOf m) && a.isAddr
  | .poll d a _ m => modsFit (loadMods false) m && d.isLaneData true (sizeOf m) && a.isAddr
  | .st d a _ m => modsFit (storeMods true) m && d.isLaneData false (sizeOf m) && a.isAddr
  | .atom op d a m => modsFit atomMods m && op.sizeOk (sizeOf m) && d.isV (op.regs (sizeOf m)) && a.isAddr
  | .ldas d a b m => modsFit stampMods m && d.isStampData true (sizeOf m) && a.isAddr && b.isUPair
  | .sts d a b m => modsFit stampMods m && d.isStampData false (sizeOf m) && a.isAddr && b.isUPair
  | .fgetc _ d => d.isLaneDst
  | .fgetv _ d => d.isLaneDst
  | .trd d _ _ _ _ _ => d.isV 4
  | .twr d _ _ _ _ _ => d.isV 4
  | .tacc d _ _ _ _ _ => d.isV 4
  | .gadd d a b => d.isUniDst && a.isUniSrc && b.fitsUni
  | .gsub d a b => d.isUniDst && a.isUniSrc && b.fitsUni
  | .gmul d a b => d.isUniDst && a.isUniSrc && b.fitsUni
  | .gand d a b => d.isUniDst && a.isUniSrc && b.fitsUni
  | .gor d a b => d.isUniDst && a.isUniSrc && b.fitsUni
  | .gxor d a b => d.isUniDst && a.isUniSrc && b.fitsUni
  | .gshl d a b => d.isUniDst && a.isUniSrc && b.fitsUni
  | .gshr d a b => d.isUniDst && a.isUniSrc && b.fitsUni
  | .gsar d a b => d.isUniDst && a.isUniSrc && b.fitsUni
  | .gmin d a b => d.isUniDst && a.isUniSrc && b.fitsUni
  | .gmax d a b => d.isUniDst && a.isUniSrc && b.fitsUni
  | .gslt d a b => d.isUniDst && a.isUniSrc && b.fitsUni
  | .gsltn d a b => d.isUniDst && a.isUniSrc && b.fitsUni
  | .gseq d a b => d.isUniDst && a.isUniSrc && b.fitsUni
  | .gaddi d a _ => d.isUniDst && a.isUniSrc
  | .gmovi d _ => d.isUniDst
  | .gmovhi d _ => d.isUniDst
  | .gmov d a => d.isUniDst && a.isUniSrc
  | .grdl d _ b => d.isUniDst && b.isUniSrc
  | .gld d a _ m => modsFit (loadMods false) m && d.isUniData true (sizeOf m) && a.isUPair
  | .gst d a _ m => modsFit (storeMods false) m && d.isUniData false (sizeOf m) && a.isUPair
  | .br _ => true
  | .call _ => true
  | .brz _ _ => true
  | .brnz _ _ => true
  | .brse _ _ => true
  | .brsne _ _ => true
  | .callr a => a.isUniSrc
  | .ret a => a.isUniSrc
  | .jmpr a => a.isUniSrc
  | .sunion _ _ _ => true
  | .sinter _ _ _ => true
  | .sdiff _ _ _ => true
  | .smov _ _ => true
  | .sfirst _ _ => true
  | .sall _ => true
  | .snone _ => true
  | .sfree _ => true
  | .scount d _ => d.isUniDst
  | .sfromv d _ => evenG d
  | .stov d _ => evenG d
  | .sld _ a _ => evenG a
  | .sst _ a _ => evenG a
  | .apply _ off fp => applyOffOk off && fpFit fp
  | .aend => true
  | .yield => true
  | .endWarp => true
  | .exit => true
  | .nop => true
  | .rte => true
  | .rflush => true
  | .barinit a b => evenG a && b.isUniSrc
  | .arrive a b => evenG a && b.isUniSrc
  | .cbinit a b => evenG a && b.isUniSrc
  | .cbrel a b => evenG a && b.isUniSrc
  | .waitph a b _ => evenG a && b.isUniSrc
  | .join a b _ => evenG a && b.isUniSrc
  | .cbacq a b _ => evenG a && b.isUniSrc
  | .fence sc kind hv => fenceOk sc kind hv
  | .waitc _ _ _ _ => true
  | .copy a _ => evenG a
  | .vchain a _ => evenG a
  | .bindw a _ => evenG a
  | .unbindw _ => true
  | .loadw a _ => evenG a
  | .mloop a => evenG a
  | .mmask a => evenG a
  | .tcfg _ _ => true
  | .tzero _ => true
  | .trel _ => true
  | .clkiv _ => true
  | .fopen _ a b => evenG a && b.isUniSrc
  | .fadv _ a => a.isUniSrc
  | .fseek _ a => a.isUniSrc
  | .ftend _ _ => true
  | .fclose _ => true
  | .fmerge f a b => decide (f ≠ a) && decide (f ≠ b) && decide (a ≠ b)
  | .spawn d a => d.isUniDst && evenG a
  | .launch d a => d.isUniDst && evenG a
  | .grow n => decide (1 ≤ n.toNat) && decide (n.toNat ≤ 24)
  | .shrink n => decide (1 ≤ n.toNat) && decide (n.toNat ≤ 24)
  | .ald _ a _ => evenG a
  | .time d => evenG d
  | .enter i16 => decide (i16 ≠ 0)
  | .leave i16 => decide (i16 ≠ 0)
  | .mark _ => true
  | .bkpt _ => true
  | .trap _ => true
  | .syscall _ => true
  | .csrr x _ => x.isUniDst
  | .csrw x _ => x.isUniSrc
  | .tlbinv a => evenG a
  | .waitev a => a.isUniSrc
  | .cflush a b => a.isUPair && b.isUniSrc
  | .logctlOff a => a.isUniSrc
  | .logctlRecord a => a.isUniSrc
  | .logctlReplay a => a.isUniSrc
  | .logctlReadPosition a => a.isLogDst
  | .pfx _ => true
  | .illegalWord _ => true
  | .loadReturn _ _ => true
  | .storePerformed _ _ => true
  | .l1LineWriteback _ _ => true
  | .mittenServe _ => true
  | .atomicRequestRepeat _ _ => true
  | .pageWalkComplete _ _ _ _ => true
  | .aldRowReturn _ _ => true
  | .arrayClaimGrant _ => true
  | .arrayStateGiveUp _ => true
  | .loadwComplete _ => true
  | .mloopStep _ => true
  | .mloopComplete _ => true
  | .tzeroComplete _ => true
  | .arrayStreamFault _ => true
  | .arrayOpRestart _ => true
  | .weightBankRefresh _ _ => true
  | .copyGranuleLand _ _ _ _ => true
  | .copyComplete _ _ => true
  | .cbPieceStart _ _ => true
  | .signalCopyStart _ _ => true
  | .remoteLandingAck _ _ _ _ => true
  | .copyFault _ _ _ _ => true
  | .copyRestart _ _ => true
  | .chainComplete _ _ => true
  | .chainFault _ _ => true
  | .epochClose _ => true
  | .beaconArrival _ _ _ => true
  | .stampVersionArrive _ => true
  | .stampVersionVisible _ => true
  | .ldasAnswer _ _ _ => true
  | .tcmpReached _ => true
  | .launchAccept _ => true
  | .workgroupRecordPush _ => true
  | .pendingLaunchRefill _ => true
  | .continuationRefill _ _ => true
  | .recordPop _ => true
  | .issueSelect _ _ => true
  | .watchedLineWrite _ _ _ => true
  | .swapwaitExpiry _ _ _ => true
  | .swapOut _ _ _ => true
  | .growStallCheck _ => true
  | .growGrant _ => true
  | .workgroupEnd _ _ => true
  | .gridComplete _ => true
  | .preemptRequest _ _ => true
  | .preemptSave _ => true
  | .stallSample _ => true
  | .flitResend _ _ => true
  | .eccCorrection _ => true
  | .readReissue _ _ => true
  | .asyncDataLost _ _ _ _ => true
  | .powerOnReset => true
  | .hreset _ => true
  | .fwgo => true
  | .firmwareVerified _ _ => true
  | .bootReady => true
  | .hostPush _ _ => true
  | .doorbell _ => true
  | .mailbox _ _ => true
  | .dctlStop _ => true
  | .dctlStart _ => true
  | .quadAssignmentWrite _ _ => true
  | .share _ _ => true
  | .key _ _ => true
  | .stateWindowWrite _ _ _ => true
  | .hostWindowRead _ _ _ => true
  | .hostWindowWrite _ _ _ => true
  | .vaultQuiesce _ => true
  | .vaultQuiesceDone _ => true
  | .vaultQuiesceRelease _ => true
  | .remapGo _ => true
  | .remapGranuleMove _ _ => true
  | .pstate _ _ => true
  | .clockChangeDone _ => true
  | .qpark _ _ => true
  | .quadWakeDone _ _ => true
  | .powerCapThrottle _ => true
  | .pthrotClear _ => true
  | .tlostClear _ => true
  | .tbase _ _ => true
  | .thermalAlert _ _ _ => true
  | .thermalTrip _ _ _ => true
  | .tripClear _ => true
  | .retentionLimit _ _ => true
  | .valveAdjust _ _ _ _ _ => true
  | .hbeacon _ => true
  | .fabricLinkUp _ _ _ => true
  | .registerWrite _ _ => true
  | .fabricLinkDown _ _ => true
  | .preemptedRecordPush _ => true
  | .weightWindowOpen _ _ => true
  | .weightWindowClose _ => true
  | .domainCreate _ => true
  | .domainDestroy _ => true
  | .supervisorEndsWorkgroup _ _ _ _ => true

end Sys2Proof
end

