-- ==== Sys2Proof/Decode.lean ====
section
/-! DEFINITION. The bit fields of a word, the decoder of a word with the payload of its prefix word (R33 to R52), and the
encoder written from the same formats. -/

namespace Sys2Proof

/-! ### Fields (R35) -/

/-- Bits 31:24: the form and the major opcode (R33). -/
def fop (w : Word) : BitVec 8 := w.extractLsb' 24 8
/-- Bits 23:16. -/
def fd (w : Word) : BitVec 8 := w.extractLsb' 16 8
/-- Bits 15:8. -/
def fa (w : Word) : BitVec 8 := w.extractLsb' 8 8
/-- Bits 7:0. -/
def fb (w : Word) : BitVec 8 := w.extractLsb' 0 8
/-- Bits 15:0. -/
def f16 (w : Word) : BitVec 16 := w.extractLsb' 0 16
/-- Bits 23:0. -/
def f24 (w : Word) : BitVec 24 := w.extractLsb' 0 24
/-- Bits 19:0. -/
def f20 (w : Word) : BitVec 20 := w.extractLsb' 0 20
/-- Bits 11:0. -/
def f12 (w : Word) : BitVec 12 := w.extractLsb' 0 12
/-- Bits 20:16, the zero field of FIBRE and QUEUE. -/
def fz5 (w : Word) : BitVec 5 := w.extractLsb' 16 5
/-- The set field at bits 23:20. -/
def fS20 (w : Word) : Fin 16 := (w.extractLsb' 20 4).toFin
/-- The set field at bits 19:16. -/
def fS16 (w : Word) : Fin 16 := (w.extractLsb' 16 4).toFin
/-- The set field at bits 15:12. -/
def fS12 (w : Word) : Fin 16 := (w.extractLsb' 12 4).toFin
/-- The fibre or queue field at bits 23:21. -/
def fF (w : Word) : Fin 8 := (w.extractLsb' 21 3).toFin
/-- The tile field at bits 15:13. -/
def fTile (w : Word) : Fin 8 := (w.extractLsb' 13 3).toFin
/-- The offset field at bits 5:0. -/
def fImm6 (w : Word) : Fin 64 := (w.extractLsb' 0 6).toFin
/-- A 6-bit threshold of WAITC. -/
def fin6 (w : Word) (lo : Nat) : Fin 64 := (w.extractLsb' lo 6).toFin
/-- The low 4 bits of a field. -/
def fin4 (b : BitVec 8) : Fin 16 := (b.extractLsb' 0 4).toFin
/-- The low 3 bits of a field. -/
def fin3 (b : BitVec 8) : Fin 8 := (b.extractLsb' 0 3).toFin
/-- The low bit of a field. -/
def fin2 (b : BitVec 8) : Fin 2 := (b.extractLsb' 0 1).toFin

/-- Sign extension of an offset field to an integer (R9). -/
def sextInt (x : BitVec n) : Int := x.toInt

/-! ### Words from fields (R35) -/

/-- TRI and PAIR: three byte fields. -/
def mkTri (op d a b : BitVec 8) : Word := op ++ d ++ a ++ b
/-- WIDE and BRANCH: a byte field and 16 bits. -/
def mkWide (op d : BitVec 8) (i : BitVec 16) : Word := op ++ d ++ i
/-- JUMP, NONE and PREFIX: 24 bits. -/
def mkJump (op : BitVec 8) (off : BitVec 24) : Word := op ++ off
/-- A 4-bit set field. -/
def set4 (x : Fin 16) : BitVec 4 := BitVec.ofFin x
/-- SETBR. -/
def mkSetbr (op : BitVec 8) (st : Fin 16) (off : BitVec 20) : Word := op ++ set4 st ++ off
/-- SETOP. -/
def mkSetop (op : BitVec 8) (sd sa sb : Fin 16) : Word := op ++ set4 sd ++ set4 sa ++ set4 sb ++ 0#12
/-- SPLIT. -/
def mkSplit (op : BitVec 8) (st sf : Fin 16) (a b : BitVec 8) : Word := op ++ set4 st ++ set4 sf ++ a ++ b
/-- SETV. -/
def mkSetv (op d : BitVec 8) (st : Fin 16) : Word := op ++ d ++ set4 st ++ 0#12
/-- CTRL. -/
def mkCtrl (op x : BitVec 8) (csr : BitVec 12) : Word := op ++ x ++ 0#4 ++ csr
/-- FIBRE and QUEUE. -/
def mkFibre (op : BitVec 8) (f : Fin 8) (a b : BitVec 8) : Word := op ++ BitVec.ofFin (w := 3) f ++ 0#5 ++ a ++ b
/-- SLICE. -/
def mkSlice (op d : BitVec 8) (tile : Fin 8) (col : Bool) (gx : Fin 48) (imm6 : Fin 64) : Word :=
  op ++ d ++ BitVec.ofFin (w := 3) tile ++ BitVec.ofBool col ++ BitVec.ofNat 6 gx.val ++ BitVec.ofFin (w := 6) imm6
/-- WAIT. -/
def mkWait (op : BitVec 8) (ld st cp tl : Fin 64) : Word :=
  op ++ BitVec.ofFin (w := 6) ld ++ BitVec.ofFin (w := 6) st ++ BitVec.ofFin (w := 6) cp ++ BitVec.ofFin (w := 6) tl

/-! ### Codes (R39, R41, R45 to R47) -/

/-- The scope code (R47). -/
def Scope.code : Scope → BitVec 3
  | .core => 0
  | .quad => 1
  | .die => 2
  | .pkg => 3
  | .pod => 4

/-- The scope a code names (R47). -/
def Scope.of : BitVec 3 → Option Scope
  | 0 => some .core
  | 1 => some .quad
  | 2 => some .die
  | 3 => some .pkg
  | 4 => some .pod
  | _ => none

/-- The order code (R39). -/
def Order.code : Order → BitVec 2
  | .relaxed => 0
  | .acq => 1
  | .rel => 2
  | .ar => 3

/-- The order a code names (R39). -/
def Order.of : BitVec 2 → Order
  | 0 => .relaxed
  | 1 => .acq
  | 2 => .rel
  | _ => .ar

/-- The cache code (R39). -/
def Cache.code : Cache → BitVec 2
  | .dflt => 0
  | .cs => 1
  | .cv => 2

/-- The cache modifier a code names (R39). -/
def Cache.of : BitVec 2 → Option Cache
  | 0 => some .dflt
  | 1 => some .cs
  | 2 => some .cv
  | _ => none

/-- The size code (R39). -/
def Size.code : Size → BitVec 3
  | .b8 => 0
  | .b16 => 1
  | .b32 => 2
  | .b64 => 3
  | .b128 => 4

/-- The size a code names (R39). -/
def Size.of : BitVec 3 → Option Size
  | 0 => some .b8
  | 1 => some .b16
  | 2 => some .b32
  | 3 => some .b64
  | 4 => some .b128
  | _ => none

/-- The width code (R39). -/
def Width.code : Width → BitVec 24
  | .w2 => 1
  | .w4 => 2
  | .w8 => 3
  | .w16 => 4
  | .w32 => 5

/-- The width a payload names (R39). -/
def Width.of : BitVec 24 → Option Width
  | 1 => some .w2
  | 2 => some .w4
  | 3 => some .w8
  | 4 => some .w16
  | 5 => some .w32
  | _ => none

/-- The operation code of REDUX and SCAN (R45). -/
def RedOp.code : RedOp → BitVec 8
  | .add => 0
  | .min => 1
  | .max => 2
  | .minn => 3
  | .maxn => 4
  | .and => 5
  | .or => 6
  | .xor => 7
  | .fadd => 8
  | .fmin => 9
  | .fmax => 10

/-- The operation code of ATOM (R46). -/
def AtomOp.code : AtomOp → BitVec 8
  | .add => 1
  | .and => 2
  | .or => 3
  | .xor => 4
  | .min => 5
  | .max => 6
  | .minn => 7
  | .maxn => 8
  | .xchg => 9
  | .cas => 10
  | .incw => 11
  | .decw => 12
  | .fadd => 16
  | .fmin => 17
  | .fmax => 18

/-- The condition code of STEST (R41). -/
def Cond.code : Cond → BitVec 8
  | .eq => 0
  | .ne => 1
  | .lt => 2
  | .ge => 3
  | .ltn => 4
  | .gen => 5
  | .flt => 6
  | .fge => 7
  | .feq => 8
  | .fne => 9
  | .fun_ => 10
  | .tst => 11
  | .ntst => 12

/-- The kind code of FENCE (R47). -/
def FenceKind.code : FenceKind → BitVec 2
  | .none => 0
  | .acq => 1
  | .rel => 2
  | .ar => 3

/-- The kind a FENCE code names (R47). -/
def FenceKind.of : BitVec 2 → FenceKind
  | 0 => .none
  | 1 => .acq
  | 2 => .rel
  | _ => .ar

/-- The M payload (R39). -/
def Mods.payload (m : Mods) : BitVec 24 :=
  0#11 ++ BitVec.ofBool m.noret ++ m.cache.code ++ BitVec.ofBool m.rp ++ m.order.code ++ m.scope.code ++
    BitVec.ofBool m.sign ++ m.size.code

/-- The modifiers of an M payload whose fields name them (R39). -/
def Mods.of (p : BitVec 24) : Option Mods :=
  if p.extractLsb' 13 11 = 0 then
    match Cache.of (p.extractLsb' 10 2), Scope.of (p.extractLsb' 4 3), Size.of (p.extractLsb' 0 3) with
    | some c, some sc, some sz => some
        { noret := p.getLsbD 12
          cache := c
          rp := p.getLsbD 9
          order := Order.of (p.extractLsb' 7 2)
          scope := sc
          sign := p.getLsbD 3
          size := sz }
    | _, _, _ => none
  else none

/-! ### The decoder -/

/-- The register a number names (R22). -/
def Reg.ofNum (n : BitVec 8) : Option Reg :=
  if h : n.toNat < 192 then some (.v ⟨n.toNat, h⟩)
  else if h : n.toNat - 192 < 48 then some (.g ⟨n.toNat - 192, h⟩)
  else if h : n.toNat - 240 < 8 then some (.q ⟨n.toNat - 240, h⟩)
  else match n.toNat with
    | 248 => some .zero
    | 249 => some .laneid
    | 250 => some .warpix
    | 251 => some .wgid
    | 252 => some .coreix
    | 253 => some .vaultix
    | 254 => some .cyc
    | _ => none

/-- What the decoder answers: the instruction, or the cause of R52. -/
abbrev Dec := Except Cause Instr

/-- A prefix word in front of a word whose class takes none (R40). -/
def noPfx (p : Option (BitVec 24)) (k : Dec) : Dec :=
  match p with
  | none => k
  | some _ => .error .illegalPfx

/-- A defect of a field (R52 order 3). -/
def zeros (ok : Bool) (k : Dec) : Dec := if ok then k else .error .illegalField

/-- A defect of an operand's kind (R52 order 4). -/
def kind (ok : Bool) (k : Dec) : Dec := if ok then k else .error .illegalOperand

/-- A field that names a register. -/
def regOf (n : BitVec 8) (k : Reg → Dec) : Dec :=
  match Reg.ofNum n with
  | some r => k r
  | none => .error .illegalOperand

/-- An L-form destination. -/
def laneDst (n : BitVec 8) (k : Reg → Dec) : Dec := regOf n fun r => kind r.isLaneDst (k r)
/-- An L-form source. -/
def laneSrc (n : BitVec 8) (k : Reg → Dec) : Dec := regOf n k
/-- A G-form source. -/
def uniSrc (n : BitVec 8) (k : Reg → Dec) : Dec := regOf n fun r => kind r.isUniSrc (k r)
/-- A G-form destination. -/
def uniDst (n : BitVec 8) (k : Reg → Dec) : Dec := regOf n fun r => kind r.isUniDst (k r)
/-- An L-form address pair. -/
def addr (n : BitVec 8) (k : Reg → Dec) : Dec := regOf n fun r => kind r.isAddr (k r)
/-- The data operand of a lane access. -/
def laneData (dst : Bool) (n : BitVec 8) (sz : Size) (k : Reg → Dec) : Dec :=
  regOf n fun r => kind (r.isLaneData dst sz) (k r)
/-- The data operand of LDAS and STS. -/
def stampData (dst : Bool) (n : BitVec 8) (sz : Size) (k : Reg → Dec) : Dec :=
  regOf n fun r => kind (r.isStampData dst sz) (k r)
/-- The data operand of a uniform access. -/
def uniData (dst : Bool) (n : BitVec 8) (sz : Size) (k : Reg → Dec) : Dec :=
  regOf n fun r => kind (r.isUniData dst sz) (k r)
/-- A lane register. -/
def vReg (n : BitVec 8) (k : Fin 192 → Dec) : Dec :=
  match Reg.ofNum n with
  | some (.v i) => k i
  | _ => .error .illegalOperand
/-- A uniform register 192 to 239. -/
def gReg (n : BitVec 8) (k : Fin 48 → Dec) : Dec :=
  match Reg.ofNum n with
  | some (.g i) => k i
  | _ => .error .illegalOperand
/-- A uniform pair. -/
def gPair (n : BitVec 8) (k : Fin 48 → Dec) : Dec := gReg n fun i => kind (evenG i) (k i)
/-- A uniform quadruple, 192 + 4k. -/
def gQuad (n : BitVec 8) (k : Fin 12 → Dec) : Dec :=
  gReg n fun i => if i.val % 4 = 0 then k ⟨i.val / 4, by omega⟩ else .error .illegalOperand
/-- The number of a uniform quadruple. -/
def quadNum (d : Fin 12) : BitVec 8 := BitVec.ofNat 8 (192 + 4 * d.val)
/-- The index register of a SLICE word: 48 to 63 name none. -/
def gx6 (w : Word) (k : Fin 48 → Dec) : Dec :=
  if h : (w.extractLsb' 6 6).toNat < 48 then k ⟨(w.extractLsb' 6 6).toNat, h⟩ else .error .illegalOperand

/-- A one-bit prefix payload: classes S, T and V (R39). -/
def bitPfx (p : Option (BitVec 24)) (k : Option Bool → Dec) : Dec :=
  match p with
  | none => k none
  | some x => if x.toNat < 2 then k (some (x.getLsbD 0)) else .error .illegalPfx

/-- A class W payload. -/
def widthPfx (p : Option (BitVec 24)) (k : Option Width → Dec) : Dec :=
  match p with
  | none => k none
  | some x => match Width.of x with
    | some wd => k (some wd)
    | none => .error .illegalPfx

/-- A class C payload. -/
def scopePfx (p : Option (BitVec 24)) (k : Option Scope → Dec) : Dec :=
  match p with
  | none => k none
  | some x =>
    if x.extractLsb' 3 21 = 0 then
      match Scope.of (x.extractLsb' 0 3) with
      | some sc => k (some sc)
      | none => .error .illegalPfx
    else .error .illegalPfx

/-- The footprint of a class A payload. -/
def Footprint.of (x : BitVec 24) : Footprint :=
  { base := x.extractLsb' 0 8, nin := x.extractLsb' 8 8, nout := x.extractLsb' 16 8 }

/-- A class A payload. -/
def fpPfx (p : Option (BitVec 24)) (k : Option Footprint → Dec) : Dec :=
  match p with
  | none => k none
  | some x => if (Footprint.of x).ok then k (some (Footprint.of x)) else .error .illegalPfx

/-- A class M payload under an instruction's own rules. -/
def modsPfx (own : Mods → Bool) (p : Option (BitVec 24)) (k : Option Mods → Dec) : Dec :=
  match p with
  | none => k none
  | some x => match Mods.of x with
    | some m => if m.layoutOk && own m then k (some m) else .error .illegalPfx
    | none => .error .illegalPfx

/-- A class I TRI word of the L-form map. -/
def decTriL (packed : Bool) (p : Option (BitVec 24)) (w : Word) (c : Reg → Reg → Src → Instr) : Dec :=
  match p with
  | some x =>
    if fb w = 255 && (Src.imm x).fits packed then
      laneDst (fd w) fun d => laneSrc (fa w) fun a => .ok (c d a (.imm x))
    else .error .illegalPfx
  | none => laneDst (fd w) fun d => laneSrc (fa w) fun a => laneSrc (fb w) fun b => .ok (c d a (.reg b))

/-- A class I TRI word of the G-form map. -/
def decTriG (p : Option (BitVec 24)) (w : Word) (c : Reg → Reg → Src → Instr) : Dec :=
  match p with
  | some x =>
    if fb w = 255 then uniDst (fd w) fun d => uniSrc (fa w) fun a => .ok (c d a (.imm x))
    else .error .illegalPfx
  | none => uniDst (fd w) fun d => uniSrc (fa w) fun a => uniSrc (fb w) fun b => .ok (c d a (.reg b))

/-- A one-source TRI word of the L-form map: b is zero. -/
def decUnL (p : Option (BitVec 24)) (w : Word) (c : Reg → Reg → Instr) : Dec :=
  noPfx p (zeros (fb w = 0) (laneDst (fd w) fun d => laneSrc (fa w) fun a => .ok (c d a)))

/-- The signed immediate of a PAIR word (R37). -/
def immOf (p : Option (BitVec 24)) (i8 : BitVec 8) : Imm8 :=
  match p with
  | none => .short i8
  | some x => .long x i8

/-- ADDI. -/
def decImmL (p : Option (BitVec 24)) (w : Word) (c : Reg → Reg → Imm8 → Instr) : Dec :=
  laneDst (fd w) fun d => laneSrc (fa w) fun a => .ok (c d a (immOf p (fb w)))

/-- GADDI. -/
def decImmG (p : Option (BitVec 24)) (w : Word) (c : Reg → Reg → Imm8 → Instr) : Dec :=
  uniDst (fd w) fun d => uniSrc (fa w) fun a => .ok (c d a (immOf p (fb w)))

/-- A PAIR word of the L-form map whose code is at most `top` (R44). -/
def decCodeL (top : Nat) (p : Option (BitVec 24)) (w : Word) (c : Reg → Reg → BitVec 8 → Instr) : Dec :=
  noPfx p (zeros (decide ((fb w).toNat ≤ top)) (laneDst (fd w) fun d => laneSrc (fa w) fun a => .ok (c d a (fb w))))

/-- MOVI and MOVHI. -/
def decWideL (p : Option (BitVec 24)) (w : Word) (c : Reg → BitVec 16 → Instr) : Dec :=
  noPfx p (laneDst (fd w) fun d => .ok (c d (f16 w)))

/-- STEST (R315). -/
def decStest (p : Option (BitVec 24)) (w : Word) (c : Cond) : Dec :=
  match p with
  | some x =>
    if fb w = 255 then
      kind (decide (fS20 w ≠ fS16 w)) (laneSrc (fa w) fun a => .ok (.stest c (fS20 w) (fS16 w) a (.imm x)))
    else .error .illegalPfx
  | none => kind (decide (fS20 w ≠ fS16 w)) (laneSrc (fa w) fun a => laneSrc (fb w) fun b =>
      .ok (.stest c (fS20 w) (fS16 w) a (.reg b)))

/-- The operation of REDUX and SCAN (R45). -/
def redop (code : BitVec 8) (k : RedOp → Dec) : Dec :=
  match code.toNat with
  | 0 => k .add
  | 1 => k .min
  | 2 => k .max
  | 3 => k .minn
  | 4 => k .maxn
  | 5 => k .and
  | 6 => k .or
  | 7 => k .xor
  | 8 => k .fadd
  | 9 => k .fmin
  | 10 => k .fmax
  | _ => .error .illegalField

/-- The operation of ATOM at a size (R46). -/
def atomop (code : BitVec 8) (sz : Size) (k : AtomOp → Dec) : Dec :=
  match code.toNat with
  | 1 => zeros (AtomOp.sizeOk .add sz) (k .add)
  | 2 => zeros (AtomOp.sizeOk .and sz) (k .and)
  | 3 => zeros (AtomOp.sizeOk .or sz) (k .or)
  | 4 => zeros (AtomOp.sizeOk .xor sz) (k .xor)
  | 5 => zeros (AtomOp.sizeOk .min sz) (k .min)
  | 6 => zeros (AtomOp.sizeOk .max sz) (k .max)
  | 7 => zeros (AtomOp.sizeOk .minn sz) (k .minn)
  | 8 => zeros (AtomOp.sizeOk .maxn sz) (k .maxn)
  | 9 => zeros (AtomOp.sizeOk .xchg sz) (k .xchg)
  | 10 => zeros (AtomOp.sizeOk .cas sz) (k .cas)
  | 11 => zeros (AtomOp.sizeOk .incw sz) (k .incw)
  | 12 => zeros (AtomOp.sizeOk .decw sz) (k .decw)
  | 16 => zeros (AtomOp.sizeOk .fadd sz) (k .fadd)
  | 17 => zeros (AtomOp.sizeOk .fmin sz) (k .fmin)
  | 18 => zeros (AtomOp.sizeOk .fmax sz) (k .fmax)
  | _ => .error .illegalField

/-- The control register a number names (R346). -/
def csrOf (n : BitVec 12) (k : Csr → Dec) : Dec :=
  match n.toNat with
  | 0 => k .round
  | 1 => k .tvec
  | 2 => k .cause
  | 3 => k .epc
  | 4 => k .ftab
  | 5 => k .ftabhi
  | 6 => k .applystk
  | 7 => k .priv
  | 8 => k .vault
  | 9 => k .pd
  | 10 => k .events
  | 11 => k .tcmp
  | 12 => k .tcmphi
  | 13 => k .laststamp
  | 14 => k .laststamphi
  | 15 => k .region
  | 16 => k .region2
  | 17 => k .dmode
  | 18 => k .clkw
  | 19 => k .wrefresh
  | 20 => k .swapwait
  | 21 => k .tmode
  | 22 => k .tscale
  | 256 => k .svec
  | 257 => k .scause
  | 258 => k .sepc
  | 259 => k .ptbase
  | 260 => k .ptbasehi
  | 261 => k .hptbase
  | 262 => k .hptbasehi
  | 263 => k .vwbase
  | 264 => k .vwbasehi
  | 265 => k .sdom
  | 266 => k .toffset
  | 267 => k .toffsethi
  | _ => .error .illegalField

/-- The fields of FENCE (R47). -/
def fenceFields (w : Word) (c : Scope → FenceKind → Bool → Instr) : Dec :=
  if w.extractLsb' 0 18 = 0 then
    match Scope.of (w.extractLsb' 21 3) with
    | some sc =>
      zeros (fenceOk sc (FenceKind.of (w.extractLsb' 19 2)) (w.getLsbD 18))
        (.ok (c sc (FenceKind.of (w.extractLsb' 19 2)) (w.getLsbD 18)))
    | none => .error .illegalField
  else .error .illegalField

/-- The operations of LOGCTL (R371). -/
def logctl (w : Word) : Dec :=
  match (fb w).toNat with
  | 0 => uniSrc (fa w) fun a => .ok (.logctlOff a)
  | 1 => uniSrc (fa w) fun a => .ok (.logctlRecord a)
  | 2 => uniSrc (fa w) fun a => .ok (.logctlReplay a)
  | 3 => regOf (fa w) fun a => kind a.isLogDst (.ok (.logctlReadPosition a))
  | _ => .error .illegalField

/-- The instruction of a word, with the payload of the prefix word in front of it if there is one; otherwise the first
cause of R52 that the words alone decide. -/
def decode (p : Option (BitVec 24)) (w : Word) : Dec :=
  match (fop w).toNat with
  | 1 => decTriL false p w .add
  | 2 => decTriL false p w .sub
  | 3 => decTriL false p w .mul
  | 4 => decTriL false p w .mulhi
  | 5 => decTriL false p w .mulhn
  | 6 => decTriL false p w .mad
  | 7 => decTriL false p w .min
  | 8 => decTriL false p w .max
  | 9 => decTriL false p w .minn
  | 10 => decTriL false p w .maxn
  | 11 => decUnL p w .abs
  | 12 => decTriL false p w .and
  | 13 => decTriL false p w .or
  | 14 => decTriL false p w .xor
  | 15 => decTriL false p w .andn
  | 16 => decTriL false p w .shl
  | 17 => decTriL false p w .shr
  | 18 => decTriL false p w .sar
  | 19 => decTriL false p w .rotl
  | 20 => decUnL p w .clz
  | 21 => decUnL p w .popc
  | 22 => decUnL p w .brev
  | 23 => decTriL false p w .bfx
  | 24 => decTriL false p w .bfi
  | 25 => decImmL p w .addi
  | 26 => decCodeL 31 p w .shli
  | 27 => decCodeL 31 p w .shri
  | 28 => decCodeL 31 p w .sari
  | 29 => decWideL p w .movi
  | 30 => decWideL p w .movhi
  | 31 => decUnL p w .mov
  | 32 => noPfx p (zeros (f12 w = 0) (laneDst (fd w) fun d => .ok (.setv d (fS12 w))))
  | 36 => decTriL false p w .fadd
  | 37 => decTriL false p w .fsub
  | 38 => decTriL false p w .fmul
  | 39 => decTriL false p w .ffma
  | 40 => decTriL false p w .fmin
  | 41 => decTriL false p w .fmax
  | 42 => decUnL p w .fabs
  | 43 => decUnL p w .fneg
  | 44 => decUnL p w .frcp
  | 45 => decUnL p w .frsq
  | 46 => decUnL p w .fsqrt
  | 47 => decTriL false p w .fdiv
  | 48 => decUnL p w .fexp2
  | 49 => decUnL p w .flog2
  | 50 => decUnL p w .fsinp
  | 51 => decUnL p w .fcosp
  | 52 => decUnL p w .ftanh
  | 53 => decCodeL 4 p w .frnd
  | 56 => decTriL true p w .hadd2b
  | 57 => decTriL true p w .hmul2b
  | 58 => decTriL true p w .hfma2b
  | 59 => decTriL true p w .hadd2h
  | 60 => decTriL true p w .hmul2h
  | 61 => decTriL true p w .hfma2h
  | 64 => bitPfx p fun sat => zeros (cvtLegal (fb w)) (laneDst (fd w) fun d => laneSrc (fa w) fun a => kind (cvtSide d ((fb w).toNat / 16) && cvtSide a ((fb w).toNat % 16)) (.ok (.cvt d a (fb w) sat)))
  | 65 => noPfx p (zeros (decide ((fb w).toNat < 4)) (laneDst (fd w) fun d => laneSrc (fa w) fun a => kind (decide (2 ≤ (fb w).toNat) || d.isV 2) (.ok (.xpnd d a (fb w)))))
  | 66 => bitPfx p fun sat => zeros (decide ((fb w).toNat < 4)) (laneDst (fd w) fun d => laneSrc (fa w) fun a => kind (a.isV (if (fb w).toNat < 2 then 2 else 4)) (.ok (.pack d a (fb w) sat)))
  | 67 => bitPfx p fun sat => zeros (decide ((fb w).toNat < 3)) (laneDst (fd w) fun d => laneSrc (fa w) fun a => kind (d.isV 2) (.ok (.qscale d a (fb w) sat)))
  | 68 => noPfx p (laneDst (fd w) fun d => laneSrc (fa w) fun a => laneSrc (fb w) fun b => .ok (.bcmp d a b))
  | 69 => decUnL p w .bzero
  | 70 => noPfx p (laneDst (fd w) fun d => laneSrc (fa w) fun a => laneSrc (fb w) fun b => .ok (.crc32c d a b))
  | 71 => noPfx p (laneDst (fd w) fun d => laneSrc (fa w) fun a => laneSrc (fb w) fun b => .ok (.hmix d a b))
  | 72 => noPfx p (vReg (fd w) fun d => gReg (fa w) fun gx => .ok (.movxr (.v d) gx (fb w)))
  | 73 => noPfx p (vReg (fd w) fun d => gReg (fa w) fun gx => .ok (.movxw (.v d) gx (fb w)))
  | 80 => widthPfx p fun wd => laneDst (fd w) fun d => laneSrc (fa w) fun a => laneSrc (fb w) fun b => .ok (.shfl d a b wd)
  | 81 => widthPfx p fun wd => zeros (decide ((fb w).toNat < 32)) (laneDst (fd w) fun d => laneSrc (fa w) fun a => .ok (.shflup d a (fb w) wd))
  | 82 => widthPfx p fun wd => zeros (decide ((fb w).toNat < 32)) (laneDst (fd w) fun d => laneSrc (fa w) fun a => .ok (.shfldn d a (fb w) wd))
  | 83 => widthPfx p fun wd => zeros (decide ((fb w).toNat < 32)) (laneDst (fd w) fun d => laneSrc (fa w) fun a => .ok (.shflx d a (fb w) wd))
  | 84 => noPfx p (redop (fb w) fun op => laneDst (fd w) fun d => laneSrc (fa w) fun a => .ok (.redux d a op))
  | 85 => noPfx p (redop (fb w &&& 0x7F#8) fun op => laneDst (fd w) fun d => laneSrc (fa w) fun a => .ok (.scan d a op ((fb w).getLsbD 7)))
  | 96 => decStest p w .eq
  | 97 => decStest p w .ne
  | 98 => decStest p w .lt
  | 99 => decStest p w .ge
  | 100 => decStest p w .ltn
  | 101 => decStest p w .gen
  | 102 => decStest p w .flt
  | 103 => decStest p w .fge
  | 104 => decStest p w .feq
  | 105 => decStest p w .fne
  | 106 => decStest p w .fun_
  | 107 => decStest p w .tst
  | 108 => decStest p w .ntst
  | 112 => modsPfx (loadMods true) p fun m => laneData true (fd w) (sizeOf m) fun d => addr (fa w) fun a => .ok (.ld d a (fb w) m)
  | 113 => modsPfx (storeMods true) p fun m => laneData false (fd w) (sizeOf m) fun d => addr (fa w) fun a => .ok (.st d a (fb w) m)
  | 114 => modsPfx atomMods p fun m => atomop (fb w) (sizeOf m) fun op => laneDst (fd w) fun d => kind (d.isV (op.regs (sizeOf m))) (addr (fa w) fun a => .ok (.atom op d a m))
  | 115 => modsPfx stampMods p fun m => stampData true (fd w) (sizeOf m) fun d => addr (fa w) fun a => regOf (fb w) fun b => kind b.isUPair (.ok (.ldas d a b m))
  | 116 => modsPfx stampMods p fun m => stampData false (fd w) (sizeOf m) fun d => addr (fa w) fun a => regOf (fb w) fun b => kind b.isUPair (.ok (.sts d a b m))
  | 117 => modsPfx (loadMods false) p fun m => laneData true (fd w) (sizeOf m) fun d => addr (fa w) fun a => .ok (.poll d a (fb w) m)
  | 118 => noPfx p (zeros (fz5 w = 0 && fb w = 0) (laneDst (fa w) fun d => .ok (.fgetc (fF w) d)))
  | 119 => noPfx p (zeros (fz5 w = 0 && fb w = 0) (laneDst (fa w) fun d => .ok (.fgetv (fF w) d)))
  | 120 => bitPfx p fun hi => regOf (fd w) fun d => kind (d.isV 4) (gx6 w fun gx => .ok (.trd d (fTile w) (w.getLsbD 12) gx (fImm6 w) hi))
  | 121 => bitPfx p fun hi => regOf (fd w) fun d => kind (d.isV 4) (gx6 w fun gx => .ok (.twr d (fTile w) (w.getLsbD 12) gx (fImm6 w) hi))
  | 122 => bitPfx p fun hi => regOf (fd w) fun d => kind (d.isV 4) (gx6 w fun gx => .ok (.tacc d (fTile w) (w.getLsbD 12) gx (fImm6 w) hi))
  | 129 => decTriG p w .gadd
  | 130 => decTriG p w .gsub
  | 131 => decTriG p w .gmul
  | 132 => decTriG p w .gand
  | 133 => decTriG p w .gor
  | 134 => decTriG p w .gxor
  | 135 => decTriG p w .gshl
  | 136 => decTriG p w .gshr
  | 137 => decTriG p w .gsar
  | 138 => decTriG p w .gmin
  | 139 => decTriG p w .gmax
  | 140 => decImmG p w .gaddi
  | 141 => noPfx p (uniDst (fd w) fun d => .ok (.gmovi d (f16 w)))
  | 142 => noPfx p (uniDst (fd w) fun d => .ok (.gmovhi d (f16 w)))
  | 143 => noPfx p (zeros (fb w = 0) (uniDst (fd w) fun d => uniSrc (fa w) fun a => .ok (.gmov d a)))
  | 144 => noPfx p (uniDst (fd w) fun d => vReg (fa w) fun a => uniSrc (fb w) fun b => .ok (.grdl d a b))
  | 145 => decTriG p w .gslt
  | 146 => decTriG p w .gsltn
  | 147 => decTriG p w .gseq
  | 148 => modsPfx (loadMods false) p fun m => uniData true (fd w) (sizeOf m) fun d => regOf (fa w) fun a => kind a.isUPair (.ok (.gld d a (fb w) m))
  | 149 => modsPfx (storeMods false) p fun m => uniData false (fd w) (sizeOf m) fun d => regOf (fa w) fun a => kind a.isUPair (.ok (.gst d a (fb w) m))
  | 152 => noPfx p (.ok (.br (f24 w)))
  | 153 => noPfx p (gReg (fd w) fun a => .ok (.brz a (f16 w)))
  | 154 => noPfx p (gReg (fd w) fun a => .ok (.brnz a (f16 w)))
  | 155 => noPfx p (.ok (.brse (fS20 w) (f20 w)))
  | 156 => noPfx p (.ok (.brsne (fS20 w) (f20 w)))
  | 157 => noPfx p (.ok (.call (f24 w)))
  | 158 => noPfx p (zeros (fd w = 0 && fb w = 0) (uniSrc (fa w) fun a => .ok (.callr a)))
  | 159 => noPfx p (zeros (fd w = 0 && fb w = 0) (uniSrc (fa w) fun a => .ok (.ret a)))
  | 160 => noPfx p (zeros (fd w = 0 && fb w = 0) (uniSrc (fa w) fun a => .ok (.jmpr a)))
  | 168 => noPfx p (zeros (f12 w = 0) (.ok (.sunion (fS20 w) (fS16 w) (fS12 w))))
  | 169 => noPfx p (zeros (f12 w = 0) (.ok (.sinter (fS20 w) (fS16 w) (fS12 w))))
  | 170 => noPfx p (zeros (f12 w = 0) (.ok (.sdiff (fS20 w) (fS16 w) (fS12 w))))
  | 171 => noPfx p (zeros (f12 w = 0 && fS12 w = 0) (.ok (.smov (fS20 w) (fS16 w))))
  | 172 => noPfx p (zeros (f20 w = 0) (.ok (.sall (fS20 w))))
  | 173 => noPfx p (zeros (f20 w = 0) (.ok (.snone (fS20 w))))
  | 174 => noPfx p (zeros (f12 w = 0) (uniDst (fd w) fun d => .ok (.scount d (fS12 w))))
  | 175 => noPfx p (zeros (f12 w = 0 && fS12 w = 0) (.ok (.sfirst (fS20 w) (fS16 w))))
  | 176 => noPfx p (zeros (fS16 w = 0) (gPair (fa w) fun a => .ok (.sld (fS20 w) a (fb w))))
  | 177 => noPfx p (zeros (fS16 w = 0) (gPair (fa w) fun a => .ok (.sst (fS20 w) a (fb w))))
  | 178 => fpPfx p fun fp => zeros (applyOffOk (f20 w)) (.ok (.apply (fS20 w) (f20 w) fp))
  | 179 => noPfx p (zeros (f24 w = 0) (.ok .aend))
  | 180 => noPfx p (zeros (f12 w = 0) (gPair (fd w) fun d => .ok (.sfromv d (fS12 w))))
  | 181 => noPfx p (zeros (f12 w = 0) (gPair (fd w) fun d => .ok (.stov d (fS12 w))))
  | 182 => noPfx p (zeros (f20 w = 0) (.ok (.sfree (fS20 w))))
  | 184 => noPfx p (zeros (fd w = 0) (gPair (fa w) fun a => uniSrc (fb w) fun b => .ok (.barinit a b)))
  | 185 => noPfx p (zeros (fd w = 0) (gPair (fa w) fun a => uniSrc (fb w) fun b => .ok (.arrive a b)))
  | 186 => bitPfx p fun sw => zeros (fd w = 0) (gPair (fa w) fun a => uniSrc (fb w) fun b => .ok (.waitph a b sw))
  | 187 => noPfx p (fenceFields w .fence)
  | 188 => noPfx p (.ok (.waitc (fin6 w 18) (fin6 w 12) (fin6 w 6) (fin6 w 0)))
  | 189 => noPfx p (zeros (f24 w = 0) (.ok .yield))
  | 192 => scopePfx p fun sc => zeros (fd w = 0 && fb w = 0) (gPair (fa w) fun a => .ok (.copy a sc))
  | 193 => noPfx p (zeros (fd w = 0 && decide ((fb w).toNat < 16)) (gPair (fa w) fun a => .ok (.bindw a (fin4 (fb w)))))
  | 194 => noPfx p (zeros (fd w = 0 && fa w = 0 && decide ((fb w).toNat < 16)) (.ok (.unbindw (fin4 (fb w)))))
  | 195 => scopePfx p fun sc => zeros (fd w = 0 && fb w = 0) (gPair (fa w) fun a => .ok (.vchain a sc))
  | 196 => noPfx p (zeros (fd w = 0 && decide ((fb w).toNat < 2)) (gPair (fa w) fun a => .ok (.loadw a (fin2 (fb w)))))
  | 197 => noPfx p (zeros (fd w = 0 && fb w = 0) (gPair (fa w) fun a => .ok (.mloop a)))
  | 198 => noPfx p (zeros (fd w = 0 && fb w = 0) (gPair (fa w) fun a => .ok (.mmask a)))
  | 199 => bitPfx p fun dis => zeros (fd w = 0 && fa w = 0 && decide ((fb w).toNat < 2)) (.ok (.tcfg (fin2 (fb w)) dis))
  | 200 => noPfx p (zeros (fd w = 0 && fa w = 0 && decide ((fb w).toNat < 16)) (.ok (.tzero (fin4 (fb w)))))
  | 201 => noPfx p (zeros (fd w = 0 && fa w = 0 && decide ((fb w).toNat < 16)) (.ok (.trel (fin4 (fb w)))))
  | 202 => noPfx p (zeros (f24 w = 0) (.ok .rflush))
  | 203 => noPfx p (zeros (fd w = 0) (gPair (fa w) fun a => uniSrc (fb w) fun b => .ok (.cbinit a b)))
  | 204 => bitPfx p fun sw => zeros (fd w = 0) (gPair (fa w) fun a => uniSrc (fb w) fun b => .ok (.cbacq a b sw))
  | 205 => noPfx p (zeros (fd w = 0) (gPair (fa w) fun a => uniSrc (fb w) fun b => .ok (.cbrel a b)))
  | 206 => noPfx p (zeros (fa w = 0 && fb w = 0) (gQuad (fd w) fun d => .ok (.clkiv d)))
  | 208 => noPfx p (zeros (fz5 w = 0) (gPair (fa w) fun a => uniSrc (fb w) fun b => .ok (.fopen (fF w) a b)))
  | 209 => noPfx p (zeros (fz5 w = 0 && fb w = 0) (uniSrc (fa w) fun a => .ok (.fadv (fF w) a)))
  | 210 => noPfx p (zeros (fz5 w = 0 && fa w = 0 && decide ((fb w).toNat < 16)) (.ok (.ftend (fF w) (fin4 (fb w)))))
  | 211 => noPfx p (zeros (fz5 w = 0 && fa w = 0 && fb w = 0) (.ok (.fclose (fF w))))
  | 212 => noPfx p (zeros (fz5 w = 0 && decide ((fa w).toNat < 8) && decide ((fb w).toNat < 8)) (kind (decide (fF w ≠ fin3 (fa w)) && decide (fF w ≠ fin3 (fb w)) && decide (fin3 (fa w) ≠ fin3 (fb w))) (.ok (.fmerge (fF w) (fin3 (fa w)) (fin3 (fb w))))))
  | 213 => noPfx p (zeros (fz5 w = 0 && fb w = 0) (uniSrc (fa w) fun a => .ok (.fseek (fF w) a)))
  | 216 => noPfx p (zeros (fb w = 0) (uniDst (fd w) fun d => gPair (fa w) fun a => .ok (.spawn d a)))
  | 217 => noPfx p (zeros (fb w = 0) (uniDst (fd w) fun d => gPair (fa w) fun a => .ok (.launch d a)))
  | 218 => noPfx p (zeros (f24 w = 0) (.ok .endWarp))
  | 219 => noPfx p (zeros (f24 w = 0) (.ok .exit))
  | 220 => noPfx p (zeros (fd w = 0 && fa w = 0 && decide (1 ≤ (fb w).toNat) && decide ((fb w).toNat ≤ 24)) (.ok (.grow (fb w))))
  | 221 => noPfx p (zeros (fd w = 0 && fa w = 0 && decide (1 ≤ (fb w).toNat) && decide ((fb w).toNat ≤ 24)) (.ok (.shrink (fb w))))
  | 222 => bitPfx p fun sw => zeros (fd w = 0) (gPair (fa w) fun a => uniSrc (fb w) fun b => .ok (.join a b sw))
  | 224 => noPfx p (zeros (fz5 w = 0) (gPair (fa w) fun a => .ok (.ald (fF w) a (fb w))))
  | 232 => noPfx p (zeros (fa w = 0 && fb w = 0) (gPair (fd w) fun d => .ok (.time d)))
  | 233 => noPfx p (zeros (fd w = 0 && decide (f16 w ≠ 0)) (.ok (.enter (f16 w))))
  | 234 => noPfx p (zeros (fd w = 0 && decide (f16 w ≠ 0)) (.ok (.leave (f16 w))))
  | 235 => noPfx p (zeros (fd w = 0) (.ok (.mark (f16 w))))
  | 236 => noPfx p (zeros (fd w = 0) (.ok (.bkpt (f16 w))))
  | 240 => noPfx p (zeros (fS12 w = 0) (csrOf (f12 w) fun c => uniDst (fd w) fun x => .ok (.csrr x c)))
  | 241 => noPfx p (zeros (fS12 w = 0) (csrOf (f12 w) fun c => uniSrc (fd w) fun x => .ok (.csrw x c)))
  | 242 => noPfx p (zeros (fd w = 0) (.ok (.trap (f16 w))))
  | 243 => noPfx p (zeros (fd w = 0) (.ok (.syscall (f16 w))))
  | 244 => noPfx p (zeros (f24 w = 0) (.ok .rte))
  | 245 => noPfx p (zeros (fd w = 0 && fb w = 0) (gPair (fa w) fun a => .ok (.tlbinv a)))
  | 246 => noPfx p (zeros (fd w = 0) (regOf (fa w) fun a => kind a.isUPair (uniSrc (fb w) fun b => .ok (.cflush a b))))
  | 247 => noPfx p (zeros (fd w = 0 && fb w = 0) (uniSrc (fa w) fun a => .ok (.waitev a)))
  | 248 => noPfx p (zeros (fd w = 0) (logctl w))
  | 254 => noPfx p (zeros (f24 w = 0) (.ok .nop))
  | 255 => noPfx p (.ok (.pfx (f24 w)))
  | _ => .error .illegalOp

/-- The byte address a branch word names, from the address of the word itself (R37, R307, R316). -/
def branchTarget (at' : Nat) (off : Int) : Int := (at' : Int) + 4 + 4 * off

/-- A transfer target inside instruction memory (R34). -/
def targetOk (t : Int) : Bool := decide (0 ≤ t) && decide (t < 262144)

/-- The offset a word of the JUMP, BRANCH and SETBR formats carries. -/
def wordOffset (w : Word) : Option Int :=
  match (fop w).toNat with
  | 0x98 | 0x9D => some (f24 w).toInt
  | 0x99 | 0x9A => some (f16 w).toInt
  | 0x9B | 0x9C | 0xB2 => some (f20 w).toInt
  | _ => none

/-- The decoder at an address: a target outside instruction memory is a defect of order 3 and outranks a wrong operand
kind (R34, R52). -/
def decodeAt (at' : Nat) (p : Option (BitVec 24)) (w : Word) : Dec :=
  match decode p w with
  | .error .illegalOperand =>
    match wordOffset w with
    | some off => if targetOk (branchTarget at' off) then .error .illegalOperand else .error .illegalField
    | none => .error .illegalOperand
  | d => d

/-! ### The encoder -/

/-- A TRI word, with the prefix word an immediate second source needs. -/
def encTri (op : BitVec 8) (d a : Reg) (b : Src) : List Word :=
  match b with
  | .reg r => [mkTri op d.num a.num r.num]
  | .imm x => [mkJump 0xFF#8 x, mkTri op d.num a.num 255]

/-- ADDI and GADDI. -/
def encImm (op : BitVec 8) (d a : Reg) (i : Imm8) : List Word :=
  match i with
  | .short i8 => [mkTri op d.num a.num i8]
  | .long x i8 => [mkJump 0xFF#8 x, mkTri op d.num a.num i8]

/-- A word behind a one-bit prefix word. -/
def encBit (op d a b : BitVec 8) (x : Option Bool) : List Word :=
  match x with
  | none => [mkTri op d a b]
  | some y => [mkJump 0xFF#8 (0#23 ++ BitVec.ofBool y), mkTri op d a b]

/-- CVT, PACK and QSCALE. -/
def encOpt (op : BitVec 8) (d a : Reg) (code : BitVec 8) (x : Option Bool) : List Word := encBit op d.num a.num code x

/-- The shuffles. -/
def encWidth (op : BitVec 8) (d a : Reg) (b : BitVec 8) (x : Option Width) : List Word :=
  match x with
  | none => [mkTri op d.num a.num b]
  | some y => [mkJump 0xFF#8 y.code, mkTri op d.num a.num b]

/-- STEST. -/
def encStest (c : Cond) (st sf : Fin 16) (a : Reg) (b : Src) : List Word :=
  match b with
  | .reg r => [mkSplit (0x60#8 + c.code) st sf a.num r.num]
  | .imm x => [mkJump 0xFF#8 x, mkSplit (0x60#8 + c.code) st sf a.num 255]

/-- A memory instruction behind its M prefix word. -/
def encMods (op d a b : BitVec 8) (m : Option Mods) : List Word :=
  match m with
  | none => [mkTri op d a b]
  | some y => [mkJump 0xFF#8 y.payload, mkTri op d a b]

/-- The slice instructions. -/
def encSlice (op : BitVec 8) (d : Reg) (tile : Fin 8) (col : Bool) (gx : Fin 48) (imm6 : Fin 64) (hi : Option Bool) :
    List Word :=
  match hi with
  | none => [mkSlice op d.num tile col gx imm6]
  | some y => [mkJump 0xFF#8 (0#23 ++ BitVec.ofBool y), mkSlice op d.num tile col gx imm6]

/-- SLD and SST. -/
def mkSetmem (op : BitVec 8) (sd : Fin 16) (a : Fin 48) (i8 : BitVec 8) : Word :=
  op ++ set4 sd ++ 0#4 ++ (Reg.g a).num ++ i8

/-- APPLY. -/
def encApply (op : BitVec 8) (st : Fin 16) (off : BitVec 20) (fp : Option Footprint) : List Word :=
  match fp with
  | none => [mkSetbr op st off]
  | some f => [mkJump 0xFF#8 (f.nout ++ f.nin ++ f.base), mkSetbr op st off]

/-- FENCE. -/
def mkFence (op : BitVec 8) (sc : Scope) (k : FenceKind) (hv : Bool) : Word :=
  op ++ sc.code ++ k.code ++ BitVec.ofBool hv ++ 0#18

/-- COPY and VCHAIN. -/
def encScope (op : BitVec 8) (a : Fin 48) (sc : Option Scope) : List Word :=
  match sc with
  | none => [mkTri op 0 (Reg.g a).num 0]
  | some y => [mkJump 0xFF#8 (0#21 ++ y.code), mkTri op 0 (Reg.g a).num 0]

/-- The words of an instruction, its prefix word first where it has one; an event has none (R35 to R51). -/
def encode : Instr → List Word
  | .add d a b => encTri 0x01#8 d a b
  | .sub d a b => encTri 0x02#8 d a b
  | .mul d a b => encTri 0x03#8 d a b
  | .mulhi d a b => encTri 0x04#8 d a b
  | .mulhn d a b => encTri 0x05#8 d a b
  | .mad d a b => encTri 0x06#8 d a b
  | .min d a b => encTri 0x07#8 d a b
  | .max d a b => encTri 0x08#8 d a b
  | .minn d a b => encTri 0x09#8 d a b
  | .maxn d a b => encTri 0x0A#8 d a b
  | .and d a b => encTri 0x0C#8 d a b
  | .or d a b => encTri 0x0D#8 d a b
  | .xor d a b => encTri 0x0E#8 d a b
  | .andn d a b => encTri 0x0F#8 d a b
  | .shl d a b => encTri 0x10#8 d a b
  | .shr d a b => encTri 0x11#8 d a b
  | .sar d a b => encTri 0x12#8 d a b
  | .rotl d a b => encTri 0x13#8 d a b
  | .bfx d a b => encTri 0x17#8 d a b
  | .bfi d a b => encTri 0x18#8 d a b
  | .fadd d a b => encTri 0x24#8 d a b
  | .fsub d a b => encTri 0x25#8 d a b
  | .fmul d a b => encTri 0x26#8 d a b
  | .ffma d a b => encTri 0x27#8 d a b
  | .fmin d a b => encTri 0x28#8 d a b
  | .fmax d a b => encTri 0x29#8 d a b
  | .fdiv d a b => encTri 0x2F#8 d a b
  | .hadd2b d a b => encTri 0x38#8 d a b
  | .hmul2b d a b => encTri 0x39#8 d a b
  | .hfma2b d a b => encTri 0x3A#8 d a b
  | .hadd2h d a b => encTri 0x3B#8 d a b
  | .hmul2h d a b => encTri 0x3C#8 d a b
  | .hfma2h d a b => encTri 0x3D#8 d a b
  | .abs d a => [mkTri 0x0B#8 d.num a.num 0]
  | .clz d a => [mkTri 0x14#8 d.num a.num 0]
  | .popc d a => [mkTri 0x15#8 d.num a.num 0]
  | .brev d a => [mkTri 0x16#8 d.num a.num 0]
  | .mov d a => [mkTri 0x1F#8 d.num a.num 0]
  | .fabs d a => [mkTri 0x2A#8 d.num a.num 0]
  | .fneg d a => [mkTri 0x2B#8 d.num a.num 0]
  | .frcp d a => [mkTri 0x2C#8 d.num a.num 0]
  | .frsq d a => [mkTri 0x2D#8 d.num a.num 0]
  | .fsqrt d a => [mkTri 0x2E#8 d.num a.num 0]
  | .fexp2 d a => [mkTri 0x30#8 d.num a.num 0]
  | .flog2 d a => [mkTri 0x31#8 d.num a.num 0]
  | .fsinp d a => [mkTri 0x32#8 d.num a.num 0]
  | .fcosp d a => [mkTri 0x33#8 d.num a.num 0]
  | .ftanh d a => [mkTri 0x34#8 d.num a.num 0]
  | .bzero d a => [mkTri 0x45#8 d.num a.num 0]
  | .addi d a i => encImm 0x19#8 d a i
  | .shli d a n => [mkTri 0x1A#8 d.num a.num n]
  | .shri d a n => [mkTri 0x1B#8 d.num a.num n]
  | .sari d a n => [mkTri 0x1C#8 d.num a.num n]
  | .frnd d a n => [mkTri 0x35#8 d.num a.num n]
  | .movi d i16 => [mkWide 0x1D#8 d.num i16]
  | .movhi d i16 => [mkWide 0x1E#8 d.num i16]
  | .setv d sx => [mkSetv 0x20#8 d.num sx]
  | .cvt d a code sat => encOpt 0x40#8 d a code sat
  | .pack d a code sat => encOpt 0x42#8 d a code sat
  | .qscale d a code sat => encOpt 0x43#8 d a code sat
  | .xpnd d a code => [mkTri 0x41#8 d.num a.num code]
  | .bcmp d a b => [mkTri 0x44#8 d.num a.num b.num]
  | .crc32c d a b => [mkTri 0x46#8 d.num a.num b.num]
  | .hmix d a b => [mkTri 0x47#8 d.num a.num b.num]
  | .movxr d gx i8 => [mkTri 0x48#8 d.num (Reg.g gx).num i8]
  | .movxw d gx i8 => [mkTri 0x49#8 d.num (Reg.g gx).num i8]
  | .shfl d a b wd => encWidth 0x50#8 d a b.num wd
  | .shflup d a n wd => encWidth 0x51#8 d a n wd
  | .shfldn d a n wd => encWidth 0x52#8 d a n wd
  | .shflx d a n wd => encWidth 0x53#8 d a n wd
  | .redux d a op => [mkTri 0x54#8 d.num a.num op.code]
  | .scan d a op excl => [mkTri 0x55#8 d.num a.num (op.code ||| (if excl then 0x80#8 else 0#8))]
  | .stest c st sf a b => encStest c st sf a b
  | .ld d a i8 m => encMods 0x70#8 d.num a.num i8 m
  | .poll d a i8 m => encMods 0x75#8 d.num a.num i8 m
  | .st d a i8 m => encMods 0x71#8 d.num a.num i8 m
  | .atom op d a m => encMods 0x72#8 d.num a.num op.code m
  | .ldas d a b m => encMods 0x73#8 d.num a.num b.num m
  | .sts d a b m => encMods 0x74#8 d.num a.num b.num m
  | .fgetc f d => [mkFibre 0x76#8 f d.num 0]
  | .fgetv f d => [mkFibre 0x77#8 f d.num 0]
  | .trd d tile col gx imm6 hi => encSlice 0x78#8 d tile col gx imm6 hi
  | .twr d tile col gx imm6 hi => encSlice 0x79#8 d tile col gx imm6 hi
  | .tacc d tile col gx imm6 hi => encSlice 0x7A#8 d tile col gx imm6 hi
  | .gadd d a b => encTri 0x81#8 d a b
  | .gsub d a b => encTri 0x82#8 d a b
  | .gmul d a b => encTri 0x83#8 d a b
  | .gand d a b => encTri 0x84#8 d a b
  | .gor d a b => encTri 0x85#8 d a b
  | .gxor d a b => encTri 0x86#8 d a b
  | .gshl d a b => encTri 0x87#8 d a b
  | .gshr d a b => encTri 0x88#8 d a b
  | .gsar d a b => encTri 0x89#8 d a b
  | .gmin d a b => encTri 0x8A#8 d a b
  | .gmax d a b => encTri 0x8B#8 d a b
  | .gslt d a b => encTri 0x91#8 d a b
  | .gsltn d a b => encTri 0x92#8 d a b
  | .gseq d a b => encTri 0x93#8 d a b
  | .gaddi d a i => encImm 0x8C#8 d a i
  | .gmovi d i16 => [mkWide 0x8D#8 d.num i16]
  | .gmovhi d i16 => [mkWide 0x8E#8 d.num i16]
  | .gmov d a => [mkTri 0x8F#8 d.num a.num 0]
  | .grdl d a b => [mkTri 0x90#8 d.num (Reg.v a).num b.num]
  | .gld d a i8 m => encMods 0x94#8 d.num a.num i8 m
  | .gst d a i8 m => encMods 0x95#8 d.num a.num i8 m
  | .br off => [mkJump 0x98#8 off]
  | .call off => [mkJump 0x9D#8 off]
  | .brz a off => [mkWide 0x99#8 (Reg.g a).num off]
  | .brnz a off => [mkWide 0x9A#8 (Reg.g a).num off]
  | .brse sx off => [mkSetbr 0x9B#8 sx off]
  | .brsne sx off => [mkSetbr 0x9C#8 sx off]
  | .callr a => [mkTri 0x9E#8 0 a.num 0]
  | .ret a => [mkTri 0x9F#8 0 a.num 0]
  | .jmpr a => [mkTri 0xA0#8 0 a.num 0]
  | .sunion sd sa sb => [mkSetop 0xA8#8 sd sa sb]
  | .sinter sd sa sb => [mkSetop 0xA9#8 sd sa sb]
  | .sdiff sd sa sb => [mkSetop 0xAA#8 sd sa sb]
  | .smov sd sa => [mkSetop 0xAB#8 sd sa 0]
  | .sfirst sd sa => [mkSetop 0xAF#8 sd sa 0]
  | .sall sd => [mkSetop 0xAC#8 sd 0 0]
  | .snone sd => [mkSetop 0xAD#8 sd 0 0]
  | .sfree sd => [mkSetop 0xB6#8 sd 0 0]
  | .scount d sx => [mkSetv 0xAE#8 d.num sx]
  | .sfromv d sx => [mkSetv 0xB4#8 (Reg.g d).num sx]
  | .stov d sx => [mkSetv 0xB5#8 (Reg.g d).num sx]
  | .sld sd a i8 => [mkSetmem 0xB0#8 sd a i8]
  | .sst sd a i8 => [mkSetmem 0xB1#8 sd a i8]
  | .apply sx off fp => encApply 0xB2#8 sx off fp
  | .aend => [mkJump 0xB3#8 0]
  | .yield => [mkJump 0xBD#8 0]
  | .endWarp => [mkJump 0xDA#8 0]
  | .exit => [mkJump 0xDB#8 0]
  | .nop => [mkJump 0xFE#8 0]
  | .rte => [mkJump 0xF4#8 0]
  | .rflush => [mkJump 0xCA#8 0]
  | .barinit a b => [mkTri 0xB8#8 0 (Reg.g a).num b.num]
  | .arrive a b => [mkTri 0xB9#8 0 (Reg.g a).num b.num]
  | .cbinit a b => [mkTri 0xCB#8 0 (Reg.g a).num b.num]
  | .cbrel a b => [mkTri 0xCD#8 0 (Reg.g a).num b.num]
  | .waitph a b sw => encBit 0xBA#8 0 (Reg.g a).num b.num sw
  | .join a b sw => encBit 0xDE#8 0 (Reg.g a).num b.num sw
  | .cbacq a b sw => encBit 0xCC#8 0 (Reg.g a).num b.num sw
  | .fence sc kind hv => [mkFence 0xBB#8 sc kind hv]
  | .waitc nl ns np nt => [mkWait 0xBC#8 nl ns np nt]
  | .copy a sc => encScope 0xC0#8 a sc
  | .vchain a sc => encScope 0xC3#8 a sc
  | .bindw a slot => [mkTri 0xC1#8 0 (Reg.g a).num (BitVec.ofNat 8 slot.val)]
  | .unbindw slot => [mkTri 0xC2#8 0 0 (BitVec.ofNat 8 slot.val)]
  | .loadw a latch => [mkTri 0xC4#8 0 (Reg.g a).num (BitVec.ofNat 8 latch.val)]
  | .mloop a => [mkTri 0xC5#8 0 (Reg.g a).num 0]
  | .mmask a => [mkTri 0xC6#8 0 (Reg.g a).num 0]
  | .tcfg cfg dis => encBit 0xC7#8 0 0 (BitVec.ofNat 8 cfg.val) dis
  | .tzero tile => [mkTri 0xC8#8 0 0 (BitVec.ofNat 8 tile.val)]
  | .trel tile => [mkTri 0xC9#8 0 0 (BitVec.ofNat 8 tile.val)]
  | .clkiv d => [mkTri 0xCE#8 (quadNum d) 0 0]
  | .fopen f a b => [mkFibre 0xD0#8 f (Reg.g a).num b.num]
  | .fadv f a => [mkFibre 0xD1#8 f a.num 0]
  | .fseek f a => [mkFibre 0xD5#8 f a.num 0]
  | .ftend f sx => [mkFibre 0xD2#8 f 0 (BitVec.ofNat 8 sx.val)]
  | .fclose f => [mkFibre 0xD3#8 f 0 0]
  | .fmerge f a b => [mkFibre 0xD4#8 f (BitVec.ofNat 8 a.val) (BitVec.ofNat 8 b.val)]
  | .spawn d a => [mkTri 0xD8#8 d.num (Reg.g a).num 0]
  | .launch d a => [mkTri 0xD9#8 d.num (Reg.g a).num 0]
  | .grow n => [mkTri 0xDC#8 0 0 n]
  | .shrink n => [mkTri 0xDD#8 0 0 n]
  | .ald q a i8 => [mkFibre 0xE0#8 q (Reg.g a).num i8]
  | .time d => [mkTri 0xE8#8 (Reg.g d).num 0 0]
  | .enter i16 => [mkWide 0xE9#8 0 i16]
  | .leave i16 => [mkWide 0xEA#8 0 i16]
  | .mark i16 => [mkWide 0xEB#8 0 i16]
  | .bkpt i16 => [mkWide 0xEC#8 0 i16]
  | .trap i16 => [mkWide 0xF2#8 0 i16]
  | .syscall i16 => [mkWide 0xF3#8 0 i16]
  | .csrr x csr => [mkCtrl 0xF0#8 x.num csr.num]
  | .csrw x csr => [mkCtrl 0xF1#8 x.num csr.num]
  | .tlbinv a => [mkTri 0xF5#8 0 (Reg.g a).num 0]
  | .waitev a => [mkTri 0xF7#8 0 a.num 0]
  | .cflush a b => [mkTri 0xF6#8 0 a.num b.num]
  | .logctlOff a => [mkTri 0xF8#8 0 a.num 0]
  | .logctlRecord a => [mkTri 0xF8#8 0 a.num 1]
  | .logctlReplay a => [mkTri 0xF8#8 0 a.num 2]
  | .logctlReadPosition a => [mkTri 0xF8#8 0 a.num 3]
  | .pfx pl => [mkJump 0xFF#8 pl]
  | .illegalWord _ => []
  | .loadReturn _ _ => []
  | .storePerformed _ _ => []
  | .l1LineWriteback _ _ => []
  | .mittenServe _ => []
  | .atomicRequestRepeat _ _ => []
  | .pageWalkComplete _ _ _ _ => []
  | .aldRowReturn _ _ => []
  | .arrayClaimGrant _ => []
  | .arrayStateGiveUp _ => []
  | .loadwComplete _ => []
  | .mloopStep _ => []
  | .mloopComplete _ => []
  | .tzeroComplete _ => []
  | .arrayStreamFault _ => []
  | .arrayOpRestart _ => []
  | .weightBankRefresh _ _ => []
  | .copyGranuleLand _ _ _ _ => []
  | .copyComplete _ _ => []
  | .cbPieceStart _ _ => []
  | .signalCopyStart _ _ => []
  | .remoteLandingAck _ _ _ _ => []
  | .copyFault _ _ _ _ => []
  | .copyRestart _ _ => []
  | .chainComplete _ _ => []
  | .chainFault _ _ => []
  | .epochClose _ => []
  | .beaconArrival _ _ _ => []
  | .stampVersionArrive _ => []
  | .stampVersionVisible _ => []
  | .ldasAnswer _ _ _ => []
  | .tcmpReached _ => []
  | .launchAccept _ => []
  | .workgroupRecordPush _ => []
  | .pendingLaunchRefill _ => []
  | .continuationRefill _ _ => []
  | .recordPop _ => []
  | .issueSelect _ _ => []
  | .watchedLineWrite _ _ _ => []
  | .swapwaitExpiry _ _ _ => []
  | .swapOut _ _ _ => []
  | .growStallCheck _ => []
  | .growGrant _ => []
  | .workgroupEnd _ _ => []
  | .gridComplete _ => []
  | .preemptRequest _ _ => []
  | .preemptSave _ => []
  | .stallSample _ => []
  | .flitResend _ _ => []
  | .eccCorrection _ => []
  | .readReissue _ _ => []
  | .asyncDataLost _ _ _ _ => []
  | .powerOnReset => []
  | .hreset _ => []
  | .fwgo => []
  | .firmwareVerified _ _ => []
  | .bootReady => []
  | .hostPush _ _ => []
  | .doorbell _ => []
  | .mailbox _ _ => []
  | .dctlStop _ => []
  | .dctlStart _ => []
  | .quadAssignmentWrite _ _ => []
  | .share _ _ => []
  | .key _ _ => []
  | .stateWindowWrite _ _ _ => []
  | .hostWindowRead _ _ _ => []
  | .hostWindowWrite _ _ _ => []
  | .vaultQuiesce _ => []
  | .vaultQuiesceDone _ => []
  | .vaultQuiesceRelease _ => []
  | .remapGo _ => []
  | .remapGranuleMove _ _ => []
  | .pstate _ _ => []
  | .clockChangeDone _ => []
  | .qpark _ _ => []
  | .quadWakeDone _ _ => []
  | .powerCapThrottle _ => []
  | .pthrotClear _ => []
  | .tlostClear _ => []
  | .tbase _ _ => []
  | .thermalAlert _ _ _ => []
  | .thermalTrip _ _ _ => []
  | .tripClear _ => []
  | .retentionLimit _ _ => []
  | .valveAdjust _ _ _ _ _ => []
  | .hbeacon _ => []
  | .fabricLinkUp _ _ _ => []
  | .registerWrite _ _ => []
  | .fabricLinkDown _ _ => []
  | .preemptedRecordPush _ => []
  | .weightWindowOpen _ _ => []
  | .weightWindowClose _ => []
  | .domainCreate _ => []
  | .domainDestroy _ => []
  | .supervisorEndsWorkgroup _ _ _ _ => []

/-- The decoder of the words of one instruction: one word, or a prefix word and the word it modifies (R38). -/
def decodeWords : List Word → Dec
  | [w] => decode none w
  | [p, w] => if fop p = 0xFF then decode (some (f24 p)) w else .error .illegalOp
  | _ => .error .illegalOp

/-- The instruction the decoder reads from the bits of one opcode-table row, all of which are single words. -/
def decodeTableWord (_nbits w : Nat) : Option Instr :=
  match decode none (BitVec.ofNat 32 w) with
  | .ok i => some i
  | .error _ => none

end Sys2Proof
end

