-- ==== Sys2Proof/Config.lean ====
section
/-! DEFINITION. The figures every Kyica shares, and the free values: constants without a body that stand for what the
spec leaves open, so that no proof can see a value in them. -/

namespace Sys2Proof.Config

/-- The special functions whose bits are promised only within a bound (R126, R127). -/
inductive Special where
  | rcp | rsq | exp2 | log2 | sinp | cosp | tanh
  deriving DecidableEq, Repr

/-- Free value, log entry 3: the bits one special function returns for one operand, the same on every part (R127). The
meaning admits them only inside the bound of R126. -/
opaque specialBits : Special → Word → Word

/-- Free value, log entry 4: whether the firmware image serves a SYSCALL code (R413). -/
opaque syscallServed : BitVec 16 → Bool

/-- Free value, log entry 7: the device's serial number (R345). -/
opaque deviceSerial : BitVec 64

/-- Free value, log entry 7: the bytes of the identity's public key, or of its certificate (R345). -/
opaque identityByte : Bool → Nat → BitVec 8

/-- Free value, log entry 7: the bytes of the signature that the identity key makes over a digest (R345). -/
opaque signatureByte : BitVec 512 → Nat → BitVec 8

/-- Bytes of one core's instruction memory (R33). -/
def imemBytes : Nat := 262144

/-- Warp slots of a core (R17). -/
def slots : Nat := 48

/-- Register granules of a core (R18). -/
def granules : Nat := 1024

/-- Queue sets, and so resident workgroups, of a core (R263). -/
def queueSets : Nat := 16

/-- Rows of one queue register (R284). -/
def queueRows : Nat := 16

/-- Granules of 4 KiB in one quad SRAM (R179). -/
def qsramGranules : Nat := 4096

/-- Lines of 128 bytes of one core's L1 (R185). -/
def l1Lines : Nat := 4096

/-- Depth of the apply stack (R274). -/
def applyDepth : Nat := 64

/-- Entries of an atomic service warp's request queue (R230). -/
def mittenQueue : Nat := 256
/-- The quads of the package, sixteen to a die, each with its atomic service warp (R1). -/
def quads : Nat := 64

/-- Entries of the array sequencer's queue (R144). -/
def arrayQueue : Nat := 8

/-- The replays that the device makes of one event after its first attempt (R364). -/
def replayMax : Nat := 3

/-- Greatest count of one counter class (R49). -/
def counterMax : Nat := 63

/-- On-chip entries of one continuation queue (R294). -/
def contQueue : Nat := 64

/-- Entries of one pending-launch queue (R288). -/
def pendingQueue : Nat := 4

/-- Entries of the package admission queue (R390). -/
def admissionQueue : Nat := 256

/-- Entries of one workgroup's partial table (R168). -/
def partialTable : Nat := 4096

end Sys2Proof.Config
end

