-- ==== Sys2Proof/Machine/Bytes.lean ====
section
/-! DEFINITION. Little-endian bytes, lane masks and rows (R7, R17). -/

namespace Sys2Proof.Machine

/-- The `n` low bytes of a number, lowest first (R7). -/
def leBytes (n x : Nat) : List Byte := (List.range n).map fun i => BitVec.ofNat 8 (x / 2 ^ (8 * i))

/-- The number a little-endian byte list stands for (R7). -/
def ofLe : List Byte → Nat
  | [] => 0
  | b :: bs => b.toNat + 256 * ofLe bs

/-- The bytes `a` to `a + n - 1` of a byte list, as a number; bytes beyond its end are 0. -/
def field (bs : List Byte) (a n : Nat) : Nat := ofLe ((List.range n).map fun i => bs.getD (a + i) 0)

/-- A number read as a signed value of `n` bits (R9). -/
def signed (n x : Nat) : Int := if x % 2 ^ n < 2 ^ (n - 1) then ((x % 2 ^ n : Nat) : Int) else ((x % 2 ^ n : Nat) : Int) - 2 ^ n

/-- An integer narrowed to 64 bits (R9). -/
def wrap64 (x : Int) : DWord := BitVec.ofInt 64 x

/-- The lane numbers. -/
def laneIdx : List Nat := List.range 32

/-- The lanes of a mask, ascending (R9). -/
def lanesOf (m : Lanes) : List Nat := laneIdx.filter fun j => m.getLsbD j

/-- The mask of the lanes that satisfy a test. -/
def maskOf (p : Nat → Bool) : Lanes := BitVec.ofNat 32 (laneIdx.foldl (fun acc j => if p j then acc + 2 ^ j else acc) 0)

/-- The number of lanes of a mask. -/
def popcount (m : Lanes) : Nat := (lanesOf m).length

/-- A lane's word of a row. -/
def rowGet (r : Row) (j : Nat) : Word := r.getD j 0

/-- The row of 32 zeros. -/
def rowZero : Row := List.replicate 32 0

/-- The row whose lane `j` holds `f j`. -/
def rowOf (f : Nat → Word) : Row := laneIdx.map f

/-- The row that holds one value in every lane (R22). -/
def rowAll (x : Word) : Row := List.replicate 32 x

/-- The old row with the lanes of a mask replaced (R110). -/
def rowMerge (m : Lanes) (old new : Row) : Row := rowOf fun j => if m.getLsbD j then rowGet new j else rowGet old j

/-- Two words as one 64-bit value, low word first (R22). -/
def pair64 (lo hi : Word) : DWord := hi ++ lo

/-- The low word of a 64-bit value. -/
def lo32 (x : DWord) : Word := x.extractLsb' 0 32

/-- The high word of a 64-bit value. -/
def hi32 (x : DWord) : Word := x.extractLsb' 32 32

/-- The least code of a nonempty list of causes (R220). -/
def leastCause (c : Cause) (cs : List Cause) : Cause :=
  cs.foldl (fun m x => if x.code.toNat < m.code.toNat then x else m) c

/-- The distinct elements of a list, in order. -/
def distinct {α : Type} [DecidableEq α] : List α → List α
  | [] => []
  | x :: xs => x :: (distinct xs).filter (fun y => decide (y ≠ x))

/-- The list with the element at an index replaced. -/
def setAt {α : Type} : List α → Nat → α → List α
  | [], _, _ => []
  | _ :: xs, 0, y => y :: xs
  | x :: xs, n + 1, y => x :: setAt xs n y

/-- The list without the element at an index. -/
def dropAt {α : Type} : List α → Nat → List α
  | [], _ => []
  | _ :: xs, 0 => xs
  | x :: xs, n + 1 => x :: dropAt xs n

end Sys2Proof.Machine
end

