-- ==== Sys2Proof/Machine/Fp.lean ====
section
/-! DEFINITION. The number formats and their rounding (R87 to R98, R103), the binary32 operations (R121 to R127), the packed
halves (R128) and the conversions (R97, R129 to R132). Every value is computed exactly and rounded once. -/

namespace Sys2Proof.Machine

/-! ### Formats (R89) -/

/-- What the top encodings of a format mean: infinities and NaNs, NaN only (`e4m3`), or finite values throughout. -/
inductive TopKind where
  | ieee | nanOnly | finite
  deriving DecidableEq, Repr

/-- A floating-point format: exponent bits, fraction bits, bias, the meaning of its top encodings, and whether values
below the smallest normal keep a grid (IAS has none). -/
structure Fmt where
  eb   : Nat
  fb   : Nat
  bias : Nat
  top  : TopKind
  grid : Bool
  deriving DecidableEq, Repr

/-- `f32`. -/
def f32 : Fmt := { eb := 8, fb := 23, bias := 127, top := .ieee, grid := true }
/-- `bf16`. -/
def bf16 : Fmt := { eb := 8, fb := 7, bias := 127, top := .ieee, grid := true }
/-- `f16`. -/
def f16fmt : Fmt := { eb := 5, fb := 10, bias := 15, top := .ieee, grid := true }
/-- `e4m3`. -/
def e4m3 : Fmt := { eb := 4, fb := 3, bias := 7, top := .nanOnly, grid := true }
/-- `e5m2`. -/
def e5m2 : Fmt := { eb := 5, fb := 2, bias := 15, top := .ieee, grid := true }
/-- `e2m1`. -/
def e2m1 : Fmt := { eb := 2, fb := 1, bias := 1, top := .finite, grid := true }
/-- `e3m2`. -/
def e3m2 : Fmt := { eb := 3, fb := 2, bias := 3, top := .finite, grid := true }
/-- `e2m3`. -/
def e2m3 : Fmt := { eb := 2, fb := 3, bias := 1, top := .finite, grid := true }
/-- IAS, the in-array sum format (R102). -/
def ias : Fmt := { eb := 8, fb := 15, bias := 127, top := .ieee, grid := false }

/-- The format a format id names (R42); integer ids and 0xE, 0xF name none. -/
def fmtOf (id : Nat) : Option Fmt :=
  match id with
  | 8 => some f32
  | 9 => some bf16
  | 10 => some f16fmt
  | 11 => some e4m3
  | 12 => some e5m2
  | 13 => some e2m1
  | _ => none

/-- An exact value: NaN, an infinity, or a signed dyadic `m * 2^e`. -/
inductive FVal where
  | nan
  | inf (neg : Bool)
  | fin (neg : Bool) (m : Nat) (e : Int)
  deriving DecidableEq, Repr

/-- The rounding modes of `cr.round` (R94). -/
inductive Mode where
  | rne | rz | rd | ru
  deriving DecidableEq, Repr

/-- The mode a field holds (R94). -/
def Mode.of (x : BitVec 2) : Mode :=
  match x.toNat with
  | 0 => .rne
  | 1 => .rz
  | 2 => .rd
  | _ => .ru

/-- The value of an encoding (R90). -/
def Fmt.decode (t : Fmt) (x : Nat) : FVal :=
  let frac := x % 2 ^ t.fb
  let ex := x / 2 ^ t.fb % 2 ^ t.eb
  let neg := decide (x / 2 ^ (t.fb + t.eb) % 2 = 1)
  if ex = 2 ^ t.eb - 1 ∧ t.top = .ieee then (if frac = 0 then .inf neg else .nan)
  else if ex = 2 ^ t.eb - 1 ∧ t.top = .nanOnly ∧ frac = 2 ^ t.fb - 1 then .nan
  else if ex = 0 then .fin neg (if t.grid then frac else 0) (1 - (t.bias : Int) - t.fb)
  else .fin neg (frac + 2 ^ t.fb) ((ex : Int) - t.bias - t.fb)

/-- The canonical NaN (R89, R92). -/
def Fmt.nan (t : Fmt) : Nat :=
  match t.top with
  | .ieee => (2 ^ t.eb - 1) * 2 ^ t.fb + 2 ^ (t.fb - 1)
  | .nanOnly => (2 ^ t.eb - 1) * 2 ^ t.fb + (2 ^ t.fb - 1)
  | .finite => 0

/-- The sign bit in place. -/
def Fmt.signBit (t : Fmt) (neg : Bool) : Nat := if neg then 2 ^ (t.eb + t.fb) else 0

/-- The encoding of the largest finite magnitude. -/
def Fmt.maxBits (t : Fmt) : Nat :=
  match t.top with
  | .ieee => (2 ^ t.eb - 1) * 2 ^ t.fb - 1
  | .nanOnly => (2 ^ t.eb - 1) * 2 ^ t.fb + (2 ^ t.fb - 2)
  | .finite => 2 ^ (t.eb + t.fb) - 1

/-- An infinity of the format: `e4m3` has none and gives its NaN (R95); a finite format gives its largest value. -/
def Fmt.infBits (t : Fmt) (neg : Bool) : Nat :=
  match t.top with
  | .ieee => t.signBit neg + (2 ^ t.eb - 1) * 2 ^ t.fb
  | .nanOnly => t.nan
  | .finite => t.signBit neg + t.maxBits

/-- The number of bits of a natural number. -/
def bitLen (n : Nat) : Nat := if n = 0 then 0 else n.log2 + 1

/-- The result of an overflow under a mode (R95 step 2). -/
def Fmt.overflow (t : Fmt) (md : Mode) (neg : Bool) : Nat :=
  match md, neg with
  | .rne, _ => t.infBits neg
  | .rz, _ => t.signBit neg + t.maxBits
  | .rd, false => t.maxBits
  | .rd, true => t.infBits true
  | .ru, false => t.infBits false
  | .ru, true => t.signBit true + t.maxBits

/-- Whether a rounding goes up in magnitude: `rem` of `2^sh` is dropped, with something more below if `sticky`. -/
def roundsUp (md : Mode) (neg : Bool) (odd : Bool) (rem sh : Nat) (sticky : Bool) : Bool :=
  match md with
  | .rne => decide (2 ^ sh < 2 * rem) || (decide (2 ^ sh = 2 * rem) && decide (0 < sh) && (sticky || odd))
  | .rz => false
  | .rd => neg && (decide (0 < rem) || sticky)
  | .ru => !neg && (decide (0 < rem) || sticky)

/-- The exact value `m * 2^e`, with something more below its last bit if `sticky`, rounded to the format (R95). A caller
that passes `sticky` passes at least two bits more than the significand. -/
def Fmt.roundS (t : Fmt) (md : Mode) (neg : Bool) (m : Nat) (e : Int) (sticky : Bool) : Nat :=
  if m = 0 then t.signBit neg
  else
    let top : Int := (bitLen m : Int) - 1 + e
    let q0 : Int := top - t.fb
    let q : Int := if t.grid then max q0 (1 - (t.bias : Int) - t.fb) else q0
    let sh := (q - e).toNat
    let n := if q ≤ e then m * 2 ^ (e - q).toNat else m / 2 ^ sh
    let rem := if q ≤ e then 0 else m % 2 ^ sh
    let n1 := if roundsUp md neg (decide (n % 2 = 1)) rem sh sticky then n + 1 else n
    let (n2, q2) := if n1 = 2 ^ (t.fb + 1) then (2 ^ t.fb, q + 1) else (n1, q)
    let ex : Int := q2 + t.fb + t.bias
    if n2 < 2 ^ t.fb then t.signBit neg + n2
    else if ex ≤ 0 then t.signBit neg + (if t.grid then n2 else 0)
    else if decide (ex * 2 ^ t.fb + (n2 - 2 ^ t.fb) > t.maxBits) then t.overflow md neg
    else t.signBit neg + ex.toNat * 2 ^ t.fb + (n2 - 2 ^ t.fb)

/-- An exact value rounded to the format (R95). -/
def Fmt.round (t : Fmt) (md : Mode) : FVal → Nat
  | .nan => t.nan
  | .inf neg => t.infBits neg
  | .fin neg m e => t.roundS md neg m e false

/-- An exact value rounded to the format, with a result outside it replaced by the largest finite value (R97 `.sat`). -/
def Fmt.roundSat (t : Fmt) (md : Mode) : FVal → Nat
  | .nan => t.nan
  | .inf neg => t.signBit neg + t.maxBits
  | .fin neg m e =>
    let r := t.roundS md neg m e false
    match t.decode r with
    | .fin _ _ _ => r
    | _ => t.signBit neg + t.maxBits

/-! ### Exact arithmetic (R95) -/

/-- A dyadic as an integer multiple of `2^e`. -/
def scaled (neg : Bool) (m : Nat) (e e0 : Int) : Int :=
  let x : Int := (m * 2 ^ (e - e0).toNat : Nat)
  if neg then -x else x

/-- An exact sum, with the sign rule of zero sums (R95 step 3). -/
def fvAdd (md : Mode) : FVal → FVal → FVal
  | .nan, _ => .nan
  | _, .nan => .nan
  | .inf a, .inf b => if a = b then .inf a else .nan
  | .inf a, .fin .. => .inf a
  | .fin .., .inf b => .inf b
  | .fin na ma ea, .fin nb mb eb =>
    let e0 := min ea eb
    let x := scaled na ma ea e0 + scaled nb mb eb e0
    if x = 0 then .fin (if ma = 0 ∧ mb = 0 ∧ na = nb then na else decide (md = .rd)) 0 0
    else .fin (decide (x < 0)) x.natAbs e0

/-- An exact product (R122). -/
def fvMul : FVal → FVal → FVal
  | .nan, _ => .nan
  | _, .nan => .nan
  | .inf a, .inf b => .inf (a != b)
  | .inf a, .fin nb mb _ => if mb = 0 then .nan else .inf (a != nb)
  | .fin na ma _, .inf b => if ma = 0 then .nan else .inf (na != b)
  | .fin na ma ea, .fin nb mb eb => .fin (na != nb) (ma * mb) (ea + eb)

/-- A sign inverted. -/
def fvNeg : FVal → FVal
  | .nan => .nan
  | .inf a => .inf (!a)
  | .fin a m e => .fin (!a) m e

/-- The value of a binary32 word. -/
def f32v (x : Word) : FVal := f32.decode x.toNat

/-- An exact value rounded to a binary32 word. -/
def toF32 (md : Mode) (x : FVal) : Word := BitVec.ofNat 32 (f32.round md x)

/-- FADD (R122). -/
def fadd (md : Mode) (a b : Word) : Word := toF32 md (fvAdd md (f32v a) (f32v b))
/-- FSUB (R122). -/
def fsub (md : Mode) (a b : Word) : Word := toF32 md (fvAdd md (f32v a) (fvNeg (f32v b)))
/-- FMUL (R122). -/
def fmul (md : Mode) (a b : Word) : Word := toF32 md (fvMul (f32v a) (f32v b))
/-- FFMA: the exact `a * b + d` rounded once (R122). -/
def ffma (md : Mode) (a b d : Word) : Word := toF32 md (fvAdd md (fvMul (f32v a) (f32v b)) (f32v d))

/-- FDIV (R122): a quotient to 30 bits beyond the significand, with the rest as a sticky bit. -/
def fdiv (md : Mode) (a b : Word) : Word :=
  match f32v a, f32v b with
  | .nan, _ => 0x7FC00000
  | _, .nan => 0x7FC00000
  | .inf _, .inf _ => 0x7FC00000
  | .inf na, .fin nb _ _ => BitVec.ofNat 32 (f32.infBits (na != nb))
  | .fin na _ _, .inf nb => BitVec.ofNat 32 (f32.signBit (na != nb))
  | .fin na ma ea, .fin nb mb eb =>
    if mb = 0 then (if ma = 0 then 0x7FC00000 else BitVec.ofNat 32 (f32.infBits (na != nb)))
    else if ma = 0 then BitVec.ofNat 32 (f32.signBit (na != nb))
    else
      let n := ma * 2 ^ 60
      BitVec.ofNat 32 (f32.roundS md (na != nb) (n / mb) (ea - eb - 60) (decide (n % mb ≠ 0)))

/-- The integer square root, by bits. -/
def isqrt (n : Nat) : Nat :=
  (List.range (bitLen n / 2 + 1)).reverse.foldl (fun r k => if (r + 2 ^ k) * (r + 2 ^ k) ≤ n then r + 2 ^ k else r) 0

/-- FSQRT (R122). -/
def fsqrt (md : Mode) (a : Word) : Word :=
  match f32v a with
  | .nan => 0x7FC00000
  | .inf neg => if neg then 0x7FC00000 else 0x7F800000
  | .fin neg m e =>
    if m = 0 then a
    else if neg then 0x7FC00000
    else
      let e1 := e - 60
      let m1 := m * 2 ^ 60
      let (m2, e2) := if e1 % 2 = 0 then (m1, e1) else (m1 * 2, e1 - 1)
      let r := isqrt m2
      BitVec.ofNat 32 (f32.roundS md false r (e2 / 2) (decide (r * r ≠ m2)))

/-- The order of two exact values that are not NaN; −0 lies below +0 when `zeros` is set (R123). -/
def fvLt (zeros : Bool) : FVal → FVal → Bool
  | .inf a, .inf b => a && !b
  | .inf a, .fin .. => a
  | .fin .., .inf b => !b
  | .fin na ma ea, .fin nb mb eb =>
    let e0 := min ea eb
    let x := scaled na ma ea e0
    let y := scaled nb mb eb e0
    decide (x < y) || (zeros && decide (x = 0) && decide (y = 0) && na && !nb)
  | _, _ => false

/-- FMIN (R123). -/
def fmin (a b : Word) : Word :=
  match f32v a, f32v b with
  | .nan, .nan => 0x7FC00000
  | .nan, _ => b
  | _, .nan => a
  | x, y => if fvLt true y x then b else a

/-- FMAX (R123). -/
def fmax (a b : Word) : Word :=
  match f32v a, f32v b with
  | .nan, .nan => 0x7FC00000
  | .nan, _ => b
  | _, .nan => a
  | x, y => if fvLt true x y then b else a

/-- A binary32 word is NaN. -/
def isNan (a : Word) : Bool := decide (f32v a = .nan)

/-- FABS (R124). -/
def fabs (a : Word) : Word := if isNan a then 0x7FC00000 else a &&& 0x7FFFFFFF
/-- FNEG (R124). -/
def fneg (a : Word) : Word := if isNan a then 0x7FC00000 else a ^^^ 0x80000000

/-- A magnitude `m * 2^e` rounded to an integer under a mode. -/
def roundInt (md : Mode) (neg : Bool) (m : Nat) (e : Int) : Nat :=
  if 0 ≤ e then m * 2 ^ e.toNat
  else
    let sh := (-e).toNat
    if roundsUp md neg (decide (m / 2 ^ sh % 2 = 1)) (m % 2 ^ sh) sh false then m / 2 ^ sh + 1 else m / 2 ^ sh

/-- FRND (R125). -/
def frnd (md : Mode) (a : Word) : Word :=
  match f32v a with
  | .nan => 0x7FC00000
  | .inf _ => a
  | .fin neg m e => if 0 ≤ e ∨ m = 0 then a else BitVec.ofNat 32 (f32.roundS md neg (roundInt md neg m e) 0 false)

/-! ### Special functions (R126, R127) -/

/-- Fractional bits of the enclosures below. -/
def fixBits : Nat := 120
/-- One, in fixed point. -/
def fixOne : Int := 2 ^ fixBits
/-- A fixed-point product. -/
def fixMul (a b : Int) : Int := a * b / fixOne
/-- The logarithm of 2, in fixed point: the sum of `1 / (k * 2^k)`. -/
def fixLn2 : Int := (List.range 125).foldl (fun (acc : Int) (k : Nat) => acc + fixOne / (((k : Int) + 1) * (2 : Int) ^ (k + 1))) 0
/-- The arctangent of `1 / n`, in fixed point. -/
def fixAtanInv (n : Int) : Int :=
  (List.range 90).foldl (fun (acc : Int) (k : Nat) => acc + (if k % 2 = 0 then (1 : Int) else -1) * (fixOne / n ^ (2 * k + 1)) / (2 * (k : Int) + 1)) 0
/-- Pi, in fixed point, by Machin's formula. -/
def fixPi : Int := 4 * (4 * fixAtanInv 5 - fixAtanInv 239)
/-- The exponential of a small fixed-point number. -/
def fixExp (x : Int) : Int :=
  ((List.range 60).foldl (fun (p : Int × Int) (k : Nat) => (fixMul p.1 x / ((k : Int) + 1), p.2 + p.1)) (fixOne, 0)).2
/-- The sine of a fixed-point number below 4. -/
def fixSin (x : Int) : Int :=
  ((List.range 40).foldl (fun (p : Int × Int) (k : Nat) => (-(fixMul (fixMul p.1 x) x / ((2 * (k : Int) + 2) * (2 * k + 3))), p.2 + p.1)) (x, 0)).2
/-- The inverse hyperbolic tangent of a fixed-point number below one third. -/
def fixAtanh (x : Int) : Int :=
  ((List.range 60).foldl (fun (p : Int × Int) (k : Nat) => (fixMul (fixMul p.1 x) x, p.2 + p.1 / (2 * (k : Int) + 1))) (x, 0)).2

/-- A dyadic in fixed point, its magnitude rounded down. -/
def toFix (neg : Bool) (m : Nat) (e : Int) : Int :=
  let k := e + fixBits
  let x : Int := if 0 ≤ k then (m * 2 ^ k.toNat : Nat) else (m / 2 ^ (-k).toNat : Nat)
  if neg then -x else x

/-- A real result between `lo * 2^q` and `hi * 2^q`: strictly, or equal to both. The distance of the ends is far below its bound, and they
stand on one side of zero. -/
structure Approx where
  lo : Int
  hi : Int
  q  : Int
  deriving DecidableEq, Repr

/-- A result within an error that is far above what the fixed-point sums below lose, and within two ends that it cannot pass. -/
def Approx.near (y least most q : Int) : Approx := { lo := max (y - 2 ^ 20) least, hi := min (y + 2 ^ 20) most, q := q }

/-- The result of the other sign. -/
def Approx.flip (a : Approx) (neg : Bool) : Approx := if neg then { a with lo := -a.hi, hi := -a.lo } else a

/-- The exponent of one ulp of a result: that of its end nearer to zero, above which it lies (R126). -/
def Approx.ulp (a : Approx) : Int := max ((bitLen (min a.lo.natAbs a.hi.natAbs) : Int) - 1 + a.q - 23) (-149)

/-- A binary32 word lies within `k` ulp of a result, or within `2^-22` of it when `abs` allows that: it does so of both ends of the
enclosure (log entry 3); an infinity counts as `2^128` (log entry 79). -/
def Approx.admits (a : Approx) (k : Nat) (abs : Bool) (w : Word) : Bool :=
  let (neg, m, e) := match f32v w with
    | .fin neg m e => (neg, m, e)
    | .inf neg => (neg, 1, 128)
    | .nan => (false, 0, 0)
  let e0 := min (min e a.q) (min a.ulp (-22))
  let near (x : Int) : Bool :=
    let diff := (scaled neg m e e0 - scaled (decide (x < 0)) x.natAbs a.q e0).natAbs
    decide (diff ≤ k * 2 ^ (a.ulp - e0).toNat) || (abs && decide (diff ≤ 2 ^ (-22 - e0).toNat))
  !isNan w && near a.lo && near a.hi

/-- The nearest binary32 word of a result. -/
def Approx.nearest (a : Approx) : Word :=
  BitVec.ofNat 32 (f32.roundS .rne (decide (a.lo < 0)) a.lo.natAbs a.q false)

/-- A result off the list of exact values: the free bits where the bound admits them, else the nearest word (R127). -/
def Approx.pick (a : Approx) (k : Nat) (abs : Bool) (fn : Config.Special) (x : Word) : Word :=
  if a.admits k abs (Config.specialBits fn x) then Config.specialBits fn x else a.nearest

/-- The exponent of a power of two, if the dyadic is one. -/
def pow2Of (m : Nat) (e : Int) : Option Int := if m = 2 ^ (bitLen m - 1) then some ((bitLen m : Int) - 1 + e) else none

/-- FRCP (R126). Where `1 / a` lies beyond the binary32 range, the spec lists no value and its ulp is not defined: the model counts an
infinity as `2^128` there (log entry 79, DESIGN CHOICE). -/
def frcp (a : Word) : Word :=
  match f32v a with
  | .nan => 0x7FC00000
  | .inf neg => BitVec.ofNat 32 (f32.signBit neg)
  | .fin neg m e =>
    if m = 0 then BitVec.ofNat 32 (f32.infBits neg)
    else
      match (pow2Of m e).filter (fun k => decide (-127 ≤ k) && decide (k ≤ 149)) with
      | some k => BitVec.ofNat 32 (f32.roundS .rne neg 1 (-k) false)
      | none =>
        let y := ((2 ^ 150 / m : Nat) : Int)
        (({ lo := y, hi := y + 1, q := -e - 150 } : Approx).flip neg).pick 1 false .rcp a

/-- FRSQ (R126). -/
def frsq (a : Word) : Word :=
  match f32v a with
  | .nan => 0x7FC00000
  | .inf neg => if neg then 0x7FC00000 else 0
  | .fin neg m e =>
    if m = 0 then BitVec.ofNat 32 (f32.infBits neg)
    else if neg then 0x7FC00000
    else
      match (pow2Of m e).filter (fun k => decide (k % 2 = 0)) with
      | some k => BitVec.ofNat 32 (f32.roundS .rne false 1 (-(k / 2)) false)
      | none =>
        let (m1, e1) := if e % 2 = 0 then (m, e) else (2 * m, e - 1)
        let y := (isqrt (2 ^ 240 / m1) : Nat)
        Approx.pick { lo := y, hi := y + 1, q := -(e1 / 2) - 120 } 1 false .rsq a

/-- The enclosure of `2^x` for a dyadic (R126). A negative operand that fixed point cuts short is taken below its value, so that the
power stays under 1. Its significand lies between 1 and 2. -/
def exp2Of (neg : Bool) (m : Nat) (e : Int) : Approx :=
  let cut := decide (e + fixBits < 0) && decide (m % 2 ^ (-(e + fixBits)).toNat ≠ 0)
  let x := toFix neg m e - (if neg && cut then 1 else 0)
  Approx.near (fixExp (fixMul (x % fixOne) fixLn2)) fixOne (2 * fixOne) (x / fixOne - fixBits)

/-- FEXP2 (R126). -/
def fexp2 (a : Word) : Word :=
  match f32v a with
  | .nan => 0x7FC00000
  | .inf neg => if neg then 0 else 0x7F800000
  | .fin neg m e =>
    let x := toFix neg m e
    if 128 * fixOne ≤ x then 0x7F800000
    else if x ≤ -150 * fixOne then 0
    else if 0 ≤ e ∨ m % 2 ^ (-e).toNat = 0 then
      (if -149 * fixOne ≤ x then BitVec.ofNat 32 (f32.roundS .rne false 1 (x / fixOne) false) else 0)
    else (exp2Of neg m e).pick 2 false .exp2 a

/-- FLOG2 (R126): `log2 m = k + 2 atanh ((f - 1) / (f + 1)) / ln 2` for the significand f in [1, 2). -/
def flog2 (a : Word) : Word :=
  match f32v a with
  | .nan => 0x7FC00000
  | .inf neg => if neg then 0x7FC00000 else 0x7F800000
  | .fin neg m e =>
    if m = 0 then 0xFF800000
    else if neg then 0x7FC00000
    else
      let k : Int := (bitLen m : Int) - 1 + e
      match pow2Of m e with
      | some p => BitVec.ofNat 32 (f32.roundS .rne (decide (p < 0)) p.natAbs 0 false)
      | none =>
        let f := toFix false m (1 - (bitLen m : Int))
        let l := 2 * fixAtanh ((f - fixOne) * fixOne / (f + fixOne)) * fixOne / fixLn2
        (Approx.near (k * fixOne + l) (k * fixOne) ((k + 1) * fixOne) (-fixBits)).pick 2 (decide (k = 0) || decide (k = -1)) .log2 a

/-- The operand reduced modulo 2 exactly, in fixed point in [0, 2) (R126). -/
def mod2 (neg : Bool) (m : Nat) (e : Int) : Int := toFix neg m e % (2 * fixOne)

/-- The sine of pi times a fixed-point number between -1/2 and 1/2, which may have been cut short: it lies between 0 and 1, and is 1 at 1/2
alone. -/
def sinPi (x : Int) (cut : Bool) : Approx :=
  let y := fixSin (fixMul x.natAbs fixPi)
  (if !cut && decide (2 * (x.natAbs : Int) = fixOne) then { lo := fixOne, hi := fixOne, q := -fixBits } else Approx.near y 0 fixOne (-fixBits)).flip (decide (x < 0))

/-- FSINP (R126). -/
def fsinp (a : Word) : Word :=
  match f32v a with
  | .nan => 0x7FC00000
  | .inf _ => 0x7FC00000
  | .fin neg m e =>
    if m = 0 then a
    else if mod2 neg m e % fixOne = 0 ∧ (0 ≤ e ∨ m % 2 ^ (-e).toNat = 0) then BitVec.ofNat 32 (f32.signBit neg)
    else
      let x := mod2 neg m e
      let x1 := if fixOne < 2 * x ∧ 2 * x < 3 * fixOne then fixOne - x else if 3 * fixOne ≤ 2 * x then x - 2 * fixOne else x
      let cut := decide (e + fixBits < 0) && decide (m % 2 ^ (-(e + fixBits)).toNat ≠ 0)
      ((sinPi x1 cut).flip (cut && neg && decide (x1 = 0))).pick 0 true .sinp a

/-- FCOSP (R126). -/
def fcosp (a : Word) : Word :=
  match f32v a with
  | .nan => 0x7FC00000
  | .inf _ => 0x7FC00000
  | .fin neg m e =>
    let x := mod2 neg m e
    let tiny := decide (e < 0) && decide (m % 2 ^ (-e).toNat ≠ 0) && decide (m * 2 % 2 ^ (-e).toNat ≠ 0)
    if !tiny && decide (x = 0) then 0x3F800000
    else if !tiny && decide (x = fixOne) then 0xBF800000
    else if !tiny && decide (2 * x % fixOne = 0) then 0
    else
      let y := (x + fixOne / 2) % (2 * fixOne)
      let y1 := if fixOne < 2 * y ∧ 2 * y < 3 * fixOne then fixOne - y else if 3 * fixOne ≤ 2 * y then y - 2 * fixOne else y
      (sinPi y1 true).pick 0 true .cosp a

/-- FTANH (R126): that of a tiny operand lies between `a - a^3 / 3` and `a`. -/
def ftanh (a : Word) : Word :=
  match f32v a with
  | .nan => 0x7FC00000
  | .inf neg => if neg then 0xBF800000 else 0x3F800000
  | .fin neg m e =>
    if m = 0 then a
    else if 10 * fixOne ≤ toFix false m e then (if neg then 0xBF800000 else 0x3F800000)
    else if (bitLen m : Int) + e < -20 then
      let k := 2 * e + 100
      let third : Nat := (if 0 ≤ k then m ^ 3 * 2 ^ k.toNat else m ^ 3 / 2 ^ (-k).toNat) / 3 + 1
      (({ lo := ((m * 2 ^ 100 - third : Nat) : Int), hi := (m * 2 ^ 100 : Nat), q := e - 100 } : Approx).flip neg).pick 2 false .tanh a
    else
      let x := 2 * toFix false m e
      let t := fixExp (fixMul ((x * fixOne / fixLn2) % fixOne) fixLn2) * 2 ^ (x * fixOne / fixLn2 / fixOne).toNat
      ((Approx.near ((t - fixOne) * fixOne / (t + fixOne)) 0 fixOne (-fixBits)).flip neg).pick 2 false .tanh a

/-! ### Packed halves (R128) -/

/-- A half of a word (R93). -/
def half (x : Word) (i : Nat) : Nat := x.toNat / 65536 ^ i % 65536

/-- Two halves in one word. -/
def halves (f : Nat → Nat) : Word := BitVec.ofNat 32 (f 0 % 65536 + 65536 * (f 1 % 65536))

/-- HADD2 of a half format. -/
def hadd2 (t : Fmt) (md : Mode) (a b : Word) : Word :=
  halves fun i => t.round md (fvAdd md (t.decode (half a i)) (t.decode (half b i)))
/-- HMUL2 of a half format. -/
def hmul2 (t : Fmt) (md : Mode) (a b : Word) : Word :=
  halves fun i => t.round md (fvMul (t.decode (half a i)) (t.decode (half b i)))
/-- HFMA2 of a half format. -/
def hfma2 (t : Fmt) (md : Mode) (a b d : Word) : Word :=
  halves fun i => t.round md (fvAdd md (fvMul (t.decode (half a i)) (t.decode (half b i))) (t.decode (half d i)))

/-! ### Conversions (R97, R129 to R132) -/

/-- The width of an integer format (R87). -/
def intWidth (id : Nat) : Nat := 8 * 2 ^ (id % 4)

/-- An integer format is signed (R87). -/
def intSigned (id : Nat) : Bool := decide (id < 4)

/-- An integer of a format, from its low bits (R87). -/
def intOf (id x : Nat) : Int :=
  if intSigned id then signed (intWidth id) x else ((x % 2 ^ intWidth id : Nat) : Int)

/-- An integer clamped to the range of a format (R97). -/
def intClamp (id : Nat) (x : Int) : Int :=
  if intSigned id then max (-(2 ^ (intWidth id - 1))) (min x (2 ^ (intWidth id - 1) - 1))
  else max 0 (min x (2 ^ intWidth id - 1))

/-- An integer result in a register: the low bits extended by the format's signedness to 64 bits (R129). -/
def intPut (id : Nat) (x : Int) : DWord :=
  if intSigned id then BitVec.ofInt 64 (signed (intWidth id) (x % 2 ^ intWidth id).toNat)
  else BitVec.ofInt 64 (x % 2 ^ intWidth id)

/-- An exact value of an integer. -/
def fvInt (x : Int) : FVal := .fin (decide (x < 0)) x.natAbs 0

/-- An exact value truncated to an integer and clamped; NaN gives 0 (R97). -/
def fvToInt (id : Nat) : FVal → Int
  | .nan => 0
  | .inf neg => if neg then intClamp id (-(2 ^ 70)) else intClamp id (2 ^ 70)
  | .fin neg m e =>
    let k : Int := (roundInt .rz neg m (if 80 < e then 80 else e) : Nat)
    intClamp id (if neg then -k else k)

/-- A value converted to a narrow float, with or without saturation (R97). -/
def narrow (t : Fmt) (md : Mode) (sat : Bool) (x : FVal) : Nat := if sat then t.roundSat md x else t.round md x

/-- CVT of one lane's value (R43, R97, R129). An integer that becomes wider is extended by the signedness of its source, whether or
not it saturates (R97). -/
def cvt (md : Mode) (sat : Bool) (dst src x : Nat) : DWord :=
  if src < 8 then
    if dst < 8 then intPut dst (if sat && decide (intWidth dst ≤ intWidth src) then intClamp dst (intOf src x) else intOf src x)
    else BitVec.ofNat 64 (f32.round md (fvInt (intOf src x)))
  else if dst < 8 then intPut dst (fvToInt dst (f32.decode (x % 2 ^ 32)))
  else match fmtOf src, fmtOf dst with
    | some a, some b => BitVec.ofNat 64 (narrow b (if dst = 8 then .rne else md) (sat && decide (dst ≠ 8)) (a.decode (x % 2 ^ (a.eb + a.fb + 1))))
    | _, _ => 0

/-- One element expanded to `e4m3` exactly (R98, R130). -/
def xpndOne (t : Option Fmt) (x : Nat) : Nat :=
  match t with
  | some f => e4m3.round .rne (f.decode x)
  | none => e4m3.round .rne (fvInt (signed 4 x))

/-- XPND of one lane's register: the bytes of the pair or register it fills (R130). -/
def xpnd (code : Nat) (x : Word) : DWord :=
  let bytes := match code with
    | 0 => (List.range 8).map fun i => xpndOne none (x.toNat / 16 ^ i % 16)
    | 1 => (List.range 8).map fun i => xpndOne (some e2m1) (x.toNat / 16 ^ i % 16)
    | 2 => (List.range 4).map fun i => xpndOne (some e3m2) (x.toNat / 64 ^ i % 64)
    | _ => (List.range 4).map fun i => xpndOne (some e2m3) (x.toNat / 64 ^ i % 64)
  BitVec.ofNat 64 (ofLe (bytes.map (BitVec.ofNat 8)))

/-- PACK of one lane's registers (R131). -/
def pack (md : Mode) (sat : Bool) (code : Nat) (xs : List Word) : Word :=
  match code with
  | 0 => BitVec.ofNat 32 ((xs.map fun x => narrow bf16 md sat (f32v x)).foldr (fun b acc => b + 65536 * acc) 0)
  | 1 => BitVec.ofNat 32 ((xs.map fun x => narrow f16fmt md sat (f32v x)).foldr (fun b acc => b + 65536 * acc) 0)
  | 2 => BitVec.ofNat 32 ((xs.map fun x => narrow e4m3 md sat (f32v x)).foldr (fun b acc => b + 256 * acc) 0)
  | _ => BitVec.ofNat 32 ((xs.map fun x => narrow e5m2 md sat (f32v x)).foldr (fun b acc => b + 256 * acc) 0)

/-- The target format and emax of a QSCALE code (R132). -/
def qfmt (code : Nat) : Fmt × Int :=
  match code with
  | 0 => (e4m3, 8)
  | 1 => (e5m2, 15)
  | _ => (e2m1, 2)

/-- The floor of the base-2 logarithm of a member's magnitude; an infinity counts as the largest binary32, a zero or NaN as
none (R132). -/
def qlog (x : Word) : Option Int :=
  match f32v x with
  | .nan => none
  | .inf _ => some 127
  | .fin _ m e => if m = 0 then none else some ((bitLen m : Int) - 1 + e)

/-- The block scale of QSCALE over the members' values (R132). -/
def qscaleX (code : Nat) (xs : List Word) : Nat :=
  if xs.any isNan && decide (code = 2) then 255
  else match (xs.filterMap qlog).foldl (fun (m : Option Int) x => some (match m with | some y => max y x | none => x)) none with
    | none => 127
    | some l => (max 0 (min (l - (qfmt code).2 + 127) 254)).toNat

/-- One member scaled and rounded (R132). -/
def qscaleE (code X : Nat) (x : Word) : Nat :=
  if X = 255 then 0
  else match f32v x with
    | .nan => (qfmt code).1.nan
    | .inf neg => (qfmt code).1.signBit neg + (qfmt code).1.maxBits
    | .fin neg m e => (qfmt code).1.roundSat .rne (.fin neg m (e + 127 - X))

/-! ### The in-array sum format (R103) -/

/-- `to_ias`: 16 significant bits, no grid below the smallest normal (R103). -/
def toIas : FVal → BitVec 24
  | .nan => 0x7FC000
  | .inf neg => BitVec.ofNat 24 (ias.infBits neg)
  | .fin neg m e => BitVec.ofNat 24 (ias.roundS .rne neg m e false)

/-- The value of an IAS encoding (R90). -/
def iasV (x : BitVec 24) : FVal := ias.decode x.toNat

/-- `add_ias` (R103). -/
def addIas (s : BitVec 24) (t : FVal) : BitVec 24 := toIas (fvAdd .rne (iasV s) t)

end Sys2Proof.Machine
end

