-- ==== Sys2Proof/Machine/Flags.lean ====
section
/-! DEFINITION. Comparisons. The Kyica keeps no flags: a condition is formed where it is used, by STEST (R41, R275), by the
uniform comparisons (R138) and by the phase tests of the waits (R240, R252). -/

namespace Sys2Proof.Machine

/-- Signed order of two words. -/
def sLt (a b : Word) : Bool := decide (a.toInt < b.toInt)
/-- Unsigned order of two words. -/
def uLt (a b : Word) : Bool := decide (a.toNat < b.toNat)
/-- A comparison as a word: 1 or 0. -/
def boolWord (b : Bool) : Word := if b then 1 else 0

/-- Two binary32 values of which one is NaN. -/
def unordered (a b : Word) : Bool := isNan a || isNan b
/-- Two binary32 values are equal; the zeros are. -/
def fEq (a b : Word) : Bool := !unordered a b && !fvLt false (f32v a) (f32v b) && !fvLt false (f32v b) (f32v a)
/-- Binary32 order. -/
def fLt (a b : Word) : Bool := !unordered a b && fvLt false (f32v a) (f32v b)

/-- The conditions of STEST (R41). -/
def condHolds (c : Cond) (a b : Word) : Bool :=
  match c with
  | .eq => decide (a = b)
  | .ne => decide (a ≠ b)
  | .lt => sLt a b
  | .ge => !sLt a b
  | .ltn => uLt a b
  | .gen => !uLt a b
  | .flt => fLt a b
  | .fge => !unordered a b && !fLt a b
  | .feq => fEq a b
  | .fne => !fEq a b
  | .fun_ => unordered a b
  | .tst => decide (a &&& b ≠ 0)
  | .ntst => decide (a &&& b = 0)

/-- The conditions that take a binary32 immediate (R41). -/
def condFp : Cond → Bool
  | .flt | .fge | .feq | .fne | .fun_ => true
  | _ => false

/-- A phase has moved on from the one a program read (R240). -/
def phaseMoved (phase was : Word) : Bool := decide (phase ≠ was)

/-- The slots filled and not yet freed, from the phases of the two barriers of a circular buffer (R250). -/
def slotsFilled (f e : Word) : Nat := (f - e).toNat

end Sys2Proof.Machine
end

