-- ==== Sys2Proof/Machine/Tab.lean ====
section
/-! DEFINITION. Sparse tables: lists of key and value pairs in one canonical form, keys strictly rising and no entry equal
to what an unlisted key reads as. Memory, register files and every array of units are held in them. -/

namespace Sys2Proof.Machine

/-- A sparse table. -/
abbrev Tab (α : Type) := List (Nat × α)

/-- The value at a key; an unlisted key reads as `d`. -/
def Tab.get {α : Type} (d : α) : Tab α → Nat → α
  | [], _ => d
  | (k, v) :: t, i => if i = k then v else Tab.get d t i

/-- The table without the entry at a key. -/
def Tab.erase {α : Type} : Tab α → Nat → Tab α
  | [], _ => []
  | (k, v) :: t, i => if i = k then Tab.erase t i else (k, v) :: Tab.erase t i

/-- The table with an entry put before the first greater key. -/
def Tab.insert {α : Type} : Tab α → Nat → α → Tab α
  | [], i, x => [(i, x)]
  | (k, v) :: t, i, x => if i ≤ k then (i, x) :: (k, v) :: t else (k, v) :: Tab.insert t i x

/-- The table with the value at a key replaced; writing `d` removes the entry. -/
def Tab.set {α : Type} [DecidableEq α] (d : α) (t : Tab α) (i : Nat) (x : α) : Tab α :=
  if x = d then t.erase i else (t.erase i).insert i x

/-- Every key is above `b`, keys rise strictly and no value equals `d`. -/
def Tab.wfFrom {α : Type} [DecidableEq α] (d : α) : Nat → Tab α → Bool
  | _, [] => true
  | b, (k, v) :: t => decide (b ≤ k) && decide (v ≠ d) && Tab.wfFrom d (k + 1) t

/-- The canonical form. -/
def Tab.wf {α : Type} [DecidableEq α] (d : α) (t : Tab α) : Bool := Tab.wfFrom d 0 t

/-- The table with the values at the keys `a`, `a + 1`, … replaced in turn. -/
def Tab.setMany {α : Type} [DecidableEq α] (d : α) (t : Tab α) (a : Nat) : List α → Tab α
  | [] => t
  | x :: xs => Tab.setMany d (Tab.set d t a x) (a + 1) xs

/-- The values at the keys `a` to `a + n - 1`. -/
def Tab.getMany {α : Type} (d : α) (t : Tab α) (a n : Nat) : List α := (List.range n).map fun i => Tab.get d t (a + i)

end Sys2Proof.Machine
end

