-- ==== Sys2Proof/Machine/State.lean ====
section
/-! DEFINITION. The state of the package: every register, store, queue and operation in progress the spec names, the
reasons a step can stop, and the state after reset. Plain data throughout. -/

namespace Sys2Proof.Machine

/-- The part sold (R1). -/
inductive Part where
  | ky1s | ky4p | ky4m
  deriving DecidableEq, Repr

/-- A warp of a workgroup, by warp index, or its access slice (R268, R285). -/
inductive Who where
  | warp (k : Nat)
  | slice
  deriving DecidableEq, Repr

/-- Which instruction stream: core, queue set of its workgroup, and the stream in the workgroup. -/
structure Ref where
  core : Nat
  set  : Nat
  who  : Who
  deriving DecidableEq, Repr

/-- A warp or slice the scheduler has selected, with the pipe and the other candidates; `second` marks the uniform pipe's second pick of
a cycle, and `again` is then the first pick's stream where its next instruction may issue beside the first (R298, R299). -/
structure Turn where
  ref    : Ref
  pipe   : Nat
  passed : List Ref
  second : Bool := false
  again  : Option Ref := none
  deriving DecidableEq, Repr

/-- What the last executed instruction did (model's own field): it retired, it stalled and issues again later, it was
replaced by a trap, or it issued and now waits for an event. -/
inductive Last where
  | retired | stalled | trapped | held
  deriving DecidableEq, Repr

/-! ### Warps -/

/-- One apply stack entry (R274, R357). `setv` is the applied set value whose reference the entry holds. -/
structure Entry where
  encl     : Lanes
  ret      : Word
  gathered : Bool
  chunk    : Nat
  base     : Nat
  nin      : Nat
  nout     : Nat
  setv     : DWord
  deriving DecidableEq, Repr

/-- The open gathered apply: its members in order, the issuing warp's own live-in rows, and the address of the block's
first word (R279). -/
structure Gather where
  members : List (Nat × Nat)
  buf     : List Row
  start   : Word
  deriving DecidableEq, Repr

/-- The state of a fibre register (R254). -/
inductive FibreKind where
  | closed | plain | merged
  deriving DecidableEq, Repr

/-- A fibre register (R254, R362). -/
structure Fibre where
  kind    : FibreKind
  coord   : DWord
  value   : DWord
  vlog    : Nat
  len     : Nat
  pos     : Nat
  valueB  : DWord
  vlogB   : Nat
  matched : List (Word × Nat × Nat)
  deriving DecidableEq, Repr

/-- A closed fibre register: the state at warp start (R264). -/
def Fibre.init : Fibre :=
  { kind := .closed, coord := 0, value := 0, vlog := 0, len := 0, pos := 0, valueB := 0, vlogB := 0, matched := [] }

/-- What a parked warp waits for (R240, R252, R324): the window offset of its barrier object, or of its buffer's
descriptor, and the value it waits with. -/
inductive Wait where
  | waitph (obj : Nat) (phase : Word)
  | join (obj : Nat) (phase : Word)
  | cbacq (obj : Nat) (count : Nat)
  deriving DecidableEq, Repr

/-- The states of a warp (R268); `absent` marks a warp index no warp has taken. A swapped warp without a wait was swapped
out of GROW (R303). -/
inductive Status where
  | absent
  | running
  | parked (w : Wait)
  | growing (n : Nat)
  | swapped (w : Option Wait)
  | ended
  deriving DecidableEq, Repr

/-- The last POLL of a warp: its address, S and the values it returned (R227, R362). -/
structure PollRec where
  pc   : Word
  mask : Lanes
  vals : List DWord
  deriving DecidableEq, Repr

/-- The deferred operation an active user handler deals with (R359). -/
inductive Deferred where
  | none
  | copyOrChain (op : Nat)
  | array (op : Nat)
  | stamp
  deriving DecidableEq, Repr

/-- One fault record (R357). `uni` marks one for a value that is uniform, beside records of lanes. `member` is the home position it names where that is not the one its lane carries: of a member whose home
register an apply moves (R281). -/
structure FaultRec where
  lane  : Nat
  cause : Cause
  addr  : DWord
  addr2 : Option DWord
  aux   : Word
  member : Option (Nat × Nat) := none
  uni   : Bool := false
  deriving DecidableEq, Repr

/-- A trap: its cause, the causes of all failing lanes, the records, where it stands and what it defers (R355 to R357); `sites` are the bad
places that it names (R366). -/
structure Trap where
  cause    : Cause
  causes   : List Cause
  recs     : List FaultRec
  unif     : Bool
  code     : BitVec 16
  site     : BitVec 2
  after    : Bool
  opc      : Option Word
  progress : DWord
  deferred : Deferred
  sites    : List RegSite := []
  deriving DecidableEq, Repr

/-- A cause that went to the supervisor and that the firmware has not yet answered, with its trap and the saved address
(R356, R413); `told` says that the host has let a stopped warp go on (R377). -/
structure Service where
  cause : Cause
  trap  : Trap
  epc   : Word
  told  : Bool
  deriving DecidableEq, Repr

/-- A warp: registers, counters, sets, apply stack, trap state and the scheduler's values for it (R22, R23, R264, R268,
R298, R346, R358, R362, R375). `ldOps` and `stOps` list what the counters `ld` and `st` count, oldest first, by issue number, with
whether it is complete (R49, R205); `area` is where its save area lies while it is swapped out (R302); `bad` lists the places of its
registers that fail their error check (R366); `issued` marks a warp that issued in the cycle in progress, whose gate falls from the next
one on (R298); `stuck` marks one whose last selection found its instruction not ready (R29, R379); `gatePc` is the POLL or YIELD that closed its gate (R379). -/
structure Warp where
  status    : Status
  slot      : Option Nat
  gran      : Nat
  prio      : Nat
  pc        : Word
  pfx       : Option (BitVec 24)
  v         : Tab Row
  g         : Tab Word
  sets      : Tab DWord
  fibres    : Tab Fibre
  ldOps     : List (Nat × Bool)
  stOps     : List (Nat × Bool)
  cp        : Nat
  tl        : Nat
  live      : Lanes
  cur       : Lanes
  stack     : List Entry
  gather    : Option Gather
  round     : BitVec 2
  tvec      : Word
  cause     : Word
  epc       : Word
  ftab      : DWord
  laststamp : DWord
  scause    : Word
  sepc      : Word
  sdom      : Nat
  priv      : Bool
  spriv     : Bool
  sactive   : Bool
  active    : Bool
  tbase     : Nat
  deferred  : Deferred
  service   : Option Service
  regions   : List (BitVec 16)
  level     : Nat
  boost     : Nat
  passed    : Nat
  gate      : Nat
  issued    : Bool
  gatePc    : Word
  poll      : Option PollRec
  watched   : List Nat
  hit       : Bool
  unchanged : Nat
  parked    : Nat
  swapDue   : Bool
  pin       : Option Nat
  wakeDue   : Bool
  requests  : Nat
  waiting   : Bool
  stuck     : Bool
  writers   : Tab Word
  area      : Option Nat
  bad       : List RegSite
  deriving DecidableEq, Repr

/-- A warp index no warp has taken. -/
def Warp.init : Warp where
  status := .absent
  slot := Option.none
  gran := 0
  prio := 0
  pc := 0
  pfx := Option.none
  v := []
  g := []
  sets := []
  fibres := []
  ldOps := []
  stOps := []
  cp := 0
  tl := 0
  live := 0
  cur := 0
  stack := []
  gather := Option.none
  round := 0
  tvec := 0
  cause := 0
  epc := 0
  ftab := 0
  laststamp := 0
  scause := 0
  sepc := 0
  sdom := 0
  priv := false
  spriv := false
  sactive := false
  active := false
  tbase := 0
  deferred := .none
  service := Option.none
  regions := []
  level := 0
  boost := 0
  passed := 0
  gate := 0
  issued := false
  gatePc := 0
  poll := Option.none
  watched := []
  hit := false
  unchanged := 0
  parked := 0
  swapDue := false
  pin := Option.none
  wakeDue := false
  requests := 0
  waiting := false
  stuck := false
  writers := []
  area := Option.none
  bad := []

/-! ### Engines -/

/-- A copy descriptor (R242). -/
structure CopyDesc where
  src        : DWord
  dstA       : DWord
  bar        : DWord
  index      : DWord
  rowbytes   : Nat
  rows       : Nat
  fromstride : Int
  tostride   : Int
  mode       : Nat
  zlog       : Nat
  toCb       : Bool
  signal     : Bool
  pattern    : Word
  pkg        : Option Nat
  deriving DecidableEq, Repr

/-- A chain descriptor (R165, R166). -/
structure ChainDesc where
  in0  : DWord
  in1  : DWord
  dst  : DWord
  bar  : DWord
  n    : Nat
  fmt0 : Nat
  fmt1 : Nat
  ofmt : Nat
  ops  : List (Nat × Nat × Word)
  deriving DecidableEq, Repr

/-- What a copy engine runs. -/
inductive CpKind where
  | copy (d : CopyDesc)
  | chain (d : ChainDesc)
  deriving DecidableEq, Repr

/-- A recorded fault of an engine or array operation (R163, R247). -/
structure OpFault where
  cause : Cause
  addr  : DWord
  addr2 : Option DWord
  superv : Bool
  deriving DecidableEq, Repr

/-- A copy or chain in progress, with the one of the core's two copy engines that holds it (R205, R241, R244, R247, R251). -/
structure CpOp where
  id     : Nat
  engine : Nat
  ref    : Ref
  dom    : Nat
  pc     : Word
  scope  : Scope
  kind   : CpKind
  landed : List (Nat × Nat)
  acked  : List (Nat × Nat)
  started : Bool
  slotOf : Option Nat
  pieces : Nat
  done   : Nat
  fault  : Option OpFault
  complete : Bool
  deriving DecidableEq, Repr

/-- A LOADW descriptor (R151). -/
structure LoadwDesc where
  src        : DWord
  colstride  : Nat
  fmt        : Nat
  scaled     : Bool
  scales     : DWord
  scalebytes : Nat
  deriving DecidableEq, Repr

/-- An MLOOP descriptor (R154). -/
structure MloopDesc where
  act         : DWord
  rowstride   : Nat
  kstride     : Nat
  afmt        : Nat
  scaled      : Bool
  masked      : Bool
  rows        : Nat
  period      : Nat
  steps       : Nat
  tile        : Nat
  latch       : Nat
  ascales     : DWord
  ascalebytes : Nat
  deriving DecidableEq, Repr

/-- The array operations, and the mask change that keeps its place among them (R144, R157). -/
inductive ArrKind where
  | loadw (d : LoadwDesc) (latch : Nat)
  | mloop (d : MloopDesc)
  | tzero (tile : Nat)
  | mmask (block : List Byte)
  deriving DecidableEq, Repr

/-- One entry of the array sequencer (R144, R163); `loaded` marks a load that has filled its latch beside the running loop and waits to
retire in issue order (R164). -/
structure ArrOp where
  ref   : Ref
  pc    : Word
  seqNo : Nat
  kind  : ArrKind
  raw   : List Byte
  fault : Option OpFault
  loaded : Bool
  deriving DecidableEq, Repr

/-- One weight latch (R141, R152): its format, elements, scales and the descriptor of its last load; `cells` lists the
elements of column 0, then of column 1, and so on, as raw element codes; an empty list stands for zeros. -/
structure Latch where
  fmt    : Nat
  cells  : List Nat
  scales : List Nat
  desc   : Option (LoadwDesc × List Byte)
  empty  : Bool
  deriving DecidableEq, Repr

/-- A fresh latch: `e4m3` zeros with scale 127 (R142). -/
def Latch.init : Latch := { fmt := 0xB, cells := [], scales := [], desc := Option.none, empty := false }

/-- The row-progress register (R156). -/
structure Progress where
  valid    : Bool
  promoted : BitVec 16
  done     : BitVec 16
  row      : BitVec 8
  deriving DecidableEq, Repr

/-- The array state of a core (R141), the waiting claims (R142), the warps whose TCFG, TREL or slice instruction waits in the sequencer's
order (R144, R150, R164), and the tile rows and IAS columns that fail their error check (R366). -/
structure ArrayState where
  holder   : Option Nat
  claims   : List Nat
  cfg      : Nat
  live     : BitVec 16
  tiles    : Tab Word
  latches  : Tab Latch
  mask     : List Byte
  ias      : Tab (BitVec 24)
  progress : Progress
  ops      : List ArrOp
  refresh  : Bool
  waiters  : List Ref
  badRows  : List (Nat × Nat)
  badIas   : List Nat
  deriving DecidableEq, Repr

/-- An array state that no workgroup holds (R142). -/
def ArrayState.init : ArrayState where
  holder := Option.none
  claims := []
  cfg := 0
  live := 0
  tiles := []
  latches := []
  mask := []
  ias := []
  progress := { valid := false, promoted := 0, done := 0, row := 0 }
  ops := []
  refresh := false
  waiters := []
  badRows := []
  badIas := []

/-! ### Workgroups -/

/-- A marked row of an access slice: cause, faulting address and the ALD's address (R286). -/
structure Mark where
  cause : Cause
  addr  : DWord
  pc    : Word
  deriving DecidableEq, Repr

/-- One row of a queue register; a marked one stands for a fault of the access slice, a bad one fails its error check (R284,
R286, R366). -/
structure QRow where
  row  : Row
  mark : Option Mark
  bad  : Bool
  deriving DecidableEq, Repr

/-- A queue register: its rows, oldest first, the index of its head row, and the address of the instruction that last pushed
into it (R284, R363, R379). -/
structure Queue where
  head : Nat
  rows : List QRow
  last : Word
  deriving DecidableEq, Repr

/-- An empty queue. -/
def Queue.init : Queue := { head := 0, rows := [], last := 0 }

/-- A bound shadow window (R186, R248). -/
structure Window where
  base  : DWord
  index : DWord
  count : Nat
  zlog  : Nat
  wide  : Bool
  deriving DecidableEq, Repr

/-- An ALD in flight (R286), with its issue number. -/
structure AldOp where
  q    : Nat
  seqNo : Nat
  addr : DWord
  pc   : Word
  deriving DecidableEq, Repr

/-- The access slice, with its boost and passed count, and the places of its registers that fail their error check (R285, R298, R299,
R366). -/
structure Slice where
  present  : Bool
  pc       : Word
  g        : Tab Word
  halted   : Bool
  pending  : Option AldOp
  faulted  : Option Mark
  pfx      : Option (BitVec 24)
  waiting  : Bool
  boost    : Nat
  passed   : Nat
  bad      : List RegSite
  deriving DecidableEq, Repr

/-- No access slice. -/
def Slice.init : Slice :=
  { present := false
    pc := 0
    g := []
    halted := false
    pending := Option.none
    faulted := Option.none
    pfx := Option.none
    waiting := false
    boost := 0
    passed := 0
    bad := [] }

/-- One byte of an access: its physical address, the owner it is checked under and whether it is reached through L1
(R171, R192, R333). -/
structure BRef where
  pa     : Nat
  dom    : Nat
  epoch  : Nat
  tagged : Bool
  cached : Bool
  stamp  : Nat
  deriving DecidableEq, Repr

/-- One entry of a deterministic partial table (R168): the number of its target, its virtual address with the reference of its first byte as
the ATOM found it, the warp and its partial. -/
structure Partial where
  addr : Nat
  va   : Nat
  ref  : BRef
  warp : Nat
  val  : Word
  deriving DecidableEq, Repr

/-- The modes of the order log (R293). -/
inductive LogMode where
  | off | record | replay
  deriving DecidableEq, Repr

/-- A workgroup resident on a core's queue set (R263, R266, R329). -/
structure Workgroup where
  present  : Bool
  dom      : Nat
  launch   : Nat
  index    : Word
  prio     : Nat
  det      : Bool
  log      : LogMode
  seq      : Nat
  warpsN   : Nat
  gran     : Nat
  inhlo    : Nat
  inhn     : Nat
  granules : List Nat
  qsram    : Nat
  setheap  : Nat
  epoch    : Nat
  tags     : Tab Bool
  heapUsed : Tab Bool
  queues   : Tab Queue
  windows  : Tab (Option Window)
  warps    : Tab Warp
  slice    : Slice
  partials : List Partial
  redEpoch : Nat
  holds    : Nat
  spawned  : Nat
  savedArray : Option ArrayState
  deriving DecidableEq, Repr

/-- A free queue set. -/
def Workgroup.init : Workgroup where
  present := false
  dom := 0
  launch := 0
  index := 0
  prio := 0
  det := false
  log := .off
  seq := 0
  warpsN := 0
  gran := 0
  inhlo := 0
  inhn := 0
  granules := []
  qsram := 0
  setheap := 0
  epoch := 0
  tags := []
  heapUsed := []
  queues := []
  windows := []
  warps := []
  slice := Slice.init
  partials := []
  redEpoch := 0
  holds := 0
  spawned := 0
  savedArray := Option.none

/-! ### Memory accesses in flight -/

/-- One lane of an access: the lane, the threads in whose program order it stands (R192), its bytes, lowest address first, and
the data it stores. -/
structure LaneAcc where
  lane : Nat
  threads : List Nat
  addr : DWord
  refs : List BRef
  data : List Byte
  deriving DecidableEq, Repr

/-- What an access in flight is (R222). -/
inductive FlightKind where
  | load | poll | store | atom | sld | sst | fget
  deriving DecidableEq, Repr

/-- Where a load's value goes. -/
inductive Dest where
  | none
  | lanes (d : Reg) (regs : Nat)
  | uni (d : Reg) (regs : Nat)
  | setReg (sd : Nat)
  deriving DecidableEq, Repr

/-- A memory access in flight (R193, R222, R226). `got` holds the bytes of it that have been performed by themselves (R195), byte `i`
of its `k`-th lane under `16 k + i`. -/
structure Flight where
  ref    : Ref
  kind   : FlightKind
  seqNo  : Nat
  pc     : Word
  mask   : Lanes
  dest   : Dest
  size   : Nat
  sign   : Bool
  lanes  : List LaneAcc
  direct : Bool
  order  : Order
  scope  : Scope
  cache  : Cache
  rp     : Bool
  noret  : Bool
  window : Option Nat
  vals   : Tab DWord
  left   : Nat
  got    : Tab (Option Byte)
  deriving DecidableEq, Repr

/-- A release or an acquire of a thread's program order, kept while an access older than it is outstanding: direct accesses on its
two sides are performed in order (R202). -/
structure Sep where
  set     : Nat
  seqNo   : Nat
  threads : List Nat
  deriving DecidableEq, Repr

/-- An LDAS held at the vault controllers (R216): the warp issues nothing until it is answered. `got` holds the lanes answered, with
the bytes of the version each receives, or none where its line retains no such version. -/
structure LdasOp where
  ref   : Ref
  seqNo : Nat
  t     : Nat
  dest  : Reg
  size  : Nat
  pc    : Word
  next  : Word
  mask  : Lanes
  lanes : List LaneAcc
  got   : List (Nat × Option (List Byte))
  deriving DecidableEq, Repr

/-- A request to an atomic service warp: one group of lanes of one ATOM at one location (R229, R230, R365). -/
structure MReq where
  ref    : Ref
  slot   : Nat
  req    : Nat
  seqNo  : Nat
  op     : AtomOp
  size   : Nat
  refs   : List BRef
  /-- What the lanes performed so far returned. -/
  served : List (Nat × DWord)
  /-- The lanes that are left. -/
  lanes  : List (Nat × DWord × DWord)
  launch : Nat
  index  : Word
  dom    : Nat
  log    : LogMode
  deriving DecidableEq, Repr

/-- A result the atomic service warp keeps until its reply is acknowledged (R365). -/
structure MResult where
  ref   : Ref
  slot  : Nat
  req   : Nat
  seqNo : Nat
  vals  : List (Nat × DWord)
  deriving DecidableEq, Repr

/-- One line of a core's L1: 128 bytes, which are held and which are dirty, and the domain it is tagged with (R185,
R332). -/
structure L1Line where
  line  : Nat
  dom   : Nat
  epoch : Nat
  have_ : BitVec 128
  dirty : BitVec 128
  data  : List Byte
  deriving DecidableEq, Repr

/-- A cached translation (R338, R351); `dirty` says that its table entry is marked as stored through (R336). -/
structure TlbEntry where
  dom   : Nat
  space : Nat
  vpn   : Nat
  size  : Nat
  pa    : Nat
  epoch : Nat
  attr  : Nat
  user  : Bool
  w     : Bool
  rd    : Bool
  pte   : Nat
  dirty : Bool
  deriving DecidableEq, Repr

/-! ### Work records -/

/-- The kinds of a continuation record (R262). -/
inductive RecKind where
  | start | spawned | resume | preempted
  deriving DecidableEq, Repr

/-- A launch record whose fields have been checked (R260). -/
structure LaunchRec where
  xcode   : Word
  acode   : Option Word
  frame   : DWord
  gridm1  : Nat
  warps   : Nat
  gran    : Nat
  inhlo   : Nat
  inhn    : Nat
  qsram   : Nat
  setheap : Nat
  done    : DWord
  prio    : Nat
  det     : Bool
  deriving DecidableEq, Repr

/-- Where a grid's completion goes, resolved at issue (R267, R390). -/
structure DoneTarget where
  dom   : Nat
  ref   : Option Ref
  vector : Nat
  link  : Nat
  deriving DecidableEq, Repr

/-- A continuation record (R262). `launchRec` carries what a workgroup start needs. -/
structure Rec where
  kind  : RecKind
  code  : Word
  join  : Word
  frame : DWord
  launch : Nat
  index : Word
  seq   : Nat
  prio  : Nat
  det   : Bool
  warp  : Nat
  set   : Nat
  dom   : Nat
  log   : LogMode
  lrec  : Option LaunchRec
  deriving DecidableEq, Repr

/-- A launch that waits for acceptance (R288). -/
structure LaunchReq where
  lrec : LaunchRec
  tgt  : DoneTarget
  srcCore : Option Nat
  deriving DecidableEq, Repr

/-- An accepted launch (R261, R267, R289). -/
structure Launch where
  number : Nat
  lrec   : LaunchRec
  tgt    : DoneTarget
  dom    : Nat
  det    : Bool
  log    : LogMode
  home   : Nat
  pushed : Nat
  ended  : Nat
  flushed : List (Nat × Nat)
  closed : Nat
  area   : List (Nat × Nat × Partial)
  deriving DecidableEq, Repr

/-- Registers kept for an inheritance chain, with the epoch of their owner tags and the places that fail their error check (R283, R333,
R366). -/
structure Kept where
  dom   : Nat
  epoch : Nat
  warps : Nat
  inhlo : Nat
  inhn  : Nat
  rows  : List (Nat × Nat × Row)
  bad   : List (Nat × RegSite)
  deriving DecidableEq, Repr

/-! ### Cores, quads, dies, vaults, domains -/

/-- A core (R13, R17, R387). `epochs` is the counter from which its allocations take their epoch; `regTags` holds the owner tags of
its register granules, that of granule `i` of warp `w` of queue set `k` under `24 (16 k + w) + i`, and `tileTag` that of its tile store
(R333); `badWords` are the words of its instruction memory that fail their error
check (R366). -/
structure Core where
  imem      : Tab Word
  owners    : Tab GranOwner
  wgs       : Tab Workgroup
  keptRegs  : List Kept
  queues    : Tab (List Rec)
  backing   : Tab (List Rec)
  reserved  : List Rec
  heldBack  : List Rec
  pendingL  : List LaunchReq
  backL     : List LaunchReq
  svec      : Word
  swapwait  : Nat
  strap     : DWord
  savebase  : DWord
  backbase  : DWord
  backsize  : Nat
  share     : List (Nat × Nat)
  credits   : Tab Int
  wsel      : Nat
  praddr    : DWord
  prwg      : DWord
  prhold    : Bool
  prstatus  : Nat
  preempt   : Option Nat
  l1        : List L1Line
  tlb       : List TlbEntry
  flights   : List Flight
  seps      : List Sep
  ldas      : List LdasOp
  cpops     : List CpOp
  array     : ArrayState
  growStall : Nat
  sampled   : Tab Nat
  sampleAt  : Tab Nat
  epochs    : Nat
  regTags   : Tab (Nat × Nat)
  tileTag   : Nat × Nat
  badWords  : List Nat
  deriving DecidableEq, Repr

/-- A core after reset: `cr.swapwait` holds 100,000 (R301); the rest is empty or zero. -/
def Core.init : Core where
  imem := []
  owners := []
  wgs := []
  keptRegs := []
  queues := []
  backing := []
  reserved := []
  heldBack := []
  pendingL := []
  backL := []
  svec := 0
  swapwait := 100000
  strap := 0
  savebase := 0
  backbase := 0
  backsize := 1536
  share := []
  credits := []
  wsel := 0
  praddr := 0
  prwg := 0
  prhold := false
  prstatus := 0
  preempt := Option.none
  l1 := []
  tlb := []
  flights := []
  seps := []
  ldas := []
  cpops := []
  array := ArrayState.init
  growStall := 0
  sampled := []
  sampleAt := []
  epochs := 0
  regTags := []
  tileTag := (0, 0)
  badWords := []

/-- A quad (R13, R230, R331, R391). -/
structure Quad where
  used    : Tab Bool
  epochs  : Nat
  mitten  : List MReq
  results : List MResult
  tlb     : List TlbEntry
  slots   : List (Option Nat)
  astat   : Nat
  areason : Nat
  parked  : Bool
  awake   : Bool
  deriving DecidableEq, Repr

/-- A quad after reset: no domain, running (R331, R391). -/
def Quad.init : Quad where
  used := []
  epochs := 0
  mitten := []
  results := []
  tlb := []
  slots := []
  astat := 0
  areason := 0
  parked := false
  awake := true

/-- The interval clock unit of a die (R212). `floor_` is F; `at_` is the timestamp of the last change. -/
structure Lantern where
  beaconed : Bool
  earliest : Nat
  latest   : Nat
  floor_   : Nat
  at_      : Nat
  deriving DecidableEq, Repr

/-- The interval clock after reset: 0 and 2^64 - 1 (R212). -/
def Lantern.init : Lantern := { beaconed := false, earliest := 0, latest := 2 ^ 64 - 1, floor_ := 0, at_ := 0 }

/-- An error log entry (R389). -/
structure ErrEntry where
  time : Nat
  addr : DWord
  cause : BitVec 8
  kind : Nat
  dom  : Nat
  unit : Nat
  deriving DecidableEq, Repr

/-- A fabric port (R394). -/
structure Port where
  up   : Bool
  peer : Nat
  replays : Nat
  deriving DecidableEq, Repr

/-- A trap that goes to a die's supervisor core: its cause, the address and the domain it names (R367). -/
structure SupTrap where
  cause : Cause
  addr  : DWord
  dom   : Nat
  deriving DecidableEq, Repr

/-- A die: supervisor core, interval clock, launch sequencer, weight store window and calendar, power, heat, error log and fabric (R184,
R213, R289, R353, R389, R391 to R394). `refreshed` holds the time of each weight bank's last refresh (R184). -/
structure Die where
  lantern  : Lantern
  clkw     : Nat
  phase    : Nat
  refreshed : Tab Nat
  events   : Word
  superv   : List SupTrap
  rotation : Nat
  errlog   : List ErrEntry
  errcount : Nat
  mailbox  : DWord
  mailback : DWord
  weightDom : Option Nat
  zones    : Tab Nat
  alerted  : BitVec 16
  retained : BitVec 16
  valves   : Tab (Byte × Byte × Byte)
  talert   : Nat
  tretainC : Nat
  tretainS : Nat
  tripped  : Bool
  target   : Nat × Nat
  inForce  : Nat × Nat
  refused  : Bool
  clkBusy  : Bool
  pthrot   : Nat
  ports    : Tab Port
  deriving DecidableEq, Repr

/-- A die after reset: W is 100 ns (R213), the refresh phase 0 (R184), the alert threshold 95 °C, the retention
limit 95 °C and 60 s (R392). -/
def Die.init : Die where
  lantern := Lantern.init
  clkw := 100
  phase := 0
  refreshed := []
  events := 0
  superv := []
  rotation := 0
  errlog := []
  errcount := 0
  mailbox := 0
  mailback := 0
  weightDom := Option.none
  zones := []
  alerted := 0
  retained := 0
  valves := []
  talert := 95
  tretainC := 95
  tretainS := 60
  tripped := false
  target := (1900, 500)
  inForce := (1900, 500)
  refused := false
  clkBusy := false
  pthrot := 0
  ports := []

/-- A vault controller (R175 to R178). `qseq` numbers the first access that is new to a quiesce (R177); `moveTo` is the map that the
current or stopped move makes (R176, R178). -/
structure Vault where
  vbmap   : BitVec 64
  vbnext  : BitVec 64
  quiesce : Bool
  qseq    : Nat
  qdone   : Bool
  busy    : Bool
  status  : Nat
  moved   : Nat
  moveTo  : BitVec 64
  risk    : BitVec 64
  deriving DecidableEq, Repr

/-- A vault controller after the boot sequence has built its map with every bank live (R174, R175). -/
def Vault.init : Vault :=
  { vbmap := BitVec.allOnes 64
    vbnext := 0
    quiesce := false
    qseq := 0
    qdone := false
    busy := false
    status := 0
    moved := 0
    moveTo := 0
    risk := 0 }

/-- One version of a stamped line: its key, stamp first and then origin die, and its 64 bytes (R215). -/
structure Version where
  stamp : Nat
  die   : Nat
  data  : List Byte
  visible : Bool
  deriving DecidableEq, Repr

/-- A version on its way to its line or waiting to become visible (R214). -/
structure Pending where
  line   : Nat
  limit  : Nat
  stamp  : Nat
  die    : Nat
  ref    : Ref
  pc     : Word
  seqNo  : Nat
  bytes  : List (Nat × Byte)
  arrived : Bool
  dropped : Bool
  dom    : Nat
  epoch  : Nat
  threads : List Nat
  deriving DecidableEq, Repr

/-- A mapping that the supervisor holds for a page or window block of a domain while the entry that maps it is not yet written
(R413): its first address, its bytes, and where the entry stands with the value it gets. -/
structure Mapping where
  va    : Nat
  size  : Nat
  entry : Nat
  value : DWord
  deriving DecidableEq, Repr

/-- A protection domain; `stops` are the stops reported to the host (R377), `holds` the mappings the supervisor holds (R413), `epoch` is its
owner epoch, the newest that an entry of its tables carries (R329, R342, R347, R370, R380, R387). `tnext` is the place of the next trace
record, `twptr` the one that TWPTR shows: behind the
last record performed (R381). -/
structure Domain where
  exists_  : Bool
  tscale   : Word
  toffset  : DWord
  tmode    : Bool
  tcmp     : DWord
  lastTime : DWord
  force    : Bool
  log      : LogMode
  doorbell : Bool
  ptbase   : DWord
  hptbase  : DWord
  vwbase   : DWord
  keyValid : Bool
  key      : BitVec 512
  measure  : BitVec 512
  epoch    : Nat
  stop     : Bool
  stopAt   : Nat
  octl     : Word
  tbuf     : DWord
  tsize    : Nat
  tnext    : Nat
  twptr    : Nat
  tlost    : Nat
  barm     : Tab Word
  counters : Tab DWord
  logbase  : DWord
  logsize  : DWord
  logNext  : Nat
  logFrom  : Nat
  cursors  : List (List Nat × Nat)
  overflow : Bool
  diverged : Bool
  ended    : List (Nat × Word × Cause × DWord)
  stops    : List (Nat × Word × Nat × Word × Word)
  holds    : List Mapping
  deriving DecidableEq, Repr

/-- A domain id that no domain holds. -/
def Domain.init : Domain where
  exists_ := false
  tscale := 0x00010000
  toffset := 0
  tmode := false
  tcmp := BitVec.allOnes 64
  lastTime := 0
  force := false
  log := .off
  doorbell := false
  ptbase := 0
  hptbase := 0
  vwbase := 0
  keyValid := false
  key := 0
  measure := 0
  epoch := 0
  stop := false
  stopAt := 0
  octl := 0
  tbuf := 0
  tsize := 0
  tnext := 0
  twptr := 0
  tlost := 0
  barm := []
  counters := []
  logbase := 0
  logsize := 0
  logNext := 0
  logFrom := 0
  cursors := []
  overflow := false
  diverged := false
  ended := []
  stops := []
  holds := []

/-- The states of BOOTSTAT (R388). -/
inductive Boot where
  | awaiting | loading | verified | failed | ready
  deriving DecidableEq, Repr

/-- A host push in the admission queue (R390). -/
structure Push where
  recVa  : DWord
  dom    : Nat
  vector : Nat
  tag    : DWord
  link   : Nat
  deriving DecidableEq, Repr

/-- The owner tag of a 64-byte granule: domain and epoch (R333). -/
abbrev Tag := Nat × Nat

/-- A granule landed on another package, on its way and acknowledged (R246). -/
structure FabricOut where
  pkg   : Nat
  dom   : Nat
  addr  : DWord
  bytes : List Byte
  deriving DecidableEq, Repr

/-- A write of the device, to a trace buffer or an area, that waits until its vault takes it (R177); `trace` names the domain whose trace
record it is (R381). -/
structure Delayed where
  refs  : List BRef
  bytes : List Byte
  trace : Option Nat
  deriving DecidableEq, Repr

/-- A page that the supervisor has made stamped: its place, its size, and the bytes and owner tags of its lines at that moment, which stand
under the key (0, 0) (R215). -/
structure StampedPage where
  pa    : Nat
  size  : Nat
  cells : List Host.Cell
  tags  : Tab Tag
  deriving DecidableEq, Repr

/-- An image loaded into a domain: its handle, its code base and size, the address of each section it mapped, and the table entries that
map them (R84, R85). -/
structure Image where
  handle : Nat
  dom    : Nat
  base   : Nat
  size   : Nat
  sections : List (Nat × Nat)
  entries  : List Nat
  deriving DecidableEq, Repr

/-- What the supervisor answers to the host's request to load an image (R84). -/
inductive LoadReply where
  | none | format | imem | loaded (handle : Nat)
  deriving DecidableEq, Repr

/-- The package. `bad` lists the bytes of memory that fail their error check (R366); `delayed` the device's writes that a quiesced
vault holds (R177); `msixTable` and `msixPending` are the MSI-X tables and pending bits of the links (R384); `attested` is the last
report made for the host (R345); `pages` are the stamped pages with what they held (R215); `images` the images loaded, and `reply` the
answer to the last request to load one (R84). -/
structure State where
  part      : Part
  mem       : List Host.Cell
  bad       : List Nat
  tags      : Tab Tag
  stamped   : Tab (List Version)
  pages     : List StampedPage
  pending   : List Pending
  cores     : Tab Core
  quads     : Tab Quad
  dies      : Tab Die
  vaults    : Tab Vault
  domains   : Tab Domain
  launches  : List Launch
  nextLaunch : Nat
  nextSeq   : Nat
  nextIssue : Nat
  admission : List Push
  admbad    : Nat
  admref    : DWord
  admreason : Nat
  fwaddr    : DWord
  fwlen     : Word
  boot      : Boot
  bootReason : Nat
  windows   : Tab (Nat × Nat × Bool)
  podix     : Nat
  bcnsrc    : Bool
  hbeacon   : DWord
  hbeaconu  : Word
  pcap      : Nat
  pmeas     : Nat
  ptable    : List (Nat × Nat)
  msix      : List (Nat × Nat)
  msixTable : Tab DWord
  msixPending : Tab Bool
  hostRead  : List Byte
  fwDigest  : BitVec 512
  attested  : List Byte
  images    : List Image
  nextImage : Nat
  reply     : LoadReply
  delayed   : List Delayed
  fabric    : List FabricOut
  beaconsOut : List (Nat × Nat)
  time      : Nat
  pace      : List Nat
  turn      : List Turn
  script    : List Instr
  sweep     : List Instr
  chooser   : Nat
  last      : Last
  deriving DecidableEq, Repr

/-- Why the machine stops. Neither is raised by an instruction the spec gives an effect. -/
inductive Fault where
  /-- Raised by the meaning of an instruction word when no warp is selected to issue it, which a step never asks: safe. -/
  | noWarp
  deriving DecidableEq, Repr

/-- Why an instruction has no meaning. -/
inductive Refusal where
  /-- Raised by the dispatcher for an instruction that has no meaning yet: safe. -/
  | notModelled (mnemonic : String)
  deriving DecidableEq, Repr

/-- The outcome of a step. -/
abbrev Out := Host.Outcome State Fault Refusal

/-- What an unlisted byte of memory reads as: zero (log entry 2). -/
def Memory.blank : Byte := 0

/-- The canonical form of memory: addresses strictly rising, no byte equal to what an unlisted address reads as. -/
def Memory.wf (m : List Host.Cell) : Bool := Tab.wf Memory.blank m

/-- The state after reset (R388): every die in Boot, all state lost. The cap `pcap` starts at the nominal power of R21, which the
spec does not state as its reset value (log entry 24, DESIGN CHOICE). -/
def State.reset : State where
  part := .ky4p
  mem := []
  bad := []
  tags := []
  stamped := []
  pages := []
  pending := []
  cores := []
  quads := []
  dies := []
  vaults := []
  domains := []
  launches := []
  nextLaunch := 1
  nextSeq := 0
  nextIssue := 1
  admission := []
  admbad := 0
  admref := 0
  admreason := 0
  fwaddr := 0
  fwlen := 0
  boot := .awaiting
  bootReason := 0
  windows := []
  podix := 0
  bcnsrc := false
  hbeacon := 0
  hbeaconu := 0
  pcap := 1500
  pmeas := 0
  ptable := [(1900, 500)]
  msix := []
  msixTable := []
  msixPending := []
  hostRead := []
  fwDigest := 0
  attested := []
  images := []
  nextImage := 1
  reply := .none
  delayed := []
  fabric := []
  beaconsOut := []
  time := 0
  pace := []
  turn := []
  script := []
  sweep := []
  chooser := 0
  last := .retired

end Sys2Proof.Machine
end

