-- ==== Sys2Proof/Machine/Units.lean ====
section
/-! DEFINITION. Reading and replacing the units of the package: cores, workgroups, warps, quads, dies, vaults and domains,
and the indices that relate them (R16). -/

namespace Sys2Proof.Machine

/-! ### Indices (R16) -/

/-- The number of dies of the part (R1). -/
def State.dieCount (s : State) : Nat := match s.part with
  | .ky1s => 1
  | _ => 4

/-- The die is there (R1). -/
def State.hasDie (s : State) (d : Nat) : Bool := decide (d < s.dieCount)

/-- The die of a core or vault (R16). -/
def dieOf (core : Nat) : Nat := core / 64

/-- The quad index in the package of a core (R16). -/
def quadOf (core : Nat) : Nat :=
  let p := core % 64
  (core / 64) * 16 + (p / 8 / 2) * 4 + (p % 8) / 2

/-- How a controller of a die stands (R1, R2). -/
inductive UnitState where
  | absent | heldInReset | enabled
  deriving DecidableEq, Repr

/-- The host link controller of a die: those of dies 2 and 3 are not bonded out (R1, R2). -/
def State.hostLink (s : State) (d : Nat) : UnitState := if s.hasDie d && decide (d < 2) then .enabled else .absent

/-- The three die-to-die link controllers of a die: a KY-1S does not bond them out (R2). -/
def State.dieLink (s : State) (d k : Nat) : UnitState :=
  if s.hasDie d && decide (k < 3) && decide (s.part ≠ .ky1s) then .enabled else .absent

/-- The PMC of a die: that of die 0 runs, those of the other dies are held in reset (R1, R2). -/
def State.pmc (s : State) (d : Nat) : UnitState :=
  if s.hasDie d then (if d = 0 then .enabled else .heldInReset) else .absent

/-- A fabric port of the part: four on each die (R1, R2). -/
def State.hasPort (s : State) (d port : Nat) : Bool := s.hasDie d && decide (port < 4)

/-- The cores of a quad, ascending (R16). -/
def coresOf (quad : Nat) : List Nat :=
  let d := quad / 16
  let q := quad % 16
  let base := d * 64 + (q / 4) * 16 + (q % 4) * 2
  [base, base + 1, base + 8, base + 9]

/-- The other cores of a core's quad (R296). -/
def quadMates (core : Nat) : List Nat := (coresOf (quadOf core)).filter fun c => decide (c ≠ core)

/-- A route to the other packages is live. The spec gives the routes of the fabric no form of their own: the model takes a port that is up for
one to every package (R394; log entry 110, DESIGN CHOICE). -/
def State.routed (s : State) : Bool := (List.range s.dieCount).any fun d => (Tab.get Die.init s.dies d).ports.any fun p => p.2.up

/-- The value after one of a 14-bit epoch counter (R333). -/
def nextEpoch (n : Nat) : Nat := (n + 1) % 2 ^ 14

/-! ### Units -/

/-- A core. -/
def State.core (s : State) (c : Nat) : Core := Tab.get Core.init s.cores c
/-- A core replaced. -/
def State.setCore (s : State) (c : Nat) (x : Core) : State := { s with cores := Tab.set Core.init s.cores c x }
/-- A core changed. -/
def State.modCore (s : State) (c : Nat) (f : Core → Core) : State := s.setCore c (f (s.core c))
/-- A quad. -/
def State.quad (s : State) (q : Nat) : Quad := Tab.get Quad.init s.quads q
/-- A quad changed. -/
def State.modQuad (s : State) (q : Nat) (f : Quad → Quad) : State :=
  { s with quads := Tab.set Quad.init s.quads q (f (s.quad q)) }
/-- A die. -/
def State.die (s : State) (d : Nat) : Die := Tab.get Die.init s.dies d
/-- A die changed. -/
def State.modDie (s : State) (d : Nat) (f : Die → Die) : State := { s with dies := Tab.set Die.init s.dies d (f (s.die d)) }
/-- A vault controller. -/
def State.vault (s : State) (v : Nat) : Vault := Tab.get Vault.init s.vaults v
/-- A vault controller changed. -/
def State.modVault (s : State) (v : Nat) (f : Vault → Vault) : State :=
  { s with vaults := Tab.set Vault.init s.vaults v (f (s.vault v)) }
/-- A protection domain. -/
def State.dom (s : State) (d : Nat) : Domain := Tab.get Domain.init s.domains d
/-- A protection domain changed. -/
def State.modDom (s : State) (d : Nat) (f : Domain → Domain) : State :=
  { s with domains := Tab.set Domain.init s.domains d (f (s.dom d)) }

/-- The workgroup of a queue set. -/
def State.wg (s : State) (c k : Nat) : Workgroup := Tab.get Workgroup.init (s.core c).wgs k
/-- The workgroup of a queue set replaced. -/
def State.setWg (s : State) (c k : Nat) (x : Workgroup) : State :=
  s.modCore c fun co => { co with wgs := Tab.set Workgroup.init co.wgs k x }
/-- The workgroup of a queue set changed. -/
def State.modWg (s : State) (c k : Nat) (f : Workgroup → Workgroup) : State := s.setWg c k (f (s.wg c k))

/-- A warp of a workgroup. -/
def Workgroup.warp (w : Workgroup) (k : Nat) : Warp := Tab.get Warp.init w.warps k
/-- A warp of a workgroup replaced. -/
def Workgroup.setWarp (w : Workgroup) (k : Nat) (x : Warp) : Workgroup :=
  { w with warps := Tab.set Warp.init w.warps k x }
/-- The warps of a workgroup, by ascending index. -/
def Workgroup.warpIdx (w : Workgroup) : List Nat := w.warps.map Prod.fst

/-- A warp by core, queue set and warp index. -/
def State.warpAt (s : State) (c k w : Nat) : Warp := (s.wg c k).warp w
/-- A warp changed. -/
def State.modWarpAt (s : State) (c k w : Nat) (f : Warp → Warp) : State :=
  s.modWg c k fun g => g.setWarp w (f (g.warp w))

/-- The workgroup of an instruction stream. -/
def State.wgOf (s : State) (r : Ref) : Workgroup := s.wg r.core r.set
/-- The workgroup of an instruction stream changed. -/
def State.modWgOf (s : State) (r : Ref) (f : Workgroup → Workgroup) : State := s.modWg r.core r.set f

/-- The warp of an instruction stream; an access slice has none. -/
def State.warp (s : State) (r : Ref) : Warp :=
  match r.who with
  | .warp k => s.warpAt r.core r.set k
  | .slice => Warp.init
/-- The warp of an instruction stream changed. -/
def State.modWarp (s : State) (r : Ref) (f : Warp → Warp) : State :=
  match r.who with
  | .warp k => s.modWarpAt r.core r.set k f
  | .slice => s
/-- The access slice of an instruction stream's workgroup changed. -/
def State.modSlice (s : State) (r : Ref) (f : Slice → Slice) : State :=
  s.modWgOf r fun g => { g with slice := f g.slice }

/-- What counter `ld` holds: the loads it counts that have not left it in issue order (R49, R205, R222). -/
def Warp.ld (w : Warp) : Nat := w.ldOps.length
/-- What counter `st` holds (R49, R205, R222). -/
def Warp.st (w : Warp) : Nat := w.stOps.length

/-- The warp index of a stream (R22). An access slice is no warp and the spec gives it no index: `warpix` reads 0 there (log entry 70,
DESIGN CHOICE). -/
def Ref.index (r : Ref) : Nat := match r.who with
  | .warp k => k
  | .slice => 0

/-- The stream is an access slice. -/
def Ref.isSlice (r : Ref) : Bool := match r.who with
  | .warp _ => false
  | .slice => true

/-- The program counter of a stream. -/
def State.pcOf (s : State) (r : Ref) : Word :=
  match r.who with
  | .warp _ => (s.warp r).pc
  | .slice => (s.wgOf r).slice.pc
/-- The latched prefix payload of a stream (R38). -/
def State.pfxOf (s : State) (r : Ref) : Option (BitVec 24) :=
  match r.who with
  | .warp _ => (s.warp r).pfx
  | .slice => (s.wgOf r).slice.pfx
/-- The program counter of a stream replaced and its prefix payload dropped. -/
def State.setPc (s : State) (r : Ref) (pc : Word) : State :=
  match r.who with
  | .warp _ => s.modWarp r fun w => { w with pc := pc, pfx := none }
  | .slice => s.modSlice r fun x => { x with pc := pc, pfx := none }
/-- A prefix payload latched, or dropped (R38). -/
def State.setPfx (s : State) (r : Ref) (p : Option (BitVec 24)) : State :=
  match r.who with
  | .warp _ => s.modWarp r fun w => { w with pfx := p }
  | .slice => s.modSlice r fun x => { x with pfx := p }

/-- The address of the word that follows the instruction in sequence (R38). -/
def State.nextPc (s : State) (r : Ref) : Word := s.pcOf r + (if (s.pfxOf r).isSome then 8#32 else 4#32)

/-- The address of the instruction's own word, behind its prefix word if it has one (R38). -/
def State.wordPc (s : State) (r : Ref) : Word := s.pcOf r + (if (s.pfxOf r).isSome then 4#32 else 0#32)

/-- The privilege of a stream: true at supervisor privilege (R328). -/
def State.isSuper (s : State) (r : Ref) : Bool := (s.warp r).priv

/-- A warp that a gathered apply may name, or that exists at all in the workgroup. -/
def Warp.exists_ (w : Warp) : Bool := decide (w.status ≠ .absent)

/-- The home position of a lane: the member a packed lane carries in a gathered block, else the lane itself (R120,
R280). -/
def Warp.home (w : Warp) (k j : Nat) : Nat × Nat :=
  match w.gather with
  | none => (k, j)
  | some g => g.members.getD (32 * ((w.stack.getLast?.map (·.chunk)).getD 0) + j) (k, j)

/-- A home position is in its warp's live set (R273). -/
def Workgroup.isLive (g : Workgroup) (p : Nat × Nat) : Bool :=
  (g.warp p.1).exists_ && decide (p.2 < 32) && (g.warp p.1).live.getLsbD p.2

/-- The applied set S: the current set less the lanes that are not live (R274). -/
def State.applied (s : State) (r : Ref) : Lanes :=
  let w := s.warp r
  match w.gather with
  | none => w.cur &&& w.live
  | some _ => w.cur &&& maskOf fun j => (s.wgOf r).isLive (w.home r.index j)

/-- A counter of a domain's observation block raised (R382); a stopped domain counts nothing. -/
def State.count (s : State) (d k n : Nat) : State :=
  s.modDom d fun x => if x.stop then x else
    { x with counters := Tab.set 0 x.counters k (Tab.get 0 x.counters k + BitVec.ofNat 64 n) }

/-- Guest time of a domain (R341); it stands still while a domain that hides its stops is stopped (R342). -/
def State.guest (s : State) (d : Nat) : DWord :=
  let x := s.dom d
  let now := if x.stop && !x.tmode then x.stopAt else s.time
  let g := BitVec.ofInt 64 ((((now : Int) - x.toffset.toNat) * x.tscale.toNat) / 65536)
  if g.toNat < x.lastTime.toNat then x.lastTime else g

/-- A guest time returned to its domain (R341). -/
def State.noteGuest (s : State) (d : Nat) : State :=
  let g := s.guest d
  s.modDom d fun x => { x with lastTime := g }

/-- The interval of a die now (R212). Its latest bound keeps growing above 2^64 - 1, which the spec does not say for its 64-bit
value, and is reported modulo 2^64 (log entry 71, DESIGN CHOICE). -/
def State.interval (s : State) (d : Nat) : Nat × Nat :=
  let l := (s.die d).lantern
  if l.beaconed then
    let dt := s.time - l.at_
    (l.earliest + dt * 999975 / 1000000, l.latest + (dt * 1000025 + 999999) / 1000000)
  else (l.earliest, l.latest)

/-- The refresh calendar's clock: pod time once a beacon has come, before that the package timestamp (R184). -/
def State.calendarNow (s : State) (d : Nat) : Nat := if (s.die d).lantern.beaconed then (s.interval d).1 else s.time

/-- The place of a moment in the calendar of a die: bank `b` is busy in the first 640 ns of its thousand (R184). -/
def State.calendarAt (s : State) (d now : Nat) : Nat := (((now : Int) - (s.die d).phase) % 32000).toNat

/-- A bank is refreshed now (R184). -/
def State.bankBusy (s : State) (d b : Nat) : Bool := decide (((s.calendarNow d : Int) - (s.die d).phase - b * 1000) % 32000 < 640)

/-- A bank of a die refreshed (R184). -/
def Die.refresh (x : Die) (b now : Nat) : Die := { x with refreshed := Tab.set 0 x.refreshed b now }

/-- The banks whose window a move of the calendar from one place to another skips, or cuts short (R184). -/
def skippedBanks (x y : Nat) : List Nat :=
  (List.range 32).filter fun b => decide ((1000 * b + 32000 - x) % 32000 < (y + 32000 - x) % 32000) || decide ((x + 32000 - 1000 * b) % 32000 < 640)

/-- A latest bound reported, which raises the floor of the die (R212); the unbounded interval sets no floor. -/
def State.report (s : State) (d : Nat) : State :=
  if (s.die d).lantern.beaconed then
    let m := (s.interval d).2
    s.modDie d fun x => { x with lantern := { x.lantern with floor_ := max x.lantern.floor_ m } }
  else s

/-- An entry of the MSI-X table of a link is masked: bit 0 of its last word (log entry 72). -/
def State.masked (s : State) (vector link : Nat) : Bool :=
  (Tab.get 0 s.msixTable (128 * link + 2 * vector + 1)).getLsbD 32

/-- An MSI-X vector raised on a link, or held in its pending bit while its entry is masked (R384, R389, R390). -/
def State.raise (s : State) (vector link : Nat) : State :=
  if s.masked vector link then { s with msixPending := Tab.set false s.msixPending (64 * link + vector) true }
  else { s with msix := s.msix ++ [(vector, link)] }

/-- The present host links of the part (R1). -/
def State.links (s : State) : List Nat := match s.part with
  | .ky1s => [0]
  | _ => [0, 1]

/-- A vector raised on every present link (R390). -/
def State.raiseAll (s : State) (vector : Nat) : State := s.links.foldl (fun t l => t.raise vector l) s

/-- An error log entry written: the ring keeps the last 256 (R389); kind 2 raises vector 0. -/
def State.logError (s : State) (d : Nat) (e : ErrEntry) : State :=
  let s1 := s.modDie d fun x => { x with errlog := (x.errlog ++ [e]).drop (x.errlog.length + 1 - 256), errcount := x.errcount + 1 }
  if e.kind = 2 then s1.raiseAll 0 else s1

/-- A die event bit set (R353). -/
def State.setEvent (s : State) (d bit : Nat) : State :=
  s.modDie d fun x => { x with events := x.events ||| BitVec.ofNat 32 (2 ^ bit) }

/-- The domain a stream works for (R329). -/
def State.domOf (s : State) (r : Ref) : Nat := (s.wgOf r).dom

end Sys2Proof.Machine
end

