-- ==== Sys2Proof/Machine/Memory.lean ====
section
/-! DEFINITION. Physical memory with its owner tags and stamped versions, address translation, and the checks an access
passes before it touches a byte (R25, R26, R171 to R190, R214, R215, R219, R333 to R338). -/

namespace Sys2Proof.Machine

/-! ### Physical bytes (R26) -/

/-- The physical address of a vault offset. -/
def paVault (v off : Nat) : Nat := v * 2 ^ 36 + off
/-- The physical address of a quad SRAM byte; the place of the quad's number in it is log entry 8. -/
def paQuad (q off : Nat) : Nat := 2 * 2 ^ 44 + q * 2 ^ 24 + off
/-- The physical space of an address. -/
def paSpace (pa : Nat) : Nat := pa / 2 ^ 44
/-- The vault of a vault DRAM address. -/
def paVaultOf (pa : Nat) : Nat := pa / 2 ^ 36

/-- The byte at a physical address. -/
def State.physRead (s : State) (pa : Nat) : Byte := Tab.get Memory.blank s.mem pa
/-- The byte at a physical address replaced. -/
def State.physWrite (s : State) (pa : Nat) (x : Byte) : State := { s with mem := Tab.set Memory.blank s.mem pa x }
/-- The bytes from a physical address on. -/
def State.physBytes (s : State) (pa n : Nat) : List Byte := (List.range n).map fun i => s.physRead (pa + i)
/-- Bytes written from a physical address on. -/
def State.physStore (s : State) (pa : Nat) : List Byte → State
  | [] => s
  | b :: bs => (s.physWrite pa b).physStore (pa + 1) bs
/-- The 64-bit value at a physical address. -/
def State.phys64 (s : State) (pa : Nat) : Nat := ofLe (s.physBytes pa 8)

/-- The owner tag of the granule of an address (R333); the reset tag is (0, 0). -/
def State.tagOf (s : State) (pa : Nat) : Tag := Tab.get (0, 0) s.tags (pa / 64)

/-- A byte read under an owner: a granule that carries another tag reads zero (R333). -/
def State.ownRead (s : State) (b : BRef) : Byte :=
  if b.tagged && decide (s.tagOf b.pa ≠ (b.dom, b.epoch)) then 0 else s.physRead b.pa

/-- Bytes cleared from an address on. -/
def State.physClear (s : State) (pa : Nat) : Nat → State
  | 0 => s
  | n + 1 => (s.physWrite pa 0).physClear (pa + 1) n

/-- A byte written under an owner: a granule that carries another tag is zeroed and takes the writer's tag (R333). -/
def State.ownWrite (s : State) (b : BRef) (x : Byte) : State :=
  if b.tagged && decide (s.tagOf b.pa ≠ (b.dom, b.epoch)) then
    let s1 := s.physClear (b.pa / 64 * 64) 64
    { s1 with tags := Tab.set (0, 0) s1.tags (b.pa / 64) (b.dom, b.epoch) }.physWrite b.pa x
  else s.physWrite b.pa x

/-! ### Stamped lines (R215) -/

/-- The page holds an address. -/
def StampedPage.covers (p : StampedPage) (pa : Nat) : Bool := decide (p.pa ≤ pa) && decide (pa < p.pa + p.size)

/-- A byte of a line under the key (0, 0): what it was when its page was made stamped, for as long as the granule keeps the owner it had
(R215, R333). -/
def State.baseByte (s : State) (pa : Nat) : Byte :=
  match s.pages.find? fun p => p.covers pa && decide (Tab.get (0, 0) p.tags (pa / 64) = s.tagOf pa) with
  | some p => Tab.get Memory.blank p.cells pa
  | none => s.physRead pa

/-- The retained versions of a stamped line in ascending key order. A line that no version was installed in holds the bytes of the moment
its page was made stamped under the key (0, 0), and a line that carries another owner's tag holds zeros there (R215, R333). -/
def State.versions (s : State) (b : BRef) : List Version :=
  let own := Tab.get [] s.stamped (b.pa / 64)
  let foreign := b.tagged && decide (s.tagOf b.pa ≠ (b.dom, b.epoch))
  if own.isEmpty || foreign then
    [{ stamp := 0, die := 0, visible := true, data := (List.range 64).map fun i => if foreign then 0 else s.baseByte (b.pa / 64 * 64 + i) }]
  else own

/-- The newest visible version's byte, which a plain load returns (R214). While no retained version is visible, which the spec does
not speak of, it returns zero (log entry 73, DESIGN CHOICE). -/
def State.stampRead (s : State) (b : BRef) : Byte :=
  match ((s.versions b).filter (·.visible)).getLast? with
  | some v => v.data.getD (b.pa % 64) 0
  | none => 0

/-- A byte read at its target (R192). -/
def State.readRef (s : State) (b : BRef) : Byte := if b.stamp = 0 then s.ownRead b else s.stampRead b

/-- The warps that watch a line of the byte see that it was written (R300). -/
def State.noteWrite (s : State) (pa : Nat) : State :=
  if s.cores.any fun c => c.2.wgs.any fun g => g.2.warps.any fun w => w.2.watched.contains (pa / 128) then
    { s with cores := s.cores.map fun c => (c.1, { c.2 with wgs := c.2.wgs.map fun g =>
        (g.1, { g.2 with warps := g.2.warps.map fun w =>
          (w.1, if w.2.watched.contains (pa / 128) then { w.2 with hit := true } else w.2) }) }) }
  else s

/-- A byte as a load in flight on a core would read it now: from its domain's L1 line where that holds it, else at its target. -/
def State.seenBy (s : State) (core : Nat) (direct : Bool) (b : BRef) : Byte :=
  match (s.core core).l1.find? fun l => decide (l.line = b.pa / 128) && decide (l.dom = b.dom) with
  | some l => if b.cached && !direct && l.have_.getLsbD (b.pa % 128) then l.data.getD (b.pa % 128) 0 else s.readRef b
  | none => s.readRef b

/-- A lane of a load that has read bytes of a granule has now read all its bytes there (R354). -/
def State.finishLane (s : State) (core : Nat) (f : Flight) (granule : Nat) (got : Tab (Option Byte)) (l : LaneAcc × Nat) : Tab (Option Byte) :=
  let own := l.1.refs.zipIdx.filter fun b => decide (b.1.pa / 64 = granule)
  if own.any fun b => (Tab.get none f.got (16 * l.2 + b.2)).isSome then
    own.foldl (fun t b => if (Tab.get none t (16 * l.2 + b.2)).isSome then t else Tab.set none t (16 * l.2 + b.2) (some (s.seenBy core f.direct b.1))) got
  else got

/-- A granule passes to another owner: each lane of a load in flight that has read a part of it reads the rest before that, so that it
returns the old bytes or zero, whole (R354). -/
def State.finishReads (s : State) (granule : Nat) : State :=
  if s.cores.any fun c => c.2.flights.any fun f => decide (f.got ≠ []) then
    { s with cores := s.cores.map fun c => (c.1, { c.2 with flights := c.2.flights.map fun f =>
        { f with got := f.lanes.zipIdx.foldl (s.finishLane c.1 f granule) f.got } }) }
  else s

/-- A byte write performed at its target (R192, R300, R354). -/
def State.writeRef (s : State) (b : BRef) (x : Byte) : State :=
  ((if b.tagged && decide (s.tagOf b.pa ≠ (b.dom, b.epoch)) then s.finishReads (b.pa / 64) else s).ownWrite b x).noteWrite b.pa

/-- Byte writes performed in turn. -/
def State.writeRefs (s : State) : List BRef → List Byte → State
  | b :: bs, x :: xs => (s.writeRef b x).writeRefs bs xs
  | _, _ => s

/-- The bad bytes of the granules that a store covers whole are good again (R366). -/
def State.heal (s : State) (refs : List BRef) : State :=
  if s.bad = [] then s
  else { s with bad := s.bad.filter fun pa => !((List.range 64).all fun i => refs.any fun b => decide (b.pa = pa / 64 * 64 + i)) }

/-- A byte that fails its error check at every read (R366). -/
def State.badAt (s : State) (b : BRef) : Bool := s.bad.contains b.pa

/-- Lost data that no instruction waits for: the die's error log takes an entry, and its supervisor core a DATA_LOST trap that names the
address and the domain (R367, R389). -/
def State.reportLost (s : State) (die pa unit dom : Nat) : State :=
  (s.logError die { time := s.time, addr := BitVec.ofNat 64 pa, cause := Cause.dataLost.code, kind := 2, dom := dom, unit := unit }).modDie die fun d =>
    { d with superv := d.superv ++ [{ cause := .dataLost, addr := BitVec.ofNat 64 pa, dom := dom }] }

/-- The newest visible bytes of a stamped line become its memory, and its versions are gone: what its page holds when the supervisor
makes it stamped or plain again (R215; log entry 74). -/
def State.collapse (s : State) (line : Nat) : State :=
  let s1 : State := match ((Tab.get [] s.stamped line).filter (·.visible)).getLast? with
    | some v => s.physStore (line * 64) v.data
    | none => s
  { s1 with stamped := Tab.set [] s1.stamped line [] }

/-- The bytes that a stamped page held under the key (0, 0) become its memory again, in the granules whose owner is the one they had. -/
def State.restorePage (s : State) (p : StampedPage) : State :=
  let mine (a : Nat) : Bool := p.covers a && decide (Tab.get (0, 0) p.tags (a / 64) = s.tagOf a)
  let s1 := (s.mem.filter fun c => mine c.1).foldl (fun t c => t.physWrite c.1 Memory.blank) s
  (p.cells.filter fun c => mine c.1).foldl (fun t c => t.physWrite c.1 c.2) s1

/-- The page at a physical address made stamped, or plain again. Each of its lines first takes its newest visible bytes (log entry 74);
those of a page made stamped are then kept under the key (0, 0) (R215). -/
def State.makePage (s : State) (pa size : Nat) (stamped : Bool) : State :=
  let q : StampedPage := { pa := pa, size := size, cells := [], tags := [] }
  let touches (p : StampedPage) : Bool := decide (p.pa < pa + size) && decide (pa < p.pa + p.size)
  let s1 := (s.pages.filter touches).foldl State.restorePage s
  let s2 := (s1.stamped.filter fun l => q.covers (l.1 * 64)).foldl (fun t l => t.collapse l.1) { s1 with pages := s1.pages.filter fun p => !touches p }
  if stamped then { s2 with pages := s2.pages ++ [{ q with cells := s2.mem.filter fun c => q.covers c.1, tags := s2.tags.filter fun g => q.covers (g.1 * 64) }] }
  else s2

/-! ### Vault layout (R174) -/

/-- The live banks of a map, ascending. -/
def liveBanks (map : BitVec 64) : List Nat := (List.range 64).filter fun b => map.getLsbD b

/-- The capacity of a vault under a map: 64 MiB for each live bank. -/
def capacityOf (map : BitVec 64) : Nat := (liveBanks map).length * 2 ^ 26

/-- Bank, row and byte of a vault offset under a map (R174). -/
def bankPlace (map : BitVec 64) (o : Nat) : Nat × Nat × Nat :=
  let l := (liveBanks map).length
  ((liveBanks map).getD (o / 256 % l) 0, o / 256 / l, o % 256)

/-- The capacity of a vault now (R174); a vault of a die that the part lacks has none (R172). -/
def State.capacity (s : State) (v : Nat) : Nat := if s.hasDie (dieOf v) then capacityOf (s.vault v).vbmap else 0

/-- A new access to a byte waits: its vault is quiesced or its die is tripped (R177, R392). -/
def State.held (s : State) (pa : Nat) : Bool :=
  decide (paSpace pa = 0) && ((s.vault (paVaultOf pa)).quiesce || (s.die (paVaultOf pa / 64)).tripped)

/-- An access of a given issue number to a byte waits: one that was in flight when the quiesce was written does not (R177). -/
def State.heldFor (s : State) (seqNo pa : Nat) : Bool :=
  s.held pa && ((s.die (paVaultOf pa / 64)).tripped || decide ((s.vault (paVaultOf pa)).qseq ≤ seqNo))

/-- A trace record of a domain performed: TWPTR moves behind it (R381). -/
def State.recordShown (s : State) (d : Delayed) : State :=
  match d.trace with
  | some dom => s.modDom dom fun x => { x with twptr := x.twptr + 1 }
  | none => s

/-- A held write of the device stays held while a vault holds a byte of it, or an older record of its trace buffer is held (R177, R381). -/
def State.staysHeld (s : State) (kept : List Delayed) (d : Delayed) : Bool :=
  d.refs.any (fun b => s.held b.pa) || (d.trace.isSome && kept.any fun x => decide (x.trace = d.trace))

/-- The held writes from one on, oldest first: each is performed, or stays behind those that stayed before it. -/
def State.releaseFrom (s : State) (kept : List Delayed) : List Delayed → State
  | [] => { s with delayed := kept }
  | d :: ds => if s.staysHeld kept d then s.releaseFrom (kept ++ [d]) ds else ((s.writeRefs d.refs d.bytes).recordShown d).releaseFrom kept ds

/-- The device's writes that a vault held are performed once it takes them (R177). -/
def State.releaseDelayed (s : State) : State := s.releaseFrom [] s.delayed

/-- A write of the device, performed or waiting for its vault (R177). -/
def State.deviceWrite (s : State) (refs : List BRef) (bytes : List Byte) (trace : Option Nat := none) : State :=
  let d : Delayed := { refs := refs, bytes := bytes, trace := trace }
  if s.staysHeld s.delayed d then { s with delayed := s.delayed ++ [d] } else (s.writeRefs refs bytes).recordShown d

/-! ### Translation (R335 to R338) -/

/-- Bits `hi` down to `lo` of a number. -/
def bitsOf (x hi lo : Nat) : Nat := x / 2 ^ lo % 2 ^ (hi + 1 - lo)

/-- A leaf of the paged global or host tree, or the cause of its fault (R336). `sz` is its page size. A leaf of the weight store may
have any bits 43:34, which R183 gives no meaning: the model takes them as part of the place, and the store of a die that the part lacks as
not present (log entry 75, DESIGN CHOICE). -/
def leafOf (s : State) (host : Bool) (dom va pte sz e : Nat) : Except Cause TlbEntry :=
  let frame := bitsOf e 47 16 * 65536
  let attr := bitsOf e 7 5
  let space := paSpace frame
  let pairOk := if host then decide (space = 3 ∧ attr = 0)
    else decide (space = 0 ∧ (attr = 0 ∨ attr = 2 ∨ attr = 3)) || decide (space = 1 ∧ attr = 1)
  if bitsOf e 61 48 = 0 then .error .pageProt
  else if bitsOf e 15 10 ≠ 0 then .error .pageProt
  else if frame % sz ≠ 0 then .error .pageProt
  else if !pairOk then .error .pageProt
  else if !s.hasDie (if space = 0 then dieOf (paVaultOf frame) else if space = 1 then bitsOf frame 33 32 else 0) then .error .pageNotPresent
  else .ok { dom := dom, space := if host then 4 else 0, vpn := va / sz, size := sz, pa := frame, epoch := bitsOf e 61 48, attr := attr, user := e.testBit 4, w := e.testBit 3, rd := e.testBit 2, pte := pte, dirty := e.testBit 9 }

/-- The walk from a table on: `levels` lists index and page size of this level and those below it (R335, R336). -/
def walkFrom (s : State) (host : Bool) (dom va table : Nat) : List (Nat × Nat) → Except Cause TlbEntry
  | [] => .error .pageProt
  | (idx, sz) :: rest =>
    let pte := table + 8 * idx
    let e := s.phys64 pte
    if !e.testBit 0 then .error .pageNotPresent
    else if bitsOf e 63 62 ≠ 0 then .error .pageProt
    else if e.testBit 1 then (if sz = 0 then .error .pageProt else leafOf s host dom va pte sz e)
    else if bitsOf e 9 2 ≠ 0 then .error .pageProt
    else
      let next := bitsOf e 47 10 * 1024
      if paSpace next ≠ 0 ∨ s.capacity (paVaultOf next) ≤ next % 2 ^ 36 then .error .pageProt
      else walkFrom s host dom va next rest

/-- A walk of the paged global or host tree (R335, R347): a root of 0 is absent. -/
def walkPaged (s : State) (host : Bool) (dom va : Nat) : Except Cause TlbEntry :=
  let root := (if host then (s.dom dom).hptbase else (s.dom dom).ptbase).toNat
  if root = 0 then .error .pageNotPresent
  else walkFrom s host dom va root
    [(bitsOf va 52 42, 0), (bitsOf va 41 30, 2 ^ 30), (bitsOf va 29 21, 2 ^ 21), (bitsOf va 20 16, 2 ^ 16)]

/-- A walk of the vault window table (R337); a vault of an absent die has no entries (R172), and a root entry that names no vault
DRAM is PAGE_PROT (R26). -/
def walkWindow (s : State) (dom va : Nat) : Except Cause TlbEntry :=
  let v := bitsOf va 52 45
  let root := (s.dom dom).vwbase.toNat
  let r := s.phys64 (root + 8 * v)
  if !s.hasDie (dieOf v) then .error .pageNotPresent
  else if root = 0 ∨ bitsOf va 44 32 ≠ 0 ∨ !r.testBit 0 then .error .pageNotPresent
  else if paSpace (bitsOf r 47 14 * 16384) ≠ 0 ∨ s.capacity (paVaultOf (bitsOf r 47 14 * 16384)) ≤ bitsOf r 47 14 * 16384 % 2 ^ 36 then .error .pageProt
  else
    let pte := bitsOf r 47 14 * 16384 + 8 * bitsOf va 31 21
    let e := s.phys64 pte
    let attr := bitsOf e 7 5
    if !e.testBit 0 then .error .pageNotPresent
    else if bitsOf e 63 46 ≠ 0 ∨ bitsOf e 45 32 = 0 ∨ bitsOf e 20 10 ≠ 0 ∨ e.testBit 1 then .error .pageProt
    else if ¬(attr = 0 ∨ attr = 2 ∨ attr = 3) then .error .pageProt
    else if s.capacity v ≤ bitsOf e 31 21 * 2 ^ 21 then .error .pageProt
    else .ok { dom := dom, space := 1, vpn := va / 2 ^ 21, size := 2 ^ 21, pa := paVault v (bitsOf e 31 21 * 2 ^ 21), epoch := bitsOf e 45 32, attr := attr, user := e.testBit 4, w := e.testBit 3, rd := e.testBit 2, pte := pte, dirty := e.testBit 9 }

/-- The walk of an address by its space (R25). -/
def walkOf (s : State) (dom va : Nat) : Except Cause TlbEntry :=
  match bitsOf va 55 53 with
  | 0 => walkPaged s false dom (va % 2 ^ 53)
  | 1 => walkWindow s dom (va % 2 ^ 53)
  | _ => walkPaged s true dom (va % 2 ^ 53)

/-- The addresses of the entries that a walk of a tree reads from a table on (R338). -/
def tablesFrom (s : State) (table : Nat) : List Nat → List Nat
  | [] => []
  | idx :: rest =>
    let e := s.phys64 (table + 8 * idx)
    (table + 8 * idx) :: (if e.testBit 0 && !e.testBit 1 then tablesFrom s (bitsOf e 47 10 * 1024) rest else [])

/-- The addresses of the entries that a walk reads (R338). -/
def walkReads (s : State) (dom va : Nat) : List Nat :=
  let levels := [bitsOf va 52 42, bitsOf va 41 30, bitsOf va 29 21, bitsOf va 20 16]
  match bitsOf va 55 53 with
  | 0 => if (s.dom dom).ptbase = 0 then [] else tablesFrom s (s.dom dom).ptbase.toNat levels
  | 1 =>
    let root := (s.dom dom).vwbase.toNat + 8 * bitsOf va 52 45
    if (s.dom dom).vwbase = 0 then [] else [root, bitsOf (s.phys64 root) 47 14 * 16384 + 8 * bitsOf va 31 21]
  | 4 => if (s.dom dom).hptbase = 0 then [] else tablesFrom s (s.dom dom).hptbase.toNat levels
  | _ => []

/-- A cached translation that covers an address (R338). -/
def tlbFind (t : List TlbEntry) (dom va : Nat) : Option TlbEntry :=
  t.find? fun e => decide (e.dom = dom) && decide (e.space = bitsOf va 55 53) && decide (e.vpn = va % 2 ^ 53 / e.size)

/-- The translation of an address: core TLB, quad TLB, then a walk (R338). -/
def State.translate (s : State) (core dom va : Nat) : Except Cause TlbEntry :=
  match tlbFind (s.core core).tlb dom va with
  | some e => .ok e
  | none => match tlbFind (s.quad (quadOf core)).tlb dom va with
    | some e => .ok e
    | none => walkOf s dom va

/-- The walk that an address needs waits for a vault that holds a table (R177). -/
def State.walkHeld (s : State) (core dom va : Nat) : Bool :=
  (tlbFind (s.core core).tlb dom va).isNone && (tlbFind (s.quad (quadOf core)).tlb dom va).isNone &&
    (walkReads s dom va).any s.held

/-- The accessed bit, and at a store the dirty bit, set in a table entry (R336, R338). -/
def State.markUsed (s : State) (e : TlbEntry) (store : Bool) : State :=
  s.physWrite (e.pte + 1) (s.physRead (e.pte + 1) ||| (if store then 3#8 else 1#8))

/-- A translation used: both TLBs hold it; the walker marks its table entry when it was walked, and at a store's first use (R336,
R338). -/
def State.useEntry (s : State) (core : Nat) (e : TlbEntry) (store : Bool) : State :=
  let cached := (s.core core).tlb.contains e || (s.quad (quadOf core)).tlb.contains e
  let s1 := if !cached || (store && !e.dirty) then s.markUsed e store else s
  let e1 := { e with dirty := e.dirty || store }
  let put (t : List TlbEntry) : List TlbEntry := e1 :: t.filter fun x => decide (x ≠ e) && decide (x ≠ e1)
  (s1.modCore core fun c => { c with tlb := (put c.tlb).take 512 }).modQuad (quadOf core) fun q => { q with tlb := (put q.tlb).take 4096 }

/-- The table entry of an address marked by the walker, for one that no TLB serves (R336). -/
def State.walked (s : State) (dom va : Nat) (store : Bool) : State :=
  match walkOf s dom va with
  | .ok e => s.markUsed e store
  | .error _ => s

/-! ### The checks of an access (R219) -/

/-- The kinds of access the checks of R219 tell apart. -/
inductive Access where
  | load | store | atomic | stampStore | stampLoad | engineRead | engineWrite | weightRead
  deriving DecidableEq, Repr

/-- The access writes its target. -/
def Access.writes : Access → Bool
  | .store | .atomic | .stampStore | .engineWrite => true
  | _ => false

/-- Whose access it is: the core it issues on, its workgroup's queue set, its domain and its privilege. -/
structure Actor where
  core  : Nat
  set   : Nat
  dom   : Nat
  superv : Bool
  deriving DecidableEq, Repr

/-- The actor of an instruction stream. -/
def State.actor (s : State) (r : Ref) : Actor :=
  { core := r.core, set := r.set, dom := s.domOf r, superv := s.isSuper r }

/-- The 16-byte word of a quad SRAM window offset carries a tag of BARINIT or CBINIT (R190). -/
def Workgroup.tagged (g : Workgroup) (off : Nat) : Bool := Tab.get false g.tags (off / 16)

/-- The physical address of a quad SRAM window offset (R179). -/
def Workgroup.qsramPa (g : Workgroup) (core off : Nat) : Nat :=
  paQuad (quadOf core) (g.granules.getD (off / 4096) 0 * 4096 + off % 4096)

/-- One byte of the quad SRAM window. -/
def Workgroup.qsramRef (g : Workgroup) (core off : Nat) : BRef :=
  { pa := g.qsramPa core off, dom := g.dom, epoch := g.epoch, tagged := true, cached := false, stamp := 0 }

/-- A kernel of a domain runs on a die: a workgroup of it is resident on one of the die's cores (R183, R211). -/
def State.kernelOn (s : State) (die dom : Nat) : Bool :=
  s.cores.any fun c => decide (dieOf c.1 = die) && c.2.wgs.any fun g => g.2.present && decide (g.2.dom = dom)

/-- The supervisor holds the weight window of a die open for a domain, which has no kernel that runs there (R183, R211; log entry 68). -/
def State.weightOpen (s : State) (die dom : Nat) : Bool := decide ((s.die die).weightDom = some dom) && !s.kernelOn die dom

/-- Checks 4 and 5 of R219 for a translated page, and its bytes. The capacity of the vault (R173) is that of now, whether the
translation was cached or walked. -/
def pageRefs (s : State) (k : Access) (a : Actor) (va n : Nat) : Except Cause (List BRef) :=
  match s.translate a.core a.dom va with
  | .error c => .error c
  | .ok e =>
    let weightOk := match k with
      | .engineWrite => s.weightOpen (bitsOf e.pa 33 32) a.dom
      | _ => false
    if decide (paSpace e.pa = 0) && decide (s.capacity (paVaultOf e.pa) < (e.pa + (va % 2 ^ 53) % e.size) % 2 ^ 36 + n) then .error .pageProt
    else if !(e.user || a.superv) then .error .pageProt
    else if k.writes && !e.w then .error .pageProt
    else if !k.writes && !e.rd then .error .pageProt
    else if decide (e.attr = 1) && !k.writes && decide (k ≠ .weightRead) && decide (k ≠ .engineRead) then .error .pageProt
    else if decide (e.attr = 1) && k.writes && !weightOk then .error .wstoreRo
    else if decide (2 ≤ e.attr) && k.writes && decide (k ≠ .stampStore) then .error .stampPlain
    else if decide (e.attr < 2) && (decide (k = .stampStore) || decide (k = .stampLoad)) then .error .stampPlain
    else if decide (e.space = 4) && decide (k = .atomic) then .error .space
    else .ok ((List.range n).map fun i =>
      { pa := e.pa + (va % 2 ^ 53) % e.size + i, dom := a.dom, epoch := e.epoch, tagged := decide (paSpace e.pa = 0), cached := decide (e.attr = 0), stamp := if e.attr < 2 then 0 else 2 * (e.attr - 1) })

/-- The bytes of an access outside the shadow space, or the first failing check of R219. `n` bytes lie in one page. -/
def plainRefs (s : State) (k : Access) (a : Actor) (va n : Nat) : Except Cause (List BRef) :=
  if 2 ^ 56 ≤ va then .error .space
  else match bitsOf va 55 53 with
  | 0 | 1 | 4 => pageRefs s k a va n
  | 2 =>
    let g := s.wg a.core a.set
    let off := va % 2 ^ 24
    if bitsOf va 52 24 ≠ 0 then .error .space
    else if g.qsram < off + n then .error .qsramBound
    else if decide (k = .stampStore) || decide (k = .stampLoad) then .error .stampPlain
    else if k.writes && (List.range n).any (fun i => g.tagged (off + i)) then .error .barrierClobber
    else .ok ((List.range n).map fun i => g.qsramRef a.core (off + i))
  | _ => .error .space

/-- The L1 line of a byte in the accessing domain, if present. -/
def Core.l1Find (c : Core) (dom pa : Nat) : Option L1Line :=
  c.l1.find? fun l => decide (l.line = pa / 128) && decide (l.dom = dom)

/-- A byte as a direct read of a core sees it: the dirty bytes its L1 holds for the domain reach the target first (R185). -/
def State.peek (s : State) (core : Nat) (b : BRef) : Byte :=
  match (s.core core).l1Find b.dom b.pa with
  | some l => if l.dirty.getLsbD (b.pa % 128) then l.data.getD (b.pa % 128) 0 else s.readRef b
  | none => s.readRef b

/-- A core's L1 holds a dirty copy of a byte. -/
def State.dirtyIn (s : State) (core : Nat) (b : BRef) : Bool :=
  match (s.core core).l1Find b.dom b.pa with
  | some l => l.dirty.getLsbD (b.pa % 128)
  | none => false

/-- The address of the element byte that a window byte reads, and the byte (R186). A lost byte of the index is the access's own DATA_LOST
(R366). An element may lie on a weight page,
as the source of a copy may (R183). -/
def elementRef (s : State) (k : Access) (a : Actor) (w : Window) (o : Nat) : Except (Cause × Option DWord) BRef :=
  let isz := if w.wide then 8 else 4
  match plainRefs s .load a ((w.index.toNat + o / 2 ^ w.zlog * isz) % 2 ^ 56) isz with
  | .error c => .error (c, some (w.index + BitVec.ofNat 64 (o / 2 ^ w.zlog * isz)))
  | .ok ir =>
    if ir.any fun b => s.badAt b && !s.dirtyIn a.core b then .error (.dataLost, some (w.index + BitVec.ofNat 64 (o / 2 ^ w.zlog * isz))) else
    let i := ofLe (ir.map (s.peek a.core))
    let ea := (w.base.toNat + i * 2 ^ w.zlog + o % 2 ^ w.zlog) % 2 ^ 56
    match plainRefs s (if k = .load then .engineRead else k) a ea 1 with
    | .ok (b :: _) => .ok { b with cached := false }
    | .ok [] => .error (.space, some (BitVec.ofNat 64 ea))
    | .error c => .error (c, some (BitVec.ofNat 64 ea))

/-- The window slot of a shadow address. -/
def slotOfVa (va : Nat) : Nat := bitsOf va 48 45

/-- The bytes of a window access (R186, R187). -/
def shadowRefs (s : State) (k : Access) (a : Actor) (va n : Nat) : Except (Cause × Option DWord) (List BRef) :=
  let o := va % 2 ^ 45
  match Tab.get none (s.wg a.core a.set).windows (slotOfVa va) with
  | none => .error (.space, none)
  | some w =>
    if w.count * 2 ^ w.zlog < o + n then .error (.space, none)
    else if k.writes then .error (.windowWrite, none)
    else if decide (k = .stampLoad) then .error (.stampPlain, none)
    else (List.range n).mapM fun i => elementRef s k a w (o + i)

/-- The checks of R219 on one access of `n` bytes at an effective address, aligned to `align`, in their order: the bytes
it covers, or its cause with the second address a record may carry (R357). -/
def resolve (s : State) (k : Access) (a : Actor) (ea : DWord) (n align : Nat) : Except (Cause × Option DWord) (List BRef) :=
  let va := ea.toNat
  if 2 ^ 56 ≤ va ∨ 4 < bitsOf va 55 53 then .error (.space, none)
  else if bitsOf va 55 53 = 2 ∧ bitsOf va 52 24 ≠ 0 then .error (.space, none)
  else if bitsOf va 55 53 = 3 ∧ bitsOf va 52 49 ≠ 0 then .error (.space, none)
  else if va % align ≠ 0 then .error (.misalign, none)
  else if bitsOf va 55 53 = 3 then shadowRefs s k a va n
  else match plainRefs s k a va n with
    | .ok bs => .ok bs
    | .error c => .error (c, none)

/-- The bytes of a structure of `n` bytes read at an address aligned to `align`, in pieces of 16 bytes, so that it may
cross a page (R145). -/
def resolveSpan (s : State) (k : Access) (a : Actor) (ea : DWord) (n align : Nat) : Except (Cause × Option DWord) (List BRef) :=
  let va := ea.toNat
  if 2 ^ 56 ≤ va ∨ 4 < bitsOf va 55 53 then .error (.space, none)
  else if bitsOf va 55 53 = 2 ∧ bitsOf va 52 24 ≠ 0 then .error (.space, none)
  else if bitsOf va 55 53 = 3 ∧ bitsOf va 52 49 ≠ 0 then .error (.space, none)
  else if va % align ≠ 0 then .error (.misalign, none)
  else match (List.range ((n + 15) / 16)).mapM fun i => resolve s k a (ea + BitVec.ofNat 64 (16 * i)) (min 16 (n - 16 * i)) 1 with
    | .ok ps => .ok ps.flatten
    | .error e => .error e

/-- The translations an access used are cached and its table entries marked (R336, R338). -/
def State.touch (s : State) (a : Actor) (store : Bool) (va : Nat) : State :=
  match bitsOf va 55 53 with
  | 0 | 1 | 4 =>
    match s.translate a.core a.dom va with
    | .ok e => s.useEntry a.core e store
    | .error _ => s
  | _ => s

/-- The translations of several addresses, one for each 64 KiB page. -/
def State.touchAll (s : State) (a : Actor) (store : Bool) (vas : List Nat) : State :=
  (distinct (vas.map (· / 65536))).foldl (fun t p => t.touch a store (p * 65536)) s

/-! ### L1 (R185) -/

/-- An L1 line put in the place of the domain's line of the same address. -/
def Core.l1Put (c : Core) (x : L1Line) : Core :=
  { c with l1 := x :: c.l1.filter fun l => !(decide (l.line = x.line) && decide (l.dom = x.dom)) }

/-- An L1 line removed. -/
def Core.l1Drop (c : Core) (dom line : Nat) : Core :=
  { c with l1 := c.l1.filter fun l => !(decide (l.line = line) && decide (l.dom = dom)) }

/-- The reference to byte `i` of an L1 line. -/
def L1Line.ref (l : L1Line) (i : Nat) : BRef :=
  { pa := l.line * 128 + i, dom := l.dom, epoch := l.epoch, tagged := decide (paSpace (l.line * 128) = 0), cached := true, stamp := 0 }

/-- The dirty bytes of a line performed at their target, those of a mask only; they become clean (R185, R203). -/
def State.writeBack (s : State) (core : Nat) (l : L1Line) (m : BitVec 128) : State :=
  let go := (List.range 128).filter fun i => l.dirty.getLsbD i && m.getLsbD i
  let s1 := (go.foldl (fun t i => t.writeRef (l.ref i) (l.data.getD i 0)) s).heal (go.map l.ref)
  s1.modCore core fun c => c.l1Put { l with dirty := l.dirty &&& ~~~m }

/-- A core's L1 holds dirty bytes of a domain that a held vault does not take (R177, R203). -/
def State.dirtyHeld (s : State) (core dom : Nat) : Bool :=
  (s.core core).l1.any fun l => decide (l.dom = dom) && decide (l.dirty ≠ 0) && s.held (l.line * 128)

/-- As `dirtyHeld`, for the bytes that an access of a given issue number writes back: they go with an access that was in flight when the
quiesce was written (R177). -/
def State.dirtyHeldFor (s : State) (seqNo core dom : Nat) : Bool :=
  (s.core core).l1.any fun l => decide (l.dom = dom) && decide (l.dirty ≠ 0) && s.heldFor seqNo (l.line * 128)

/-- Every dirty byte a core's L1 holds for a domain performed (R203, R226). -/
def State.writeBackAll (s : State) (core dom : Nat) : State :=
  ((s.core core).l1.filter fun l => decide (l.dom = dom)).foldl (fun t l => t.writeBack core l (BitVec.allOnes 128)) s

/-- The clean bytes of a core's L1 discarded by an acquire; dirty bytes stay (R203, R226). -/
def State.discardClean (s : State) (core : Nat) : State :=
  s.modCore core fun c => { c with l1 := (c.l1.map fun l => { l with have_ := l.dirty }).filter fun l => decide (l.dirty ≠ 0) }

/-- A direct access first performs the dirty bytes it covers; an atomic also invalidates the lines (R185). -/
def State.flushFor (s : State) (core dom : Nat) (refs : List BRef) (drop : Bool) : State :=
  refs.foldl (fun t b =>
    match (t.core core).l1Find dom b.pa with
    | some l =>
      let t1 := t.writeBack core l (BitVec.ofNat 128 (2 ^ (b.pa % 128)))
      if drop then
        let t2 := match (t1.core core).l1Find dom b.pa with
          | some l2 => t1.writeBack core l2 (BitVec.allOnes 128)
          | none => t1
        t2.modCore core fun c => c.l1Drop dom (b.pa / 128)
      else t1
    | none => t) s

/-- A line put in a core's L1. A full L1 first loses the line that was put there longest ago, and its dirty bytes are performed;
nothing is put while every line waits for a held vault (R185, R203). -/
def State.l1Install (s : State) (core : Nat) (x : L1Line) : Option State :=
  let c := s.core core
  if (c.l1Find x.dom (x.line * 128)).isSome || decide (c.l1.length < Config.l1Lines) then some (s.modCore core fun c => c.l1Put x)
  else match c.l1.reverse.find? fun l => decide (l.dirty = 0) || !s.held (l.line * 128) with
    | some v => some ((s.writeBack core v (BitVec.allOnes 128)).modCore core fun c => (c.l1Drop v.dom v.line).l1Put x)
    | none => none

/-- A byte read through L1, filling the line when the access allocates (R185). The hit is reported beside it. -/
def State.cachedRead (s : State) (core : Nat) (b : BRef) (fill : Bool) : Byte × Bool × State :=
  let old : L1Line := match (s.core core).l1Find b.dom b.pa with
    | some l => l
    | none => { line := b.pa / 128, dom := b.dom, epoch := b.epoch, have_ := 0, dirty := 0, data := List.replicate 128 0 }
  if old.have_.getLsbD (b.pa % 128) then (old.data.getD (b.pa % 128) 0, true, s)
  else if fill then
    let full := { old with have_ := BitVec.allOnes 128, data := (List.range 128).map fun i => if old.have_.getLsbD i then old.data.getD i 0 else s.readRef (old.ref i) }
    (s.readRef b, false, (s.l1Install core full).getD s)
  else (s.readRef b, false, s)

/-- A byte stored into L1, with its dirty mark; `.cs` allocates no line and writes through, as a store does that finds no room
(R185). -/
def State.cachedWrite (s : State) (core : Nat) (b : BRef) (x : Byte) (alloc : Bool) : State :=
  let bit := BitVec.ofNat 128 (2 ^ (b.pa % 128))
  let put (l : L1Line) : L1Line := { l with epoch := b.epoch, have_ := l.have_ ||| bit, dirty := l.dirty ||| bit, data := setAt l.data (b.pa % 128) x }
  match (s.core core).l1Find b.dom b.pa with
  | some l => s.modCore core fun c => c.l1Put (put l)
  | none =>
    if alloc then (s.l1Install core (put { line := b.pa / 128, dom := b.dom, epoch := b.epoch, have_ := 0, dirty := 0, data := List.replicate 128 0 })).getD (s.writeRef b x)
    else s.writeRef b x

/-- The clean bytes of a present line take the value that a direct access read or wrote, so that no later hit returns an older one
(R185, R194). -/
def State.refresh (s : State) (core : Nat) (b : BRef) (x : Byte) : State :=
  match (s.core core).l1Find b.dom b.pa with
  | some l =>
    if l.dirty.getLsbD (b.pa % 128) then s
    else s.modCore core fun c => c.l1Put { l with have_ := l.have_ ||| BitVec.ofNat 128 (2 ^ (b.pa % 128)), data := setAt l.data (b.pa % 128) x }
  | none => s

end Sys2Proof.Machine
end

