-- ==== Sys2Proof/Machine/Ops.lean ====
section
/-! DEFINITION. The shared operations of the instructions: how a meaning ends, register and queue access, taking an
exception and returning from one (R22, R36, R113, R355 to R359, R413). -/

namespace Sys2Proof

/-- The number that the fault record of a bad place carries (R366): that of R22 for lane, uniform and queue registers, the set or fibre
register's own, 0 for the apply stack, 0x100 and up for tiles and 0x200 and up for IAS columns (log entry 77). -/
def RegSite.number : RegSite → Nat
  | .v n _ => n
  | .g n => 192 + n
  | .s n => n
  | .f n => n
  | .stack => 0
  | .queue q _ => 240 + q
  | .tile t _ => 0x100 + t
  | .ias c => 0x200 + c

/-- The lane of a bad place. -/
def RegSite.lane : RegSite → Nat
  | .v _ j => j
  | _ => 0

/-- The row of a bad place in a tile, which stands in the record's address (R366). -/
def RegSite.row : RegSite → Nat
  | .tile _ r => r
  | _ => 0

/-- The places of a lane register. -/
def RegSite.isV (n : Nat) : RegSite → Bool
  | .v m _ => decide (m = n)
  | _ => false
/-- The place of a uniform register. -/
def RegSite.isG (n : Nat) : RegSite → Bool
  | .g m => decide (m = n)
  | _ => false
/-- The place of a set register. -/
def RegSite.isS (n : Nat) : RegSite → Bool
  | .s m => decide (m = n)
  | _ => false
/-- The place of a fibre register. -/
def RegSite.isF (n : Nat) : RegSite → Bool
  | .f m => decide (m = n)
  | _ => false

end Sys2Proof

namespace Sys2Proof.Machine

/-! ### How a meaning ends -/

/-- A precise trap of the whole warp with one cause. -/
def Trap.of (c : Cause) : Trap where
  cause := c
  causes := [c]
  recs := []
  unif := false
  code := 0
  site := 0
  after := false
  opc := none
  progress := 0
  deferred := .none

/-- Why a meaning does not retire: a trap, or a stall after which the instruction issues again (R29, R113, R284). -/
inductive Halt where
  | trap (t : Trap)
  | stall
  deriving DecidableEq, Repr

/-- A computation that may end in a trap or a stall, without effect (R9). -/
abbrev Exc (α : Type) := Except Halt α

/-- A precise trap (R9). -/
def trapc {α : Type} (c : Cause) : Exc α := .error (.trap (Trap.of c))

/-- A check that traps when it fails. -/
def need (ok : Bool) (c : Cause) : Exc Unit := if ok then .ok () else trapc c

/-- A condition the instruction waits for. -/
def waitFor (ok : Bool) : Exc Unit := if ok then .ok () else .error .stall

/-- The instruction retires and the next word in sequence follows (R29, R38). -/
def State.retire (s : State) (r : Ref) : State := { s.setPc r (s.nextPc r) with last := .retired }

/-- The instruction retires and execution continues at a target (R307). -/
def State.goto (s : State) (r : Ref) (target : Word) : State := { s.setPc r target with last := .retired }

/-! ### Instruction memory and its owners (R308) -/

/-- The owner of the granule of an address. -/
def Core.ownerOf (c : Core) (pc : Word) : GranOwner := Tab.get .none c.owners (pc.toNat / 256)

/-- A stream may not pass control to an address: its granule belongs to another domain, or to the supervisor while the
stream is at user privilege (R308). -/
def State.foreign (s : State) (r : Ref) (pc : Word) : Bool :=
  match (s.core r.core).ownerOf pc with
  | .none => false
  | .dom d => decide (d ≠ s.domOf r)
  | .supervisor => !s.isSuper r

/-- The word fetched at an address: a granule of no domain reads zero (R308). -/
def State.fetchWord (s : State) (r : Ref) (pc : Word) : Word :=
  match (s.core r.core).ownerOf pc with
  | .none => 0
  | _ => Tab.get 0 (s.core r.core).imem (pc.toNat / 4)

/-! ### Registers that fail their error check (R366) -/

/-- The record of a bad place (R366). -/
def siteRecord (x : RegSite) : FaultRec :=
  { lane := x.lane, cause := .regEcc, addr := BitVec.ofNat 64 x.row, addr2 := none, aux := BitVec.ofNat 32 x.number
    uni := match x with
      | .v _ _ => false
      | _ => true }

/-- Fault records in ascending lane order (R357). -/
def orderRecs (xs : List FaultRec) : List FaultRec := laneIdx.flatMap fun j => xs.filter fun x => decide (x.lane = j)

/-- The trap of an instruction that needs values with bad places: a record of each (R356, R366). -/
def eccTrap (xs : List RegSite) : Trap :=
  { Trap.of .regEcc with
    recs := orderRecs (xs.map siteRecord)
    unif := xs.all fun x => (siteRecord x).uni
    sites := xs }

/-- The bad places of a stream's registers that a test names. -/
def State.badRegs (s : State) (r : Ref) (p : RegSite → Bool) : List RegSite :=
  (match r.who with
    | .warp _ => (s.warp r).bad
    | .slice => (s.wgOf r).slice.bad).filter p

/-- The values that an instruction needs pass their error check, or the instruction traps (R366). -/
def State.sound (s : State) (r : Ref) (p : RegSite → Bool) : Exc Unit :=
  match s.badRegs r p with
  | [] => .ok ()
  | xs => .error (.trap (eccTrap xs))

/-- As `sound`, for what an L-form instruction reads: with an empty S no trap is raised (R110). -/
def State.soundIn (s : State) (r : Ref) (p : RegSite → Bool) : Exc Unit := if s.applied r = 0 then .ok () else s.sound r p

/-- The lanes of S of a run of `k` lane registers pass their error check (R366). -/
def State.soundRun (s : State) (r : Ref) (n k : Nat) : Exc Unit :=
  s.sound r fun b => (List.range k).any (fun i => b.isV (n + i)) && (s.applied r).getLsbD b.lane

/-! ### Registers (R22, R36, R113) -/

/-- A lane register lies below the warp's allocation (R22). -/
def Warp.inAlloc (w : Warp) (n : Nat) : Bool := decide (n < 8 * w.gran)

/-- A lane register has a pending write of an access in flight (R29). -/
def State.pendingV (s : State) (r : Ref) (n : Nat) : Bool :=
  (s.core r.core).flights.any fun f => decide (f.ref = r) && (match f.dest with
    | .lanes (.v d) k => decide (d.val ≤ n) && decide (n < d.val + k)
    | _ => false)

/-- A uniform register has a pending write (R29). -/
def State.pendingG (s : State) (r : Ref) (n : Nat) : Bool :=
  (s.core r.core).flights.any fun f => decide (f.ref = r) && (match f.dest with
    | .uni (.g d) k => decide (d.val ≤ n) && decide (n < d.val + k)
    | _ => false)

/-- A set register has a pending write (R314). -/
def State.pendingS (s : State) (r : Ref) (n : Nat) : Bool :=
  (s.core r.core).flights.any fun f => decide (f.ref = r) && (match f.dest with
    | .setReg d => decide (d = n)
    | _ => false)

/-- The number of a queue register. -/
def regQueue : Reg → Option Nat
  | .q d => some d.val
  | _ => none

/-- The queue register that a load fills. -/
def Dest.queue? : Dest → Option Nat
  | .lanes d _ | .uni d _ => regQueue d
  | _ => Option.none

/-- The access slice goes back to the ALD that faulted, whose row it replaces (R286). -/
def Slice.replaces (t : Slice) (pc : Word) : Bool := match t.faulted with
  | some m => decide (m.pc = pc)
  | none => false

/-- The row of an ALD in flight goes behind the rows of a queue register, with the issue number of the ALD. -/
def Slice.feeds (t : Slice) (n : Nat) : Option Nat :=
  t.pending.bind fun op => if op.q = n ∧ t.replaces op.pc = false then some op.seqNo else none

/-- A queue register of a workgroup awaits the row of a load issued before a given one: rows are pushed in the order of issue on the core
(R113, R284). -/
def State.pushesBefore (s : State) (core set seqNo n : Nat) : Bool :=
  ((s.core core).flights.any fun f => decide (f.ref.set = set) && decide (f.seqNo < seqNo) && decide (f.dest.queue? = some n)) ||
    (match (s.wg core set).slice.feeds n with
      | some m => decide (m < seqNo)
      | none => false) ||
    (s.core core).ldas.any fun o => decide (o.ref.set = set) && decide (o.seqNo < seqNo) && decide (regQueue o.dest = some n)

/-- A queue register has a pending push: a load of a stream of the workgroup will fill it (R29, R113, R284). -/
def State.pendingQ (s : State) (r : Ref) (n : Nat) : Bool :=
  ((s.core r.core).flights.any fun f => decide (f.ref.set = r.set) && decide (f.dest.queue? = some n)) || ((s.wgOf r).slice.feeds n).isSome ||
    (s.core r.core).ldas.any fun o => decide (o.ref.set = r.set) && decide (regQueue o.dest = some n)

/-- A warp's lane register. -/
def Warp.vreg (w : Warp) (n : Nat) : Row := Tab.get rowZero w.v n

/-- A stream's uniform register. -/
def State.greg (s : State) (r : Ref) (n : Nat) : Word :=
  match r.who with
  | .warp _ => Tab.get 0 (s.warp r).g n
  | .slice => Tab.get 0 (s.wgOf r).slice.g n

/-- A stream's uniform register replaced. -/
def State.setG (s : State) (r : Ref) (n : Nat) (x : Word) : State :=
  match r.who with
  | .warp _ => s.modWarp r fun w => { w with g := Tab.set 0 w.g n x, bad := w.bad.filter fun b => !b.isG n }
  | .slice => s.modSlice r fun t => { t with g := Tab.set 0 t.g n x, bad := t.bad.filter fun b => !b.isG n }

/-- A warp's lane register replaced. -/
def State.setV (s : State) (r : Ref) (n : Nat) (x : Row) : State :=
  s.modWarp r fun w => { w with v := Tab.set rowZero w.v n x }

/-- A row that holds one value in all its lanes: the register is kept in compressed form (R24; log entry 34, DESIGN CHOICE). -/
def rowPlain (row : Row) : Bool := (List.range 32).all fun j => decide (rowGet row j = rowGet row 0)

/-- A write under a mask expands a compressed register: neither no lane nor every lane is written (R24, R287). -/
def expands (m : Lanes) (row : Row) : Bool := decide (m ≠ 0) && decide (m ≠ BitVec.allOnes 32) && rowPlain row

/-- A lane register written in the lanes of a mask. The expansion of a compressed one is counted (R24, R110, R287, R382), and a bad
place is good again where its lane is written (R366). -/
def State.mergeV (s : State) (r : Ref) (n : Nat) (m : Lanes) (row : Row) : State :=
  let old := (s.warp r).vreg n
  let s1 := if expands m old then s.count (s.domOf r) 6 1 else s
  (s1.modWarp r fun w => { w with bad := w.bad.filter fun b => !(b.isV n && m.getLsbD b.lane) }).setV r n (rowMerge m old row)

/-- A queue register of a workgroup. -/
def Workgroup.queue (g : Workgroup) (q : Nat) : Queue := Tab.get Queue.init g.queues q

/-- A queue register replaced. -/
def Workgroup.setQueue (g : Workgroup) (q : Nat) (x : Queue) : Workgroup :=
  { g with queues := Tab.set Queue.init g.queues q x }

/-- The trap of an instruction that meets a marked row: the inner cause and address stand in its record (R286). -/
def accessFault (m : Mark) : Trap :=
  { Trap.of .accessFault with recs := [{ lane := 0, cause := m.cause, addr := m.addr, addr2 := none, aux := m.pc }], unif := true }

/-- The head row of a queue register, not yet popped; a marked row traps until the slice has been restarted at its ALD, and is then awaited
(R113, R284, R286). A bad row traps where the instruction needs its value. An L-form instruction over an empty S needs none, and raises no
trap for it (R110); a marked row traps it all the same, since R286 makes the mark trap whatever pops the row (log entry 97, DESIGN
CHOICE). R114 gives the lane instructions no cause but those of R52, REG_BOUND and REG_ECC; the model takes the causes of R269, R286 and
R308 beside them (log entry 109, DESIGN CHOICE). -/
def State.headRow (s : State) (r : Ref) (q : Nat) (needed : Bool := true) : Exc Row :=
  match ((s.wgOf r).queue q).rows with
  | [] => .error .stall
  | x :: _ => match x.mark with
    | some m => if (s.wgOf r).slice.halted then .error (.trap (accessFault m)) else .error .stall
    | none => if x.bad && needed then .error (.trap (eccTrap [.queue q 0])) else .ok x.row

/-- The value of a special register for a stream (R22). -/
def State.special (s : State) (r : Ref) : Reg → Word
  | .warpix => BitVec.ofNat 32 r.index
  | .wgid => (s.wgOf r).index
  | .coreix => BitVec.ofNat 32 r.core
  | .vaultix => BitVec.ofNat 32 r.core
  | .cyc => lo32 (s.guest (s.domOf r))
  | _ => 0

/-- The row an L-form source gives, before any pop (R22, R36, R110, R113). -/
def State.laneRow (s : State) (r : Ref) : Reg → Exc Row
  | .v n => do
    need ((s.warp r).inAlloc n.val) .regBound
    waitFor (!s.pendingV r n.val)
    s.soundRun r n.val 1
    pure ((s.warp r).vreg n.val)
  | .g n => do
    waitFor (!s.pendingG r n.val)
    s.soundIn r (RegSite.isG n.val)
    pure (rowAll (s.greg r n.val))
  | .q n => s.headRow r n.val (decide (s.applied r ≠ 0))
  | .laneid => pure (rowOf fun j => BitVec.ofNat 32 j)
  | x => pure (rowAll (s.special r x))

/-- The value a G-form source gives, before any pop (R36, R113, R138). -/
def State.uniVal (s : State) (r : Ref) : Reg → Exc Word
  | .g n => do
    waitFor (!s.pendingG r n.val)
    s.sound r (RegSite.isG n.val)
    pure (s.greg r n.val)
  | .q n => do
    let row ← s.headRow r n.val
    pure (rowGet row 0)
  | .v _ => trapc .illegalOperand
  | x => pure (s.special r x)

/-- The 64-bit value of a uniform pair (R36). -/
def State.pairVal (s : State) (r : Ref) (n : Nat) : Exc DWord := do
  waitFor (!s.pendingG r n && !s.pendingG r (n + 1))
  s.sound r fun b => b.isG n || b.isG (n + 1)
  pure (pair64 (s.greg r n) (s.greg r (n + 1)))

/-- A lane register that is about to be written, or a bound the allocation does not reach (R22, R52 order 6). -/
def State.boundV (s : State) (r : Ref) : Reg → Exc Unit
  | .v n => need ((s.warp r).inAlloc n.val) .regBound
  | _ => .ok ()

/-- A run of lane registers lies below the allocation (R36, R52 order 6). -/
def State.boundRun (s : State) (r : Ref) (x : Reg) (k : Nat) : Exc Unit :=
  match x with
  | .v n => need ((s.warp r).inAlloc (n.val + k - 1)) .regBound
  | _ => .ok ()

/-- One pop of a queue register (R113, R284). -/
def State.pop (s : State) (r : Ref) (q : Nat) : State :=
  s.modWgOf r fun g =>
    let x := g.queue q
    g.setQueue q { x with head := if x.rows.isEmpty then x.head else (x.head + 1) % Config.queueRows, rows := x.rows.drop 1 }

/-- The registers an instruction has read are consumed: each queue register is popped once, and a read of `cyc` returns
guest time to its domain (R113, R341). -/
def State.consume (s : State) (r : Ref) (srcs : List Reg) : State :=
  (distinct srcs).foldl (fun t x => match x with
    | .q n => t.pop r n.val
    | .cyc => t.noteGuest (t.domOf r)
    | _ => t) s

/-- One row appended to a queue register (R284). -/
def State.append (s : State) (r : Ref) (q : Nat) (row : Row) (mark : Option Mark) (producer : Word) : State :=
  s.modWgOf r fun g => g.setQueue q { g.queue q with rows := (g.queue q).rows ++ [{ row := row, mark := mark, bad := false }], last := producer }

/-- One row pushed to a queue register; a full one stalls, and so does one that loads issued before will fill (R113, R284). -/
def State.push (s : State) (r : Ref) (q : Nat) (row : Row) (mark : Option Mark) (producer : Word) : Exc State := do
  waitFor (!s.pendingQ r q && decide (((s.wgOf r).queue q).rows.length < Config.queueRows))
  pure (s.append r q row mark producer)

/-- A row written to an L-form destination in the lanes of a mask (R110, R113). With an empty mask nothing is written: no row is
pushed (R287, which R113 does not except; log entry 78). -/
def State.putLanes (s : State) (r : Ref) (d : Reg) (m : Lanes) (row : Row) : Exc State :=
  match d with
  | .v n => do
    waitFor (!s.pendingV r n.val)
    pure (s.mergeV r n.val m row)
  | .q n => if m = 0 then pure s else s.push r n.val (rowMerge m rowZero row) none (s.pcOf r)
  | _ => pure s

/-- A value written to a G-form destination (R113, R138). -/
def State.putUni (s : State) (r : Ref) (d : Reg) (x : Word) : Exc State :=
  match d with
  | .g n => do
    waitFor (!s.pendingG r n.val)
    pure (s.setG r n.val x)
  | .q n => s.push r n.val (rowAll x) none (s.pcOf r)
  | _ => pure s

/-- A 64-bit value written to a uniform pair. -/
def State.putPair (s : State) (r : Ref) (n : Nat) (x : DWord) : State := (s.setG r n (lo32 x)).setG r (n + 1) (hi32 x)

/-! ### Taking an exception (R355 to R358) -/

/-- The causes that go first to the supervisor (R355). -/
def Cause.supervisorFirst : Cause → Bool
  | .priv | .pageNotPresent | .pageProt | .syscall | .bkpt | .regEcc | .dataLost => true
  | _ => false

/-- A trap goes first to the supervisor; a deferred page fault has been there, and is delivered to its warp, while lost data has not (R355,
R356, R366, R413). -/
def Trap.supervisorFirst (t : Trap) : Bool :=
  (t.cause :: t.causes).any fun c => Cause.supervisorFirst c && (decide (t.deferred = .none) || decide (c = .regEcc) || decide (c = .dataLost))

/-- An apply stack entry as its 16 bytes; the enclosing set is the inline set of the warp (R269, R357). -/
def Entry.bytes (e : Entry) (k : Nat) : List Byte :=
  leBytes 4 e.encl.toNat ++ leBytes 4 (if e.encl = 0 then 0 else k) ++ leBytes 4 e.ret.toNat ++
    leBytes 1 ((if e.gathered then 1 else 0) + 16 * e.chunk) ++ leBytes 1 e.base ++ leBytes 1 e.nin ++ leBytes 1 e.nout

/-- A fault record as its bytes, with the continuation record that carries its second address (R357). -/
def FaultRec.bytes (w : Warp) (k : Nat) (unif : Bool) (f : FaultRec) : List (List Byte) :=
  let lane := f.lane + (if unif || f.uni then 32 else 0) + 128
  let who := f.member.getD (w.home k f.lane)
  let tail := leBytes 1 who.1 ++ leBytes 1 who.2 ++ leBytes 4 f.aux.toNat
  (leBytes 8 f.addr.toNat ++ [f.cause.code] ++ leBytes 1 lane ++ tail) ::
    (match f.addr2 with
      | some a => [leBytes 8 a.toNat ++ [0#8] ++ leBytes 1 (lane + 64) ++ tail]
      | none => [])

/-- The cause word of a trap: the code, the site of a stop and the 16-bit code (R346, R377). -/
def Trap.word (t : Trap) (c : Cause) : Word :=
  BitVec.ofNat 32 (c.code.toNat + 256 * t.site.toNat + 65536 * t.code.toNat)

/-- The 2,384 bytes of a trap area (R357); `lost` says that the user area could not be written, or not with its records. -/
def trapArea (s : State) (r : Ref) (t : Trap) (c : Cause) (epc : Word) (lost : Bool) : List Byte :=
  let w := s.warp r
  let recs := t.recs.flatMap (FaultRec.bytes w r.index t.unif)
  let kept := recs.take 80
  let stack := w.stack.reverse
  let flags := (if (w.stack.head?.map (·.gathered)).getD false then 2 else 0) + (if lost || decide (80 < recs.length) then 4 else 0) +
    (if t.opc.isSome then 8 else 0) + (if t.unif then 16 else 0)
  let head := leBytes 4 (t.word c).toNat ++ leBytes 4 epc.toNat ++ leBytes 4 (s.applied r).toNat ++
    leBytes 1 w.stack.length ++ leBytes 1 kept.length ++ leBytes 1 flags ++ [0#8] ++
    leBytes 4 (t.opc.getD epc).toNat ++ leBytes 4 0 ++ leBytes 8 t.progress.toNat ++
    (List.range 8).flatMap fun i => leBytes 4 (s.greg r (40 + i)).toNat
  let st := stack.flatMap fun e => e.bytes r.index
  head ++ st ++ List.replicate (1024 - st.length) 0 ++ kept.flatten ++ List.replicate (1296 - kept.flatten.length) 0

/-- The bytes of an area, resolved for the warp's own stores in pieces of 16 bytes (R357). -/
def areaRefs (s : State) (r : Ref) (k : Access) : Except (Cause × Option DWord) (List BRef) :=
  resolveSpan s k { s.actor r with superv := false } (s.warp r).ftab 2384 16

/-- The bytes of the supervisor trap area, at their physical addresses. -/
def supervisorRefs (base n : Nat) : List BRef :=
  (List.range n).map fun i => { pa := base + i, dom := 0, epoch := 0, tagged := false, cached := false, stamp := 0 }

/-- A trap to the supervisor: the trap area at the core's supervisor trap address, the saved cause, address and
privilege, and entry at `cr.svec` (R328, R355 to R357). A core whose supervisor trap address is 0 has none (log entry
9). A stop is reported to the host (R377, R413). -/
def State.deliverSupervisor (s : State) (r : Ref) (t : Trap) (epc : Word) (lost : Bool) : State :=
  let sup := t.causes.filter Cause.supervisorFirst
  let c := match sup with
    | x :: xs => leastCause x xs
    | [] => leastCause t.cause t.causes
  let area := trapArea s r t c epc lost
  let s1 := if (s.core r.core).strap = 0 then s else s.deviceWrite (supervisorRefs (s.core r.core).strap.toNat 2384) area
  let svc : Service := { cause := c, trap := t, epc := epc, told := false }
  let s2 := s1.modWarp r fun w => { w with scause := t.word c, sepc := epc, spriv := w.priv, priv := true, sactive := true, service := some svc }
  let s3 := if c = .bkpt then s2.modDom (s.domOf r) fun d => { d with stops := d.stops ++ [((s.wgOf r).launch, (s.wgOf r).index, r.index, t.word c, epc)] } else s2
  { s3.setPc r (s.core r.core).svec with last := .trapped }

/-- Bytes stored by a warp, written through its core's L1 to their target in the order given (R185, R193, R357). -/
def State.storeThrough (s : State) (core : Nat) : List BRef → List Byte → State
  | b :: bs, x :: xs =>
    let s1 := if paSpace b.pa = 2 then s else s.flushFor core b.dom [b] false
    ((s1.writeRef b x).refresh core b x).storeThrough core bs xs
  | _, _ => s

/-- A trap to the user handler: the trap area, the saved cause and address, `tbase`, and entry at `cr.tvec` (R358). -/
def State.enterUser (s : State) (r : Ref) (t : Trap) (epc : Word) (refs : List BRef) : State :=
  let c := leastCause t.cause t.causes
  let area := trapArea s r t c epc false
  let w := s.warp r
  let s1 := ((s.storeThrough r.core refs area).heal refs).touchAll { s.actor r with superv := false } true [w.ftab.toNat, w.ftab.toNat + 2383]
  let s2 := s1.modWarp r fun x => { x with cause := t.word c, epc := epc, tbase := x.stack.length, active := true, deferred := t.deferred, priv := false }
  { s2.setPc r w.tvec with last := .trapped }

/-- The registers that a trap area saves hold their values: no write of `g40` to `g47` is pending (R29, R357). -/
def State.savable (s : State) (r : Ref) : Bool := (List.range 8).all fun i => !s.pendingG r (40 + i)

/-- A register that a trap area saves, or the apply stack, fails its error check (R373). -/
def State.saveBad (s : State) (r : Ref) : Bool :=
  decide (s.badRegs r (fun b => match b with
    | .g n => decide (40 ≤ n)
    | .stack => true
    | _ => false) ≠ [])

/-- The trap area can take the warp's stores now: its vaults take accesses, and no access of the warp in flight touches it (R177,
R193, R357). -/
def State.areaFree (s : State) (r : Ref) (refs : List BRef) : Bool :=
  refs.all (fun b => !s.held b.pa) && !s.walkHeld r.core (s.domOf r) ((s.warp r).ftab.toNat % 2 ^ 56) &&
    !((s.core r.core).flights.any fun f => decide (f.ref = r) && f.lanes.any fun l => l.refs.any fun b => refs.any fun x => decide (x.pa = b.pa))

/-- A decode trap of the access slice: its next row in `q0` is marked and the slice halts, once the queue has room (R286). -/
def State.sliceFault (s : State) (r : Ref) (m : Mark) : State :=
  match s.push r 0 rowZero (some m) m.pc with
  | .error _ => { s with last := .stalled }
  | .ok s1 =>
    let t := s1.modSlice r fun x => { x with halted := true, faulted := some m }
    { t.setPfx r none with last := .trapped }

/-- Taking an exception of a warp (R355 to R358), once what it saves is written and its area can be: a cause that goes first to the
supervisor, a warp without a handler or with an active one, and a trap area that cannot be written go to the supervisor; otherwise the
user handler is entered. Where a register that the area saves fails its check, whichever area it is, the trap goes to the supervisor with
its records lost (R373). -/
def State.takeWarpTrap (s : State) (r : Ref) (t : Trap) : State :=
  let epc := if t.after then s.nextPc r else s.pcOf r
  let w := s.warp r
  let kept := if s.saveBad r then { t with recs := [] } else t
  if !s.savable r then { s with last := .stalled }
  else if t.supervisorFirst || decide (w.tvec = 0) || w.active || w.priv then s.deliverSupervisor r kept epc (s.saveBad r)
  else if s.foreign r w.tvec then s.deliverSupervisor r (Trap.of .priv) (s.pcOf r) (s.saveBad r)
  else if s.saveBad r then s.deliverSupervisor r kept epc true
  else match areaRefs s r .store with
    | .error _ => s.deliverSupervisor r t epc true
    | .ok refs => if s.areaFree r refs then s.enterUser r t epc refs else { s with last := .stalled }

/-- Taking an exception: a trap of an access slice marks its next row in `q0` (R286); a warp takes it as above. -/
def State.takeTrap (s : State) (r : Ref) (t : Trap) : State :=
  match r.who with
  | .slice => s.sliceFault r { cause := t.cause, addr := ((t.recs.head?).map (·.addr)).getD 0, pc := s.pcOf r }
  | .warp _ => s.takeWarpTrap r t

/-- Bad places counted as sound, to see where else an instruction would fail (R356). -/
def State.forgive (s : State) (r : Ref) (xs : List RegSite) : State :=
  let keep (b : RegSite) : Bool := !xs.contains b
  let s1 := (s.modWarp r fun w => { w with bad := w.bad.filter keep }).modWgOf r fun g => { g with
    slice := { g.slice with bad := g.slice.bad.filter keep }
    queues := g.queues.map fun q => (q.1, { q.2 with rows := q.2.rows.zipIdx.map fun x => if keep (.queue q.1 x.2) then x.1 else { x.1 with bad := false } }) }
  s1.modCore r.core fun c => { c with array := { c.array with
    badRows := c.array.badRows.filter fun p => keep (.tile p.1 p.2)
    badIas := c.array.badIas.filter fun j => keep (.ias j) } }

/-- One trap of an instruction with the failures that another names beside it, in the lanes and places that the first does not (R356). -/
def Trap.join (t u : Trap) : Trap :=
  let own (x : Trap) : List FaultRec := x.recs.map fun y => { y with uni := y.uni || x.unif }
  let more := (own u).filter fun y => !((own t).any fun x => decide (x.lane = y.lane) && decide (x.uni = y.uni) && decide (x.cause = y.cause → x.aux = y.aux))
  { t with causes := t.causes ++ u.causes, recs := orderRecs (own t ++ more), unif := t.unif && u.unif, sites := t.sites ++ u.sites }

/-- The whole trap of an instruction that meets bad places: with the failures that it would meet were they sound, so that the records list
every failing lane; it waits for the operands that those rest on (R29, R356). -/
def State.wholeTrap (s : State) (r : Ref) (k : State → Exc State) (t : Trap) : Nat → Halt
  | 0 => .trap t
  | n + 1 =>
    if t.sites = [] then .trap t
    else match k (s.forgive r t.sites) with
      | .ok _ => .trap t
      | .error .stall => .stall
      | .error (.trap u) => if u.recs = [] then .trap t else s.wholeTrap r k (t.join u) n

/-- An instruction ends for a stream as it was found to: its effect, a stall, or its trap. -/
def State.conclude (s : State) (r : Ref) : Exc State → State
  | .ok s' => s'
  | .error .stall => { s with last := .stalled }
  | .error (.trap x) => s.takeTrap r x

/-- What an instruction does for a stream in a state, with its trap made whole: no instruction needs values of sixteen places that one
check does not name together. -/
def State.outcome (s : State) (r : Ref) (k : State → Ref → Exc State) : Exc State :=
  match k s r with
  | .error (.trap x) => .error (s.wholeTrap r (fun u => k u r) x 16)
  | x => x

/-- An instruction issues for the selected stream: its effect, its trap, or a stall. -/
def issue (s : State) (k : State → Ref → Exc State) : Out :=
  match s.turn with
  | [] => .fault .noWarp
  | t :: _ => .next (s.conclude t.ref (s.outcome t.ref k))

/-- An instruction that falls through to its next word: a next word in a foreign granule traps first (R308). R52 does not place that
check beside REG_BOUND and the execution checks of the same instruction: the model makes it before them (log entry 76, DESIGN
CHOICE). -/
def issueSeq (s : State) (k : State → Ref → Exc State) : Out :=
  issue s fun s r => do
    need (!s.foreign r (s.nextPc r)) .priv
    let s1 ← k s r
    pure (s1.retire r)

/-! ### Returning from an exception (R350, R356, R359, R413) -/

/-- The continuation records of a core that a test names dropped, queued ones and those whose room is reserved. -/
def Core.dropRecsOf (co : Core) (p : Rec → Bool) : Core :=
  let sift (t : Tab (List Rec)) : Tab (List Rec) := (t.map fun q => (q.1, q.2.filter fun x => !p x)).filter fun q => decide (q.2 ≠ [])
  { co with queues := sift co.queues, backing := sift co.backing, reserved := co.reserved.filter fun x => !p x }

/-- The queued continuation records of a workgroup's warps dropped (R356). -/
def Core.dropRecs (co : Core) (k : Nat) : Core :=
  co.dropRecsOf fun x => decide (x.set = k) && (decide (x.kind = .spawned) || decide (x.kind = .resume))

/-- Every warp of a workgroup ends without the waits of END, its faulted operations and its queued records are dropped, and
the end is reported through MAILBACK and vector 3 (R356, R389, R413). -/
def State.endWorkgroup (s : State) (c k : Nat) (cause : Cause) (addr : DWord) : State :=
  let g := s.wg c k
  let s1 := s.modWg c k fun x => { x with
    warps := x.warps.map fun w => (w.1, if w.2.exists_ then { w.2 with status := .ended, slot := none, service := none, pfx := none } else w.2)
    slice := { x.slice with halted := true }
    spawned := 0 }
  let s2 := s1.modCore c fun co => { co.dropRecs k with
    cpops := co.cpops.filter fun o => !(decide (o.ref.set = k) && o.fault.isSome)
    ldas := co.ldas.filter fun o => decide (o.ref.set ≠ k)
    array := { co.array with ops := co.array.ops.filter fun o => !(decide (o.ref.set = k) && o.fault.isSome) } }
  let s3 := s2.modDom g.dom fun d => { d with ended := d.ended ++ [(g.launch, g.index, cause, addr)] }
  let s4 := s3.modDie (dieOf c) fun d => { d with mailback := BitVec.ofNat 64 (cause.code.toNat + 256 * (addr.toNat % 2 ^ 56)) }
  (s4.raiseAll 3)

/-- RTE at supervisor privilege: the privilege and the program counter come back from the supervisor trap state (R350). -/
def State.returnSupervisor (s : State) (r : Ref) : State :=
  let w := s.warp r
  let s1 := s.modWarp r fun x => { x with priv := x.spriv, sactive := false, service := none }
  { s1.setPc r w.sepc with last := .retired }

/-- The faulting address of a service: that of its first record. -/
def Service.addr (v : Service) : DWord := ((v.trap.recs.head?).map (·.addr)).getD 0

/-- The supervisor reflects a cause: the user handler is entered as R358 would have entered it, or the workgroup ends when
it cannot be: without a handler, in an active one, or where the user area cannot be written, as with a bad register that it saves (R356,
R373, R413). -/
def State.reflect (s : State) (r : Ref) (v : Service) : State :=
  let s1 := s.returnSupervisor r
  let w := s1.warp r
  if decide (w.tvec = 0) || w.active || s1.foreign r w.tvec || s1.saveBad r then { s1.endWorkgroup r.core r.set v.cause v.addr with last := .trapped }
  else match areaRefs s1 r .store with
    | .error _ => { s1.endWorkgroup r.core r.set v.cause v.addr with last := .trapped }
    | .ok refs => if s1.areaFree r refs then s1.enterUser r v.trap v.epc refs else { s with last := .stalled }

/-- The mapping that the supervisor holds for an address of a domain, a page or window block it is moving or an entry it has not yet
finished writing (R413). -/
def State.holdsFor (s : State) (dom va : Nat) : Option Mapping :=
  (s.dom dom).holds.find? fun m => decide (m.va ≤ va) && decide (va < m.va + m.size)

/-- A cached translation of a domain for an address of a mapping. -/
def TlbEntry.within (e : TlbEntry) (dom : Nat) (m : Mapping) : Bool :=
  decide (e.dom = dom) && decide (e.space = bitsOf m.va 55 53) && decide (e.vpn * e.size < m.va % 2 ^ 53 + m.size) &&
    decide (m.va % 2 ^ 53 < (e.vpn + 1) * e.size)

/-- The cached translations of a mapping dropped in every TLB. -/
def State.dropMapping (s : State) (dom : Nat) (m : Mapping) : State :=
  { s with
    cores := s.cores.map fun c => (c.1, { c.2 with tlb := c.2.tlb.filter fun e => !e.within dom m })
    quads := s.quads.map fun q => (q.1, { q.2 with tlb := q.2.tlb.filter fun e => !e.within dom m }) }

/-- The supervisor completes its tables for a mapping it holds: the entry is written and no longer unfinished, and no access uses an older
translation of it any more (R413). -/
def State.completeTable (s : State) (dom : Nat) (m : Mapping) : State :=
  ((s.physStore m.entry (leBytes 8 m.value.toNat)).dropMapping dom m).modDom dom fun d => { d with holds := d.holds.filter fun x => decide (x ≠ m) }

/-- The mapping that resolves a fault of a domain at an address: its own, or that of the element behind a shadow window. -/
def State.resolves (s : State) (dom : Nat) (addr : DWord) (addr2 : Option DWord) : Option Mapping :=
  match s.holdsFor dom (addr.toNat % 2 ^ 56) with
  | some m => some m
  | none => addr2.bind fun a => s.holdsFor dom (a.toNat % 2 ^ 56)

/-- The mapping that resolves the first record of a service bound for the supervisor that has one. -/
def State.resolvesAny (s : State) (dom : Nat) (v : Service) : Option Mapping :=
  v.trap.recs.findSome? fun x => if x.cause = .pageNotPresent ∨ x.cause = .pageProt then s.resolves dom x.addr x.addr2 else none

/-- The firmware returns with RTE to the saved address. Where that lies in a granule that the warp may not run, the RTE is the transfer that
traps with PRIV, which the firmware reflects (R308, R413). -/
def State.firmwareReturn (s : State) (r : Ref) : State :=
  let s1 := s.returnSupervisor r
  if s1.foreign r (s.warp r).sepc then s.reflect r { cause := .priv, trap := Trap.of .priv, epc := (s.warp r).sepc, told := false } else s1

/-- The firmware answers the cause a warp took to the supervisor (R413). -/
def State.serve (s : State) (r : Ref) (v : Service) : State :=
  match v.cause with
  | .pageNotPresent | .pageProt =>
    match s.resolvesAny (s.domOf r) v with
    | some m => if v.trap.deferred = .none then (s.completeTable (s.domOf r) m).firmwareReturn r else s.reflect r v
    | none => s.reflect r v
  | .syscall =>
    if Config.syscallServed v.trap.code then s.firmwareReturn r
    else { s.endWorkgroup r.core r.set v.cause v.addr with last := .trapped }
  | .bkpt => if v.told then s.firmwareReturn r else { s with last := .stalled }
  | .regEcc | .dataLost => { s.endWorkgroup r.core r.set v.cause v.addr with last := .trapped }
  | _ => s.reflect r v

end Sys2Proof.Machine
end

