-- ==== Sys2Proof/Machine/Operands.lean ====
section
/-! DEFINITION. The operand forms: immediates of words and prefix words (R37), lane, uniform, pair and quadruple sources and
destinations (R36, R110 to R113), the data and address operands of memory instructions (R218, R223), and the four shapes
that the arithmetic instructions share. -/

namespace Sys2Proof.Machine

/-! ### Immediates (R37) -/

/-- What a class I payload stands for. -/
inductive ImmKind where
  | int | fp | packed
  deriving DecidableEq, Repr

/-- The value of the payload of a class I prefix word (R37). -/
def immWord (k : ImmKind) (p : BitVec 24) : Word :=
  match k with
  | .int => p.signExtend 32
  | .fp => p ++ 0#8
  | .packed => p.extractLsb' 0 16 ++ p.extractLsb' 0 16

/-- The immediate of a PAIR word (R37, R118). -/
def imm8Word : Imm8 → Word
  | .short i => i.signExtend 32
  | .long p i => p ++ i

/-- The register of a second source, if it is one. -/
def srcRegs : Src → List Reg
  | .reg x => [x]
  | .imm _ => []

/-! ### Sources -/

/-- The row a second source gives. -/
def State.srcRow (s : State) (r : Ref) (k : ImmKind) : Src → Exc Row
  | .reg x => s.laneRow r x
  | .imm p => pure (rowAll (immWord k p))

/-- The value a second source gives a G-form instruction. -/
def State.srcUni (s : State) (r : Ref) : Src → Exc Word
  | .reg x => s.uniVal r x
  | .imm p => pure (immWord .int p)

/-- The old destination row, for an instruction that also reads it (R112). -/
def State.oldRow (s : State) (r : Ref) (old : Bool) (d : Reg) : Exc Row := if old then s.laneRow r d else pure rowZero

/-- The `k` rows of an aligned run of lane registers, or the one row of any other source (R36, R223). -/
def State.runRows (s : State) (r : Ref) (x : Reg) (k : Nat) : Exc (List Row) :=
  match x with
  | .v n => do
    need ((s.warp r).inAlloc (n.val + k - 1)) .regBound
    waitFor ((List.range k).all fun i => !s.pendingV r (n.val + i))
    s.soundRun r n.val k
    pure ((List.range k).map fun i => (s.warp r).vreg (n.val + i))
  | .g n =>
    if k = 2 then do
      waitFor (!s.pendingG r n.val && !s.pendingG r (n.val + 1))
      s.soundIn r fun b => b.isG n.val || b.isG (n.val + 1)
      pure [rowAll (s.greg r n.val), rowAll (s.greg r (n.val + 1))]
    else do
      let row ← s.laneRow r x
      pure [row]
  | _ => do
    let row ← s.laneRow r x
    pure [row]

/-- The value of lane `j` of a run of rows, lowest register first. -/
def runVal (rows : List Row) (j : Nat) : Nat := rows.foldr (fun row acc => (rowGet row j).toNat + 2 ^ 32 * acc) 0

/-- Every register number of a list lies below the allocation (R52 order 6): the number of registers stands beside each. -/
def State.bounds (s : State) (r : Ref) (xs : List (Reg × Nat)) : Exc Unit :=
  need (xs.all fun x => match x.1 with
    | .v n => (s.warp r).inAlloc (n.val + x.2 - 1)
    | _ => true) .regBound

/-- The rounding mode of a stream (R94). -/
def State.mode (s : State) (r : Ref) : Mode := Mode.of (s.warp r).round

/-! ### Destinations -/

/-- Rows written to an aligned run of lane registers in the lanes of a mask; a queue register takes the first (R223). -/
def State.putRun (s : State) (r : Ref) (d : Reg) (m : Lanes) (rows : List Row) : Exc State :=
  match d with
  | .v n => do
    waitFor ((List.range rows.length).all fun i => !s.pendingV r (n.val + i))
    pure ((rows.zipIdx).foldl (fun t p => t.mergeV r (n.val + p.2) m p.1) s)
  | _ => s.putLanes r d m (rows.getD 0 rowZero)

/-- The low 32-bit words of a value, as many as registers take it. -/
def wordsOf (k x : Nat) : List Word := (List.range k).map fun i => BitVec.ofNat 32 (x / 2 ^ (32 * i))

/-- The rows that hold a value of each lane over `k` registers. -/
def rowsOf (k : Nat) (f : Nat → Nat) : List Row := (List.range k).map fun i => rowOf fun j => BitVec.ofNat 32 (f j / 2 ^ (32 * i))

/-! ### The shapes of the arithmetic instructions (R110 to R115) -/

/-- An L-form instruction with two sources; `old` says that it reads its destination too. -/
def laneTri (k : ImmKind) (old : Bool) (f : Mode → Word → Word → Word → Word) (d a : Reg) (b : Src) (s : State) : Out :=
  issueSeq s fun s r => do
    s.bounds r ((d :: a :: srcRegs b).map fun x => (x, 1))
    let x ← s.laneRow r a
    let y ← s.srcRow r k b
    let z ← s.oldRow r old d
    let s1 := s.consume r (a :: srcRegs b ++ (if old then [d] else []))
    s1.putLanes r d (s.applied r) (rowOf fun j => f (s.mode r) (rowGet x j) (rowGet y j) (rowGet z j))

/-- An L-form instruction with one source. -/
def laneUn (f : Mode → Word → Word) (d a : Reg) (s : State) : Out :=
  issueSeq s fun s r => do
    s.bounds r [(d, 1), (a, 1)]
    let x ← s.laneRow r a
    let s1 := s.consume r [a]
    s1.putLanes r d (s.applied r) (rowOf fun j => f (s.mode r) (rowGet x j))

/-- A G-form instruction with two sources. -/
def uniTri (f : Word → Word → Word) (d a : Reg) (b : Src) (s : State) : Out :=
  issueSeq s fun s r => do
    let x ← s.uniVal r a
    let y ← s.srcUni r b
    (s.consume r (a :: srcRegs b)).putUni r d (f x y)

/-- A G-form instruction with one source. -/
def uniUn (f : Word → Word) (d a : Reg) (s : State) : Out :=
  issueSeq s fun s r => do
    let x ← s.uniVal r a
    (s.consume r [a]).putUni r d (f x)

/-! ### Addresses and data of memory instructions (R218, R223) -/

/-- The address of each lane: the lane pair's own values, or the uniform pair's value in every lane (R218). -/
def State.addrRow (s : State) (r : Ref) (a : Reg) (off : Int) : Exc (Nat → DWord) := do
  let rows ← s.runRows r a 2
  pure fun j => pair64 (rowGet (rows.getD 0 rowZero) j) (rowGet (rows.getD 1 rowZero) j) + BitVec.ofInt 64 off

/-- The value of a uniform pair operand (R36). -/
def State.gpair (s : State) (r : Ref) (a : Fin 48) : Exc DWord := s.pairVal r a.val

/-- The address of a uniform access (R218). -/
def State.uniAddr (s : State) (r : Ref) (a : Reg) (off : Int) : Exc DWord :=
  match a with
  | .g n => do
    let x ← s.pairVal r n.val
    pure (x + BitVec.ofInt 64 off)
  | _ => trapc .illegalOperand

/-- A loaded value extended to its registers (R224). -/
def extendLoad (sz : Size) (sign : Bool) (x : Nat) : Nat :=
  if sign then (BitVec.ofInt 32 (signed (8 * sz.bytes) x)).toNat else x % 2 ^ (8 * sz.bytes)

/-- The destination that an access in flight writes later is free of older pending writes, and below the allocation. A queue register takes
the rows of several loads in flight, in the order of their issue (R284). -/
def State.destReady (s : State) (r : Ref) (d : Reg) (k : Nat) : Exc Unit :=
  match d with
  | .v n => do
    need ((s.warp r).inAlloc (n.val + k - 1)) .regBound
    waitFor ((List.range k).all fun i => !s.pendingV r (n.val + i))
  | .g n => waitFor ((List.range k).all fun i => !s.pendingG r (n.val + i))
  | _ => pure ()

end Sys2Proof.Machine
end

