-- ==== Sys2Proof/Machine/Heap.lean ====
section
/-! DEFINITION. Thread-set values, set objects and the set heap (R269 to R273, R310). -/

namespace Sys2Proof.Machine

/-- The members of a set: the lane masks of the warps that hold members, by ascending warp index (R270, R273). -/
abbrev Members := List (Nat × Lanes)

/-- A value is in the wide form (R269). -/
def isWide (x : DWord) : Bool := x.getLsbD 63
/-- Bits 47:32 of a wide value: the member count. -/
def wideCount (x : DWord) : Nat := x.toNat / 2 ^ 32 % 65536
/-- Bits 31:0 of a wide value: the byte offset of its object. -/
def wideOff (x : DWord) : Nat := x.toNat % 2 ^ 32

/-- The inline set of a warp's lanes; the empty set is 0 (R269). -/
def inlineSet (k : Nat) (m : Lanes) : DWord := if m = 0 then 0 else BitVec.ofNat 32 k ++ m

/-- A wide value with a member count and an object's offset (R269). -/
def wideSet (count off : Nat) : DWord := BitVec.ofNat 64 (2 ^ 63 + count * 2 ^ 32 + off)

/-- The number of members of a set. -/
def memberCount (m : Members) : Nat := (m.map fun e => popcount e.2).sum

/-- The home position is a member (R273). -/
def Members.has (m : List (Nat × Lanes)) (p : Nat × Nat) : Bool :=
  m.any fun e => decide (e.1 = p.1) && decide (p.2 < 32) && e.2.getLsbD p.2

/-- The home positions of a set in member order (R273). -/
def homesOf (m : Members) : List (Nat × Nat) := m.flatMap fun e => (lanesOf e.2).map fun j => (e.1, j)

/-- A set from a test of its home positions; a workgroup has 16 warp indices. -/
def membersWhere (p : Nat → Nat → Bool) : Members :=
  ((List.range 16).map fun k => (k, maskOf (p k))).filter fun e => decide (e.2 ≠ 0)

/-- A byte of the set heap as a reference: the heap lies at the top of the allocation (R181, R271). -/
def Workgroup.heapRef (g : Workgroup) (core off : Nat) : BRef := g.qsramRef core (g.qsram - g.setheap + off)

/-- A number of `n` bytes in the set heap. -/
def State.heapRead (s : State) (r : Ref) (off n : Nat) : Nat :=
  ofLe ((List.range n).map fun i => s.ownRead ((s.wgOf r).heapRef r.core (off + i)))

/-- A number of `n` bytes written in the set heap. -/
def State.heapWrite (s : State) (r : Ref) (off n x : Nat) : State :=
  s.writeRefs ((List.range n).map fun i => (s.wgOf r).heapRef r.core (off + i)) (leBytes n x)

/-- Blocks of an object with `e` entries (R271). -/
def objBlocks (e : Nat) : Nat := (8 + 8 * e + 63) / 64

/-- The entries of a set object. -/
def State.objEntries (s : State) (r : Ref) (off e : Nat) : List Nat :=
  (List.range e).map fun i => s.heapRead r (off + 8 + 8 * i) 8

/-- Entries are well formed: a nonzero mask, zero bits 63:36, ascending warp indices (R270). -/
def entriesOk : List Nat → Bool
  | [] => true
  | [x] => decide (x % 2 ^ 32 ≠ 0) && decide (x < 2 ^ 36)
  | x :: y :: xs => decide (x % 2 ^ 32 ≠ 0) && decide (x < 2 ^ 36) && decide (x / 2 ^ 32 < y / 2 ^ 32) && entriesOk (y :: xs)

/-- A value read as a set: its members, or SET_HEAP (R269, R270, R310). -/
def State.readSet (s : State) (r : Ref) (x : DWord) : Exc Members :=
  let g := s.wgOf r
  if !isWide x then
    if x.toNat < 2 ^ 36 then pure (if x.toNat % 2 ^ 32 = 0 then [] else [(x.toNat / 2 ^ 32, lo32 x)])
    else trapc .setHeap
  else
    let off := wideOff x
    let e := s.heapRead r (off + 2) 1
    let es := s.objEntries r off e
    let m : Members := es.map fun y => (y / 2 ^ 32, BitVec.ofNat 32 y)
    if x.toNat / 2 ^ 48 ≠ 2 ^ 15 ∨ wideCount x < 2 ∨ 512 < wideCount x ∨ off % 64 ≠ 0 ∨ g.setheap < off + 64 then trapc .setHeap
    else if s.heapRead r off 2 = 0 ∨ e < 2 ∨ 16 < e ∨ s.heapRead r (off + 3) 1 ≠ 0 ∨ s.heapRead r (off + 6) 2 ≠ 0 then trapc .setHeap
    else if g.setheap < off + 64 * objBlocks e ∨ !entriesOk es then trapc .setHeap
    else if s.heapRead r (off + 4) 2 ≠ wideCount x ∨ memberCount m ≠ wideCount x then trapc .setHeap
    else pure m

/-- The lowest run of `n` free blocks of the heap (R271). -/
def Workgroup.freeRun (g : Workgroup) (n : Nat) : Option Nat :=
  (List.range (g.setheap / 64 + 1 - n)).find? fun b => (List.range n).all fun i => !Tab.get false g.heapUsed (b + i)

/-- A set in normal form, with its object allocated and no reference taken yet (R269, R271). -/
def State.makeSet (s : State) (r : Ref) (m : Members) : Exc (DWord × State) :=
  match m with
  | [] => pure (0, s)
  | [(k, x)] => pure (inlineSet k x, s)
  | _ =>
    let n := objBlocks m.length
    let g := s.wgOf r
    match (if g.setheap / 64 < n then none else g.freeRun n) with
    | none => trapc .setHeap
    | some b =>
      let s0 := s.count (s.domOf r) 11 1
      let s1 := s0.modWgOf r fun w => { w with heapUsed := (List.range n).foldl (fun t i => Tab.set false t (b + i) true) w.heapUsed }
      let off := 64 * b
      let s2 := s1.heapWrite r off 8 (m.length * 2 ^ 16 + memberCount m * 2 ^ 32)
      let s3 := (m.zipIdx).foldl (fun t e => t.heapWrite r (off + 8 + 8 * e.2) 8 (e.1.1 * 2 ^ 32 + e.1.2.toNat)) s2
      pure (wideSet (memberCount m) off, s3)

/-- The offset of the live object a value names, if it names one. -/
def State.objOf (s : State) (r : Ref) (x : DWord) : Option Nat :=
  let off := wideOff x
  if isWide x && decide (off % 64 = 0) && decide (off + 64 ≤ (s.wgOf r).setheap) && Tab.get false (s.wgOf r).heapUsed (off / 64) &&
      decide (s.heapRead r off 2 ≠ 0) then some off else none

/-- A reference added to the object a value names (R272). -/
def State.addRef (s : State) (r : Ref) (x : DWord) : State :=
  if isWide x then s.heapWrite r (wideOff x) 2 ((s.heapRead r (wideOff x) 2 + 1) % 65536) else s

/-- A reference dropped; at zero the object is freed and its header zeroed (R271, R272). -/
def State.dropRef (s : State) (r : Ref) (x : DWord) : State :=
  match s.objOf r x with
  | none => s
  | some off =>
    let n := s.heapRead r off 2
    if n = 1 then
      let e := s.heapRead r (off + 2) 1
      let s1 := s.heapWrite r off 8 0
      s1.modWgOf r fun w => { w with heapUsed := (List.range (objBlocks e)).foldl (fun t i => Tab.set false t (off / 64 + i) false) w.heapUsed }
    else s.heapWrite r off 2 (n - 1)

/-- A set register's value. -/
def Warp.sreg (w : Warp) (n : Nat) : DWord := Tab.get 0 w.sets n

/-- A set register replaced, without regard to references. -/
def State.rawSet (s : State) (r : Ref) (n : Nat) (x : DWord) : State :=
  s.modWarp r fun w => { w with sets := Tab.set 0 w.sets n x, bad := w.bad.filter fun b => !b.isS n }

/-- A set register written: the new value's reference is added, then the old one's dropped (R272, R310). -/
def State.putSet (s : State) (r : Ref) (n : Nat) (x : DWord) : State :=
  let old := (s.warp r).sreg n
  ((s.addRef r x).rawSet r n x).dropRef r old

/-- A set register written with a reference it takes over from a stored copy (R272, R314). -/
def State.adoptSet (s : State) (r : Ref) (n : Nat) (x : DWord) : State :=
  let old := (s.warp r).sreg n
  (s.rawSet r n x).dropRef r old

/-- A set register's members, once its pending write is done (R310, R314). -/
def State.setOf (s : State) (r : Ref) (n : Fin 16) : Exc Members := do
  waitFor (!s.pendingS r n.val)
  s.sound r (RegSite.isS n.val)
  s.readSet r ((s.warp r).sreg n.val)

/-- The live members of a set in member order (R273). -/
def State.liveOf (s : State) (r : Ref) (m : Members) : List (Nat × Nat) := (homesOf m).filter fun p => (s.wgOf r).isLive p

/-- A result written to a set register in normal form (R310). -/
def State.writeSet (s : State) (r : Ref) (n : Fin 16) (m : Members) : Exc State := do
  waitFor (!s.pendingS r n.val)
  let (x, s1) ← s.makeSet r m
  pure (s1.putSet r n.val x)

/-- The home position of a lane of the warp (R120, R280). -/
def State.homeOf (s : State) (r : Ref) (j : Nat) : Nat × Nat := (s.warp r).home r.index j

/-- The members that the lanes of a mask stand for (R275, R280). -/
def State.homesOfMask (s : State) (r : Ref) (m : Lanes) : Members :=
  let hs := (lanesOf m).map (s.homeOf r)
  membersWhere fun k j => hs.contains (k, j)

/-- The references of the apply stack dropped with it (R321). -/
def State.dropStack (s : State) (r : Ref) : State :=
  let es := (s.warp r).stack
  let s1 := es.foldl (fun t e => t.dropRef r e.setv) s
  s1.modWarp r fun w => { w with stack := [], cur := BitVec.allOnes 32, gather := none, bad := w.bad.filter fun b => decide (b ≠ .stack) }

end Sys2Proof.Machine
end

