-- ==== Sys2Proof/Machine/Control.lean ====
section
/-! DEFINITION. Transfers of control (R307 to R309), NOP and YIELD (R325). -/

namespace Sys2Proof.Machine

/-- The checks of a transfer's target: inside instruction memory and aligned (R34, R307), in a granule the stream may
execute (R308). -/
def State.checkTarget (s : State) (r : Ref) (t : Int) : Exc Word := do
  need (targetOk t && decide (t % 4 = 0)) .illegalField
  need (!s.foreign r (BitVec.ofInt 32 t)) .priv
  pure (BitVec.ofInt 32 t)

/-- The target of a branch word of the stream (R37, R307). -/
def State.labelOf (s : State) (r : Ref) (off : Int) : Int := branchTarget (s.wordPc r).toNat off

/-- A branch, taken or not; a label outside instruction memory traps either way (R34, R307). An access slice halts at a
branch to itself (R285). -/
def State.branch (s : State) (r : Ref) (off : Int) (taken : Bool) : Exc State := do
  need (targetOk (s.labelOf r off)) .illegalField
  if taken then do
    let t ← s.checkTarget r (s.labelOf r off)
    if r.isSlice && decide (t = s.pcOf r) then pure ((s.modSlice r fun x => { x with halted := true }).goto r t)
    else pure (s.goto r t)
  else do
    need (!s.foreign r (s.nextPc r)) .priv
    pure (s.retire r)

/-- BR (R307). -/
def execBr (off : BitVec 24) (s : State) : Out := issue s fun s r => s.branch r off.toInt true

/-- BRZ (R307). -/
def execBrz (a : Fin 48) (off : BitVec 16) (s : State) : Out :=
  issue s fun s r => do
    need (targetOk (s.labelOf r off.toInt)) .illegalField
    let x ← s.uniVal r (.g a)
    s.branch r off.toInt (decide (x = 0))

/-- BRNZ (R307). -/
def execBrnz (a : Fin 48) (off : BitVec 16) (s : State) : Out :=
  issue s fun s r => do
    need (targetOk (s.labelOf r off.toInt)) .illegalField
    let x ← s.uniVal r (.g a)
    s.branch r off.toInt (decide (x ≠ 0))

/-- BRSE: taken when the set has no live member (R307). -/
def execBrse (st : Fin 16) (off : BitVec 20) (s : State) : Out :=
  issue s fun s r => do
    need (targetOk (s.labelOf r off.toInt)) .illegalField
    let m ← s.setOf r st
    s.branch r off.toInt (s.liveOf r m).isEmpty

/-- BRSNE: taken when the set has a live member (R307). -/
def execBrsne (st : Fin 16) (off : BitVec 20) (s : State) : Out :=
  issue s fun s r => do
    need (targetOk (s.labelOf r off.toInt)) .illegalField
    let m ← s.setOf r st
    s.branch r off.toInt (!(s.liveOf r m).isEmpty)

/-- The number of the link register (R22). -/
def linkReg : Nat := 47

/-- CALL (R307, R309). -/
def execCall (off : BitVec 24) (s : State) : Out :=
  issue s fun s r => do
    let t ← s.checkTarget r (s.labelOf r off.toInt)
    waitFor (!s.pendingG r linkReg)
    pure ((s.setG r linkReg (s.nextPc r)).goto r t)

/-- The transfer to a target held in a uniform source (R307). -/
def State.jump (s : State) (r : Ref) (a : Reg) (link : Bool) : Exc State := do
  let x ← s.uniVal r a
  let t ← s.checkTarget r x.toNat
  waitFor (!link || !s.pendingG r linkReg)
  let s1 := s.consume r [a]
  pure ((if link then s1.setG r linkReg (s.nextPc r) else s1).goto r t)

/-- CALLR: the target is read before `link` is written (R307, R309). -/
def execCallr (a : Reg) (s : State) : Out := issue s fun s r => s.jump r a true

/-- RET (R307). -/
def execRet (a : Reg) (s : State) : Out := issue s fun s r => s.jump r a false

/-- JMPR (R307). -/
def execJmpr (a : Reg) (s : State) : Out := issue s fun s r => s.jump r a false

/-- NOP (R325). -/
def execNop (s : State) : Out := issueSeq s fun s _ => pure s

/-- YIELD: the warp's gate becomes 63 (R325). -/
def execYield (s : State) : Out := issueSeq s fun s r => pure (s.modWarp r fun w => { w with gate := 63, gatePc := w.pc })

end Sys2Proof.Machine
end

