-- ==== Sys2Proof/Machine/Deferred.lean ====
section
/-! DEFINITION. The counters of a warp (R49, R222) and the deferred faults that its waits deliver (R163, R214, R247). -/

namespace Sys2Proof.Machine

/-- The counter classes (R49). -/
inductive Ctr where
  | ld | st | cp | tl
  deriving DecidableEq, Repr

/-- A counter's value. -/
def Warp.ctr (w : Warp) : Ctr → Nat
  | .ld => w.ld
  | .st => w.st
  | .cp => w.cp
  | .tl => w.tl

/-- An operation of an issue number counted. -/
def Warp.begun (w : Warp) (c : Ctr) (n : Nat) : Warp :=
  match c with
  | .ld => { w with ldOps := w.ldOps ++ [(n, false)] }
  | .st => { w with stOps := w.stOps ++ [(n, false)] }
  | .cp => { w with cp := w.cp + 1 }
  | .tl => { w with tl := w.tl + 1 }

/-- The operations of a class still counted: a completed one leaves once every older one has, and one set aside, which a handler must
deal with, holds back none (R205, R214). -/
def stillCounted (aside : Nat → Bool) : List (Nat × Bool) → List (Nat × Bool)
  | [] => []
  | (_, true) :: t => stillCounted aside t
  | (n, false) :: t => (n, false) :: (if aside n then stillCounted aside t else t)

/-- An operation of an issue number complete; the engines' classes complete in issue order, so their oldest leaves. -/
def Warp.ended (w : Warp) (c : Ctr) (n : Nat) (aside : Nat → Bool) : Warp :=
  let mark (ops : List (Nat × Bool)) : List (Nat × Bool) := ops.map fun x => if x.1 = n then (n, true) else x
  match c with
  | .ld => { w with ldOps := stillCounted aside (mark w.ldOps) }
  | .st => { w with stOps := stillCounted aside (mark w.stOps) }
  | .cp => { w with cp := w.cp - 1 }
  | .tl => { w with tl := w.tl - 1 }

/-- The number of a class among the producers the scoreboard keeps (R379). -/
def Ctr.num : Ctr → Nat
  | .ld => 0
  | .st => 1
  | .cp => 2
  | .tl => 3

/-- An operation enters its counter, and its instruction is the class's last issuer (R49, R379). -/
def State.enter (s : State) (r : Ref) (c : Ctr) : State :=
  s.modWarp r fun w => { w.begun c s.nextIssue with writers := Tab.set 0 w.writers c.num w.pc }

/-- The stamped stores of a warp with a missed install that nothing has dealt with (R214). -/
def State.missedOf (s : State) (r : Ref) : List Pending := s.pending.filter fun p => decide (p.ref = r) && p.dropped

/-- The operation of an issue number leaves its counter, with those that waited behind it (R205, R222). -/
def State.leave (s : State) (r : Ref) (c : Ctr) (n : Nat) : State :=
  s.modWarp r fun w => w.ended c n fun m => (s.missedOf r).any fun p => decide (p.seqNo = m)

/-- An operation that is complete as it issues: it leaves its counter once the older ones have (R205). -/
def State.passThrough (s : State) (r : Ref) (c : Ctr) : State :=
  ({ s.enter r c with nextIssue := s.nextIssue + 1 }).leave r c s.nextIssue

/-- The stores that a missed one held back leave their counter (R214). -/
def State.drainSt (s : State) (r : Ref) : State :=
  s.modWarp r fun w => { w with stOps := stillCounted (fun m => (s.missedOf r).any fun p => decide (p.seqNo = m)) w.stOps }

/-- The row-progress register as software reads it (R156). -/
def Progress.word (p : Progress) : DWord :=
  BitVec.ofNat 64 ((if p.valid then 2 ^ 63 else 0) + p.promoted.toNat * 2 ^ 32 + p.done.toNat * 2 ^ 16 + p.row.toNat)

/-- The record of a deferred fault. That of a tile row or IAS column names the register instead of the operation, whose address stands in
the area's header (R357, R366). -/
def OpFault.record (f : OpFault) (pc : Word) : FaultRec :=
  if f.cause = .regEcc then { lane := 0, cause := f.cause, addr := f.addr, addr2 := none, aux := lo32 (f.addr2.getD 0) }
  else { lane := 0, cause := f.cause, addr := f.addr, addr2 := f.addr2, aux := pc }

/-- The trap of a deferred fault (R163, R357). -/
def deferTrap (f : OpFault) (pc : Word) (progress : DWord) (d : Deferred) : Trap :=
  { Trap.of f.cause with unif := true, opc := some pc, progress := progress, deferred := d, recs := [f.record pc] }

/-- A fault that the program must deal with: recorded, and not with the supervisor. -/
def OpFault.owed (f : Option OpFault) : Bool :=
  match f with
  | some x => !x.superv
  | none => false

/-- The copies and chains of a warp that are still in its counter, in issue order; one that has completed behind an earlier one stays there (R205). -/
def State.cpOf (s : State) (r : Ref) : List CpOp := (s.core r.core).cpops.filter fun o => decide (o.ref = r)

/-- The array operations of a warp in issue order. -/
def State.arrOf (s : State) (r : Ref) : List ArrOp :=
  (s.core r.core).array.ops.filter fun o => decide (o.ref = r) && (match o.kind with
    | .mmask _ => false
    | _ => true)

/-- A chain that runs in place: its output is one of its inputs; an in1 of 0 is no input (R165). -/
def CpKind.inPlace : CpKind → Bool
  | .chain d => decide (d.dst = d.in0) || (decide (d.in1 ≠ 0) && decide (d.dst = d.in1))
  | .copy _ => false

/-- The deferred fault of a class that is owed to a warp, with the number `k` of operations that cannot leave the counter
(R163). -/
def State.owed (s : State) (r : Ref) (c : Ctr) : Option (Nat × Trap) :=
  match c with
  | .ld => none
  | .st => match s.missedOf r with
    | [] => none
    | p :: ps => some ((distinct ((p :: ps).map (·.seqNo))).length,
        deferTrap { cause := .clockWide, addr := BitVec.ofNat 64 (p.line * 64), addr2 := none, superv := false } p.pc (BitVec.ofNat 64 p.stamp) .stamp)
  | .cp => match (s.cpOf r).dropWhile (fun o => !OpFault.owed o.fault) with
    | [] => none
    | o :: os => match o.fault with
      | some f => some (os.length + 1, deferTrap f o.pc (if o.kind.inPlace then BitVec.ofNat 64 o.done else 0) (.copyOrChain o.id))
      | none => none
  | .tl => match (s.arrOf r).dropWhile (fun o => !OpFault.owed o.fault) with
    | [] => none
    | o :: os => match o.fault with
      | some f => some (os.length + 1, deferTrap f o.pc (s.core r.core).array.progress.word (.array o.seqNo))
      | none => none

/-- A deferred fault owed to a warp in any class. Where several classes owe one, the spec does not order them: the model takes `st`, then
`cp`, then `tl` (log entry 80, DESIGN CHOICE). -/
def State.owedAny (s : State) (r : Ref) : Option Trap :=
  ([Ctr.st, Ctr.cp, Ctr.tl].filterMap fun c => (s.owed r c).map (·.2)).head?

/-- Room in a counter: a 64th operation stalls, and delivers a deferred fault of the class (R49, R163). -/
def State.room (s : State) (r : Ref) (c : Ctr) : Exc Unit :=
  if (s.warp r).ctr c < Config.counterMax then .ok ()
  else match s.owed r c with
    | some (_, t) => .error (.trap t)
    | none => .error .stall

/-- The wait of one class of WAITC (R163, R236). -/
def State.waitCtr (s : State) (r : Ref) (c : Ctr) (n : Nat) : Exc Unit :=
  if n = Config.counterMax then .ok ()
  else match s.owed r c with
    | some (k, t) => if n < k then .error (.trap t) else waitFor (decide ((s.warp r).ctr c ≤ n))
    | none => waitFor (decide ((s.warp r).ctr c ≤ n))

/-- WAITC (R236). -/
def execWaitc (ld st cp tl : Fin 64) (s : State) : Out :=
  issueSeq s fun s r => do
    s.waitCtr r .ld ld.val
    s.waitCtr r .st st.val
    s.waitCtr r .cp cp.val
    s.waitCtr r .tl tl.val
    pure s

end Sys2Proof.Machine
end

