-- ==== Sys2Proof/Machine/Wick.lean ====
section
/-! DEFINITION. The order log: writing entries in record mode, and matching and forcing them in replay mode (R369 to
R371). -/

namespace Sys2Proof.Machine

/-- A log entry of 16 bytes (R370). -/
def wickEntry (kind who unit launch wg value : Nat) : List Byte :=
  leBytes 1 kind ++ leBytes 1 who ++ leBytes 2 unit ++ leBytes 4 launch ++ leBytes 4 wg ++ leBytes 4 value

/-- An extension entry: the next 12 bytes of a value (R370). -/
def wickExt (value : Nat) : List Byte := leBytes 4 0x0F ++ leBytes 12 value

/-- The byte of a log entry. -/
def State.wickByte (s : State) (d i k : Nat) : Nat := (s.physRead ((s.dom d).logbase.toNat + 16 * i + k)).toNat

/-- A number in a log entry. -/
def State.wickField (s : State) (d i k n : Nat) : Nat := ofLe (s.physBytes ((s.dom d).logbase.toNat + 16 * i + k) n)

/-- Entries appended together; a region without room for them stops recording (R371). -/
def State.wickWrite (s : State) (d : Nat) (es : List (List Byte)) : State :=
  let x := s.dom d
  if x.overflow then s
  else if x.logsize.toNat < x.logNext + es.length then s.modDom d fun y => { y with overflow := true, log := .off }
  else
    let s1 := s.physStore (x.logbase.toNat + 16 * x.logNext) es.flatten
    s1.modDom d fun y => { y with logNext := y.logNext + es.length }

/-- The next entry of a source at or after an index: the first that satisfies a test, before the first unwritten entry. -/
def State.wickFind (s : State) (d : Nat) (p : Nat → Bool) (i : Nat) : Nat → Option Nat
  | 0 => none
  | n + 1 => if s.wickByte d i 0 = 0 then none else if p i then some i else s.wickFind d p (i + 1) n

/-- The position of a source's cursor. -/
def Domain.cursor (x : Domain) (src : List Nat) : Nat := ((x.cursors.find? fun c => decide (c.1 = src)).map (·.2)).getD x.logFrom

/-- The next entry of a source in replay mode. -/
def State.wickNext (s : State) (d : Nat) (src : List Nat) (p : Nat → Bool) : Option Nat :=
  let i := (s.dom d).cursor src
  s.wickFind d p i ((s.dom d).logsize.toNat - i)

/-- An entry of a source, with its extensions, used up. -/
def State.wickUse (s : State) (d : Nat) (src : List Nat) (i n : Nat) : State :=
  s.modDom d fun x => { x with cursors := (src, i + n) :: x.cursors.filter (fun c => decide (c.1 ≠ src)), logNext := max x.logNext (i + n) }

/-- The replay of a domain ends at an entry that does not match (R371). -/
def State.diverge (s : State) (d : Nat) : State := s.modDom d fun x => { x with diverged := true, log := .off }

/-- The domain of a launch is still in replay mode: no event has diverged. -/
def State.replaying (s : State) (d : Nat) (m : LogMode) : Bool := decide (m = .replay) && !(s.dom d).diverged

/-- The first 12 bytes of an entry agree with those of an expected one, and the value field too when `full` is set. -/
def State.wickIs (s : State) (d i : Nat) (e : List Byte) (full : Bool) : Bool :=
  (List.range (if full then 16 else 12)).all fun k => decide (s.wickByte d i k = (e.getD k 0).toNat)

/-- A logged value of kinds 4 to 7: recorded in record mode, replaced by its entry in replay mode (R370, R371). `n` is
its size in bytes, 4 without an extension entry. -/
def State.wickValue (s : State) (r : Ref) (kind n value : Nat) : Nat × State :=
  let g := s.wgOf r
  let e := wickEntry kind r.index r.core g.launch g.index.toNat (value % 2 ^ 32)
  let more := if n = 4 then [] else [wickExt (value / 2 ^ 32)]
  match g.log with
  | .off => (value, s)
  | .record => (value, s.wickWrite g.dom (e :: more))
  | .replay =>
    if s.replaying g.dom g.log then
      let src := [4, g.launch, g.index.toNat, r.index]
      let mine (i : Nat) : Bool := decide (4 ≤ s.wickByte g.dom i 0) && decide (s.wickByte g.dom i 0 ≤ 7) &&
        decide (s.wickByte g.dom i 1 = r.index) && decide (s.wickField g.dom i 4 4 = g.launch) && decide (s.wickField g.dom i 8 4 = g.index.toNat)
      match s.wickNext g.dom src mine with
      | none => (value, s.diverge g.dom)
      | some i =>
        if s.wickIs g.dom i e false then
          let v := if n = 4 then s.wickField g.dom i 12 4 else s.wickField g.dom i 12 4 + 2 ^ 32 * s.wickField g.dom (i + 1) 4 12
          (v % 2 ^ (8 * n), s.wickUse g.dom src i (1 + more.length))
        else (value, s.diverge g.dom)
    else (value, s)

/-- An event that a log orders may happen now: in replay mode only when its entry is its source's next one. An event of which
no entry is left runs, does not match, and ends the replay (R371). -/
def State.wickMay (s : State) (d : Nat) (m : LogMode) (src : List Nat) (p : Nat → Bool) (e : List Byte) : Bool :=
  if s.replaying d m then
    match s.wickNext d src p with
    | none => true
    | some i => s.wickIs d i e true || (s.wickFind d (fun j => s.wickIs d j e true) (i + 1) ((s.dom d).logsize.toNat - i - 1)).isNone
  else true

/-- An ordered event noted: recorded, or its entry used up (R371). -/
def State.wickNote (s : State) (d : Nat) (m : LogMode) (src : List Nat) (p : Nat → Bool) (e : List Byte) : State :=
  match m with
  | .off => s
  | .record => s.wickWrite d [e]
  | .replay =>
    if s.replaying d m then
      match s.wickNext d src p with
      | none => s.diverge d
      | some i => if s.wickIs d i e true then s.wickUse d src i 1 else s.diverge d
    else s

end Sys2Proof.Machine
end

