-- ==== Sys2Proof/Machine/Flights.lean ====
section
/-! DEFINITION. Memory accesses in flight: forming them with the checks of R219 and R220, the order in which they may be
performed (R193, R202 to R204, R226), and performing them through L1 or at their target (R185, R221). -/

namespace Sys2Proof.Machine

/-! ### Forming an access -/

/-- The failure with the lowest cause code among those of a lane, which is the lane's own (R220). -/
def leastRec : List FaultRec → Option FaultRec
  | [] => none
  | x :: xs => match leastRec xs with
    | some y => some (if y.cause.code < x.cause.code then y else x)
    | none => some x

/-- The trap of an access of which some lanes fail: one record for every failing lane, in lane order (R220). -/
def failTrap (unif : Bool) (fs : List FaultRec) : Trap :=
  let cs := fs.map (·.cause)
  { Trap.of (leastCause (cs.getD 0 .space) cs) with
    causes := cs, recs := laneIdx.filterMap fun j => leastRec (fs.filter fun x => decide (x.lane = j)), unif := unif }

/-- The thread a lane of a warp acts for (R192). -/
def State.threadOf (s : State) (r : Ref) (j : Nat) : Nat :=
  let p := s.homeOf r j
  32 * p.1 + p.2

/-- The threads in whose program order a uniform access of a warp stands: its lanes and, in a gathered block, the members that its
packed lanes act for (R192). -/
def State.uniThreads (s : State) (r : Ref) : List Nat :=
  laneIdx.map (fun j => 32 * r.index + j) ++ (if (s.warp r).gather.isSome then laneIdx.map (s.threadOf r) else [])

/-- Two accesses act for one thread (R192). -/
def sameThread (a b : List Nat) : Bool := a.any fun t => b.contains t

/-! ### The order of performing (R193, R202 to R204, R226) -/

/-- The order target of a byte (R171): a vault, a quad SRAM, the weight store, or the host. R171 has no row for the weight store: the
model gives the stores of all dies one target (log entry 82, DESIGN CHOICE). -/
def orderTarget (pa : Nat) : Nat := if paSpace pa = 0 then paVaultOf pa else 4096 + pa / 2 ^ 44 * 4096 + (if paSpace pa = 2 then pa / 2 ^ 24 % 4096 else 0)

/-- A lane's access is direct (R192): that of a `.cs` store where a line of its bytes is absent from L1. -/
def Flight.laneDirect (c : Core) (f : Flight) (l : LaneAcc) : Bool :=
  f.direct || l.refs.any fun b =>
    !b.cached || (decide (f.cache = .cs) && decide (f.kind = .store) && (c.l1Find b.dom b.pa).isNone)

/-- An earlier access of the same thread must be performed first: it touches a byte of this one (R193, R194), or both are direct and
share an order target, or a release or an acquire of the thread stands between them (R202). -/
def laneBefore (c : Core) (g f : Flight) (a b : LaneAcc) : Bool :=
  sameThread a.threads b.threads &&
    (a.refs.any (fun x => b.refs.any fun y => decide (x.pa = y.pa)) ||
      (g.laneDirect c a && f.laneDirect c b &&
        (a.refs.any (fun x => b.refs.any fun y => decide (orderTarget x.pa = orderTarget y.pa)) ||
          c.seps.any fun p => decide (p.set = g.ref.set) && decide (g.seqNo < p.seqNo) && decide (p.seqNo < f.seqNo) &&
            p.threads.any fun t => a.threads.contains t && b.threads.contains t)))

/-- An earlier access `g` of the workgroup must be performed before `f`; a release waits for every earlier access of its warp and of its
threads, and every later one waits for an acquire (R202, R226). -/
def mustPrecede (c : Core) (g f : Flight) : Bool :=
  decide (g.ref.set = f.ref.set) && decide (g.seqNo < f.seqNo) &&
    (((g.order.isAcq || f.order.isRel) && (decide (g.ref = f.ref) || g.lanes.any fun a => f.lanes.any fun b => sameThread a.threads b.threads)) ||
      g.lanes.any fun a => f.lanes.any fun b => laneBefore c g f a b)

/-- An access as the order of performing sees it: direct and relaxed. -/
def Flight.bare (r : Ref) (k : FlightKind) (seqNo : Nat) (pc : Word) (ls : List LaneAcc) : Flight where
  ref := r
  kind := k
  seqNo := seqNo
  pc := pc
  mask := 0
  dest := .none
  size := 0
  sign := false
  lanes := ls
  direct := true
  order := .relaxed
  scope := .core
  cache := .cv
  rp := false
  noret := false
  window := none
  vals := []
  left := 0
  got := []

/-- The reference of a line's first byte under the owner of a version. -/
def Pending.lineRef (p : Pending) : BRef := { pa := p.line * 64, dom := p.dom, epoch := p.epoch, tagged := true, cached := false, stamp := p.limit }

/-- A version on its way, as an access. -/
def Pending.access (p : Pending) : Flight :=
  Flight.bare p.ref .store p.seqNo p.pc
    [{ lane := 0, threads := p.threads, addr := BitVec.ofNat 64 (p.line * 64), refs := p.bytes.map fun x => { p.lineRef with pa := p.line * 64 + x.1 }, data := [] }]

/-- The lanes of an LDAS that are not yet answered, as an access. -/
def LdasOp.access (o : LdasOp) : Flight :=
  Flight.bare o.ref .load o.seqNo o.pc (o.lanes.filter fun l => !(o.got.any fun x => decide (x.1 = l.lane)))

/-- The accesses of a core's warps that are not performed: those in its list, the versions that have not reached their lines (R192,
R214), and the as-of loads (R216). -/
def State.outstanding (s : State) (core : Nat) : List Flight :=
  (s.core core).flights ++ ((s.pending.filter fun p => decide (p.ref.core = core) && !p.arrived && !p.dropped).map Pending.access) ++
    (s.core core).ldas.map LdasOp.access

/-- An access may be performed as far as the older ones go. -/
def State.inOrder (s : State) (core : Nat) (f : Flight) : Bool := !((s.outstanding core).any fun g => mustPrecede (s.core core) g f)

/-! ### Forming an access -/

/-- The index bytes behind a window access (R186). -/
def State.indexRefs (s : State) (a : Actor) (va n : Nat) : List BRef :=
  if bitsOf va 55 53 = 3 then
    match Tab.get none (s.wg a.core a.set).windows (slotOfVa va) with
    | none => []
    | some w =>
      let isz := if w.wide then 8 else 4
      (distinct ((List.range n).map fun b => (va % 2 ^ 45 + b) / 2 ^ w.zlog)).flatMap fun i =>
        match plainRefs s .load a ((w.index.toNat + i * isz) % 2 ^ 56) isz with
        | .ok ir => ir
        | .error _ => []
  else []

/-- The virtual addresses whose translations an access uses: its own, and those of index and element bytes behind a
shadow window (R186, R336). -/
def State.usedVas (s : State) (a : Actor) (va n : Nat) : List Nat :=
  if bitsOf va 55 53 = 3 then
    match Tab.get none (s.wg a.core a.set).windows (slotOfVa va) with
    | none => []
    | some w =>
      let isz := if w.wide then 8 else 4
      (List.range n).flatMap fun b =>
        let o := va % 2 ^ 45 + b
        let iv := (w.index.toNat + o / 2 ^ w.zlog * isz) % 2 ^ 56
        match plainRefs s .load a iv isz with
        | .ok ir => [iv, (w.base.toNat + ofLe (ir.map (s.peek a.core)) * 2 ^ w.zlog + o % 2 ^ w.zlog) % 2 ^ 56]
        | .error _ => []
  else [va]

/-- What an access reads at its issue can be read now: no walk waits for its vault, and the index behind a window comes after the older
accesses of its threads (R177, R186, R193, R202). -/
def State.mayReach (s : State) (r : Ref) (threads : List Nat) (va n : Nat) : Bool :=
  let a := s.actor r
  (s.usedVas a va n).all (fun v => !s.walkHeld r.core a.dom v) &&
    (match s.indexRefs a va n with
      | [] => true
      | ir => ir.all (fun b => !s.held b.pa) &&
        s.inOrder r.core (Flight.bare r .load s.nextIssue 0 [{ lane := 0, threads := threads, addr := 0, refs := ir, data := [] }]))

/-- A byte that an access would read from memory is lost: no copy in L1 stands before it (R185, R366). -/
def State.lostAt (s : State) (core : Nat) (direct : Bool) (b : BRef) : Bool :=
  s.badAt b && (direct || !b.cached || !(match (s.core core).l1Find b.dom b.pa with
    | some l => l.have_.getLsbD (b.pa % 128)
    | none => false))

/-- A lane of an access would read a lost byte. -/
def State.loses (s : State) (core : Nat) (f : Flight) (l : LaneAcc) : Bool := l.refs.any (s.lostAt core (f.laneDirect (s.core core) l))

/-- The record of a lane that reads a lost byte (R366). -/
def lostRec (l : LaneAcc) : FaultRec := { lane := l.lane % 32, cause := .dataLost, addr := l.addr, addr2 := none, aux := 0 }

/-- The accesses of the lanes of a mask, or the trap that names every failing lane, with those that would read a lost byte (R219, R220,
R356). -/
def State.laneAccs (s : State) (r : Ref) (k : Access) (m : Lanes) (addr : Nat → DWord) (n : Nat) (data : Nat → List Byte)
    (lost : LaneAcc → Bool) : Exc (List LaneAcc) := do
  waitFor ((lanesOf m).all fun j => s.mayReach r [s.threadOf r j] (addr j).toNat n)
  let xs := (lanesOf m).map fun j => (j, resolve s k (s.actor r) (addr j) n n)
  let bad := xs.filterMap fun x => match x.2 with
    | .error (c, a2) => some { lane := x.1, cause := c, addr := addr x.1, addr2 := a2, aux := 0 }
    | .ok _ => none
  let good := xs.filterMap fun x => match x.2 with
    | .ok refs => some { lane := x.1, threads := [s.threadOf r x.1], addr := addr x.1, refs := refs, data := data x.1 }
    | .error _ => none
  if bad.isEmpty then pure good else .error (.trap (failTrap false (bad ++ (good.filter lost).map lostRec)))

/-- The access of a uniform instruction, or its trap (R219, R220). -/
def State.uniAcc (s : State) (r : Ref) (k : Access) (addr : DWord) (n align : Nat) (data : List Byte) : Exc LaneAcc := do
  waitFor (s.mayReach r (s.uniThreads r) addr.toNat n)
  match resolve s k (s.actor r) addr n align with
  | .ok refs => pure { lane := 0, threads := s.uniThreads r, addr := addr, refs := refs, data := data }
  | .error (c, a2) => .error (.trap (failTrap true [{ lane := 0, cause := c, addr := addr, addr2 := a2, aux := 0 }]))

/-- The translations of an access used (R336, R338). Index bytes read behind a window leave no older clean copy in L1 (R194). -/
def State.touchAccs (s : State) (r : Ref) (store : Bool) (ls : List LaneAcc) : State :=
  let ir := ls.flatMap fun l => s.indexRefs (s.actor r) l.addr.toNat l.refs.length
  (ir.foldl (fun t b => t.refresh r.core b (s.peek r.core b)) s).touchAll (s.actor r) store
    (ls.flatMap fun l => s.usedVas (s.actor r) l.addr.toNat l.refs.length)

/-- The records of the lanes of an access that read a lost byte, but for those read already (R195, R366). -/
def State.lostLanes (s : State) (core : Nat) (f : Flight) : List FaultRec :=
  if s.bad = [] then []
  else (f.lanes.zipIdx).filterMap fun l =>
    if l.1.refs.zipIdx.any fun b => (Tab.get none f.got (16 * l.2 + b.2)).isNone && s.lostAt core (f.laneDirect (s.core core) l.1) b.1 then
      some (lostRec l.1)
    else none

/-- An access of a uniform instruction. -/
def Flight.isUni (f : Flight) : Bool :=
  match f.dest with
  | .uni _ _ => true
  | .setReg _ => true
  | _ => false

/-- A load or an atomic reads no lost byte, or traps before any effect (R366). -/
def State.readable (s : State) (f : Flight) : Exc Unit :=
  match s.lostLanes f.ref.core f with
  | [] => .ok ()
  | fs => .error (.trap (failTrap f.isUni fs))

/-- The separators of a core as an access enters flight: a release or an acquire is one while an older access is outstanding (R202). -/
def State.sepsWith (s : State) (f : Flight) : List Sep :=
  let seps := (s.core f.ref.core).seps
  let sep : Sep := { set := f.ref.set, seqNo := s.nextIssue, threads := distinct (f.lanes.flatMap (·.threads)) }
  (if f.order = .relaxed then seps else seps ++ [sep]).filter fun p =>
    (s.outstanding f.ref.core).any fun g => decide (g.ref.set = p.set) && decide (g.seqNo < p.seqNo)

/-- An access enters flight, in program order of its warp. -/
def State.fly (s : State) (f : Flight) : State :=
  let s1 := s.modCore f.ref.core fun c => { c with
    flights := c.flights ++ [{ f with seqNo := s.nextIssue }]
    seps := s.sepsWith f }
  { s1 with nextIssue := s.nextIssue + 1 }

/-- The fields of an access in flight that most instructions share. -/
def State.flight (s : State) (r : Ref) (k : FlightKind) (md : Mods) (m : Lanes) (d : Dest) (ls : List LaneAcc) : Flight where
  ref := r
  kind := k
  seqNo := 0
  pc := s.pcOf r
  mask := m
  dest := d
  size := md.size.bytes
  sign := md.sign
  lanes := ls
  direct := decide (md.cache = .cv) || (decide (md.order ≠ .relaxed) && decide (md.scope ≠ .core)) || decide (k = .poll) || decide (k = .atom)
  order := md.order
  scope := md.scope
  cache := md.cache
  rp := md.rp
  noret := md.noret
  window := (ls.find? fun l => decide (bitsOf l.addr.toNat 55 53 = 3)).map fun l => slotOfVa l.addr.toNat
  vals := []
  left := 0
  got := []

/-- Cores of one scope instance (R11). -/
def sameInstance (sc : Scope) (a b : Nat) : Bool :=
  match sc with
  | .core => decide (a = b)
  | .quad => decide (quadOf a = quadOf b)
  | .die => decide (dieOf a = dieOf b)
  | _ => true

/-- The owners' cores whose L1 an acquire with `.rp` has written back, each with the domain whose lines it is (R201). -/
def Flight.promotes (core : Nat) (f : Flight) : List (Nat × Nat) :=
  if f.rp then
    distinct (((f.lanes.flatMap (·.refs)).filter fun b =>
      decide (paSpace b.pa = 0) && decide (paVaultOf b.pa ≠ core) && sameInstance f.scope core (paVaultOf b.pa)).map fun b => (paVaultOf b.pa, b.dom))
  else []

/-- An access in flight may be performed: no older one goes before it, no vault holds it, and neither does a vault hold the L1 bytes
that go with it, as a release or a promoting acquire (R177, R201, R226, R392). -/
def State.flightReady (s : State) (core : Nat) (f : Flight) : Bool :=
  !(s.die (dieOf core)).tripped && s.inOrder core f && (f.lanes.all fun l => l.refs.all fun b => !s.heldFor f.seqNo b.pa) &&
    (!f.order.isRel || decide (f.scope = .core) || !s.dirtyHeldFor f.seqNo core (s.domOf f.ref)) &&
    (f.promotes core).all fun x => !s.dirtyHeldFor f.seqNo x.1 x.2

/-! ### Performing an access (R185, R195, R221, R226) -/

/-- Promotion (R201): the owner's core of each byte writes back its L1 before the acquire completes. -/
def State.promote (s : State) (core : Nat) (f : Flight) : State := (f.promotes core).foldl (fun t x => t.writeBackAll x.1 x.2) s

/-- The steps an access takes before it is performed: a release writes the warp's L1 bytes back (R226), a direct access
writes back the dirty bytes it covers (R185), and a promoting acquire those of the owner (R201). -/
def State.before (s : State) (core : Nat) (f : Flight) : State :=
  let s1 := if f.order.isRel && decide (f.scope ≠ .core) then s.writeBackAll core (s.domOf f.ref) else s
  let s2 := s1.promote core f
  (f.lanes.flatMap fun l => if f.laneDirect (s.core core) l then l.refs else []).foldl
    (fun t b => if paSpace b.pa = 2 then t else t.flushFor core b.dom [b] (decide (f.kind = .atom))) s2

/-- An acquire discards the clean bytes of its core's L1 once its value is fixed (R226). -/
def State.after (s : State) (core : Nat) (f : Flight) : State :=
  if f.order.isAcq && decide (f.scope ≠ .core) then s.discardClean core else s

/-- One byte of a load (R185). A direct one leaves no older clean copy in L1 (R194). -/
def State.loadByte (s : State) (core : Nat) (f : Flight) (b : BRef) : Byte × State :=
  if b.cached && !f.direct then
    let (x, _, t) := s.cachedRead core b (decide (f.cache = .dflt))
    (x, t)
  else (s.readRef b, s.refresh core b (s.readRef b))

/-- The bytes of a load, in order; `k` is the place of the first. A byte performed by itself before has its value (R195). -/
def State.loadBytes (s : State) (core : Nat) (f : Flight) (k : Nat) : List BRef → List Byte × State
  | [] => ([], s)
  | b :: bs =>
    let (x, s1) := match Tab.get none f.got k with
      | some x => (x, s)
      | none => s.loadByte core f b
    let (xs, s2) := s1.loadBytes core f (k + 1) bs
    (x :: xs, s2)

/-- The loads of the lanes from the `i`-th on, each with its value as a number. -/
def State.loadLanes (s : State) (core : Nat) (f : Flight) (i : Nat) : List LaneAcc → List (Nat × Nat) × State
  | [] => ([], s)
  | l :: ls =>
    let (bs, s1) := s.loadBytes core f (16 * i) l.refs
    let (xs, s2) := s1.loadLanes core f (i + 1) ls
    ((l.lane, ofLe bs) :: xs, s2)

/-- One byte of a store (R185). -/
def State.storeByte (s : State) (core : Nat) (f : Flight) (b : BRef) (x : Byte) : State :=
  if b.cached && !f.direct then s.cachedWrite core b x (decide (f.cache = .dflt))
  else (s.writeRef b x).refresh core b x

/-- The bytes of an access with their places and what a store puts there, in lane order. -/
def Flight.places (f : Flight) : List (Nat × BRef × Byte) :=
  f.lanes.zipIdx.flatMap fun l => l.1.refs.zipIdx.map fun b => (16 * l.2 + b.2, b.1, l.1.data.getD b.2 0)

/-- The place is the one whose byte its location takes: that of the highest-numbered lane that writes it (R221). -/
def Flight.owns (f : Flight) (k pa : Nat) : Bool := !(f.places.any fun p => decide (k < p.1) && decide (p.2.1.pa = pa))

/-- The bytes of a store, in order; `k` is the place of the first. A byte performed by itself before is not stored again (R195), and one
that a higher lane writes not at all (R221). -/
def State.storeBytes (s : State) (core : Nat) (f : Flight) (k : Nat) : List BRef → List Byte → State
  | b :: bs, x :: xs =>
    (if (Tab.get none f.got k).isSome || !f.owns k b.pa then s else s.storeByte core f b x).storeBytes core f (k + 1) bs xs
  | _, _ => s

/-- The stores of the lanes from the `i`-th on. -/
def State.storeLanes (s : State) (core : Nat) (f : Flight) (i : Nat) : List LaneAcc → State
  | [] => s
  | l :: ls => (s.storeBytes core f (16 * i) l.refs l.data).storeLanes core f (i + 1) ls

/-- The byte at a place of an access, with what a store puts there (R195). -/
def Flight.partAt (f : Flight) (k : Nat) : Option (BRef × Byte) :=
  (f.lanes[k / 16]?).bind fun l => (l.refs[k % 16]?).map fun b => (b, l.data.getD (k % 16) 0)

/-- A lane of the access may be performed byte by byte: it is not single-copy atomic as a whole (R195, R226), as a set load or store is
(R314). -/
def Flight.splits (f : Flight) : Bool :=
  decide (f.kind ≠ .sld) && decide (f.kind ≠ .sst) && (decide (f.order = .relaxed) || decide (f.scope = .core) || !(decide (f.size = 4) || decide (f.size = 8)))

/-- What is performed by itself at a place: its byte, or its whole lane where that is single-copy atomic, with every other place of the
same locations. The lanes of a load that read one byte receive one value, and those of a store make one write to it (R221); each lane of
a POLL reads for itself (R401; log entry 98, DEDUCED). -/
def Flight.together (f : Flight) (k : Nat) : List (Nat × BRef × Byte) :=
  let mine := f.places.filter fun p => if f.splits then decide (p.1 = k) else decide (p.1 / 16 = k / 16)
  if f.kind = .poll then mine else f.places.filter fun p => mine.any fun q => decide (q.2.1.pa = p.2.1.pa)

/-- The bytes of an access that go through L1 and have not been performed by themselves. -/
def Flight.cachedNow (c : Core) (f : Flight) : List BRef :=
  f.lanes.zipIdx.flatMap fun l => if f.laneDirect c l.1 then [] else
    (l.1.refs.zipIdx.filter fun b => b.1.cached && (Tab.get none f.got (16 * l.2 + b.2)).isNone).map (·.1)

/-- A line of L1 serves bytes of it: a load's where it holds them, a store's where it is there. -/
def Core.serves (c : Core) (dom line : Nat) (store : Bool) (refs : List BRef) : Bool :=
  match c.l1Find dom (line * 128) with
  | some l => store || refs.all fun b => decide (b.pa / 128 ≠ line) || l.have_.getLsbD (b.pa % 128)
  | none => false

/-- The L1 hits and misses of bytes that go through a core's L1 counted, one for each line (R382). -/
def State.countL1 (s : State) (core dom : Nat) (store : Bool) (refs : List BRef) : State :=
  (distinct ((refs.filter (·.cached)).map fun b => b.pa / 128)).foldl (fun t l => t.count dom (if (s.core core).serves dom l store refs then 7 else 8) 1) s

/-- An access leaves flight. -/
def State.land (s : State) (f : Flight) : State :=
  s.modCore f.ref.core fun c => { c with flights := c.flights.filter fun g => decide (g ≠ f) }

/-- An access in flight replaced. -/
def State.setFlight (s : State) (f f1 : Flight) : State :=
  s.modCore f.ref.core fun c => { c with flights := c.flights.map fun g => if g = f then f1 else g }

/-- The accesses not performed of a warp, and of the threads that its uniform instructions stand in the program order of (R192). -/
def State.ownOutstanding (s : State) (r : Ref) : List Flight :=
  let ts := s.uniThreads r
  (s.outstanding r.core).filter fun f => decide (f.ref = r) || (decide (f.ref.set = r.set) && f.lanes.any fun l => sameThread l.threads ts)

/-- No earlier access of the warp or of its threads is outstanding. -/
def State.quiet (s : State) (r : Ref) : Bool := (s.ownOutstanding r).isEmpty

/-- None of them touches a window range (R193). -/
def State.quietAt (s : State) (r : Ref) (off n : Nat) : Bool :=
  !((s.ownOutstanding r).any fun f => f.lanes.any fun l => l.refs.any fun b =>
    (List.range n).any fun i => decide (b.pa = (s.wgOf r).qsramPa r.core (off + i)))

/-- A release at `quad` or wider by the warp: its earlier accesses are performed, and then its L1 bytes (R203, R226). -/
def State.release (s : State) (r : Ref) : Exc State := do
  waitFor (s.quiet r && !s.dirtyHeld r.core (s.domOf r))
  pure (s.writeBackAll r.core (s.domOf r))

/-! ### Reading at issue (R145, R241) -/

/-- Bytes that an instruction reads at its issue, one by one. -/
def State.readEach (s : State) (core : Nat) : List BRef → List Byte × State
  | [] => ([], s)
  | b :: bs =>
    let (x, s1) := if b.cached then (let (y, _, t) := s.cachedRead core b true; (y, t)) else
      (let t := if paSpace b.pa = 2 then s else s.flushFor core b.dom [b] false; (t.readRef b, t.refresh core b (t.readRef b)))
    let (xs, s2) := s1.readEach core bs
    (x :: xs, s2)

/-- Bytes that an instruction or an access slice reads for a domain at once, as a relaxed load (R145, R286), with their L1 hits and misses
counted (R382). -/
def State.readNow (s : State) (core dom : Nat) (refs : List BRef) : List Byte × State := (s.countL1 core dom false refs).readEach core refs

/-- A structure that an instruction reads at its issue, as a relaxed uniform load ordered after the warp's earlier accesses and those of
its threads, which in a gathered block or after one may be another warp's (R145, R193, R241, R319). -/
def State.readStruct (s : State) (r : Ref) (addr : DWord) (n align : Nat) : Exc (List Byte × State) := do
  waitFor (s.quiet r &&
    (List.range ((n + 15) / 16)).all fun i => s.mayReach r (s.uniThreads r) (addr.toNat + 16 * i) (min 16 (n - 16 * i)))
  match resolveSpan s .load (s.actor r) addr n align with
  | .ok refs =>
    waitFor (refs.all fun b => !s.held b.pa)
    if refs.any fun b => s.lostAt r.core false b then
      .error (.trap (failTrap true [{ lane := 0, cause := .dataLost, addr := addr, addr2 := none, aux := 0 }]))
    else
      let s1 := s.touchAll (s.actor r) false [addr.toNat, addr.toNat + n - 1]
      pure (s1.readNow r.core (s.domOf r) refs)
  | .error (c, a2) => .error (.trap (failTrap true [{ lane := 0, cause := c, addr := addr, addr2 := a2, aux := 0 }]))

end Sys2Proof.Machine
end

