-- ==== Sys2Proof/Machine/Sync.lean ====
section
/-! DEFINITION. Fences, barrier objects, circular buffers and the waits on them (R188 to R190, R204, R207, R235 to R240, R250
to R253, R324), and the continuation queues that a completed phase pushes to (R294, R302). -/

namespace Sys2Proof.Machine

/-! ### Continuation queues (R294) -/

/-- The on-chip continuation queue of a priority. -/
def Core.onchip (c : Core) (p : Nat) : List Rec := Tab.get [] c.queues p

/-- The records of a priority in the backing area. -/
def Core.inBacking (c : Core) (p : Nat) : List Rec := Tab.get [] c.backing p

/-- A record pushed to the on-chip queue of its priority, or behind it to the backing area (R294). -/
def Core.pushRec (c : Core) (x : Rec) : Core :=
  if (c.onchip x.prio).length < Config.contQueue then { c with queues := Tab.set [] c.queues x.prio (c.onchip x.prio ++ [x]) }
  else { c with backing := Tab.set [] c.backing x.prio (c.inBacking x.prio ++ [x]) }

/-- The reserved kind 2 record of a swapped warp pushed (R302). -/
def State.pushResume (s : State) (c k w : Nat) : State :=
  s.modCore c fun co =>
    match co.reserved.find? fun x => decide (x.set = k) && decide (x.warp = w) with
    | some x => { co with reserved := co.reserved.filter fun y => decide (y ≠ x) }.pushRec x
    | none => co

/-! ### Barrier objects (R189) -/

/-- The fields of a barrier object. -/
structure Bar where
  expected : Nat
  pending  : Nat
  bytes    : Int
  phase    : Word
  flags    : Nat
  deriving DecidableEq, Repr

/-- A number of `n` bytes in the quad SRAM window of a workgroup. -/
def State.winRead (s : State) (c k off n : Nat) : Nat :=
  ofLe ((List.range n).map fun i => s.ownRead ((s.wg c k).qsramRef c (off + i)))

/-- A number of `n` bytes written in the quad SRAM window of a workgroup, by the quad SRAM's own units. -/
def State.winWrite (s : State) (c k off n x : Nat) : State :=
  s.writeRefs ((List.range n).map fun i => (s.wg c k).qsramRef c (off + i)) (leBytes n x)

/-- The barrier object at a window offset. -/
def State.bar (s : State) (c k off : Nat) : Bar :=
  { expected := s.winRead c k off 2
    pending := s.winRead c k (off + 2) 2
    bytes := signed 32 (s.winRead c k (off + 4) 4)
    phase := BitVec.ofNat 32 (s.winRead c k (off + 8) 4)
    flags := s.winRead c k (off + 12) 4 }

/-- The barrier object at a window offset replaced. -/
def State.setBar (s : State) (c k off : Nat) (b : Bar) : State :=
  let lo := b.expected % 65536 + 65536 * (b.pending % 65536) + 2 ^ 32 * (BitVec.ofInt 32 b.bytes).toNat
  (s.winWrite c k off 8 lo).winWrite c k (off + 8) 8 (b.phase.toNat + 2 ^ 32 * b.flags)

/-- The 16-byte words of a window range tagged (R190). -/
def State.tagWords (s : State) (c k off n : Nat) : State :=
  s.modWg c k fun g => { g with tags := (List.range n).foldl (fun t i => Tab.set false t (off / 16 + i) true) g.tags }

/-- The barrier object that a wait watches. -/
def State.barOfWait (s : State) (c k : Nat) : Wait → Nat
  | .waitph o _ => o
  | .join o _ => o
  | .cbacq d _ => s.winRead c k (d + 12) 4

/-- The slots filled and not yet freed of the buffer at a descriptor (R250). -/
def State.cbFilled (s : State) (c k d : Nat) : Nat :=
  slotsFilled (s.bar c k (s.winRead c k (d + 12) 4)).phase (s.bar c k (s.winRead c k (d + 16) 4)).phase

/-- JOIN's phase has been reached (R324). -/
def joinReached (phase u : Word) : Bool := decide ((phase - u).toNat < 2 ^ 31)

/-- The test of a wait passes (R240, R252, R324). -/
def State.waitPasses (s : State) (c k : Nat) : Wait → Bool
  | .waitph o p => phaseMoved (s.bar c k o).phase p
  | .join o p => joinReached (s.bar c k o).phase p
  | .cbacq d n => decide (n ≤ s.cbFilled c k d)

/-- One warp woken by a phase of the object at `off`: a Parked warp runs again, or keeps its wake while it is pinned or
being swapped out; a Swapped warp's record is pushed when its test passes (R268, R302, R304). -/
def State.wakeWarp (s : State) (c k off w : Nat) : State :=
  let x := s.warpAt c k w
  match x.status with
  | .parked p =>
    if s.barOfWait c k p = off then
      if x.pin.isSome || x.swapDue then s.modWarpAt c k w fun y => { y with wakeDue := true }
      else s.modWarpAt c k w fun y => { y with status := .running, parked := 0 }
    else s
  | .swapped (some p) =>
    if s.barOfWait c k p = off ∧ s.waitPasses c k p then
      if x.pin.isSome then s.modWarpAt c k w fun y => { y with wakeDue := true } else s.pushResume c k w
    else s
  | _ => s

/-- Every waiter of an object woken (R239, R251). -/
def State.wakeBar (s : State) (c k off : Nat) : State := (s.wg c k).warpIdx.foldl (fun t w => t.wakeWarp c k off w) s

/-- A flag bit cleared. -/
def clearBit (x bit : Nat) : Nat := if x.testBit bit then x - 2 ^ bit else x

/-- A flag bit set. -/
def raiseBit (x bit : Nat) : Nat := if x.testBit bit then x else x + 2 ^ bit

/-- The completion check of a barrier object (R239). -/
def State.completeCheck (s : State) (c k off : Nat) : State :=
  let b := s.bar c k off
  if b.flags.testBit 2 = false ∧ b.pending = 0 ∧ b.bytes = 0 then
    (s.setBar c k off { b with phase := b.phase + 1, pending := b.expected, flags := clearBit b.flags 1 }).wakeBar c k off
  else s

/-- The phase of a buffer's filled-slot barrier moves on when its bytes return to 0 (R251). -/
def State.cbCheck (s : State) (c k off : Nat) : State :=
  let b := s.bar c k off
  if b.flags.testBit 2 ∧ b.bytes = 0 then
    (s.setBar c k off { b with phase := b.phase + 1, flags := clearBit b.flags 1 }).wakeBar c k off
  else s

/-- Landed bytes counted into a barrier object, or the fault of the landing (R239). -/
def State.countBytes (s : State) (c k off n : Nat) : Except Cause State :=
  let b := s.bar c k off
  if b.bytes - (n : Int) < -(2 ^ 31 : Int) then .error .barOverflow
  else
    let s1 := s.setBar c k off { b with bytes := b.bytes - n }
    .ok (if b.flags.testBit 2 then s1.cbCheck c k off else s1.completeCheck c k off)

/-- An arrival that a grid's completion makes, or the cause that refuses it (R238, R267). -/
def State.arriveAt (s : State) (c k off : Nat) (x : Int) : Except Cause State :=
  let b := s.bar c k off
  if b.flags.testBit 0 = false then .error .barrierClobber
  else if b.flags.testBit 2 then .error .cbMisuse
  else if x < 0 ∨ b.pending = 0 ∨ 2 ^ 31 - 1 < b.bytes + x then .error .barOverflow
  else .ok ((s.setBar c k off { b with bytes := b.bytes + x, pending := b.pending - 1 }).completeCheck c k off)

/-! ### The checks and orders the instructions share -/

/-- A precise trap of a uniform access at an address (R220, R357). -/
def trapAt {α : Type} (c : Cause) (addr : DWord) : Exc α :=
  .error (.trap (failTrap true [{ lane := 0, cause := c, addr := addr, addr2 := none, aux := 0 }]))

/-- A check that traps at an address when it fails. -/
def needAt (ok : Bool) (c : Cause) (addr : DWord) : Exc Unit := if ok then .ok () else trapAt c addr

/-- A window address: in the quad SRAM space with nothing between its space and its offset (R25). -/
def inWindow (a : DWord) : Bool := decide (a.toNat < 2 ^ 56) && decide (bitsOf a.toNat 55 53 = 2) && decide (bitsOf a.toNat 52 24 = 0)

/-- The window offset of a window address. -/
def winOff (a : DWord) : Nat := a.toNat % 2 ^ 24

/-- The address checks of BARINIT on an object of `n` bytes, aligned to its size (R237). -/
def State.objAddr (s : State) (r : Ref) (a : DWord) (n : Nat) : Exc Nat := do
  needAt (inWindow a) .space a
  needAt (decide (winOff a % n = 0)) .misalign a
  needAt (decide (winOff a + n ≤ (s.wgOf r).qsram)) .qsramBound a
  pure (winOff a)

/-! ### FENCE (R204, R235) -/

/-- FENCE: the earlier accesses of the warp and of its threads are performed, with kind 0 the direct ones. -/
def execFence (sc : Scope) (kind : FenceKind) (hv : Bool) (s : State) : Out :=
  issueSeq s fun s r => do
    need (hv || decide (kind ≠ .none)) .illegalField
    let fs := s.ownOutstanding r
    waitFor (fs.isEmpty || (decide (kind = .none) && !(fs.any fun f => f.lanes.any (f.laneDirect (s.core r.core)))))
    let out := (decide (kind = .rel) || decide (kind = .ar)) && decide (sc ≠ .core)
    waitFor (!out || !s.dirtyHeld r.core (s.domOf r))
    let s1 := if out then s.writeBackAll r.core (s.domOf r) else s
    pure (if (decide (kind = .acq) || decide (kind = .ar)) && decide (sc ≠ .core) then s1.discardClean r.core else s1)

/-! ### Barrier instructions -/

/-- BARINIT (R237). -/
def execBarinit (a : Fin 48) (b : Reg) (s : State) : Out :=
  issueSeq s fun s r => do
    let addr ← s.gpair r a
    let n ← s.uniVal r b
    let off ← s.objAddr r addr 16
    need (decide (1 ≤ n.toNat) && decide (n.toNat ≤ 65535)) .barOverflow
    waitFor (s.quietAt r off 16)
    let old := s.bar r.core r.set off
    let new (p : Word) : Bar := { expected := n.toNat, pending := n.toNat, bytes := 0, phase := p, flags := 1 }
    if old.flags.testBit 0 then do
      let s1 ← s.release r
      let s2 := (((s1.consume r [b]).setBar r.core r.set off (new (old.phase + 1))).tagWords r.core r.set off 1)
      pure (s2.wakeBar r.core r.set off)
    else pure (((s.consume r [b]).setBar r.core r.set off (new 0)).tagWords r.core r.set off 1)

/-- ARRIVE (R238). -/
def execArrive (a : Fin 48) (b : Reg) (s : State) : Out :=
  issueSeq s fun s r => do
    let addr ← s.gpair r a
    let x ← s.uniVal r b
    let off ← s.objAddr r addr 16
    waitFor (s.quietAt r off 16)
    match s.arriveAt r.core r.set off x.toInt with
    | .error c => trapAt c addr
    | .ok _ => do
      let s1 ← s.release r
      match (s1.consume r [b]).arriveAt r.core r.set off x.toInt with
      | .error c => trapAt c addr
      | .ok s2 => pure s2

/-- A wait that has not passed: waiters are marked present and the warp is parked, to issue the wait again when it wakes
(R240, R268, R302). -/
def State.park (s : State) (r : Ref) (w : Wait) (swap : Option Bool) : State :=
  let off := s.barOfWait r.core r.set w
  let b := s.bar r.core r.set off
  let s1 := s.setBar r.core r.set off { b with flags := raiseBit b.flags 1 }
  let due := swap.getD false
  { s1.modWarp r fun x => { x with status := .parked w, parked := 0, swapDue := due, boost := 0, passed := 0, pfx := none } with last := .held }

/-- An acquire that is no access in flight takes its place in the order of performing, where older accesses of its workgroup are
outstanding: their direct ones are performed before the later ones of the same threads (R202). -/
def State.separate (s : State) (r : Ref) : State :=
  if (s.outstanding r.core).any fun g => decide (g.ref.set = r.set) then
    { s.modCore r.core fun c => { c with seps := c.seps ++ [{ set := r.set, seqNo := s.nextIssue, threads := s.uniThreads r }] } with nextIssue := s.nextIssue + 1 }
  else s

/-- A wait on an object: it passes as an acquire at `quad` scope, or parks the warp (R202, R207, R240, R252, R324). -/
def State.waitOn (s : State) (r : Ref) (b : Reg) (w : Wait) (swap : Option Bool) : Exc State :=
  if s.waitPasses r.core r.set w then pure ((((s.separate r).discardClean r.core).consume r [b]).retire r) else pure (s.park r w swap)

/-- WAITPH and JOIN: `w` makes the wait of an object and a value. -/
def phaseWait (w : Nat → Word → Wait) (a : Fin 48) (b : Reg) (swap : Option Bool) (s : State) : Out :=
  issue s fun s r => do
    need (!s.foreign r (s.nextPc r)) .priv
    let addr ← s.gpair r a
    let x ← s.uniVal r b
    let off ← s.objAddr r addr 16
    waitFor (s.quietAt r off 16)
    needAt ((s.bar r.core r.set off).flags.testBit 0) .barrierClobber addr
    s.waitOn r b (w off x) swap

/-- WAITPH (R240). -/
def execWaitph (a : Fin 48) (b : Reg) (swap : Option Bool) (s : State) : Out := phaseWait .waitph a b swap s

/-- JOIN (R324). -/
def execJoin (a : Fin 48) (b : Reg) (swap : Option Bool) (s : State) : Out := phaseWait .join a b swap s

/-! ### Circular buffers (R188, R250 to R253) -/

/-- A circular buffer descriptor. -/
structure Cb where
  base      : Nat
  slotbytes : Nat
  slots     : Nat
  rsv       : Nat
  fill      : Nat
  free      : Nat
  prod      : Nat
  cons      : Nat
  rsv2      : Nat
  deriving DecidableEq, Repr

/-- The descriptor at a window offset. -/
def State.cb (s : State) (c k d : Nat) : Cb :=
  { base := s.winRead c k d 4
    slotbytes := s.winRead c k (d + 4) 4
    slots := s.winRead c k (d + 8) 2
    rsv := s.winRead c k (d + 10) 2
    fill := s.winRead c k (d + 12) 4
    free := s.winRead c k (d + 16) 4
    prod := s.winRead c k (d + 20) 4
    cons := s.winRead c k (d + 24) 4
    rsv2 := s.winRead c k (d + 28) 4 }

/-- Two byte ranges share a byte. -/
def rangesMeet (a n b m : Nat) : Bool := decide (a < b + m) && decide (b < a + n)

/-- An offset names an initialised barrier object of the workgroup. -/
def State.isBar (s : State) (c k off : Nat) : Bool :=
  decide (off % 16 = 0) && decide (off + 16 ≤ (s.wg c k).qsram) && (s.wg c k).tagged off && (s.bar c k off).flags.testBit 0

/-- The checks of a descriptor's fields with a slot count (R188), in the order of the fields. -/
def State.cbFields (s : State) (c k : Nat) (x : Cb) (slots : Nat) : Option Cause :=
  if x.base % 128 ≠ 0 then some .misalign
  else if x.slotbytes % 128 ≠ 0 ∨ x.slotbytes < 128 ∨ 16777216 < x.slotbytes then some .cbMisuse
  else if slots = 0 ∨ x.rsv ≠ 0 then some .cbMisuse
  else if !s.isBar c k x.fill || !s.isBar c k x.free then some .cbMisuse
  else if x.rsv2 ≠ 0 then some .cbMisuse
  else if (s.wg c k).qsram < x.base + slots * x.slotbytes then some .qsramBound
  else none

/-- A descriptor is set up by CBINIT: it is tagged and its fields still stand (R188, R251). -/
def State.cbReady (s : State) (c k d : Nat) : Bool :=
  let x := s.cb c k d
  (s.wg c k).tagged d && (s.cbFields c k x x.slots).isNone && (s.bar c k x.fill).flags.testBit 2 && (s.bar c k x.free).flags.testBit 2 &&
    decide (x.prod < x.slots) && decide (x.cons < x.slots)

/-- A copy in progress streams into the buffer at a descriptor. -/
def CpOp.intoCb (o : CpOp) (d : Nat) : Bool :=
  !o.complete && (match o.kind with
    | .copy x => x.toCb && decide (winOff x.dstA = d)
    | .chain _ => false)

/-- CBINIT (R250). -/
def execCbinit (a : Fin 48) (b : Reg) (s : State) : Out :=
  issueSeq s fun s r => do
    let addr ← s.gpair r a
    let n ← s.uniVal r b
    let d ← s.objAddr r addr 32
    waitFor (s.quiet r)
    let x := s.cb r.core r.set d
    need (decide (1 ≤ n.toNat) && decide (n.toNat ≤ 65535)) .cbMisuse
    match s.cbFields r.core r.set x n.toNat with
    | some c => trapc c
    | none => do
      let out (o : Nat) : Bool := !rangesMeet o 16 x.base (n.toNat * x.slotbytes) && !rangesMeet o 16 d 32
      need (decide (x.fill ≠ x.free) && out x.fill && out x.free) .cbMisuse
      need (!((s.core r.core).cpops.any fun o => decide (o.ref.set = r.set) && o.intoCb d)) .cbMisuse
      need (!(s.bar r.core r.set x.fill).flags.testBit 1 && !(s.bar r.core r.set x.free).flags.testBit 1) .cbMisuse
      let zero : Bar := { expected := 0, pending := 0, bytes := 0, phase := 0, flags := 5 }
      let s1 := ((s.consume r [b]).winWrite r.core r.set (d + 8) 2 n.toNat).winWrite r.core r.set (d + 20) 8 0
      pure (((s1.setBar r.core r.set x.fill zero).setBar r.core r.set x.free zero).tagWords r.core r.set d 2)

/-- The buffer that an instruction names: its address passes and CBINIT has set it up. -/
def State.cbAt (s : State) (r : Ref) (addr : DWord) : Exc Nat := do
  let d ← s.objAddr r addr 32
  waitFor (s.quietAt r d 32)
  need (s.cbReady r.core r.set d) .cbMisuse
  pure d

/-- CBACQ (R252). -/
def execCbacq (a : Fin 48) (b : Reg) (swap : Option Bool) (s : State) : Out :=
  issue s fun s r => do
    need (!s.foreign r (s.nextPc r)) .priv
    let addr ← s.gpair r a
    let n ← s.uniVal r b
    let d ← s.cbAt r addr
    need (decide (1 ≤ n.toNat) && decide (n.toNat ≤ (s.cb r.core r.set d).slots)) .cbMisuse
    s.waitOn r b (.cbacq d n.toNat) swap

/-- CBREL (R253). -/
def execCbrel (a : Fin 48) (b : Reg) (s : State) : Out :=
  issueSeq s fun s r => do
    let addr ← s.gpair r a
    let n ← s.uniVal r b
    let d ← s.cbAt r addr
    need (decide (1 ≤ n.toNat) && decide (n.toNat ≤ s.cbFilled r.core r.set d)) .cbMisuse
    let s1 ← s.release r
    let x := s1.cb r.core r.set d
    let e := s1.bar r.core r.set x.free
    let s2 := (s1.consume r [b]).setBar r.core r.set x.free { e with phase := e.phase + n }
    pure (s2.winWrite r.core r.set (d + 24) 4 ((x.cons + n.toNat) % x.slots))

end Sys2Proof.Machine
end

