-- ==== Sys2Proof/Machine/Copies.lean ====
section
/-! DEFINITION. Shadow window binding (R248, R249) and the copy engines: descriptors, granules, landings, faults and restarts
(R205, R206, R241 to R247, R251). -/

namespace Sys2Proof.Machine

/-! ### Shadow windows -/

/-- An address lies in the window of a slot (R186). -/
def usesSlot (slot : Nat) (a : DWord) : Bool := decide (bitsOf a.toNat 55 53 = 3) && decide (slotOfVa a.toNat = slot)

/-- No window load of the workgroup that uses a slot is in flight, its access slice's ALD among them (R249). R249 does not say whether a
copy, a chain or an array stream that reads through the slot is such a load: the model does not wait for one (log entry 102, DESIGN
CHOICE). -/
def State.slotQuiet (s : State) (r : Ref) (slot : Nat) : Bool :=
  !((s.core r.core).flights.any fun f => decide (f.ref.set = r.set) && f.lanes.any fun l => usesSlot slot l.addr) &&
    !((s.wgOf r).slice.pending.any fun o => usesSlot slot o.addr)

/-- BINDW (R248). -/
def execBindw (a : Fin 48) (slot : Fin 16) (s : State) : Out :=
  issueSeq s fun s r => do
    let addr ← s.gpair r a
    let (bs, s1) ← s.readStruct r addr 32 32
    let base := field bs 0 8
    let index := field bs 8 8
    let count := field bs 16 4
    let zlog := field bs 20 1
    let ifmt := field bs 21 1
    need (decide (bitsOf base 55 53 ≠ 3)) .space
    need (decide (ifmt ≠ 6 ∧ ifmt ≠ 7) || decide (index % (if ifmt = 7 then 8 else 4) = 0)) .misalign
    need (decide (index < 2 ^ 56) && decide (bitsOf index 55 53 ≤ 2)) .space
    need (decide (count ≠ 0) && (decide (12 < zlog) || decide (count * 2 ^ zlog ≤ 2 ^ 45))) .illegalField
    need (decide (zlog ≤ 12)) .illegalField
    need (decide (ifmt = 6 ∨ ifmt = 7)) .illegalField
    need ((bs.drop 22).all fun x => decide (x = 0)) .illegalField
    waitFor (s.slotQuiet r slot.val)
    let w : Window := { base := BitVec.ofNat 64 base, index := BitVec.ofNat 64 index, count := count, zlog := zlog, wide := decide (ifmt = 7) }
    pure (s1.modWgOf r fun g => { g with windows := Tab.set none g.windows slot.val (some w) })

/-- UNBINDW (R249). -/
def execUnbindw (slot : Fin 16) (s : State) : Out :=
  issueSeq s fun s r => do
    waitFor (s.slotQuiet r slot.val)
    pure (s.modWgOf r fun g => { g with windows := Tab.set none g.windows slot.val none })

/-! ### Copy descriptors (R242) -/

/-- The fields of a copy descriptor. -/
def copyDesc (s : State) (bs : List Byte) : CopyDesc :=
  let pkg := field bs 56 4
  { src := BitVec.ofNat 64 (field bs 0 8)
    dstA := BitVec.ofNat 64 (field bs 8 8)
    bar := BitVec.ofNat 64 (field bs 16 8)
    index := BitVec.ofNat 64 (field bs 24 8)
    rowbytes := field bs 32 4
    rows := field bs 36 4
    fromstride := signed 32 (field bs 40 4)
    tostride := signed 32 (field bs 44 4)
    mode := field bs 48 1
    zlog := field bs 49 1
    toCb := (field bs 50 1).testBit 0
    signal := (field bs 50 1).testBit 1
    pattern := BitVec.ofNat 32 (field bs 52 4)
    pkg := if pkg = 2 ^ 32 - 1 ∨ pkg = s.podix then none else some pkg }

/-- The checks of a barrier address in a descriptor, in the order of R219. -/
def State.barAddr (s : State) (r : Ref) (a : DWord) : Exc Unit := do
  if a = 0 then pure ()
  else do
    need (inWindow a) .space
    need (decide (winOff a % 16 = 0)) .misalign
    need (decide (winOff a + 16 ≤ (s.wgOf r).qsram)) .qsramBound

/-- The smallest range, from `lo` up to but not including `hi`, that covers `n` runs of `len` bytes at a stride (R242). -/
def strideRange (start : Int) (stride : Int) (n len : Nat) : Int × Int :=
  let last := start + stride * ((n : Int) - 1)
  (min start last, max start last + len)

/-- The range of the destination bytes. -/
def CopyDesc.dstRange (d : CopyDesc) : Int × Int :=
  let start : Int := (d.dstA.toNat % 2 ^ 56 : Nat)
  if d.mode = 3 then strideRange start d.tostride (d.rowbytes / 2 ^ d.zlog) (d.rows * 2 ^ d.zlog)
  else strideRange start d.tostride d.rows d.rowbytes

/-- The range of the source bytes of modes 0 and 3, and of the index vector of mode 1. -/
def CopyDesc.srcRange (d : CopyDesc) : Int × Int :=
  if d.mode = 1 then strideRange ((d.index.toNat % 2 ^ 56 : Nat) : Int) 4 d.rows 4
  else strideRange ((d.src.toNat % 2 ^ 56 : Nat) : Int) d.fromstride d.rows d.rowbytes

/-- Two address ranges share an address; addresses wrap at 2^56. -/
def rangesCross (a b : Int × Int) : Bool :=
  [-(2 ^ 56 : Int), 0, 2 ^ 56].any fun k => decide (a.1 < b.2 + k) && decide (b.1 + k < a.2)

/-- The destination is quad SRAM and its range passes the allocation (R242). -/
def State.passesQsram (s : State) (r : Ref) (d : CopyDesc) : Bool :=
  inWindow d.dstA && decide (((2 ^ 54 : Int) + (s.wgOf r).qsram) < d.dstRange.2 ∨ d.dstRange.1 < 2 ^ 54)

/-- The buffer that `to` names is one that CBINIT has set up (R242, R251). -/
def State.toBuffer (s : State) (r : Ref) (d : CopyDesc) : Bool :=
  inWindow d.dstA && decide (winOff d.dstA % 32 = 0) && decide (winOff d.dstA + 32 ≤ (s.wgOf r).qsram) && s.cbReady r.core r.set (winOff d.dstA)

/-- The checks of COPY: those of the fields in ascending byte order, then those of the whole descriptor (R241, R242, R245, R251). That a
stream fills whole slots relates several fields and is checked among the last (log entry 81, DESIGN CHOICE). -/
def State.copyChecks (s : State) (r : Ref) (d : CopyDesc) (bs : List Byte) : Exc Unit := do
  let flags := field bs 50 1
  need (!(decide (d.mode = 2) && decide (d.src ≠ 0))) .illegalField
  need (!d.toCb || s.toBuffer r d) .cbMisuse
  s.barAddr r d.bar
  need (!(decide (d.bar ≠ 0) && d.toCb)) .illegalField
  need (decide (d.mode = 1) || decide (d.index = 0)) .illegalField
  need (decide (d.mode ≠ 1) || decide (d.index.toNat % 4 = 0)) .misalign
  need (decide (1 ≤ d.rowbytes) && decide (d.rowbytes ≤ 2 ^ 24)) .illegalField
  need (decide (1 ≤ d.rows) && decide (d.rows ≤ 2 ^ 24)) .illegalField
  need (!(d.toCb && decide (d.tostride ≠ 0))) .illegalField
  need (decide (d.mode ≤ 3)) .illegalField
  need (if d.mode = 3 then decide (d.zlog ≤ 3) && decide (d.rowbytes % 2 ^ d.zlog = 0) else decide (d.zlog = 0)) .illegalField
  need (!(d.toCb && decide (d.mode = 3)) && decide (flags < 4)) .illegalField
  need (decide (field bs 51 1 = 0)) .illegalField
  need (decide (d.mode = 2) || decide (d.pattern = 0)) .illegalField
  need (decide (field bs 56 4 = 2 ^ 32 - 1) || decide (field bs 56 4 ≤ 262143)) .illegalField
  need (decide (field bs 60 4 = 0)) .illegalField
  need (!d.signal || (decide (d.rows = 1) && (decide (d.mode = 0) || decide (d.mode = 2)) && [1, 2, 4, 8].contains d.rowbytes &&
    decide (d.dstA.toNat % d.rowbytes = 0))) .illegalField
  if d.toCb then need (decide ((d.rowbytes * d.rows) % (s.cb r.core r.set (winOff d.dstA)).slotbytes = 0)) .cbMisuse
  else do
    need (d.pkg.isSome || decide (d.mode = 2) || !rangesCross d.dstRange d.srcRange) .illegalField
    need (!s.passesQsram r d) .qsramBound

/-- The completion scope of a copy or chain; `quad` by default (R241). -/
def cScope (sc : Option Scope) : Scope := sc.getD .quad

/-- The copy engine of a core that holds fewer operations (R241). -/
def Core.freeEngine (c : Core) : Nat :=
  let load (e : Nat) : Nat := (c.cpops.filter fun o => decide (o.engine = e) && !o.complete).length
  if load 1 < load 0 then 1 else 0

/-- An engine operation handed to one of the core's two copy engines (R241, R165). -/
def State.handCp (s : State) (r : Ref) (k : CpKind) (sc : Option Scope) : State :=
  let o : CpOp :=
    { id := s.nextIssue
      engine := (s.core r.core).freeEngine
      ref := r
      dom := s.domOf r
      pc := s.pcOf r
      scope := cScope sc
      kind := k
      landed := []
      acked := []
      started := false
      slotOf := none
      pieces := 0
      done := 0
      fault := none
      complete := false }
  let s1 := (s.enter r .cp).modCore r.core fun c => { c with cpops := c.cpops ++ [o] }
  { s1 with nextIssue := s.nextIssue + 1 }

/-- COPY (R241). -/
def execCopy (a : Fin 48) (sc : Option Scope) (s : State) : Out :=
  issueSeq s fun s r => do
    let addr ← s.gpair r a
    s.room r .cp
    let (bs, s1) ← s.readStruct r addr 64 64
    let d := copyDesc s bs
    s.copyChecks r d bs
    pure (s1.handCp r (.copy d) sc)

/-! ### Granules (R243, R244) -/

/-- Where a byte of a copy comes from: memory, or the pattern. -/
inductive CopySrc where
  | mem (va : Nat)
  | const (x : Byte)
  deriving DecidableEq, Repr

/-- An address plus a signed distance, wrapping at 2^56. -/
def addVa (a : DWord) (x : Int) : Nat := (((a.toNat : Int) + x) % 2 ^ 56).toNat

/-- The destination addresses of one row of modes 0 to 2, or of one element of mode 3. -/
def CopyDesc.dstStart (d : CopyDesc) (row e : Nat) : Nat :=
  if d.mode = 3 then addVa d.dstA (d.tostride * e + row * 2 ^ d.zlog) else addVa d.dstA (d.tostride * row)

/-- The bytes, first and last, that piece `p` of a run of `n` bytes at an address holds: the run is cut at 128-byte
boundaries (R244). -/
def pieceOf (start n p : Nat) : Nat × Nat :=
  let lo := if p = 0 then 0 else (start / 128 + p) * 128 - start
  (lo, min n ((start / 128 + p + 1) * 128 - start))

/-- The number of pieces of a run. -/
def pieceCount (start n : Nat) : Nat := (start + n - 1) / 128 - start / 128 + 1

/-- Byte `c` of a row's source; `i` is the row's index value in mode 1. -/
def CopyDesc.srcByte (d : CopyDesc) (row c i : Nat) : CopySrc :=
  match d.mode with
  | 1 => .mem (addVa d.src (d.fromstride * i + c))
  | 2 => .const (d.pattern.extractLsb' (8 * (c % 4)) 8)
  | _ => .mem (addVa d.src (d.fromstride * row + c))

/-- The window address of an offset. -/
def winVa (off : Nat) : Nat := 2 ^ 54 + off

/-- The granules of a copy: row and piece of each. In mode 3 the pieces of element e are 2e and 2e + 1. Into a circular
buffer, `row` is the piece in progress. -/
def CpOp.granules (o : CpOp) (d : CopyDesc) (slotbytes : Nat) : List (Nat × Nat) :=
  if d.toCb then (List.range (slotbytes / 128)).map fun p => (o.pieces, p)
  else if d.mode = 3 then
    (List.range d.rows).flatMap fun row => (List.range (d.rowbytes / 2 ^ d.zlog)).flatMap fun e =>
      (List.range (pieceCount (d.dstStart row e) (2 ^ d.zlog))).map fun h => (row, 2 * e + h)
  else (List.range d.rows).flatMap fun row => (List.range (pieceCount (d.dstStart row 0) d.rowbytes)).map fun p => (row, p)

/-- The bytes of a granule: for each its destination address, and the row and byte of the row that it comes from. -/
def State.granBytes (s : State) (o : CpOp) (d : CopyDesc) (row piece : Nat) : List (Nat × Nat × Nat) :=
  if d.toCb then
    let x := s.cb o.ref.core o.ref.set (winOff d.dstA)
    (List.range 128).map fun i =>
      let at' := row * x.slotbytes + 128 * piece + i
      (winVa (x.base + o.slotOf.getD 0 * x.slotbytes + 128 * piece + i), at' / d.rowbytes, at' % d.rowbytes)
  else if d.mode = 3 then
    let e := piece / 2
    let (lo, hi) := pieceOf (d.dstStart row e) (2 ^ d.zlog) (piece % 2)
    (List.range (hi - lo)).map fun i => ((d.dstStart row e + lo + i) % 2 ^ 56, row, e * 2 ^ d.zlog + lo + i)
  else
    let (lo, hi) := pieceOf (d.dstStart row 0) d.rowbytes piece
    (List.range (hi - lo)).map fun i => ((d.dstStart row 0 + lo + i) % 2 ^ 56, row, lo + i)

/-! ### Landings -/

/-- Whose accesses an engine makes. -/
def engineActor (ref : Ref) (dom : Nat) : Actor := { core := ref.core, set := ref.set, dom := dom, superv := false }

/-- A fault met at an address (R247, R357). -/
def opFault (c : Cause) (a : Nat) (a2 : Option DWord) : OpFault := { cause := c, addr := BitVec.ofNat 64 a, addr2 := a2, superv := false }

/-- Bytes that an engine reads: the issuing core's dirty bytes among them are written back first, those behind a shadow window too, and no
older clean copy stays in its L1 (R185, R194, R205). -/
def State.engineRead (s : State) (core : Nat) (refs : List BRef) : List Byte × State :=
  let s1 := refs.foldl (fun t b => if paSpace b.pa = 2 then t else t.flushFor core b.dom [b] false) s
  (refs.map s1.readRef, refs.foldl (fun t b => t.refresh core b (s1.readRef b)) s1)

/-- Bytes that an engine writes, one by one. -/
def State.engineBytes (s : State) (core : Nat) : List BRef → List Byte → State
  | b :: bs, x :: xs =>
    let s1 := if paSpace b.pa = 2 then s else s.flushFor core b.dom [b] false
    ((s1.writeRef b x).refresh core b x).engineBytes core bs xs
  | _, _ => s

/-- Bytes that an engine writes: they are performed at their target, the issuing core's L1 follows, and a granule written whole is good
again (R185, R205, R366). -/
def State.engineWrite (s : State) (core : Nat) (refs : List BRef) (bytes : List Byte) : State := (s.engineBytes core refs bytes).heal refs

/-- An unsigned number that an engine reads at an address, or its fault, lost data among them (R366); the vault must not be held. -/
def State.engineNum (s : State) (a : Actor) (va n : Nat) : Except OpFault (Nat × State) :=
  match (List.range n).mapM fun i => resolve s .engineRead a (BitVec.ofNat 64 ((va + i) % 2 ^ 56)) 1 1 with
  | .error (c, a2) => .error (opFault c va a2)
  | .ok rs =>
    if rs.flatten.any s.badAt then .error (opFault .dataLost va none)
    else
      let (bs, s1) := s.engineRead a.core rs.flatten
      .ok (ofLe bs, s1.touchAll a false [va])

/-- The source bytes of a granule read, or its fault. -/
def State.readSrcs (s : State) (a : Actor) : List (Nat × CopySrc) → Except OpFault (List (Nat × Byte) × State)
  | [] => .ok ([], s)
  | (dst, x) :: rest =>
    match x with
    | .const b => match s.readSrcs a rest with
      | .error f => .error f
      | .ok (bs, t) => .ok ((dst, b) :: bs, t)
    | .mem va => match s.engineNum a va 1 with
      | .error f => .error f
      | .ok (v, s1) => match s1.readSrcs a rest with
        | .error f => .error f
        | .ok (bs, t) => .ok ((dst, BitVec.ofNat 8 v) :: bs, t)

/-- The bytes that a granule's destination names, or the fault of its first failing byte. -/
def State.dstRefs (s : State) (a : Actor) : List (Nat × CopySrc) → Except OpFault (List BRef)
  | [] => .ok []
  | (dst, x) :: rest =>
    let src := match x with
      | .mem va => va
      | .const _ => dst
    match resolve s .engineWrite a (BitVec.ofNat 64 dst) 1 1 with
    | .error (c, _) => .error (opFault c src (some (BitVec.ofNat 64 dst)))
    | .ok refs => match s.dstRefs a rest with
      | .error f => .error f
      | .ok rs => .ok (refs ++ rs)

/-- The index value of a row of mode 1, and the check of its source against the destination (R242). -/
def State.rowIndex (s : State) (a : Actor) (d : CopyDesc) (row : Nat) : Except OpFault (Nat × State) :=
  if d.mode = 1 then
    match s.engineNum a (addVa d.index (4 * row : Nat)) 4 with
    | .error f => .error f
    | .ok (i, s1) =>
      let start := addVa d.src (d.fromstride * i)
      if d.pkg.isNone && !d.toCb && rangesCross d.dstRange ((start : Int), (start : Int) + d.rowbytes) then .error (opFault .illegalField start none)
      else .ok (i, s1)
  else .ok (0, s)

/-- The bytes of a granule with their sources, once the index values of its rows are read. -/
def State.granSrcs (s : State) (a : Actor) (d : CopyDesc) : List (Nat × Nat × Nat) → Except OpFault (List (Nat × CopySrc) × State)
  | [] => .ok ([], s)
  | (dst, row, c) :: rest =>
    match s.rowIndex a d row with
    | .error f => .error f
    | .ok (i, s1) => match s1.granSrcs a d rest with
      | .error f => .error f
      | .ok (xs, t) => .ok ((dst, d.srcByte row c i) :: xs, t)

/-- The barrier object that a copy's granules are counted into. -/
def State.countsInto (s : State) (o : CpOp) (d : CopyDesc) : Option Nat :=
  if d.toCb then some (s.cb o.ref.core o.ref.set (winOff d.dstA)).fill
  else if d.bar = 0 then none else some (winOff d.bar)

/-- A granule moved and counted, or its fault (R190, R243, R244, R246). -/
def State.landGranule (s : State) (o : CpOp) (d : CopyDesc) (row piece : Nat) : Except OpFault State :=
  let a := engineActor o.ref o.dom
  match s.granSrcs a d (s.granBytes o d row piece) with
  | .error f => .error f
  | .ok (xs, s1) => match s1.readSrcs a xs with
    | .error f => .error f
    | .ok (bytes, s2) =>
      match (if d.toCb then none else d.pkg) with
      | some p => .ok { s2 with fabric := s2.fabric ++ [{ pkg := p, dom := o.dom, addr := BitVec.ofNat 64 ((bytes.head?.map (·.1)).getD 0), bytes := bytes.map (·.2) }] }
      | none => match s2.dstRefs a xs with
        | .error f => .error f
        | .ok refs =>
          let s3 := (s2.engineWrite o.ref.core refs (bytes.map (·.2))).touchAll a true (bytes.map (·.1))
          if o.acked.contains (row, piece) then .ok s3
          else match s.countsInto o d with
            | none => .ok s3
            | some b => match s3.countBytes o.ref.core o.ref.set b bytes.length with
              | .error c => .error (opFault c ((bytes.head?.map (·.1)).getD 0) none)
              | .ok s4 => .ok s4

/-- An engine operation by its id. -/
def State.cpById (s : State) (core id : Nat) : Option CpOp := (s.core core).cpops.find? fun o => decide (o.id = id)

/-- An engine operation by its id, for the engines to go on with: on a tripped die they hold in place (R392). -/
def State.cpGoing (s : State) (core id : Nat) : Option CpOp := if (s.die (dieOf core)).tripped then none else s.cpById core id

/-- An engine operation replaced. -/
def State.putCp (s : State) (core : Nat) (o : CpOp) : State :=
  s.modCore core fun c => { c with cpops := c.cpops.map fun x => if x.id = o.id then o else x }

/-- Every earlier `cp` operation of the warp has completed (R245). -/
def State.firstCp (s : State) (core : Nat) (o : CpOp) : Bool :=
  !((s.core core).cpops.any fun x => decide (x.ref = o.ref) && decide (x.id < o.id) && !x.complete)

/-- An engine's access to an address waits: a vault that holds a byte of it, or a table of its walk, takes no access (R177, R392). -/
def State.engineHeld (s : State) (a : Actor) (k : Access) (va n : Nat) : Bool :=
  s.walkHeld a.core a.dom va ||
    (match resolve s k a (BitVec.ofNat 64 va) n 1 with
      | .ok refs => refs.any fun b => s.held b.pa
      | .error _ => false)

/-- A vault of a granule's addresses is held by a quiesce or a trip (R177, R392). -/
def State.granHeld (s : State) (a : Actor) (xs : List (Nat × CopySrc)) : Bool :=
  (s.die (dieOf a.core)).tripped || xs.any fun x =>
    (match x.2 with
      | .mem va => s.engineHeld a .engineRead va 1
      | .const _ => false) || s.engineHeld a .engineWrite x.1 1

/-- A vault of the index values of a granule's rows is held (R177, R243). -/
def State.indexHeld (s : State) (a : Actor) (d : CopyDesc) (xs : List (Nat × Nat × Nat)) : Bool :=
  decide (d.mode = 1) && (distinct (xs.map fun x => x.2.1)).any fun row => s.engineHeld a .engineRead (addVa d.index (4 * row : Nat)) 4

/-- The granules of a copy leave the package, so that they wait for a route (R246, R394). -/
def CopyDesc.away (d : CopyDesc) : Bool := d.pkg.isSome && !d.toCb

/-- A granule of a copy may be moved now: the copy runs, the granule is one of its own that has not landed, a signal copy
or a buffer piece has started, no vault is held, and a route to another package is live (R177, R245, R251, R394). -/
def State.granuleMay (s : State) (o : CpOp) (d : CopyDesc) (row piece : Nat) : Bool :=
  o.fault.isNone && !o.complete && !o.landed.contains (row, piece) && (!d.away || s.routed) && (!d.signal || o.started) && (!d.toCb || o.slotOf.isSome) &&
    (o.granules d (s.cb o.ref.core o.ref.set (winOff d.dstA)).slotbytes).contains (row, piece) &&
    !s.indexHeld (engineActor o.ref o.dom) d (s.granBytes o d row piece) &&
    (match s.granSrcs (engineActor o.ref o.dom) d (s.granBytes o d row piece) with
      | .ok (xs, _) => !s.granHeld (engineActor o.ref o.dom) xs
      | .error _ => true)

/-- The state after a granule has landed: it is noted, and a full buffer piece ends (R251). -/
def State.noteLanded (s : State) (o : CpOp) (d : CopyDesc) (row piece : Nat) : State :=
  let counted := if d.away then o.acked else if o.acked.contains (row, piece) then o.acked else (row, piece) :: o.acked
  let o1 := { o with landed := (row, piece) :: o.landed, acked := counted }
  let n := (s.cb o.ref.core o.ref.set (winOff d.dstA)).slotbytes / 128
  if d.toCb ∧ o1.landed.length = n then s.putCp o.ref.core { o1 with landed := [], acked := [], slotOf := none, pieces := o.pieces + 1 }
  else s.putCp o.ref.core o1

/-- COPY_GRANULE_LAND (R244). -/
def execCopyGranuleLand (core op row piece : Nat) (s : State) : Out :=
  match s.cpGoing core op with
  | some o => match o.kind with
    | .copy d =>
      if s.granuleMay o d row piece then
        match s.landGranule o d row piece with
        | .ok s1 => .next (s1.noteLanded o d row piece)
        | .error _ => .next s
      else .next s
    | .chain _ => .next s
  | none => .next s

/-- A recorded fault: a page fault is the supervisor's to resolve when it holds a mapping for the address (R247, R413). -/
def State.recordFault (s : State) (dom : Nat) (f : OpFault) : OpFault :=
  { f with superv := (decide (f.cause = .pageNotPresent) || decide (f.cause = .pageProt)) && (s.resolves dom f.addr f.addr2).isSome }

/-- The supervisor completes the tables for a recorded fault that it resolves (R413). -/
def State.resolveFault (s : State) (dom : Nat) (f : OpFault) : State :=
  match s.resolves dom f.addr f.addr2 with
  | some m => s.completeTable dom m
  | none => s

/-- COPY_FAULT: a granule that fails its checks stops the copy (R247). -/
def execCopyFault (core op row piece : Nat) (s : State) : Out :=
  match s.cpGoing core op with
  | some o => match o.kind with
    | .copy d =>
      if s.granuleMay o d row piece then
        match s.landGranule o d row piece with
        | .ok _ => .next s
        | .error f => .next (s.putCp core { o with fault := some (s.recordFault o.dom f) })
      else .next s
    | .chain _ => .next s
  | none => .next s

/-- An engine operation set going again: it moves every byte again, and counts no granule twice (R247). -/
def CpOp.restarted (o : CpOp) : CpOp := { o with fault := none, landed := [] }

/-- An engine operation run again after a transient error (R247, R364): the replay is counted. -/
def State.replayCp (s : State) (core : Nat) (o : CpOp) : State :=
  if o.fault.isNone && !o.complete then (s.putCp core o.restarted).count o.dom 12 1 else s

/-- COPY_RESTART: the supervisor has resolved the fault, or the device runs the operation again after a transient error (R247, R364). -/
def execCopyRestart (core : Nat) (op : Restart) (s : State) : Out :=
  match s.cpGoing core op.unit with
  | some o => match o.fault with
    | some f => .next (if f.superv && !op.replay then (s.resolveFault o.dom f).putCp core o.restarted else s)
    | none => .next (if op.replay then s.replayCp core o else s)
  | none => .next s

/-- Completed operations of a warp leave `cp` in issue order (R205). -/
def State.drainCp (s : State) (r : Ref) : Nat → State
  | 0 => s
  | n + 1 =>
    match (s.core r.core).cpops.find? fun o => decide (o.ref = r) with
    | some o =>
      if o.complete then ((s.modCore r.core fun c => { c with cpops := c.cpops.filter fun x => decide (x.id ≠ o.id) }).leave r .cp o.id).drainCp r n
      else s
    | none => s

/-- An engine operation completes (R205, R206, R244). -/
def State.finishCp (s : State) (o : CpOp) : State :=
  (s.putCp o.ref.core { o with complete := true }).drainCp o.ref (s.core o.ref.core).cpops.length

/-- The whole of a copy has been moved and counted (R244, R246, R251). -/
def State.copyDone (s : State) (o : CpOp) (d : CopyDesc) : Bool :=
  if d.toCb then decide (o.pieces * (s.cb o.ref.core o.ref.set (winOff d.dstA)).slotbytes = d.rowbytes * d.rows)
  else (o.granules d 0).all fun g => o.landed.contains g && (d.pkg.isNone || o.acked.contains g)

/-- COPY_COMPLETE (R244). -/
def execCopyComplete (core op : Nat) (s : State) : Out :=
  match s.cpGoing core op with
  | some o => match o.kind with
    | .copy d => .next (if o.fault.isNone && !o.complete && s.copyDone o d then s.finishCp o else s)
    | .chain _ => .next s
  | none => .next s

/-- Another copy of the core into the same buffer was issued earlier and still runs (R251). -/
def State.cbBusy (s : State) (core : Nat) (o : CpOp) (d : CopyDesc) : Bool :=
  (s.core core).cpops.any fun x => decide (x.id < o.id) && decide (x.ref.set = o.ref.set) && x.intoCb (winOff d.dstA)

/-- CB_PIECE_START: the next piece of a stream takes a free slot (R251). -/
def execCbPieceStart (core op : Nat) (s : State) : Out :=
  match s.cpGoing core op with
  | some o => match o.kind with
    | .copy d =>
      let k := o.ref.set
      let at' := winOff d.dstA
      let x := s.cb core k at'
      if o.fault.isSome || o.complete || !d.toCb || o.slotOf.isSome || s.cbBusy core o d || (d.signal && !o.started) then .next s
      else if !s.cbReady core k at' then .next (s.putCp core { o with fault := some (opFault .cbMisuse d.dstA.toNat none) })
      else if d.rowbytes * d.rows ≤ o.pieces * x.slotbytes then .next s
      else if x.slots < s.cbFilled core k at' + 1 then .next s
      else
        let s1 := s.winWrite core k (at' + 20) 4 ((x.prod + 1) % x.slots)
        let b := s1.bar core k x.fill
        let s2 := s1.setBar core k x.fill { b with bytes := b.bytes + x.slotbytes }
        .next (s2.putCp core { o with slotOf := some x.prod })
    | .chain _ => .next s
  | none => .next s

/-- SIGNAL_COPY_START: a signal copy starts once every earlier `cp` operation of its warp has completed (R245). -/
def execSignalCopyStart (core op : Nat) (s : State) : Out :=
  match s.cpGoing core op with
  | some o => match o.kind with
    | .copy d => .next (if d.signal && s.firstCp core o && !o.complete then s.putCp core { o with started := true } else s)
    | .chain _ => .next s
  | none => .next s

/-- REMOTE_LANDING_ACK: the target package acknowledges a granule over a live route, and the granule is then counted (R246, R394). -/
def execRemoteLandingAck (core op row piece : Nat) (s : State) : Out :=
  match s.cpGoing core op with
  | some o => match o.kind with
    | .copy d =>
      if d.away && s.routed && o.landed.contains (row, piece) && !o.acked.contains (row, piece) && o.fault.isNone then
        let o1 := { o with acked := (row, piece) :: o.acked }
        match s.countsInto o d with
        | none => .next (s.putCp core o1)
        | some b => match s.countBytes core o.ref.set b (s.granBytes o d row piece).length with
          | .ok s1 => .next (s1.putCp core o1)
          | .error c => .next (s.putCp core { o with fault := some (opFault c d.bar.toNat none) })
      else .next s
    | .chain _ => .next s
  | none => .next s

end Sys2Proof.Machine
end

