-- ==== Sys2Proof/Machine/Array.lean ====
section
/-! DEFINITION. The matrix unit: claims on the array state, tiles, slices, weight latches, the loop with its mask and row
progress, and its stops and faults (R102 to R106, R141 to R163, R184). -/

namespace Sys2Proof.Machine

/-! ### The holder (R142, R143) -/

/-- A core's array state. -/
def State.array (s : State) (core : Nat) : ArrayState := (s.core core).array

/-- A core's array state changed. -/
def State.modArray (s : State) (core : Nat) (f : ArrayState → ArrayState) : State :=
  s.modCore core fun c => { c with array := f c.array }

/-- The array state fresh for a holder, the waiting claims kept (R142). -/
def ArrayState.fresh (a : ArrayState) (holder : Option Nat) : ArrayState := { ArrayState.init with holder := holder, claims := a.claims }

/-- A workgroup's claim is no longer waiting. -/
def ArrayState.unclaim (a : ArrayState) (k : Nat) : ArrayState := { a with claims := a.claims.filter fun x => decide (x ≠ k) }

/-- The array state given to a workgroup: fresh, or the one saved when the workgroup was pre-empted; its tiles carry the workgroup's
owner tag (R142, R160, R333). -/
def State.giveArray (s : State) (core k : Nat) : State :=
  let g := s.wg core k
  let s0 := s.modCore core fun c => { c with epochs := nextEpoch c.epochs, tileTag := (g.dom, nextEpoch c.epochs) }
  match g.savedArray with
  | some x => (s0.modWg core k fun g => { g with savedArray := none }).modArray core fun a => { x with holder := some k, claims := (a.unclaim k).claims }
  | none => s0.modArray core fun a => a.fresh (some k)

/-- The waiting claim of the oldest workgroup (R142). -/
def State.oldestClaim (s : State) (core : Nat) : Option Nat :=
  let cs := (s.array core).claims
  cs.find? fun k => cs.all fun j => decide ((s.wg core k).seq ≤ (s.wg core j).seq)

/-- The claim of an array instruction: the holder passes, a free state is taken at once, and any other claim waits (R142).
The waiting claim itself is noted by the step (`State.noteClaim`). -/
def State.claim (s : State) (r : Ref) : Exc State :=
  match (s.array r.core).holder with
  | some k => if k = r.set then pure s else .error .stall
  | none =>
    if (s.array r.core).claims.isEmpty || decide (s.oldestClaim r.core = some r.set) then pure (s.giveArray r.core r.set)
    else .error .stall

/-- The instructions that claim the array state (R142). -/
def claims : Instr → Bool
  | .loadw .. | .mloop _ | .mmask _ | .tcfg .. | .tzero _ | .trel _ | .trd .. | .twr .. | .tacc .. => true
  | _ => false

/-- The instructions that take a place in the sequencer's order without being an array operation: later array operations of the other
warps wait for them (R144, R150, R164). -/
def ordersArray : Instr → Bool
  | .tcfg _ d => !(d.getD false)
  | .trel _ | .trd .. | .twr .. | .tacc .. => true
  | _ => false

/-- An array instruction that waits is remembered: its workgroup's claim, or its place in the sequencer's order (R142, R144). -/
def State.noteClaim (s : State) (r : Ref) (i : Instr) : State :=
  let a := s.array r.core
  if a.holder ≠ some r.set then (if a.claims.contains r.set then s else s.modArray r.core fun a => { a with claims := a.claims ++ [r.set] })
  else if ordersArray i && !a.waiters.contains r then s.modArray r.core fun a => { a with waiters := a.waiters ++ [r] }
  else s

/-- An array instruction has taken effect or has trapped: its workgroup's claim, if it waited, has been used, and so has its place. -/
def State.useClaim (s : State) (r : Ref) : State :=
  let a := s.array r.core
  if a.claims.contains r.set || a.waiters.contains r then
    s.modArray r.core fun a => { a.unclaim r.set with waiters := a.waiters.filter fun x => decide (x ≠ r) }
  else s

/-- ARRAY_CLAIM_GRANT: the oldest waiting workgroup receives a free array state (R142). -/
def execArrayClaimGrant (core : Nat) (s : State) : Out :=
  match (s.array core).holder, s.oldestClaim core with
  | none, some k => .next (s.giveArray core k)
  | _, _ => .next s

/-- The array operations queued or running, without the mask changes that hold their place among them (R144). -/
def ArrayState.queued (a : ArrayState) : List ArrOp := a.ops.filter fun o => match o.kind with
  | .mmask _ => false
  | _ => true

/-- ARRAY_STATE_GIVE_UP: a holder without a live tile or an outstanding operation gives way to a waiting workgroup, once the
instruction it was granted the state for has executed (R142, R143). -/
def execArrayStateGiveUp (core : Nat) (s : State) : Out :=
  let a := s.array core
  .next (match a.holder with
    | some k => if a.live = 0 ∧ a.queued.isEmpty ∧ !a.claims.contains k ∧ !a.claims.isEmpty then s.modArray core fun x => x.fresh none else s
    | none => s)

/-! ### Tiles (R146 to R148) -/

/-- The number of tiles of a configuration. -/
def tileCount (cfg : Nat) : Nat := if cfg = 0 then 8 else 16
/-- The rows of a tile. -/
def tileRows (cfg : Nat) : Nat := if cfg = 0 then 128 else 64
/-- The place of a tile's element in the store. The spec does not say what the tiles read after a TCFG that changes the configuration without
`.discard`: the model keeps the words of the one store, which the new shape finds at other places (R146; log entry 101, DESIGN CHOICE). -/
def tileKey (cfg t row col : Nat) : Nat := t * (tileRows cfg * 128) + row * 128 + col

/-- An element of a tile. -/
def ArrayState.elem (a : ArrayState) (t row col : Nat) : Word := Tab.get 0 a.tiles (tileKey a.cfg t row col)
/-- An element of a tile replaced. -/
def ArrayState.setElem (a : ArrayState) (t row col : Nat) (x : Word) : ArrayState :=
  { a with tiles := Tab.set 0 a.tiles (tileKey a.cfg t row col) x }

/-- A tile made live. -/
def ArrayState.liven (a : ArrayState) (t : Nat) : ArrayState := { a with live := a.live ||| BitVec.ofNat 16 (2 ^ t) }

/-- The tile that an array operation changes. -/
def ArrKind.tile : ArrKind → Option Nat
  | .mloop d => some d.tile
  | .tzero t => some t
  | _ => none

/-- No array operation on a tile is outstanding (R150). -/
def ArrayState.tileQuiet (a : ArrayState) (t : Nat) : Bool := a.ops.all fun o => decide (o.kind.tile ≠ some t)

/-- Leading mask changes of the sequencer's order take effect (R157). -/
def settleMasks (mask : List Byte) : List ArrOp → List Byte × List ArrOp
  | [] => (mask, [])
  | o :: os => match o.kind with
    | .mmask m => settleMasks m os
    | _ => (mask, o :: os)

/-- An operation is a loop. -/
def ArrKind.isLoop : ArrKind → Bool
  | .mloop _ => true
  | _ => false

/-- The sequencer's list changed, and the mask changes that reach its head applied; a loop that reaches the head has begun (R156). -/
def ArrayState.withOps (a : ArrayState) (ops : List ArrOp) : ArrayState :=
  let (m, os) := settleMasks a.mask ops
  { a with mask := m, ops := os, progress := { a.progress with valid := (os.head?).any fun o => o.kind.isLoop } }

/-- The latch that step `j` of a loop uses (R154). -/
def MloopDesc.latchOf (d : MloopDesc) (j : Nat) : Nat :=
  match d.latch with
  | 0 => 0
  | 1 => 1
  | 2 => j % 2
  | _ => (j + 1) % 2

/-- A loop uses a latch. -/
def MloopDesc.names (d : MloopDesc) (i : Nat) : Bool := decide (d.latchOf 0 = i) || (decide (1 < d.steps) && decide (d.latchOf 1 = i))

/-- The load at a place of the sequencer's list may run: it is at the head, or stands behind the running loop, which uses the other latch
(R144, R164). -/
def ArrayState.loadAt (a : ArrayState) (idx : Nat) : Option (ArrOp × LoadwDesc × Nat) :=
  match a.ops[idx]? with
  | some o => match o.kind with
    | .loadw d i =>
      let free := match idx, a.ops.head? with
        | 0, _ => true
        | 1, some h => (match h.kind with
          | .mloop m => h.fault.isNone && !m.names i
          | _ => false)
        | _, _ => false
      if free && !o.loaded then some (o, d, i) else none
    | _ => none
  | none => none

/-- Every array operation cancelled, each leaving its counter, and every tile free and +0. A load that may run counts as begun: cancelled
part way, it leaves its latch holding `e4m3` zeros (R146; log entry 85, DEDUCED). -/
def State.discardArr (s : State) (core : Nat) : State :=
  let a := s.array core
  let s1 := a.queued.foldl (fun t o => t.leave o.ref .tl o.seqNo) s
  let m := a.ops.foldl (fun m o => match o.kind with
    | .mmask b => b
    | _ => m) a.mask
  let cut := ([a.loadAt 0, a.loadAt 1].filterMap id).map fun x => x.2.2
  s1.modArray core fun x => { x with
    ops := []
    mask := m
    live := 0
    tiles := []
    ias := []
    latches := cut.foldl (fun t i => Tab.set Latch.init t i Latch.init) x.latches
    progress := ArrayState.init.progress
    badRows := []
    badIas := [] }

/-- TCFG (R146). -/
def execTcfg (cfg : Fin 2) (discard : Option Bool) (s : State) : Out :=
  issueSeq s fun s r => do
    let s1 ← s.claim r
    let a := s1.array r.core
    if discard.getD false then pure ((s1.discardArr r.core).modArray r.core fun x => { x with cfg := cfg.val })
    else do
      waitFor a.queued.isEmpty
      need (decide (a.live = 0)) .tileLive
      pure (s1.modArray r.core fun x => { x with cfg := cfg.val })

/-- TREL (R147). -/
def execTrel (tile : Fin 16) (s : State) : Out :=
  issueSeq s fun s r => do
    let s1 ← s.claim r
    let a := s1.array r.core
    need (decide (tile.val < tileCount a.cfg)) .tileCfg
    waitFor (a.tileQuiet tile.val)
    pure (s1.modArray r.core fun x => { x with live := x.live &&& ~~~BitVec.ofNat 16 (2 ^ tile.val) })

/-! ### Slices (R148 to R150) -/

/-- The tile of a slice instruction. -/
def sliceTile (tile : Fin 8) (hi : Option Bool) : Nat := tile.val + if hi.getD false then 8 else 0

/-- Row and column of element `e` of a slice, if it exists (R148). -/
def sliceElem (cfg : Nat) (col : Bool) (idx e : Nat) : Option (Nat × Nat) :=
  if col then (if e < tileRows cfg then some (e, idx) else none) else some (idx, e)

/-- The checks of a slice instruction: the tile and index it names, once the tile's operations are done (R148, R150). -/
def State.slicePlace (s : State) (r : Ref) (tile : Fin 8) (col : Bool) (gx : Fin 48) (imm6 : Fin 64) (hi : Option Bool) : Exc (Nat × Nat) := do
  let a := s.array r.core
  let t := sliceTile tile hi
  let g ← s.uniVal r (.g gx)
  let idx := (g.toNat + imm6.val) % 2 ^ 32
  need (decide (t < tileCount a.cfg)) .tileCfg
  need (decide (idx < (if col then 128 else tileRows a.cfg))) .tileCfg
  waitFor (a.tileQuiet t)
  pure (t, idx)

/-- The tile rows that the lanes of S read of a slice pass their error check (R366). -/
def State.soundTile (s : State) (r : Ref) (t : Nat) (col : Bool) (idx : Nat) : Exc Unit :=
  let a := s.array r.core
  let reads (p : Nat × Nat) : Bool := decide (p.1 = t) && (lanesOf (s.applied r)).any fun j =>
    (List.range 4).any fun i => decide ((sliceElem a.cfg col idx (4 * j + i)).map Prod.fst = some p.2)
  match a.badRows.filter reads with
  | [] => .ok ()
  | ps => .error (.trap (eccTrap (ps.map fun p => .tile p.1 p.2)))

/-- TRD (R149); with an empty S nothing is read or claimed (R287). -/
def execTrd (d : Reg) (tile : Fin 8) (col : Bool) (gx : Fin 48) (imm6 : Fin 64) (hi : Option Bool) (s : State) : Out :=
  issueSeq s fun s r => do
    s.bounds r [(d, 4)]
    if s.applied r = 0 then pure s
    else do
      let s1 ← s.claim r
      let (t, idx) ← s1.slicePlace r tile col gx imm6 hi
      s1.soundTile r t col idx
      let a := s1.array r.core
      s1.putRun r d (s1.applied r) ((List.range 4).map fun i => rowOf fun j => match sliceElem a.cfg col idx (4 * j + i) with
        | some (x, y) => a.elem t x y
        | none => 0)

/-- Elements of a slice written from the lanes of S. -/
def ArrayState.slicePut (a : ArrayState) (t : Nat) (col : Bool) (idx : Nat) (m : Lanes) (rows : List Row) (f : Word → Word → Word) : ArrayState :=
  (lanesOf m).foldl (fun x j => (List.range 4).foldl (fun y i => match sliceElem y.cfg col idx (4 * j + i) with
    | some (p, q) => y.setElem t p q (f (y.elem t p q) (rowGet (rows.getD i rowZero) j))
    | none => y) x) a

/-- A row written whole is good again (R366). -/
def ArrayState.healRow (a : ArrayState) (t : Nat) (col : Bool) (idx : Nat) (m : Lanes) : ArrayState :=
  if col || decide (m ≠ BitVec.allOnes 32) then a else { a with badRows := a.badRows.filter fun p => decide (p ≠ (t, idx)) }

/-- TWR and TACC: the tile becomes live and takes its elements from the quadruple; `reads` says that the old elements are needed too
(R147, R149). With an empty S nothing is written or claimed (R287). -/
def sliceStore (reads : Bool) (f : Word → Word → Word) (d : Reg) (tile : Fin 8) (col : Bool) (gx : Fin 48) (imm6 : Fin 64) (hi : Option Bool) (s : State) : Out :=
  issueSeq s fun s r => do
    s.bounds r [(d, 4)]
    if s.applied r = 0 then pure s
    else do
      let s1 ← s.claim r
      let (t, idx) ← s1.slicePlace r tile col gx imm6 hi
      let rows ← s1.runRows r d 4
      if reads then s1.soundTile r t col idx
      pure (s1.modArray r.core fun a => ((a.slicePut t col idx (s1.applied r) rows f).healRow t col idx (s1.applied r)).liven t)

/-- TWR (R149). -/
def execTwr (d : Reg) (tile : Fin 8) (col : Bool) (gx : Fin 48) (imm6 : Fin 64) (hi : Option Bool) (s : State) : Out :=
  sliceStore false (fun _ x => x) d tile col gx imm6 hi s

/-- TACC (R149). -/
def execTacc (d : Reg) (tile : Fin 8) (col : Bool) (gx : Fin 48) (imm6 : Fin 64) (hi : Option Bool) (s : State) : Out :=
  sliceStore true (fun old x => fadd .rne old x) d tile col gx imm6 hi s

/-! ### Issuing array operations (R144, R145, R163) -/

/-- An array operation issues: a deferred fault of the warp is delivered first; a full queue stalls, and so does an older TCFG, TREL or
slice instruction of another warp that waits in the sequencer's order (R144, R150, R163, R164). -/
def State.arrRoom (s : State) (r : Ref) : Exc Unit := do
  match s.owed r .tl with
  | some (_, t) => .error (.trap t)
  | none => pure ()
  s.room r .tl
  waitFor ((s.array r.core).waiters.all fun x => decide (x = r))
  waitFor (decide ((s.array r.core).queued.length < Config.arrayQueue))

/-- An entry of the sequencer's order (R144). -/
def State.pushArr (s : State) (r : Ref) (k : ArrKind) (raw : List Byte) : State :=
  let o : ArrOp := { ref := r, pc := s.pcOf r, seqNo := s.nextIssue, kind := k, raw := raw, fault := none, loaded := false }
  let s1 := s.modArray r.core fun a => a.withOps (a.ops ++ [o])
  { s1 with nextIssue := s.nextIssue + 1 }

/-- TZERO (R147). -/
def execTzero (tile : Fin 16) (s : State) : Out :=
  issueSeq s fun s r => do
    let s1 ← s.claim r
    need (decide (tile.val < tileCount (s1.array r.core).cfg)) .tileCfg
    s1.arrRoom r
    pure (((s1.modArray r.core fun a => a.liven tile.val).enter r .tl).pushArr r (.tzero tile.val) [])

/-- A floating-point stream format of the array (R151, R154). -/
def arrFmt (id : Nat) : Bool := decide (9 ≤ id) && decide (id ≤ 13)

/-- Formats that must, or may, carry block scales (R151). -/
def scaledOk (id : Nat) (scaled : Bool) : Bool := if id = 13 then scaled else if id = 9 ∨ id = 10 then !scaled else true

/-- The checks of a scale stream's address and size (R151, R154). -/
def scaleChecks (scaled : Bool) (addr bytes limit : Nat) : List (Bool × Cause) :=
  [(decide (addr % 4 = 0), .misalign), (scaled || decide (addr = 0), .illegalField),
   (if scaled then decide (4 ≤ bytes) && decide (bytes ≤ limit) && decide (bytes % 4 = 0) else decide (bytes = 0), .illegalField)]

/-- Checks made in order: the first that fails traps (R145). -/
def needAll : List (Bool × Cause) → Exc Unit
  | [] => pure ()
  | (ok, c) :: rest => do
    need ok c
    needAll rest

/-- Bytes of a column record (R152). -/
def recordBytes (fmt : Nat) : Nat := if fmt = 9 ∨ fmt = 10 then 128 else 64

/-- LOADW (R151). That `colstride` reaches the record size of `fmt` relates two rows and is checked in the first one's place (R145; log
entry 81, DESIGN CHOICE). -/
def execLoadw (a : Fin 48) (latch : Fin 2) (s : State) : Out :=
  issueSeq s fun s r => do
    let addr ← s.gpair r a
    let s0 ← s.claim r
    s0.arrRoom r
    let (bs, s1) ← s0.readStruct r addr 32 32
    let fmt := field bs 12 1
    let scaled := (field bs 13 1).testBit 0
    needAll ([(decide (field bs 0 8 % 16 = 0), .misalign),
      (decide (field bs 8 4 % 16 = 0) && (!arrFmt fmt || decide (recordBytes fmt ≤ field bs 8 4)), .illegalField),
      (arrFmt fmt, .illegalField), (scaledOk fmt scaled && decide (field bs 13 1 < 2), .illegalField),
      (decide (field bs 14 2 = 0), .illegalField)] ++ scaleChecks scaled (field bs 16 8) (field bs 24 4) 4096 ++
      [(decide (field bs 28 4 = 0), .illegalField)])
    let d : LoadwDesc :=
      { src := BitVec.ofNat 64 (field bs 0 8)
        colstride := field bs 8 4
        fmt := fmt
        scaled := scaled
        scales := BitVec.ofNat 64 (field bs 16 8)
        scalebytes := field bs 24 4 }
    pure ((s1.enter r .tl).pushArr r (.loadw d latch.val) bs)

/-- MLOOP (R154). -/
def execMloop (a : Fin 48) (s : State) : Out :=
  issueSeq s fun s r => do
    let addr ← s.gpair r a
    let s0 ← s.claim r
    s0.arrRoom r
    let (bs, s1) ← s0.readStruct r addr 64 64
    let cfg := (s0.array r.core).cfg
    let afmt := field bs 16 1
    let scaled := (field bs 17 1).testBit 0
    let rows := field bs 18 1
    let tile := field bs 22 1
    needAll ([(decide (field bs 0 8 % 16 = 0), .misalign), (decide (field bs 8 4 % 16 = 0), .illegalField),
      (decide (field bs 12 4 % 16 = 0), .illegalField), (arrFmt afmt, .illegalField),
      (scaledOk afmt scaled && decide (field bs 17 1 < 4), .illegalField),
      (decide (1 ≤ rows) && decide (rows ≤ 128), .illegalField), (decide (rows ≤ tileRows cfg), .tileCfg),
      (decide (1 ≤ field bs 19 1) && decide (field bs 19 1 ≤ 16), .illegalField), (decide (field bs 20 2 ≠ 0), .illegalField),
      (decide (tile ≤ 15), .illegalField), (decide (tile < tileCount cfg), .tileCfg), (decide (field bs 23 1 ≤ 3), .illegalField)] ++
      scaleChecks scaled (field bs 24 8) (field bs 32 4) 65536 ++ [(decide (field bs 36 28 = 0), .illegalField)])
    let d : MloopDesc :=
      { act := BitVec.ofNat 64 (field bs 0 8)
        rowstride := field bs 8 4
        kstride := field bs 12 4
        afmt := afmt
        scaled := scaled
        masked := (field bs 17 1).testBit 1
        rows := rows
        period := field bs 19 1
        steps := field bs 20 2
        tile := tile
        latch := field bs 23 1
        ascales := BitVec.ofNat 64 (field bs 24 8)
        ascalebytes := field bs 32 4 }
    pure (((s1.modArray r.core fun x => x.liven tile).enter r .tl).pushArr r (.mloop d) bs)

/-- MMASK: the block takes its place in the sequencer's order (R157). -/
def execMmask (a : Fin 48) (s : State) : Out :=
  issueSeq s fun s r => do
    let addr ← s.gpair r a
    let s0 ← s.claim r
    let (bs, s1) ← s0.readStruct r addr 160 32
    needAll [(decide (field bs 12 1 ≤ 32), .illegalField), (decide (field bs 13 1 < 2), .illegalField), (decide (field bs 14 18 = 0), .illegalField)]
    pure (s1.pushArr r (.mmask bs) [])

/-! ### Streams (R101, R153, R159) -/

/-- What a stream read gives: a value, a fault, or `none` while a vault or a weight bank holds it. -/
abbrev Stream (α : Type) := Except (Option OpFault) α

/-- A byte of a stream. A stream's address wraps at 2^56, so that bits 63 to 56 of a descriptor's address select nothing: the spec says so of
copies and gives SPACE to lane accesses alone (R153; log entry 99, DESIGN CHOICE). -/
def State.streamByte (s : State) (a : Actor) (k : Access) (va : Nat) : Stream Byte :=
  match resolve s k a (BitVec.ofNat 64 (va % 2 ^ 56)) 1 1 with
  | .error (c, a2) => .error (some (opFault c va a2))
  | .ok refs =>
    if s.walkHeld a.core a.dom (va % 2 ^ 56) || refs.any (fun b => s.held b.pa || (decide (paSpace b.pa = 1) && s.bankBusy (bitsOf b.pa 33 32) (bitsOf b.pa 31 27))) then .error none
    else if refs.any s.badAt then .error (some (opFault .dataLost va none))
    else .ok ((refs.map s.readRef).getD 0 0)

/-- Bytes of a stream, from an address on. -/
def State.streamBytes (s : State) (a : Actor) (k : Access) (va n : Nat) : Stream (List Byte) :=
  (List.range n).mapM fun i => s.streamByte a k (va + i)

/-- Nibble `i` of a scale stream of `n` bytes; a read past its end is FMT_SCALE (R101, R152). -/
def State.scaleNibble (s : State) (a : Actor) (k : Access) (va n i : Nat) : Stream Nat :=
  if n ≤ i / 2 then .error (some (opFault .fmtScale (va + i / 2) none))
  else match s.streamByte a k (va + i / 2) with
    | .error e => .error e
    | .ok b => .ok (if i % 2 = 0 then b.toNat % 16 else b.toNat / 16)

/-- The delta stream decoded from a nibble and the last scale on (R101). -/
def scaleWalk (nib : Nat → Stream Nat) (va : Nat) : Nat → Nat → Nat → Stream (List Nat)
  | 0, _, _ => .ok []
  | n + 1, i, x =>
    match nib i with
    | .error e => .error e
    | .ok c =>
      if c = 8 then
        match nib (i + 1), nib (i + 2) with
        | .ok lo, .ok hi => match scaleWalk nib va n (i + 3) (hi * 16 + lo) with
          | .ok xs => .ok ((hi * 16 + lo) :: xs)
          | .error e => .error e
        | .error e, _ => .error e
        | _, .error e => .error e
      else
        let y := (x : Int) + signed 4 c
        if x = 255 ∨ y < 0 ∨ 254 < y then .error (some (opFault .fmtScale (va + i / 2) none))
        else match scaleWalk nib va n (i + 1) y.toNat with
          | .ok xs => .ok (y.toNat :: xs)
          | .error e => .error e

/-- The first `blocks` scales of a stream. -/
def State.scales (s : State) (a : Actor) (k : Access) (va bytes blocks : Nat) : Stream (List Nat) :=
  scaleWalk (s.scaleNibble a k va bytes) va blocks 0 127

/-- Elements packed as in memory (R89, R100, R152). -/
def unpack (fmt n : Nat) (bs : List Byte) : List Nat :=
  (List.range n).map fun i =>
    if fmt = 9 ∨ fmt = 10 then field bs (2 * i) 2
    else if fmt = 13 then (if i % 2 = 0 then field bs (i / 2) 1 % 16 else field bs (i / 2) 1 / 16)
    else field bs i 1

/-- Bytes that `n` elements of a format take. -/
def packedBytes (fmt n : Nat) : Nat := if fmt = 9 ∨ fmt = 10 then 2 * n else if fmt = 13 then n / 2 else n

/-- The K elements a latch of a format holds in each column (R152). -/
def latchK (fmt : Nat) : Nat := if fmt = 13 then 128 else 64

/-- A latch filled from its descriptor (R152). -/
def State.fillLatch (s : State) (a : Actor) (d : LoadwDesc) (raw : List Byte) : Stream Latch := do
  let k := latchK d.fmt
  let cells ← (List.range 128).mapM fun n => do
    let bs ← s.streamBytes a .weightRead (d.src.toNat + n * d.colstride) (recordBytes d.fmt)
    pure (unpack d.fmt k bs)
  let xs ← if d.scaled then s.scales a .weightRead d.scales.toNat d.scalebytes (128 * (k / 32)) else pure []
  pure { fmt := d.fmt, cells := cells.flatten, scales := xs, desc := some (d, raw), empty := false }

/-! ### The loop (R105, R155 to R157) -/

/-- A latch of the array. -/
def ArrayState.latch (a : ArrayState) (i : Nat) : Latch := Tab.get Latch.init a.latches i

/-- The activation elements a K-step feeds per row (R155). -/
def ArrayState.stepE (a : ArrayState) (d : MloopDesc) (j : Nat) : Nat := latchK (a.latch (d.latchOf j)).fmt

/-- Bytes of the mask block. -/
def ArrayState.maskField (a : ArrayState) (at' n : Nat) : Nat := field a.mask at' n

/-- `keep` of R157 for a query and a key. -/
def ArrayState.keeps (a : ArrayState) (q key : Nat) : Bool :=
  let w := a.maskField 8 4
  (!(a.maskField 13 1).testBit 0 || decide (key ≤ q)) &&
    (decide (w = 0) || decide (((q : Int) - key).natAbs < w) || (List.range (a.maskField 12 1)).any fun i => decide (a.maskField (32 + 4 * i) 4 = key))

/-- K-step `j` is kept (R157). -/
def ArrayState.stepKept (a : ArrayState) (d : MloopDesc) (j : Nat) : Bool :=
  !d.masked ||
    let e := a.stepE d j
    (List.range d.rows).any fun m => (List.range e).any fun i => a.keeps (a.maskField 0 4 + m) (a.maskField 4 4 + j * e + i)

/-- The kept K-steps of a loop, ascending. -/
def ArrayState.keptSteps (a : ArrayState) (d : MloopDesc) : List Nat := (List.range d.steps).filter fun j => a.stepKept d j

/-- Scale blocks of the K-steps before `j`. -/
def ArrayState.blocksBefore (a : ArrayState) (d : MloopDesc) (j : Nat) : Nat :=
  ((List.range j).map fun i => d.rows * (a.stepE d i / 32)).sum

/-- The value of an element under a block scale (R99). -/
def scaledVal (fmt x scale : Nat) : FVal :=
  if scale = 255 then .nan
  else match fmtOf fmt with
    | none => .nan
    | some t => match t.decode x with
      | .fin neg m e => .fin neg m (e + (scale : Int) - 127)
      | v => v

/-- One term of a column sum: cell row `k` of column `n` against an activation row (R105). -/
def colTerm (l : Latch) (afmt : Nat) (acts ascales : List Nat) (n k : Nat) : FVal :=
  let kk := latchK l.fmt
  let w (i : Nat) : FVal := scaledVal l.fmt (l.cells.getD (n * kk + i) 0) (l.scales.getD (n * (kk / 32) + i / 32) 127)
  let a (i : Nat) : FVal := scaledVal afmt (acts.getD i 0) (ascales.getD (i / 32) 127)
  if l.fmt = 13 then fvAdd .rne (fvMul (a (2 * k)) (w (2 * k))) (fvMul (a (2 * k + 1)) (w (2 * k + 1)))
  else fvMul (a k) (w k)

/-- A column sum taken through one K-step (R105). -/
def colSum (l : Latch) (afmt : Nat) (acts ascales : List Nat) (n : Nat) (s : BitVec 24) : BitVec 24 :=
  (List.range 64).foldl (fun acc k => addIas acc (iasV (toIas (colTerm l afmt acts ascales n k)))) s

/-- The activation row `m` of K-step `j`. -/
def State.actRow (s : State) (a : Actor) (d : MloopDesc) (e m j : Nat) : Stream (List Nat) := do
  let bs ← s.streamBytes a .load (d.act.toNat + m * d.rowstride + j * d.kstride) (packedBytes d.afmt e)
  pure (unpack d.afmt e bs)

/-- The scales of K-step `j`: those of every step before it are decoded with it (R155). -/
def State.actScales (s : State) (a : Actor) (x : ArrayState) (d : MloopDesc) (j : Nat) : Stream (List Nat) := do
  if d.scaled then
    let before := x.blocksBefore d j
    let n := d.rows * (x.stepE d j / 32)
    let all ← s.scales a .load d.ascales.toNat d.ascalebytes (before + n)
    pure (all.drop before)
  else pure []

/-- The sums of the rows of one K-step. -/
def State.stepRows (s : State) (a : Actor) (x : ArrayState) (d : MloopDesc) (j : Nat) (xs : List Nat) : Stream (Tab (BitVec 24)) :=
  let e := x.stepE d j
  let l := x.latch (d.latchOf j)
  (List.range d.rows).foldlM (fun t m => do
    let acts ← s.actRow a d e m j
    let sc := xs.drop (m * (e / 32))
    pure ((List.range 128).foldl (fun u n => Tab.set 0 u (128 * m + n) (colSum l d.afmt acts sc n (Tab.get 0 u (128 * m + n)))) t)) x.ias

/-- A promotion: the column sums are added into the tile and start again at +0 (R105). -/
def ArrayState.promote (a : ArrayState) (d : MloopDesc) : ArrayState :=
  let ps := (List.range d.rows).flatMap fun m => (List.range 128).map fun n => (m, n)
  let b := ps.foldl (fun x p => x.setElem d.tile p.1 p.2 (toF32 .rne (fvAdd .rne (f32v (x.elem d.tile p.1 p.2)) (iasV (Tab.get 0 a.ias (128 * p.1 + p.2)))))) a
  { b with ias := [], badIas := [] }

/-- The fault of a loop that needs a tile row or an IAS column that fails its error check (R366). -/
def eccFault (x : RegSite) : OpFault := { cause := .regEcc, addr := BitVec.ofNat 64 x.row, addr2 := some (BitVec.ofNat 64 x.number), superv := false }

/-- The IAS columns that hold sums, and at a promotion the rows of the tile, pass their error check (R366). -/
def ArrayState.loopSound (a : ArrayState) (d : MloopDesc) (promotes : Bool) : Stream Unit :=
  match a.badIas, a.badRows.find? fun p => promotes && decide (p.1 = d.tile) && decide (p.2 < d.rows) with
  | c :: _, _ => .error (some (eccFault (.ias c)))
  | [], some p => .error (some (eccFault (.tile p.1 p.2)))
  | [], none => .ok ()

/-- The array operation at the head of the sequencer, if the array may run it. -/
def State.arrHead (s : State) (core : Nat) : Option ArrOp :=
  if (s.die (dieOf core)).tripped then none else (s.array core).ops.head?

/-- The streams of the array are read once the core's dirty bytes of the domain are written back: every such byte may be
evicted at any time (R203), and the operation follows the warp's own stores (R205). Those of a held vault stay, and the stream waits for
that vault too (R177). -/
def State.forStreams (s : State) (core : Nat) (o : ArrOp) : State :=
  ((s.core core).l1.filter fun l => decide (l.dom = s.domOf o.ref) && !s.held (l.line * 128)).foldl (fun t l => t.writeBack core l (BitVec.allOnes 128)) s

/-- The kept step that a loop runs next, from its row-progress register (R156). -/
def ArrayState.nextStep (a : ArrayState) (d : MloopDesc) : Option Nat := (a.keptSteps d)[a.progress.done.toNat]?

/-- One K-step of the running loop, or what stops it (R155). -/
def State.loopStep (s : State) (core : Nat) (o : ArrOp) (d : MloopDesc) : Stream ArrayState := do
  let x := s.array core
  let act := engineActor o.ref (s.domOf o.ref)
  match x.nextStep d with
  | none =>
    let _ ← s.actScales act x d (d.steps - 1)
    pure x
  | some j =>
    let xs ← s.actScales act x d j
    let t ← s.stepRows act x d j xs
    let p := { x.progress with valid := true, done := x.progress.done + 1, row := 0 }
    let y := { x with ias := t, progress := p }
    let ends := decide (p.done.toNat = (x.keptSteps d).length) || decide ((p.done.toNat - p.promoted.toNat) % d.period = 0)
    x.loopSound d ends
    if ends then
      pure { y.promote d with progress := { p with promoted := p.done } }
    else pure y

/-- The pages of the streams that an array operation uses (R336). -/
def ArrOp.pages (o : ArrOp) : List Nat :=
  match o.kind with
  | .loadw d _ => ((List.range 128).map fun n => d.src.toNat + n * d.colstride) ++ (if d.scaled then [d.scales.toNat] else [])
  | .mloop d => ((List.range d.rows).map fun m => d.act.toNat + m * d.rowstride) ++ (if d.scaled then [d.ascales.toNat] else [])
  | _ => []

/-- The translations of an array operation's streams are used. -/
def State.touchArr (s : State) (o : ArrOp) : State := s.touchAll (engineActor o.ref (s.domOf o.ref)) false o.pages

/-- MLOOP_STEP: the loop at the head of the sequencer finishes its next kept K-step (R155, R156). -/
def execMloopStep (core : Nat) (s : State) : Out :=
  match s.arrHead core with
  | some o => match o.kind with
    | .mloop d =>
      let s1 := s.forStreams core o
      if o.fault.isSome || (s.array core).refresh || ((s.array core).nextStep d).isNone then .next s
      else match s1.loopStep core o d with
        | .ok a => .next ((s1.touchArr o).modArray core fun _ => a)
        | .error _ => .next s
    | _ => .next s
  | none => .next s

/-- The head operation leaves the sequencer and its warp's `tl`, and with it a load that filled its latch beside it (R144, R158, R164). -/
def State.popArr (s : State) (core : Nat) (o : ArrOp) : State :=
  let s1 := (s.modArray core fun a => a.withOps (a.ops.drop 1)).leave o.ref .tl o.seqNo
  match (s1.array core).ops.head? with
  | some h => if h.loaded then (s1.modArray core fun a => a.withOps (a.ops.drop 1)).leave h.ref .tl h.seqNo else s1
  | none => s1

/-- MLOOP_COMPLETE: no kept K-step is left (R158). -/
def execMloopComplete (core : Nat) (s : State) : Out :=
  match s.arrHead core with
  | some o => match o.kind with
    | .mloop d =>
      let s1 := s.forStreams core o
      if o.fault.isSome || (s.array core).refresh || ((s.array core).nextStep d).isSome then .next s
      else match s1.loopStep core o d with
        | .ok _ => .next ((s1.modArray core fun a => { a with progress := ArrayState.init.progress, ias := [], badIas := [] }).popArr core o)
        | .error _ => .next s
    | _ => .next s
  | none => .next s

/-- The latches that a restored workgroup must reload, from their descriptor copies (R160). -/
def State.reload (s : State) (core : Nat) (o : ArrOp) : Stream ArrayState := do
  let x := s.array core
  let act := engineActor o.ref (s.domOf o.ref)
  (List.range 2).foldlM (fun y i => do
    let l := y.latch i
    match l.desc with
    | some (d, raw) =>
      if l.empty then
        let new ← s.fillLatch act d raw
        pure { y with latches := Tab.set Latch.init y.latches i new }
      else pure y
    | none => pure y) { x with refresh := false }

/-- A filled latch put in its place. -/
def ArrayState.putLatch (a : ArrayState) (i : Nat) (l : Latch) : ArrayState := { a with latches := Tab.set Latch.init a.latches i l }

/-- A load that has filled its latch: at the head it retires, behind the running loop it waits its turn (R144, R164). -/
def State.endLoad (s : State) (core idx : Nat) (o : ArrOp) (i : Nat) (l : Latch) : State :=
  let s1 := (s.touchArr o).modArray core fun a => a.putLatch i l
  if idx = 0 then s1.popArr core o else s1.modArray core fun a => { a with ops := setAt a.ops idx { o with loaded := true } }

/-- LOADW_COMPLETE: a load that may run fills its latch (R152, R164); before a restored loop goes on, its latches are reloaded from their
descriptor copies (R160). -/
def execLoadwComplete (at_ : ArrayPlace) (s : State) : Out :=
  match s.arrHead at_.core with
  | some h =>
    match (s.array at_.core).loadAt at_.idx with
    | some (o, d, i) =>
      if o.fault.isSome then .next s
      else match (s.forStreams at_.core o).fillLatch (engineActor o.ref (s.domOf o.ref)) d o.raw with
        | .ok l => .next ((s.forStreams at_.core o).endLoad at_.core at_.idx o i l)
        | .error _ => .next s
    | none =>
      if h.fault.isNone && (s.array at_.core).refresh then match (s.forStreams at_.core h).reload at_.core h with
        | .ok a => .next ((s.forStreams at_.core h).modArray at_.core fun _ => a)
        | .error _ => .next s
      else .next s
  | none => .next s

/-- TZERO_COMPLETE: the tile is +0 throughout (R147). -/
def execTzeroComplete (core : Nat) (s : State) : Out :=
  match s.arrHead core with
  | some o => match o.kind with
    | .tzero t =>
      let z (a : ArrayState) : ArrayState :=
        { a with tiles := a.tiles.filter fun e => decide (e.1 < tileKey a.cfg t 0 0) || decide (tileKey a.cfg (t + 1) 0 0 ≤ e.1), badRows := a.badRows.filter fun p => decide (p.1 ≠ t) }
      .next (if o.fault.isSome then s else (s.modArray core z).popArr core o)
    | _ => .next s
  | none => .next s

/-- The fault of a stream that fails. -/
def faultOf {α : Type} (x : Stream α) : Option OpFault :=
  match x with
  | .error (some f) => some f
  | _ => none

/-- A loop's reads for a row of its next K-step: the scales, then the row, and at the last row the promotion's (R155). -/
def State.rowReads (s : State) (core : Nat) (o : ArrOp) (d : MloopDesc) (row : Nat) : Stream Unit := do
  let x := s.array core
  let act := engineActor o.ref (s.domOf o.ref)
  match x.nextStep d with
  | none =>
    let _ ← s.actScales act x d (d.steps - 1)
  | some j =>
    let _ ← s.actScales act x d j
    let _ ← s.actRow act d (x.stepE d j) row j
    let n := x.progress.done.toNat + 1
    x.loopSound d (decide (row + 1 = d.rows) && (decide (n = (x.keptSteps d).length) || decide ((n - x.progress.promoted.toNat) % d.period = 0)))

/-- The fault that an operation which may run meets now, a loop at a row of its next step, if it meets one. -/
def State.arrFault (s : State) (core idx row : Nat) (o : ArrOp) : Option OpFault :=
  let s1 := s.forStreams core o
  match o.kind with
  | .loadw d _ => if ((s.array core).loadAt idx).isSome then faultOf (s1.fillLatch (engineActor o.ref (s.domOf o.ref)) d o.raw) else none
  | .mloop d =>
    if idx ≠ 0 ∨ d.rows ≤ row then none
    else if (s.array core).refresh then faultOf (s1.reload core o) else faultOf (s1.rowReads core o d row)
  | _ => none

/-- An operation stops at its recorded point: a loop falls back to its last promotion, with the row in progress kept for the report, and a
load leaves its latch holding `e4m3` zeros (R152, R156, R161). -/
def ArrayState.stopOp (a : ArrayState) (k : ArrKind) (row : Nat) : ArrayState :=
  match k with
  | .loadw _ i => a.putLatch i Latch.init
  | .tzero _ | .mmask _ => a
  | .mloop _ => { a with ias := [], badIas := [], progress := { a.progress with valid := true, done := a.progress.promoted, row := BitVec.ofNat 8 row } }

/-- ARRAY_STREAM_FAULT: an operation that runs meets a fault of a stream, a loop at a row of its next step, and stops (R152, R161). -/
def execArrayStreamFault (at_ : ArrayRow) (s : State) : Out :=
  match s.arrHead at_.core, (s.array at_.core).ops[at_.idx]? with
  | some _, some o =>
    if o.fault.isSome then .next s
    else match s.arrFault at_.core at_.idx at_.row o with
      | none => .next s
      | some f => .next (s.modArray at_.core fun a =>
          ({ a with ops := setAt a.ops at_.idx { o with fault := some (s.recordFault (s.domOf o.ref) f) } }.stopOp o.kind at_.row))
  | _, _ => .next s

/-- A stopped operation, named by its issue number, goes on from its recorded point; another one that has a fault keeps it (R161,
R163). -/
def State.restartArr (s : State) (core op : Nat) : State :=
  s.modArray core fun a => { a with ops := a.ops.map fun o => if o.seqNo = op then { o with fault := none } else o }

/-- The entry is an array operation, not a mask change that keeps its place among them. -/
def ArrKind.runs : ArrKind → Bool
  | .mmask _ => false
  | _ => true

/-- The running operation stopped and started again by the device after a transient error, which is counted (R161, R162, R364). -/
def State.replayArr (s : State) (core : Nat) (o : ArrOp) : State :=
  if o.kind.runs && o.fault.isNone then (s.modArray core fun a => a.stopOp o.kind 0).count (s.domOf o.ref) 12 1 else s

/-- ARRAY_OP_RESTART: the supervisor has resolved the fault of a stopped operation, or the device runs the head operation again after a
transient error (R161, R162, R364); on a tripped die it holds in place (R392). -/
def execArrayOpRestart (at_ : Restart) (s : State) : Out :=
  if (s.die (dieOf at_.unit)).tripped then .next s
  else if at_.replay then match (s.array at_.unit).ops.head? with
    | some o => .next (s.replayArr at_.unit o)
    | none => .next s
  else match (s.array at_.unit).ops.find? fun o => (o.fault.map (·.superv)).getD false with
    | some o => match o.fault with
      | some f => .next ((s.resolveFault (s.domOf o.ref) f).restartArr at_.unit o.seqNo)
      | none => .next s
    | none => .next s

end Sys2Proof.Machine
end

