-- ==== Sys2Proof/Machine/Mem.lean ====
section
/-! DEFINITION. Loads, stores and polls of lanes and warps, set loads and stores, and the events that complete them (R222 to
R227, R314). -/

namespace Sys2Proof.Machine

/-- The registers that a data operand fills: a queue register takes one row at every size (R223). -/
def dataRegs (d : Reg) (sz : Size) : Nat :=
  match d with
  | .q _ => 1
  | _ => sz.regs

/-- A POLL's values agree with those of the warp's previous POLL, at the same address over the same set (R227). -/
def pollSame (w : Warp) (pc : Word) (m : Lanes) (vals : List DWord) : Bool :=
  match w.poll with
  | none => false
  | some p => decide (p.pc = pc) && decide (p.mask = m) && decide (p.vals = vals)

/-- What a POLL reports to the scheduler and the order log when it retires (R227, R300, R382). The log counts a warp's first POLL among
the unchanged ones, as the worked log of R371 does (log entry 83, DEDUCED). -/
def State.pollReport (s : State) (r : Ref) (pc : Word) (m : Lanes) (vals : List DWord) (lines : List Nat) : State :=
  let w := s.warp r
  let same := pollSame w pc m vals
  let quiet := same || w.poll.isNone
  let s1 := if same then s.count (s.domOf r) 14 1 else s
  let s2 := if quiet then s1 else (s1.wickValue r 7 4 w.unchanged).2
  s2.modWarp r fun x => { x with
    poll := some { pc := pc, mask := m, vals := vals }
    unchanged := if quiet then x.unchanged + 1 else 0
    level := if same then min (x.level + 1) 7 else 0
    gatePc := pc
    watched := lines
    hit := false }

/-- No POLL of the warp is in flight. -/
def State.pollFree (s : State) (r : Ref) : Bool := !((s.core r.core).flights.any fun f => decide (f.ref = r) && decide (f.kind = .poll))

/-- A lane load or poll at issue: the checks of every lane, then an access in flight (R219 to R224, R227). With an empty S it makes no
access; a POLL still retires as a POLL over that set (R110, R300). -/
def laneLoad (k : FlightKind) (d a : Reg) (i8 : BitVec 8) (m : Option Mods) (s : State) : Out :=
  issueSeq s fun s r => do
    let md := modsOf m
    s.bounds r [(d, dataRegs d md.size), (a, 2)]
    if s.applied r = 0 then do
      waitFor (decide (k ≠ .poll) || s.pollFree r)
      pure (if k = .poll then s.pollReport r (s.pcOf r) 0 [] [] else s)
    else do
      let addr ← s.addrRow r a i8.toInt
      s.destReady r d (dataRegs d md.size)
      s.room r .ld
      let mk (ls : List LaneAcc) : Flight := s.flight r k md (s.applied r) (.lanes d (dataRegs d md.size)) ls
      let ls ← s.laneAccs r .load (s.applied r) addr md.size.bytes (fun _ => []) (s.loses r.core (mk []))
      let f := mk ls
      s.readable f
      pure (((s.touchAccs r false ls).enter r .ld).fly f)

/-- LD (R224). -/
def execLd (d a : Reg) (i8 : BitVec 8) (m : Option Mods) (s : State) : Out := laneLoad .load d a i8 m s

/-- POLL (R227). -/
def execPoll (d a : Reg) (i8 : BitVec 8) (m : Option Mods) (s : State) : Out := laneLoad .poll d a i8 m s

/-- ST (R224). -/
def execSt (d a : Reg) (i8 : BitVec 8) (m : Option Mods) (s : State) : Out :=
  issueSeq s fun s r => do
    let md := modsOf m
    s.bounds r [(d, dataRegs d md.size), (a, 2)]
    if s.applied r = 0 then pure s
    else do
      let addr ← s.addrRow r a i8.toInt
      let rows ← s.runRows r d (dataRegs d md.size)
      s.room r .st
      let ls ← s.laneAccs r .store (s.applied r) addr md.size.bytes (fun j => leBytes md.size.bytes (runVal rows j)) (fun _ => false)
      let f := s.flight r .store md (s.applied r) .none ls
      pure (((((s.touchAccs r true ls).consume r [d])).enter r .st).fly f)

/-- GLD (R225). -/
def execGld (d a : Reg) (i8 : BitVec 8) (m : Option Mods) (s : State) : Out :=
  issueSeq s fun s r => do
    let md := modsOf m
    let addr ← s.uniAddr r a i8.toInt
    s.destReady r d (dataRegs d md.size)
    s.room r .ld
    let l ← s.uniAcc r .load addr md.size.bytes md.size.bytes []
    let f := s.flight r .load md 1 (.uni d (dataRegs d md.size)) [l]
    s.readable f
    pure (((s.touchAccs r false [l]).enter r .ld).fly f)

/-- The value that a uniform store stores (R223, R225). -/
def State.uniData (s : State) (r : Ref) (d : Reg) (k : Nat) : Exc Nat :=
  match d, k with
  | .g n, 2 => do
    let x ← s.pairVal r n.val
    pure x.toNat
  | x, _ => do
    let y ← s.uniVal r x
    pure y.toNat

/-- GST (R225). -/
def execGst (d a : Reg) (i8 : BitVec 8) (m : Option Mods) (s : State) : Out :=
  issueSeq s fun s r => do
    let md := modsOf m
    let addr ← s.uniAddr r a i8.toInt
    let x ← s.uniData r d (dataRegs d md.size)
    s.room r .st
    let l ← s.uniAcc r .store addr md.size.bytes md.size.bytes (leBytes md.size.bytes x)
    pure ((((s.touchAccs r true [l]).consume r [d]).enter r .st).fly (s.flight r .store md 1 .none [l]))

/-- The relaxed 8-byte access of SLD and SST (R314). -/
def setMods : Mods := { Mods.dflt with size := .b64 }

/-- SLD: the stored value reaches its set register when the load returns (R314). -/
def execSld (sd : Fin 16) (a : Fin 48) (i8 : BitVec 8) (s : State) : Out :=
  issueSeq s fun s r => do
    let addr ← s.uniAddr r (.g a) (8 * i8.toInt)
    waitFor (!s.pendingS r sd.val)
    let l ← s.uniAcc r .load addr 8 8 []
    let f := s.flight r .sld setMods 1 (.setReg sd.val) [l]
    s.readable f
    pure ((s.touchAccs r false [l]).fly f)

/-- SST: a wide value gains the reference of the stored copy at issue (R314). -/
def execSst (sd : Fin 16) (a : Fin 48) (i8 : BitVec 8) (s : State) : Out :=
  issueSeq s fun s r => do
    let addr ← s.uniAddr r (.g a) (8 * i8.toInt)
    let _ ← s.setOf r sd
    s.room r .st
    let x := (s.warp r).sreg sd.val
    let l ← s.uniAcc r .store addr 8 8 (leBytes 8 x.toNat)
    let s1 := s.touchAccs r true [l]
    pure (((s1.addRef r x).enter r .st).fly (s.flight r .sst setMods 1 .none [l]))

/-! ### Completion -/

/-- The value a lane receives; a lane without an access receives `dflt`. -/
def laneVal (vals : List (Nat × Nat)) (dflt j : Nat) : Nat := ((vals.find? fun v => decide (v.1 = j)).map (·.2)).getD dflt

/-- The values of a completed load written to its destination (R224, R225, R314). -/
def State.deliver (s : State) (f : Flight) (vals : List (Nat × Nat)) (dflt : Nat) : State :=
  let put (e : Exc State) : State := match e with
    | .ok t => t
    | .error _ => s
  match f.dest with
  | .none => s
  | .lanes (.q n) _ => s.append f.ref n.val (rowMerge f.mask rowZero (rowOf fun j => BitVec.ofNat 32 (laneVal vals dflt j))) none f.pc
  | .lanes d k => put (s.putRun f.ref d f.mask (rowsOf k fun j => laneVal vals dflt j))
  | .uni (.q n) _ => s.append f.ref n.val (rowAll (BitVec.ofNat 32 (laneVal vals dflt 0))) none f.pc
  | .uni (.g n) k => if k = 2 then s.putPair f.ref n.val (BitVec.ofNat 64 (laneVal vals dflt 0)) else s.setG f.ref n.val (BitVec.ofNat 32 (laneVal vals dflt 0))
  | .uni _ _ => s
  | .setReg n => s.adoptSet f.ref n (BitVec.ofNat 64 (laneVal vals dflt 0))

/-- A queue register that a load fills has room for the row, and has the rows of the loads issued before it (R113, R284). -/
def State.destRoom (s : State) (f : Flight) : Bool :=
  match f.dest.queue? with
  | some n => decide (((s.wgOf f.ref).queue n).rows.length < Config.queueRows) && !s.pushesBefore f.ref.core f.ref.set f.seqNo n
  | none => true

/-- The unchanged count that the order log forces before the next changed POLL of the stream, in replay (R227, R371). -/
def State.pollForced (s : State) (r : Ref) : Option Nat :=
  let g := s.wgOf r
  if s.replaying g.dom g.log then
    (s.wickNext g.dom [4, g.launch, g.index.toNat, r.index] fun i =>
      decide (4 ≤ s.wickByte g.dom i 0) && decide (s.wickByte g.dom i 0 ≤ 7) && decide (s.wickByte g.dom i 1 = r.index) &&
        decide (s.wickField g.dom i 4 4 = g.launch) && decide (s.wickField g.dom i 8 4 = g.index.toNat)).bind
      fun i => if s.wickByte g.dom i 0 = 7 then some (s.wickField g.dom i 12 4) else none
  else none

/-- The values of a POLL's lanes, as the next one is held against them. -/
def pollWords (vals : List (Nat × Nat)) : List DWord := vals.map fun v => BitVec.ofNat 64 v.2

/-- The values a POLL returns: in replay, those of the previous POLL until the logged count of unchanged ones is reached
(R227, R371). -/
def State.pollVals (s : State) (f : Flight) (vals : List (Nat × Nat)) : List (Nat × Nat) :=
  let w := s.warp f.ref
  match s.pollForced f.ref, w.poll with
  | some n, some p =>
    if w.unchanged < n && decide (p.pc = f.pc) && decide (p.mask = f.mask) then (vals.map (·.1)).zip (p.vals.map (·.toNat)) else vals
  | _, _ => vals

/-- A POLL may return now: in replay, not unchanged beyond the logged count (R371). -/
def State.pollMay (s : State) (f : Flight) (vals : List (Nat × Nat)) : Bool :=
  match s.pollForced f.ref with
  | some n => !pollSame (s.warp f.ref) f.pc f.mask (pollWords vals) || decide ((s.warp f.ref).unchanged < n)
  | none => true

/-- The value of a load in its registers (R224, R225, R314). -/
def Flight.extend (f : Flight) (x : Nat) : Nat :=
  if f.sign then (BitVec.ofInt 32 (signed (8 * f.size) x)).toNat else x

/-- What lanes without an element of a fibre window receive (R257): `dflt` stands in the flight's request count. -/
def Flight.dfltVal (f : Flight) : Nat := if f.kind = .fget then f.left else 0

/-- The values a load of a flight takes now, before any replay forcing, and the state with L1 as they leave it. -/
def State.takeLoad (s : State) (core : Nat) (f : Flight) : List (Nat × Nat) × State :=
  let (vs, s1) := (((s.countL1 core (s.domOf f.ref) false (f.cachedNow (s.core core))).before core f).loadLanes core f 0 f.lanes)
  (vs.map fun v => (v.1, f.extend v.2), s1)

/-- The two values of each lane of a merged fibre's window, the second source's above the first's: its accesses stand
under the lane numbers 32 and above (R257). -/
def pairVals (vals : List (Nat × Nat)) : List (Nat × Nat) :=
  if vals.any fun v => decide (32 ≤ v.1) then laneIdx.map fun j => (j, laneVal vals 0 j + 2 ^ 32 * laneVal vals 0 (j + 32)) else vals

/-- A load in flight performed: its value in every lane of S, the effects of an acquire, and its counter (R222, R224 to
R227). -/
def State.completeLoad (s : State) (core : Nat) (f : Flight) : State :=
  let (vals, s1) := s.takeLoad core f
  let vals1 := if f.kind = .poll then s.pollVals f vals else if f.kind = .fget then pairVals vals else vals
  let s2 := (s1.land f).after core f
  let s3 := s2.deliver f vals1 f.dfltVal
  let s4 := if f.kind = .poll then s3.pollReport f.ref f.pc f.mask (pollWords vals1) (distinct ((f.lanes.flatMap (·.refs)).map fun b => b.pa / 128)) else s3
  if f.kind = .sld then s4 else s4.leave f.ref .ld f.seqNo

/-- The results of an atomic written, once every group of it is served (R222, R228, R229). -/
def State.completeAtom (s : State) (core : Nat) (f : Flight) : State :=
  let s1 := (s.land f).after core f
  let s2 := s1.deliver f (f.vals.map fun v => (v.1, v.2.toNat)) 0
  let s3 := s2.leave f.ref .ld f.seqNo
  { s3 with quads := s3.quads.map fun q => (q.1, { q.2 with results := q.2.results.filter fun x => !(decide (x.ref = f.ref) && decide (x.seqNo = f.seqNo)) }) }

/-- A load, poll, set load or fibre load of a core's list. -/
def FlightKind.loads : FlightKind → Bool
  | .load | .poll | .sld | .fget => true
  | _ => false

/-- A POLL returns after the warp's older ones (R227). -/
def State.pollTurn (s : State) (core : Nat) (f : Flight) : Bool :=
  !((s.core core).flights.any fun g => decide (g.ref = f.ref) && decide (g.kind = .poll) && decide (g.seqNo < f.seqNo))

/-- A load of a core's list may return its value now (R193, R202, R371). -/
def State.loadMay (s : State) (core : Nat) (f : Flight) : Bool :=
  f.kind.loads && s.flightReady core f && s.destRoom f && (decide (f.kind ≠ .poll) || (s.pollTurn core f && s.pollMay f (s.takeLoad core f).1))

/-- An atomic of a core's list has all its results (R229). -/
def Flight.atomDone (f : Flight) : Bool := decide (f.kind = .atom) && !f.noret && decide (f.left = 0)

/-- A store of a core's list may be performed now. -/
def State.storeMay (s : State) (core : Nat) (f : Flight) : Bool :=
  (decide (f.kind = .store) || decide (f.kind = .sst)) && s.flightReady core f

/-- The value that a load has already read at a location, for the other lanes that read it (R221). -/
def Flight.known (f : Flight) (got : Tab (Option Byte)) (pa : Nat) : Option Byte :=
  if f.kind = .poll then none else (f.places.filter fun p => decide (p.2.1.pa = pa)).findSome? fun p => Tab.get none got p.1

/-- The bytes at some places of a load performed, with what each place has got. -/
def State.takeEach (s : State) (core : Nat) (f : Flight) (got : Tab (Option Byte)) : List (Nat × BRef × Byte) → Tab (Option Byte) × State
  | [] => (got, s)
  | p :: ps =>
    let (x, s1) := match f.known got p.2.1.pa with
      | some x => (x, s)
      | none => s.loadByte core f p.2.1
    s1.takeEach core f (Tab.set none got p.1 (some x)) ps

/-- One byte of a load, or one lane that is single-copy atomic, performed by itself (R195, R221). -/
def State.takePart (s : State) (core : Nat) (f : Flight) (k : Nat) : State :=
  let ps := (f.together k).filter fun p => (Tab.get none f.got p.1).isNone
  let c := s.core core
  let s1 := s.countL1 core (s.domOf f.ref) false ((f.cachedNow c).filter fun b => ps.any fun p => decide (p.2.1 = b))
  let (got, s2) := (s1.before core f).takeEach core f f.got ps
  s2.setFlight f { f with got := got }

/-- A warp that waits, parked or growing, issues again: its trap comes first. -/
def Warp.rouse (w : Warp) : Warp :=
  { w with status := match w.status with
    | .parked _ | .growing _ => .running
    | x => x }

/-- The trap of an access in flight whose bytes were lost before it was performed: it is precise at the instruction, and the access
leaves its counter (R366). -/
def State.loseFlight (s : State) (f : Flight) (fs : List FaultRec) : State :=
  let s1 := ((s.land f).leave f.ref (if f.noret then .st else .ld) f.seqNo).modWarp f.ref Warp.rouse
  s1.deliverSupervisor f.ref (failTrap f.isUni fs) f.pc false

/-- LOAD_RETURN: an access in flight returns its value, when the order of performing allows it, or a part of a load is performed: a byte, or a
lane that is single-copy atomic (R193, R195, R202, R221, R222, R226). -/
def execLoadReturn (core : Nat) (which : FlightPart) (s : State) : Out :=
  match (s.core core).flights[which.idx]? with
  | some f =>
    if f.kind.loads && s.flightReady core f && decide (s.lostLanes core f ≠ []) then .next (s.loseFlight f (s.lostLanes core f))
    else match which.part with
      | none =>
        if s.loadMay core f then .next (s.completeLoad core f)
        else if f.atomDone && s.destRoom f then .next (s.completeAtom core f)
        else .next s
      | some k =>
        match f.partAt k with
        | some _ =>
          if f.kind.loads && s.flightReady core f && (Tab.get none f.got k).isNone then .next (s.takePart core f k) else .next s
        | none => .next s
  | none => .next s

/-- A store performed: every byte that was not performed before, and its counter (R185, R222, R366). -/
def State.completeStore (s : State) (core : Nat) (f : Flight) : State :=
  let s1 := (((s.countL1 core (s.domOf f.ref) true (f.cachedNow (s.core core))).before core f).land f).storeLanes core f 0 f.lanes
  (s1.heal ((f.lanes.filter (f.laneDirect (s.core core))).flatMap (·.refs))).leave f.ref .st f.seqNo

/-- One byte of a store, or one lane that is single-copy atomic, performed by itself: one write to each location, that of its highest lane
(R195, R221). -/
def State.storePart (s : State) (core : Nat) (f : Flight) (k : Nat) : State :=
  let ps := f.together k
  let c := s.core core
  let s1 := (s.countL1 core (s.domOf f.ref) true ((f.cachedNow c).filter fun b => ps.any fun p => decide (p.2.1 = b))).before core f
  let s2 := (ps.filter fun p => f.owns p.1 p.2.1.pa).foldl (fun t p => t.storeByte core f p.2.1 p.2.2) s1
  s2.setFlight f { f with got := ps.foldl (fun t p => Tab.set none t p.1 (some p.2.2)) f.got }

/-- STORE_PERFORMED: a store in flight is performed at its target or written into L1, as a whole or a part of it (R185, R195, R221, R222,
R226). -/
def execStorePerformed (core : Nat) (which : FlightPart) (s : State) : Out :=
  match (s.core core).flights[which.idx]? with
  | some f =>
    if s.storeMay core f then
      match which.part with
      | none => .next (s.completeStore core f)
      | some k =>
        match f.partAt k with
        | some _ => if (Tab.get none f.got k).isNone then .next (s.storePart core f k) else .next s
        | none => .next s
    else .next s
  | none => .next s

/-- L1_LINE_WRITEBACK: a line of a core's L1 is evicted, its dirty bytes performed at their target (R185, R203). -/
def execL1LineWriteback (core idx : Nat) (s : State) : Out :=
  match (s.core core).l1[idx]? with
  | some l =>
    if s.held (l.line * 128) then .next s
    else
      let s1 := s.writeBack core l (BitVec.allOnes 128)
      .next (s1.modCore core fun c => c.l1Drop l.dom l.line)
  | none => .next s

/-- PAGE_WALK_COMPLETE: a walk that succeeds fills the TLBs and marks its table entry, once no vault holds a table (R177, R336,
R338). -/
def execPageWalkComplete (core dom : Nat) (va : DWord) (store : Bool) (s : State) : Out :=
  if (walkReads s dom (va.toNat % 2 ^ 56)).any s.held then .next s
  else match walkOf s dom (va.toNat % 2 ^ 56) with
  | .ok e => .next (if (bitsOf va.toNat 55 53 = 0 ∨ bitsOf va.toNat 55 53 = 1 ∨ bitsOf va.toNat 55 53 = 4) ∧ va.toNat < 2 ^ 56 then s.useEntry core e (store && e.w) else s)
  | .error _ => .next s

end Sys2Proof.Machine
end

