-- ==== Sys2Proof/Machine/Fibres.lean ====
section
/-! DEFINITION. Fibre registers: opening, moving, merging, and reading their windows (R254 to R258). -/

namespace Sys2Proof.Machine

/-- A warp's fibre register. -/
def State.fibre (s : State) (r : Ref) (n : Nat) : Fibre := Tab.get Fibre.init (s.warp r).fibres n

/-- A fibre register that an instruction reads passes its error check (R366). -/
def State.soundFibre (s : State) (r : Ref) (n : Nat) : Exc Unit := s.sound r (RegSite.isF n)

/-- A warp's fibre register replaced; its places are good again. -/
def State.setFibre (s : State) (r : Ref) (n : Nat) (x : Fibre) : State :=
  s.modWarp r fun w => { w with fibres := Tab.set Fibre.init w.fibres n x, bad := w.bad.filter fun b => !b.isF n }

/-- The number m of elements or matches in the window (R254). -/
def Fibre.window (f : Fibre) : Nat :=
  match f.kind with
  | .closed => 0
  | .plain => min 32 (f.len - f.pos)
  | .merged => f.matched.length

/-- The elements a fibre gives a walk: none unless it is plain (R256, R258). -/
def Fibre.leftOver (f : Fibre) : Nat := if f.kind = .plain then f.len - f.pos else 0

/-- An instruction that keeps what it did when it traps on an element out of order (R254). -/
def issueKeep (s : State) (k : Ref → Exc (State × Option Cause)) : Out :=
  match s.turn with
  | [] => .fault .noWarp
  | t :: _ =>
    if s.foreign t.ref (s.nextPc t.ref) then .next (s.takeTrap t.ref (Trap.of .priv))
    else match k t.ref with
      | .ok (s1, none) => .next (s1.retire t.ref)
      | .ok (s1, some c) => .next (s1.takeTrap t.ref (Trap.of c))
      | .error .stall => .next { s with last := .stalled }
      | .error (.trap x) => .next (s.takeTrap t.ref x)

/-- Coordinate `i` of a plain fibre, read with a relaxed load (R254). -/
def State.coordAt (s : State) (r : Ref) (f : Fibre) (i : Nat) : Exc (Word × State) := do
  let l ← s.uniAcc r .load (f.coord + BitVec.ofNat 64 (4 * i)) 4 4 []
  waitFor (l.refs.all fun b => !s.held b.pa)
  if l.refs.any fun b => s.lostAt r.core false b then
    .error (.trap (failTrap true [{ lane := 0, cause := .dataLost, addr := l.addr, addr2 := none, aux := 0 }]))
  let (bs, s1) := (s.touchAccs r false [l]).readNow r.core (s.domOf r) l.refs
  pure (BitVec.ofNat 32 (ofLe bs), s1)

/-- consume of R254: the fibre past its element, or nothing when the element is out of order. -/
def State.consumeOne (s : State) (r : Ref) (f : Fibre) : Exc (Option Fibre × State) := do
  if f.pos = 0 then pure (some { f with pos := 1 }, s)
  else do
    let (x, s1) ← s.coordAt r f f.pos
    let (y, s2) ← s1.coordAt r f (f.pos - 1)
    pure (if x.toNat ≤ y.toNat then none else some { f with pos := f.pos + 1 }, s2)

/-- consume repeated: the fibre reached, and whether it stopped out of order. -/
def State.consumeMany (s : State) (r : Ref) (f : Fibre) : Nat → Exc (Fibre × State × Bool)
  | 0 => pure (f, s, true)
  | n + 1 => do
    let (g, s1) ← s.consumeOne r f
    match g with
    | none => pure (f, s1, false)
    | some g => s1.consumeMany r g n

/-- consume repeated while the coordinate lies below a value (R256). -/
def State.consumeBelow (s : State) (r : Ref) (u : Word) (f : Fibre) : Nat → Exc (Fibre × State × Bool)
  | 0 => pure (f, s, true)
  | n + 1 => do
    let (x, s1) ← s.coordAt r f f.pos
    if u.toNat ≤ x.toNat then pure (f, s1, true)
    else do
      let (g, s2) ← s1.consumeOne r f
      match g with
      | none => pure (f, s2, false)
      | some g => s2.consumeBelow r u g n

/-- The outcome of a walk: FIBRE_ORDER when it stopped out of order (R254). -/
def orderCause (ok : Bool) : Option Cause := if ok then none else some .fibreOrder

/-- FOPEN (R255). -/
def execFopen (f : Fin 8) (a : Fin 48) (b : Reg) (s : State) : Out :=
  issueSeq s fun s r => do
    let addr ← s.gpair r a
    let n ← s.uniVal r b
    let (bs, s1) ← s.readStruct r addr 32 32
    let c := field bs 0 8
    let v := field bs 8 8
    let z := field bs 16 1
    need (decide (c % 4 = 0)) .misalign
    need (decide (2 < z) || decide (v % 2 ^ z = 0)) .misalign
    need (decide (z ≤ 2)) .illegalField
    need ((bs.drop 17).all fun x => decide (x = 0)) .illegalField
    pure ((s1.consume r [b]).setFibre r f.val
      { Fibre.init with kind := .plain, coord := BitVec.ofNat 64 c, value := BitVec.ofNat 64 v, vlog := z, len := n.toNat })

/-- FCLOSE (R255). -/
def execFclose (f : Fin 8) (s : State) : Out := issueSeq s fun s r => pure (s.setFibre r f.val Fibre.init)

/-- The window of a merged fibre emptied (R256). -/
def Fibre.emptied (f : Fibre) : Fibre := { f with matched := [] }

/-- FADV (R256). -/
def execFadv (f : Fin 8) (a : Reg) (s : State) : Out :=
  issueKeep s fun r => do
    let n ← s.uniVal r a
    waitFor (s.quiet r)
    s.soundFibre r f.val
    let x := s.fibre r f.val
    match x.kind with
    | .merged => pure ((s.consume r [a]).setFibre r f.val x.emptied, none)
    | _ => do
      let (y, s1, ok) ← s.consumeMany r x (min n.toNat x.leftOver)
      pure ((if ok then s1.consume r [a] else s1).setFibre r f.val y, orderCause ok)

/-- FSEEK (R256). -/
def execFseek (f : Fin 8) (a : Reg) (s : State) : Out :=
  issueKeep s fun r => do
    let u ← s.uniVal r a
    waitFor (s.quiet r)
    s.soundFibre r f.val
    let x := s.fibre r f.val
    match x.kind with
    | .merged => pure ((s.consume r [a]).setFibre r f.val x.emptied, none)
    | _ => do
      let (y, s1, ok) ← s.consumeBelow r u x x.leftOver
      pure ((if ok then s1.consume r [a] else s1).setFibre r f.val y, orderCause ok)

/-- FTEND (R257). -/
def execFtend (f : Fin 8) (st : Fin 16) (s : State) : Out :=
  issueSeq s fun s r => do
    waitFor (!s.pendingS r st.val)
    s.soundFibre r f.val
    let m := (s.fibre r f.val).window
    pure (s.putSet r st.val (inlineSet r.index (maskOf fun j => decide (j < m))))

/-- The walk of FMERGE over two fibres: matches found so far, the fibres reached and whether the order held (R258). -/
def State.mergeWalk (s : State) (r : Ref) (a b : Fibre) (acc : List (Word × Nat × Nat)) :
    Nat → Exc (List (Word × Nat × Nat) × Fibre × Fibre × State × Bool)
  | 0 => pure (acc, a, b, s, true)
  | n + 1 =>
    if 32 ≤ acc.length ∨ a.leftOver = 0 ∨ b.leftOver = 0 then pure (acc, a, b, s, true)
    else do
      let (x, s1) ← s.coordAt r a a.pos
      let (y, s2) ← s1.coordAt r b b.pos
      if x = y then do
        let (a', s3) ← s2.consumeOne r a
        match a' with
        | none => pure (acc, a, b, s3, false)
        | some a' => do
          let (b', s4) ← s3.consumeOne r b
          match b' with
          | none => pure (acc, a', b, s4, false)
          | some b' => s4.mergeWalk r a' b' (acc ++ [(x, a.pos, b.pos)]) n
      else if x.toNat < y.toNat then do
        let (a', s3) ← s2.consumeOne r a
        match a' with
        | none => pure (acc, a, b, s3, false)
        | some a' => s3.mergeWalk r a' b acc n
      else do
        let (b', s3) ← s2.consumeOne r b
        match b' with
        | none => pure (acc, a, b, s3, false)
        | some b' => s3.mergeWalk r a b' acc n

/-- FMERGE (R258). -/
def execFmerge (f a b : Fin 8) (s : State) : Out :=
  issueKeep s fun r => do
    need (decide (f ≠ a) && decide (f ≠ b) && decide (a ≠ b)) .illegalOperand
    waitFor (s.quiet r)
    s.soundFibre r a.val
    s.soundFibre r b.val
    let x := s.fibre r a.val
    let y := s.fibre r b.val
    let (ms, x', y', s1, ok) ← s.mergeWalk r x y [] (x.leftOver + y.leftOver)
    let s2 := (s1.setFibre r a.val x').setFibre r b.val y'
    let z : Fibre := { Fibre.init with kind := .merged, value := x.value, vlog := x.vlog, valueB := y.value, vlogB := y.vlog, matched := ms }
    pure (if ok then s2.setFibre r f.val z else s2, orderCause ok)

/-- The relaxed access of a window instruction. -/
def fibreMods : Mods := Mods.dflt

/-- The accesses of a window instruction, each with its key, lane, address and size, or the trap of its failing lanes
(R219, R220, R257). -/
def State.fibreAccs (s : State) (r : Ref) (xs : List (Nat × Nat × DWord × Nat)) (lost : LaneAcc → Bool) : Exc (List LaneAcc) := do
  waitFor (xs.all fun x => s.mayReach r [s.threadOf r x.2.1] x.2.2.1.toNat x.2.2.2)
  let ys := xs.map fun x => (x, resolve s .load (s.actor r) x.2.2.1 x.2.2.2 x.2.2.2)
  let bad := ys.filterMap fun y => match y.2 with
    | .error (c, a2) => some { lane := y.1.2.1, cause := c, addr := y.1.2.2.1, addr2 := a2, aux := 0 }
    | .ok _ => none
  let good := ys.filterMap fun y => match y.2 with
    | .ok refs => some { lane := y.1.1, threads := [s.threadOf r y.1.2.1], addr := y.1.2.2.1, refs := refs, data := [] }
    | .error _ => none
  if bad.isEmpty then pure good else .error (.trap (failTrap false (bad ++ (good.filter lost).map lostRec)))

/-- A window load at issue: its accesses enter flight with the value that lanes without an element receive (R257). -/
def State.windowLoad (s : State) (r : Ref) (d : Reg) (k dflt : Nat) (xs : List (Nat × Nat × DWord × Nat)) : Exc State := do
  s.destReady r d k
  s.room r .ld
  let mk (ls : List LaneAcc) : Flight := { s.flight r .fget fibreMods (s.applied r) (.lanes d k) ls with left := dflt }
  let ls ← s.fibreAccs r xs (s.loses r.core (mk []))
  let f := mk ls
  s.readable f
  pure (((s.touchAccs r false ls).enter r .ld).fly f)

/-- The lanes of S that hold an element of a window of m. -/
def State.windowLanes (s : State) (r : Ref) (m : Nat) : List Nat := (lanesOf (s.applied r)).filter fun j => decide (j < m)

/-- FGETC (R257). A merged fibre holds its coordinates, so nothing is read, and it leaves its counter behind the older loads (R205). -/
def execFgetc (f : Fin 8) (d : Reg) (s : State) : Out :=
  issueSeq s fun s r => do
    s.bounds r [(d, 1)]
    let x := s.fibre r f.val
    if s.applied r = 0 then pure s
    else do
      s.soundFibre r f.val
      match x.kind with
      | .merged => do
          s.room r .ld
          let s1 ← s.putRun r d (s.applied r) [rowOf fun j => ((x.matched[j]?).map (·.1)).getD 0xFFFFFFFF]
          pure (s1.passThrough r .ld)
      | _ => s.windowLoad r d 1 0xFFFFFFFF ((s.windowLanes r x.window).map fun j => (j, j, x.coord + BitVec.ofNat 64 (4 * (x.pos + j)), 4))

/-- The accesses to the values of one source of a window: element `idx j` in each lane; none when the fibre has no values. -/
def valueAccs (v : DWord) (vlog base : Nat) (lanes : List Nat) (idx : Nat → Nat) : List (Nat × Nat × DWord × Nat) :=
  if v = 0 then [] else lanes.map fun j => (base + j, j, v + BitVec.ofNat 64 (2 ^ vlog * idx j), 2 ^ vlog)

/-- FGETV (R257). -/
def execFgetv (f : Fin 8) (d : Reg) (s : State) : Out :=
  issueSeq s fun s r => do
    let x := s.fibre r f.val
    let k := if x.kind = .merged then 2 else 1
    s.bounds r [(d, k)]
    if s.applied r = 0 then pure s
    else do
      s.soundFibre r f.val
      let lanes := s.windowLanes r x.window
      match x.kind with
      | .merged =>
        s.windowLoad r d 2 0 (valueAccs x.value x.vlog 0 lanes (fun j => ((x.matched[j]?).map (·.2.1)).getD 0) ++
          valueAccs x.valueB x.vlogB 32 lanes (fun j => ((x.matched[j]?).map (·.2.2)).getD 0))
      | _ => s.windowLoad r d 1 0 (valueAccs x.value x.vlog 0 lanes (fun j => x.pos + j))

end Sys2Proof.Machine
end

