-- ==== Sys2Proof/Machine/Save.lean ====
section
/-! DEFINITION. The save areas of warps and workgroups: their layouts, saving and restoring (R160, R302, R360 to R363). What no
field of a layout carries stays with the device (log entry 20). -/

namespace Sys2Proof.Machine

/-- Bytes of a physical range set to zero; the granules it covers whole are good again (R366). -/
def State.physZero (s : State) (pa n : Nat) : State :=
  { s with
    mem := s.mem.filter fun c => decide (c.1 < pa) || decide (pa + n ≤ c.1)
    bad := s.bad.filter fun x => decide (x / 64 * 64 < pa) || decide (pa + n < x / 64 * 64 + 64) }

/-- A byte of a physical range fails its error check (R366). -/
def State.badRange (s : State) (pa n : Nat) : Bool := s.bad.any fun x => decide (pa ≤ x) && decide (x < pa + n)

/-- A vault that holds a byte of a range takes no new access (R177, R392). -/
def State.heldRange (s : State) (pa n : Nat) : Bool := s.held pa || s.held (pa + n - 1)

/-- Pieces of a layout, offset and bytes, written at a physical address. -/
def State.physPieces (s : State) (pa : Nat) (ps : List (Nat × List Byte)) : State :=
  ps.foldl (fun t p => t.physStore (pa + p.1) p.2) s

/-- A number of `n` bytes in physical memory. -/
def State.physNum (s : State) (pa n : Nat) : Nat := ofLe (s.physBytes pa n)

/-! ### Warp save areas (R362) -/

/-- Bytes from one warp save area to the next. -/
def warpAreaBytes : Nat := 57344

/-- The save area of a warp of a queue set. -/
def State.areaOf (s : State) (c k w : Nat) : Nat := (s.core c).savebase.toNat + (16 * k + w) * warpAreaBytes

/-- The bytes an area of a warp with open live-in rows takes. -/
def areaSize (gran nin : Nat) : Nat := 8192 + 1024 * gran + 128 * nin

/-- The bytes of a warp's save area, its buffered live-in rows among them. -/
def Warp.areaBytes (w : Warp) : Nat := areaSize w.gran ((w.gather.map (·.buf.length)).getD 0)

/-- The code of a warp's state in its save area. -/
def Status.saved : Status → Nat
  | .running => 0
  | .parked _ => 1
  | .growing _ => 2
  | .ended => 3
  | .swapped _ => 4
  | .absent => 0

/-- A row's bytes. -/
def rowBytes (r : Row) : List Byte := r.flatMap fun x => leBytes 4 x.toNat

/-- A fibre record. -/
def Fibre.pieces (f : Fibre) (at' : Nat) : List (Nat × List Byte) :=
  let kind := match f.kind with
    | .closed => 0
    | .plain => 1
    | .merged => 2
  [(at', leBytes 1 kind ++ leBytes 1 f.vlog ++ leBytes 1 f.window),
   (at' + 4, leBytes 4 f.len ++ leBytes 4 f.pos), (at' + 16, leBytes 8 f.coord.toNat ++ leBytes 8 f.value.toNat)] ++
  (if f.kind = .merged then
    [(at' + 32, leBytes 8 f.value.toNat ++ leBytes 1 f.vlog), (at' + 48, leBytes 8 f.valueB.toNat ++ leBytes 1 f.vlogB)] ++
      f.matched.zipIdx.map fun m => (at' + 64 + 12 * m.2, leBytes 4 m.1.1.toNat ++ leBytes 4 m.1.2.1 ++ leBytes 4 m.1.2.2)
  else [])

/-- The save area of a warp of index `k`. -/
def Warp.pieces (w : Warp) (k seq : Nat) : List (Nat × List Byte) :=
  let b (x : Bool) (n : Nat) : Nat := if x then n else 0
  let poll := w.poll.getD { pc := 0, mask := 0, vals := [] }
  let words (xs : List Nat) : List Byte := xs.flatMap (leBytes 4)
  [(0, leBytes 4 0x57594B53 ++ leBytes 1 1 ++ leBytes 1 k ++ leBytes 1 w.gran ++ leBytes 1 w.status.saved ++ leBytes 4 seq ++ leBytes 4 w.pc.toNat),
   (0x10, leBytes 1 (b w.active 1) ++ leBytes 1 w.level ++ leBytes 1 w.boost ++ leBytes 1 w.gate ++ leBytes 2 w.passed ++ leBytes 1 (b w.pin.isSome 1 + b w.wakeDue 2)),
   (0x18, leBytes 4 w.live.toNat ++ leBytes 4 poll.pc.toNat ++ leBytes 1 w.ld ++ leBytes 1 w.st ++ leBytes 1 w.cp ++ leBytes 1 w.tl ++
     leBytes 1 w.stack.length ++ leBytes 1 w.tbase ++ leBytes 1 w.regions.length ++ [0#8] ++ leBytes 4 poll.mask.toNat),
   (0x40, words ((List.range 48).map fun i => (Tab.get 0 w.g i).toNat)),
   (0x100, (List.range 16).flatMap fun i => leBytes 8 (w.sreg i).toNat),
   (0x180, words [w.round.toNat, w.tvec.toNat, w.cause.toNat, w.epc.toNat] ++ leBytes 8 w.ftab.toNat ++ leBytes 8 w.laststamp.toNat ++
     words [w.scause.toNat, w.sepc.toNat, w.sdom]),
   (0x1C0, w.regions.flatMap fun x => leBytes 2 x.toNat)] ++
  (((lanesOf poll.mask).zip poll.vals).map fun v => (0x200 + 8 * v.1, leBytes 8 v.2.toNat)) ++
  [(0x300, w.stack.reverse.flatMap fun e => e.bytes k)] ++
  (match w.gather, w.stack.getLast? with
    | some g, some e => [(0x700, leBytes 2 g.members.length ++ leBytes 1 e.chunk ++ leBytes 1 e.base ++ leBytes 1 e.nin ++ leBytes 1 e.nout),
        (0x2000 + 1024 * w.gran, g.buf.flatMap rowBytes)]
    | _, _ => []) ++
  (w.fibres.flatMap fun f => f.2.pieces (0x800 + 512 * f.1)) ++
  (w.v.map fun r => (0x2000 + 128 * r.1, rowBytes r.2))

/-- A row read from physical memory. -/
def State.physRow (s : State) (pa : Nat) : Row := rowOf fun j => BitVec.ofNat 32 (s.physNum (pa + 4 * j) 4)

/-- A fibre read back. -/
def State.readFibre (s : State) (pa : Nat) : Fibre :=
  match s.physNum pa 1 with
  | 1 => { Fibre.init with kind := .plain, vlog := s.physNum (pa + 1) 1, len := s.physNum (pa + 4) 4, pos := s.physNum (pa + 8) 4, coord := BitVec.ofNat 64 (s.physNum (pa + 16) 8), value := BitVec.ofNat 64 (s.physNum (pa + 24) 8) }
  | 2 =>
    { Fibre.init with kind := .merged, value := BitVec.ofNat 64 (s.physNum (pa + 32) 8), vlog := s.physNum (pa + 40) 1, valueB := BitVec.ofNat 64 (s.physNum (pa + 48) 8), vlogB := s.physNum (pa + 56) 1, matched := (List.range (s.physNum (pa + 2) 1)).map fun i =>
        (BitVec.ofNat 32 (s.physNum (pa + 64 + 12 * i) 4), s.physNum (pa + 68 + 12 * i) 4, s.physNum (pa + 72 + 12 * i) 4) }
  | _ => Fibre.init

/-- A table of `n` values, those equal to the default left out. -/
def tabOf {α : Type} [DecidableEq α] (d : α) (n : Nat) (f : Nat → α) : Tab α := (List.range n).foldl (fun t i => Tab.set d t i (f i)) []

/-- An apply stack entry read back over the one the device kept. -/
def State.readEntry (s : State) (pa : Nat) (old : Entry) : Entry :=
  { old with gathered := (s.physNum (pa + 12) 1).testBit 0, encl := BitVec.ofNat 32 (s.physNum pa 4), ret := BitVec.ofNat 32 (s.physNum (pa + 8) 4), chunk := s.physNum (pa + 12) 1 / 16, base := s.physNum (pa + 13) 1, nin := s.physNum (pa + 14) 1, nout := s.physNum (pa + 15) 1 }

/-- The bits of `cr.cause` that R346 assigns; the others read 0. -/
def causeMask : Word := 0xFFFF00FF

/-- Those of `cr.scause`, which holds the site of a stop too (R346, R377). -/
def scauseMask : Word := 0xFFFF03FF

/-- A warp read back from its save area. The counters `cp` and `tl` fall while it is away and are kept by the device, as
are the fields no layout carries. -/
def State.readWarp (s : State) (pa : Nat) (old : Warp) : Warp :=
  let n (o k : Nat) : Nat := s.physNum (pa + o) k
  let gran := n 6 1
  let mask : Lanes := BitVec.ofNat 32 (n 0x28 4)
  { old with
    gran := gran
    pc := BitVec.ofNat 32 (n 0xC 4)
    active := decide (n 0x10 1 % 2 = 1)
    level := n 0x11 1
    boost := n 0x12 1
    gate := n 0x13 1
    passed := n 0x14 2
    live := BitVec.ofNat 32 (n 0x18 4)
    poll := old.poll.map fun _ => { pc := BitVec.ofNat 32 (n 0x1C 4), mask := mask, vals := (lanesOf mask).map fun j => BitVec.ofNat 64 (n (0x200 + 8 * j) 8) }
    tbase := n 0x25 1 % 128
    g := tabOf 0 48 fun i => BitVec.ofNat 32 (n (0x40 + 4 * i) 4)
    sets := tabOf 0 16 fun i => BitVec.ofNat 64 (n (0x100 + 8 * i) 8)
    round := BitVec.ofNat 2 (n 0x180 4)
    tvec := BitVec.ofNat 32 (n 0x184 4)
    cause := causeMask &&& BitVec.ofNat 32 (n 0x188 4)
    epc := BitVec.ofNat 32 (n 0x18C 4)
    ftab := BitVec.ofNat 64 (n 0x190 8)
    laststamp := BitVec.ofNat 64 (n 0x198 8)
    scause := scauseMask &&& BitVec.ofNat 32 (n 0x1A0 4)
    sepc := BitVec.ofNat 32 (n 0x1A4 4)
    sdom := n 0x1A8 4 % 1024
    regions := (List.range (min (n 0x26 1) 16)).map fun i => BitVec.ofNat 16 (n (0x1C0 + 2 * i) 2)
    stack := (old.stack.reverse.zipIdx.map fun e => s.readEntry (pa + 0x300 + 16 * e.2) e.1).reverse
    gather := old.gather.map fun g => { g with buf := (List.range g.buf.length).map fun i => s.physRow (pa + 0x2000 + 1024 * gran + 128 * i) }
    fibres := tabOf Fibre.init 8 fun i => s.readFibre (pa + 0x800 + 512 * i)
    v := tabOf rowZero (8 * gran) fun i => s.physRow (pa + 0x2000 + 128 * i)
    watched := []
    hit := false
    pfx := none
    bad := [] }

/-- A warp's state written to its save area. -/
def State.saveWarp (s : State) (c k w : Nat) : State :=
  let x := s.warpAt c k w
  let pa := s.areaOf c k w
  (s.physZero pa x.areaBytes).physPieces pa (x.pieces w (s.wg c k).seq)

/-- What the core keeps of a warp whose registers are in its save area at an address: they hold no value here (R268). -/
def Warp.emptied (w : Warp) (area : Nat) : Warp :=
  { w with v := [], g := [], sets := [], fibres := [], slot := none, watched := [], hit := false, boost := 0, passed := 0, pfx := none, area := some area }

/-- A save fails for good: a register it reads fails its error check. The die's supervisor core is told, and the workgroup ends (R366,
R373). -/
def State.saveLost (s : State) (c k : Nat) : State :=
  (s.reportLost (dieOf c) 0 c (s.wg c k).dom).endWorkgroup c k .dataLost 0

/-- A warp swapped out (R302): its state goes to its save area, its slot and granules are free, and its kind 2 record
takes the reserved room. -/
def State.swapOut (s : State) (c k w : Nat) (wait : Option Wait) (join : Word) : State :=
  let g := s.wg c k
  let x := g.warp w
  let s1 := (s.modWarpAt c k w fun y => { y with status := .swapped wait, boost := 0, passed := 0 }).saveWarp c k w
  let r : Rec :=
    { kind := .resume
      code := x.pc
      join := join
      frame := BitVec.ofNat 64 (s.areaOf c k w)
      launch := g.launch
      index := g.index
      seq := g.seq
      prio := x.prio
      det := g.det
      warp := w
      set := k
      dom := g.dom
      log := g.log
      lrec := none }
  let s2 := s1.modWarpAt c k w fun y => { y.emptied (s.areaOf c k w) with swapDue := false, parked := 0 }
  s2.modCore c fun co => { co with reserved := co.reserved ++ [r] }

/-! ### Home registers (R279) -/

/-- A warp's registers are in its save area. -/
def Warp.away (w : Warp) : Bool := w.area.isSome

/-- The address of a lane of a lane register in a save area (R362). -/
def areaReg (area n j : Nat) : Nat := area + 0x2000 + 128 * n + 4 * j

/-- A lane of a home register: held by the warp, or in its save area while it is swapped out. -/
def State.homeGet (s : State) (c k w n j : Nat) : Word :=
  let x := s.warpAt c k w
  match x.area with
  | some a => BitVec.ofNat 32 (s.physNum (areaReg a n j) 4)
  | none => rowGet (x.vreg n) j

/-- A lane of a home register fails its error check (R281, R366). -/
def State.homeBad (s : State) (c k w n j : Nat) : Bool :=
  let x := s.warpAt c k w
  match x.area with
  | some a => s.badRange (areaReg a n j) 4
  | none => x.bad.contains (.v n j)

/-- A lane of a home register replaced. -/
def State.homePut (s : State) (c k w n j : Nat) (v : Word) : State :=
  let x := s.warpAt c k w
  match x.area with
  | some a => s.physStore (areaReg a n j) (leBytes 4 v.toNat)
  | none => s.modWarpAt c k w fun x => { x with v := Tab.set rowZero x.v n (rowOf fun i => if i = j then v else rowGet (x.vreg n) i), bad := x.bad.filter fun b => decide (b ≠ .v n j) }

/-- A warp's live set replaced, in its save area too while it is swapped out (R276). -/
def State.setLive (s : State) (c k w : Nat) (m : Lanes) : State :=
  let s1 := match (s.warpAt c k w).area with
    | some a => s.physStore (a + 0x18) (leBytes 4 m.toNat)
    | none => s
  s1.modWarpAt c k w fun x => { x with live := m }

/-! ### Workgroup save areas (R363) -/

/-- A queued array operation's 128 bytes. -/
def ArrOp.bytes (o : ArrOp) : List Byte :=
  let (kind, opnd) := match o.kind with
    | .loadw _ l => (1, l)
    | .mloop _ => (2, 0)
    | .tzero t => (3, t)
    | .mmask _ => (0, 0)
  o.raw ++ List.replicate (64 - o.raw.length) 0 ++ leBytes 4 o.pc.toNat ++ leBytes 1 o.ref.index ++ leBytes 1 kind ++ leBytes 1 opnd ++
    leBytes 1 (if o.fault.isSome then 1 else 0) ++ List.replicate 56 0

/-- A packed map of bits. -/
def mapBytes (n : Nat) (f : Nat → Bool) : List Byte :=
  (List.range ((n + 7) / 8)).map fun i => BitVec.ofNat 8 ((List.range 8).foldl (fun acc b => if f (8 * i + b) then acc + 2 ^ b else acc) 0)

/-- The array part of a workgroup save area (R160). -/
def ArrayState.pieces (a : ArrayState) : List (Nat × List Byte) :=
  [(0x5000, leBytes 1 a.cfg ++ [0#8] ++ leBytes 2 a.live.toNat), (0x5008, leBytes 8 a.progress.word.toNat)] ++
  ((List.range 2).map fun i => (0x5010 + 32 * i, ((a.latch i).desc.map (·.2)).getD [])) ++
  [(0x5050, a.mask), (0x5100, a.queued.flatMap ArrOp.bytes)] ++
  (a.ias.map fun e => (0x6000 + 4 * e.1, leBytes 4 e.2.toNat)) ++
  ((a.tiles.filter fun e => a.live.getLsbD (e.1 / (tileRows a.cfg * 128))).map fun e => (0x16000 + 4 * e.1, leBytes 4 e.2.toNat))

/-- A workgroup save area, without its quad SRAM image. -/
def Workgroup.pieces (g : Workgroup) (a : Option ArrayState) : List (Nat × List Byte) :=
  let t := g.slice
  let flags := (if a.isSome then 1 else 0) + (if t.present then 2 else 0) + (if t.halted then 4 else 0)
  [(0, leBytes 4 0x57474B53 ++ leBytes 1 1), (8, leBytes 4 g.index.toNat ++ leBytes 4 g.launch),
   (0x10, leBytes 4 g.dom ++ leBytes 4 g.qsram ++ leBytes 4 g.setheap ++ leBytes 4 flags),
   (0x100, leBytes 4 t.pc.toNat ++ (List.range 48).flatMap fun i => leBytes 4 (Tab.get 0 t.g i).toNat)] ++
  ((List.range 16).filterMap fun i => (Tab.get none g.windows i).map fun w =>
    (0x200 + 32 * i, leBytes 8 w.base.toNat ++ leBytes 8 w.index.toNat ++ leBytes 4 w.count ++ leBytes 1 w.zlog ++ leBytes 1 (if w.wide then 7 else 6) ++ List.replicate 9 0 ++ [1#8])) ++
  ((List.range 8).map fun i => (0x400 + 2 * i, leBytes 1 (g.queue i).head ++ leBytes 1 (g.queue i).rows.length)) ++
  ((List.range 8).flatMap fun i => (g.queue i).rows.zipIdx.map fun x => (0x1000 + 2048 * i + 128 * (((g.queue i).head + x.2) % 16), rowBytes x.1.row)) ++
  (match a with
    | some a => a.pieces
    | none => []) ++
  [(0x96000, mapBytes (g.setheap / 64) fun i => Tab.get false g.heapUsed i), (0x9E000, mapBytes (g.qsram / 16) fun i => Tab.get false g.tags i)]

/-- The bytes of a workgroup save area before its quad SRAM image. -/
def groupAreaBytes : Nat := 0xBE000

/-- The pages of a workgroup save area of `n` bytes at an address of the domain, as the save-and-restore engine reaches
them: the reference of each page's first byte (R360, R363). -/
def State.areaPages (s : State) (core dom va n : Nat) : Option (List BRef) :=
  if 2 ^ 56 ≤ va + n ∨ 2 ≤ bitsOf va 55 53 then none
  else (List.range ((n + 65535) / 65536)).mapM fun i =>
    match pageRefs s .store { core := core, set := 0, dom := dom, superv := true } (va + 65536 * i) 1 with
    | .ok (b :: _) => if s.held b.pa then none else some b
    | _ => none

/-- The byte of a save area at an offset. -/
def areaByte (ps : List BRef) (off : Nat) : Option BRef := (ps[off / 65536]?).map fun b => { b with pa := b.pa + off % 65536, cached := false }

/-- The first `n` bytes of a save area set to zero under the domain's owner tag. -/
def State.areaClear (s : State) (ps : List BRef) (n : Nat) : State :=
  ps.zipIdx.foldl (fun t p =>
    let m := min 65536 (n - 65536 * p.2)
    let t1 := t.physZero p.1.pa m
    { t1 with tags := (List.range (m / 64)).foldl (fun x i => Tab.set (0, 0) x (p.1.pa / 64 + i) (p.1.dom, p.1.epoch)) t1.tags }) s

/-- Bytes of a save area written from an offset on. -/
def State.areaStore (s : State) (ps : List BRef) (off : Nat) : List Byte → State
  | [] => s
  | x :: xs => (match areaByte ps off with
    | some b => s.physWrite b.pa x
    | none => s).areaStore ps (off + 1) xs

/-- A byte of a save area read. -/
def State.areaRead (s : State) (ps : List BRef) (off : Nat) : Byte :=
  match areaByte ps off with
  | some b => s.ownRead b
  | none => 0

/-- A register that a workgroup's save reads fails its error check: a queue row, a register of its access slice, a byte of its quad SRAM, or a tile row or IAS column of
the array it holds (R366, R373). -/
def State.groupBad (s : State) (c k : Nat) (a : Option ArrayState) : Bool :=
  let g := s.wg c k
  (g.queues.any fun q => q.2.rows.any (·.bad)) || !g.slice.bad.isEmpty || (!s.bad.isEmpty && (List.range g.qsram).any fun i => s.badAt (g.qsramRef c i)) ||
    (match a with
      | some x => !x.badIas.isEmpty || x.badRows.any fun p => x.live.getLsbD p.1
      | none => false)

/-- A workgroup's state written to its save area: the array state is passed beside it (R360, R363). -/
def State.saveGroup (s : State) (c k : Nat) (ps : List BRef) (a : Option ArrayState) : State :=
  let g := s.wg c k
  let s1 := (g.pieces a).foldl (fun t p => t.areaStore ps p.1 p.2) (s.areaClear ps (groupAreaBytes + g.qsram))
  s1.areaStore ps groupAreaBytes ((List.range g.qsram).map fun i => s.ownRead (g.qsramRef c i))

/-- A number of `n` bytes of a save area that `rd` reads. -/
def areaNum (rd : Nat → Byte) (off n : Nat) : Nat := ofLe ((List.range n).map fun i => rd (off + i))
/-- A map of bits read back. -/
def readMap (rd : Nat → Byte) (off n : Nat) : Tab Bool := tabOf false n fun i => (areaNum rd (off + i / 8) 1).testBit (i % 8)
/-- A queue read back over the rows the device kept. -/
def readQueue (rd : Nat → Byte) (i : Nat) (old : Queue) : Queue :=
  let head := areaNum rd (0x400 + 2 * i) 1
  { old with
    head := head
    rows := (List.range (areaNum rd (0x401 + 2 * i) 1)).map fun k =>
      { (old.rows.getD k { row := rowZero, mark := none, bad := false }) with row := rowOf fun j => BitVec.ofNat 32 (areaNum rd (0x1000 + 2048 * i + 128 * ((head + k) % 16) + 4 * j) 4) } }
/-- A window slot read back. -/
def readWindow (rd : Nat → Byte) (i : Nat) : Option Window :=
  let at' := 0x200 + 32 * i
  if (areaNum rd (at' + 31) 1).testBit 0 then
    some { base := BitVec.ofNat 64 (areaNum rd at' 8), index := BitVec.ofNat 64 (areaNum rd (at' + 8) 8), count := areaNum rd (at' + 16) 4, zlog := areaNum rd (at' + 20) 1, wide := decide (areaNum rd (at' + 21) 1 = 7) }
  else none

/-- A workgroup read back from its save area over what the device kept of it (R361, R363). -/
def readGroup (rd : Nat → Byte) (old : Workgroup) : Workgroup :=
  { old with
    windows := tabOf none 16 fun i => readWindow rd i
    queues := tabOf Queue.init 8 fun i => readQueue rd i (old.queue i)
    heapUsed := readMap rd 0x96000 (old.setheap / 64)
    tags := readMap rd 0x9E000 (old.qsram / 16)
    slice := { old.slice with bad := [], pc := BitVec.ofNat 32 (areaNum rd 0x100 4), g := tabOf 0 48 fun i => BitVec.ofNat 32 (areaNum rd (0x104 + 4 * i) 4) } }

/-- The array state read back: its latches wait for their reload, and a tile that was free reads +0 (R160). -/
def readArray (rd : Nat → Byte) (old : ArrayState) : ArrayState :=
  let p := areaNum rd 0x5008 8
  { old with
    cfg := areaNum rd 0x5000 1
    live := BitVec.ofNat 16 (areaNum rd 0x5002 2)
    mask := (List.range 160).map fun i => rd (0x5050 + i)
    waiters := []
    progress := { valid := p.testBit 63, promoted := BitVec.ofNat 16 (p / 2 ^ 32), done := BitVec.ofNat 16 (p / 2 ^ 16), row := BitVec.ofNat 8 p }
    ias := tabOf 0 (128 * 128) fun i => BitVec.ofNat 24 (areaNum rd (0x6000 + 4 * i) 4)
    tiles := tabOf 0 (128 * 1024) fun i => BitVec.ofNat 32 (areaNum rd (0x16000 + 4 * i) 4)
    latches := old.latches.map fun l => (l.1, if l.2.desc.isSome then { l.2 with cells := [], scales := [], empty := true } else l.2)
    refresh := true }

end Sys2Proof.Machine
end

