-- ==== Sys2Proof/Machine/Apply.lean ====
section
/-! DEFINITION. Applies in place and gathered, the end of a block, EXIT, END, GROW and SHRINK (R274 to R282, R287, R316, R321 to
R323). -/

namespace Sys2Proof.Machine

/-! ### Ends of warps (R266, R276, R321) -/

/-- The warp has no lane, uniform or set access of its counters outstanding (R321). -/
def State.drained (s : State) (r : Ref) : Bool :=
  decide ((s.warp r).ld = 0) && decide ((s.warp r).st = 0) && !((s.core r.core).flights.any fun f => decide (f.ref = r) && decide (f.kind = .sld))

/-- A warp ends: its slot is free, its registers and index stay until the workgroup ends, and no record resumes it (R266, R268,
R276). The spec does not say how the registers of one that ends while Swapped come into the file, where R268 has those of Ended warps, nor
what becomes of the pins of one whose own gathered apply is open: the model leaves its registers in the save area, holding no granules, and
the pins standing (log entries 104 and 105, DESIGN CHOICE). -/
def State.endOne (s : State) (c k w : Nat) : State :=
  let s1 := s.modWarpAt c k w fun x => { x with status := .ended, slot := none, boost := 0, passed := 0, swapDue := false, wakeDue := false, pfx := none }
  s1.modCore c fun co => co.dropRecsOf fun x => decide (x.set = k) && decide (x.warp = w) && decide (x.kind = .resume)

/-- The apply stack passes its error check (R366). -/
def State.soundStack (s : State) (r : Ref) : Exc Unit :=
  s.sound r fun b => match b with
    | .stack => !(s.warp r).stack.isEmpty
    | _ => false

/-- The steps of END after its SET_NEST check (R321). -/
def State.finishWarp (s : State) (r : Ref) : Exc State := do
  match s.owedAny r with
  | some t => .error (.trap t)
  | none => pure ()
  waitFor (s.drained r)
  s.soundStack r
  pure { (s.dropStack r).endOne r.core r.set r.index with last := .retired }

/-- The apply stack holds a gathered entry: the warp is inside a gathered block (R277). -/
def Warp.inGathered (w : Warp) : Bool := w.stack.any (·.gathered)

/-- END (R321). -/
def execEndWarp (s : State) : Out :=
  issue s fun s r => do
    need (!(s.warp r).inGathered) .setNest
    s.finishWarp r

/-- The members of S removed from their home warps' live sets (R276). -/
def State.removeLive (s : State) (r : Ref) : State :=
  (lanesOf (s.applied r)).foldl (fun t j =>
    let p := s.homeOf r j
    t.setLive r.core r.set p.1 ((t.warpAt r.core r.set p.1).live &&& ~~~BitVec.ofNat 32 (2 ^ p.2))) s

/-- EXIT (R276, R322). -/
def execExit (s : State) : Out :=
  issue s fun s r => do
    let s1 := s.removeLive r
    if s.applied r ≠ 0 ∧ !(s.warp r).inGathered ∧ (s1.warp r).live = 0 then s1.finishWarp r
    else do
      need (!s.foreign r (s.nextPc r)) .priv
      pure (s1.retire r)

/-! ### APPLY (R277 to R280, R316) -/

/-- An entry pushed, holding the reference of the applied set's value (R272, R274). -/
def State.pushEntry (s : State) (r : Ref) (e : Entry) (c : Lanes) : State :=
  (s.addRef r e.setv).modWarp r fun w => { w with stack := e :: w.stack, cur := c }

/-- The packed lanes of the current chunk that carry members (R279). -/
def Warp.packed (w : Warp) : Lanes :=
  match w.gather with
  | none => BitVec.allOnes 32
  | some g => maskOf fun p => decide (32 * ((w.stack.getLast?.map (·.chunk)).getD 0) + p < g.members.length)

/-- The lanes of the warp's block that carry the members of a list. -/
def State.lanesFor (s : State) (r : Ref) (ms : List (Nat × Nat)) : Lanes :=
  maskOf fun p => (s.warp r).packed.getLsbD p && ms.contains (s.homeOf r p)

/-- Every member is carried by a packed lane of the current chunk, or lies in the issuing warp outside a gathered block. -/
def State.carried (s : State) (r : Ref) (ms : List (Nat × Nat)) : Bool :=
  ms.all fun m => (lanesOf (s.warp r).packed).any fun p => decide (s.homeOf r p = m)

/-- The home warps of a gathered apply other than the issuing warp. -/
def otherHomes (k : Nat) (ms : List (Nat × Nat)) : List Nat := (distinct (ms.map (·.1))).filter fun w => decide (w ≠ k)

/-- A home warp may be pinned: it is Parked, Swapped or Ended and no other apply pins it (R279). -/
def Warp.mayPin (w : Warp) : Bool :=
  w.pin.isNone && (match w.status with
    | .parked _ => true
    | .swapped _ => true
    | .ended => true
    | _ => false)

/-- A home warp's registers of a range can be read or written now: no access in flight writes them, and no vault holds the save area
of a swapped one (R177, R279). -/
def State.homeQuiet (s : State) (r : Ref) (w b n : Nat) : Bool :=
  ((List.range n).all fun i => !s.pendingV { r with who := .warp w } (b + i)) &&
    (match (s.warpAt r.core r.set w).area with
      | some a => !s.heldRange a warpAreaBytes
      | none => true)

/-- The record of a home register that fails its error check, as an apply moves it: it names the packed lane and the member (R281). -/
def homeRec (p n : Nat) (m : Nat × Nat) : FaultRec :=
  { lane := p, cause := .regEcc, addr := 0, addr2 := none, aux := BitVec.ofNat 32 (RegSite.number (.v n m.2)), member := some m }

/-- The home registers that chunk `c` gathers pass their error check; those of the issuing warp were checked as they were buffered
(R281). -/
def State.soundHomes (s : State) (r : Ref) (ms : List (Nat × Nat)) (b n c : Nat) : Exc Unit :=
  let bad := laneIdx.flatMap fun p => match ms[32 * c + p]? with
    | some m => if m.1 = r.index then [] else ((List.range n).filter fun i => s.homeBad r.core r.set m.1 (b + i) m.2).map fun i => homeRec p (b + i) m
    | none => []
  if bad.isEmpty then .ok () else .error (.trap (failTrap false bad))

/-- The issuing warp's own live-in registers, which the apply buffers, pass their error check (R281). -/
def State.soundOwn (s : State) (r : Ref) (b n : Nat) : Exc Unit :=
  match s.badRegs r fun x => (List.range n).any fun i => x.isV (b + i) with
  | [] => .ok ()
  | xs => .error (.trap (failTrap false (xs.map fun x => homeRec x.lane x.number (r.index, x.lane))))

/-- The value a member's home register holds: from the buffer when the member is the issuing warp's (R279). -/
def State.memberGet (s : State) (r : Ref) (buf : List Row) (b i : Nat) (m : Nat × Nat) : Word :=
  if m.1 = r.index then rowGet (buf.getD i rowZero) m.2 else s.homeGet r.core r.set m.1 (b + i) m.2

/-- A chunk gathered into the packed lanes of the live-in range, and counted (R279, R382). -/
def State.gatherChunk (s : State) (r : Ref) (ms : List (Nat × Nat)) (buf : List Row) (b n c : Nat) : State :=
  (fun t : State => t.count (t.domOf r) 9 1) <| (List.range n).foldl (fun t i => t.mergeV r (b + i) (BitVec.allOnes 32) (rowOf fun p => match ms[32 * c + p]? with
    | some m => s.memberGet r buf b i m
    | none => rowGet (buf.getD i rowZero) p)) s

/-- The packed lanes of chunk `c` of `n` members. -/
def chunkLanes (n c : Nat) : Lanes := maskOf fun p => decide (32 * c + p < n)

/-- A gathered apply starts (R279). -/
def State.startGather (s : State) (r : Ref) (x : DWord) (ms : List (Nat × Nat)) (ret : Word) (fp : Option Footprint) : Exc State := do
  match fp with
  | none => trapc .setForeign
  | some f => do
    let w := s.warp r
    let (b, n) := (f.base.toNat, f.nin.toNat)
    let others := otherHomes r.index ms
    need w.stack.isEmpty .setNest
    need (decide (b + n ≤ 8 * w.gran) && others.all fun k => decide (b + n ≤ 8 * (s.warpAt r.core r.set k).gran)) .regBound
    waitFor (others.all fun k => !(s.warpAt r.core r.set k).swapDue)
    need (others.all fun k => (s.warpAt r.core r.set k).mayPin) .setBusy
    waitFor (others.all fun k => s.homeQuiet r k b (max n f.nout.toNat))
    waitFor ((List.range n).all fun i => !s.pendingV r (b + i))
    s.soundOwn r b n
    s.soundHomes r ms b n 0
    let buf := (List.range n).map fun i => w.vreg (b + i)
    let e : Entry := { encl := w.cur, ret := ret, gathered := true, chunk := 0, base := b, nin := n, nout := f.nout.toNat, setv := x }
    let s1 := others.foldl (fun t k => t.modWarpAt r.core r.set k fun y => { y with pin := some r.index }) s
    let s2 := s1.pushEntry r e (chunkLanes ms.length 0)
    let s3 := s2.modWarp r fun y => { y with gather := some { members := ms, buf := buf, start := s.nextPc r } }
    pure ((s3.gatherChunk r ms buf b n 0).retire r)

/-- APPLY (R277, R316). -/
def execApply (st : Fin 16) (off : BitVec 20) (fp : Option Footprint) (s : State) : Out :=
  issue s fun s r => do
    let ret := s.labelOf r off.toInt
    need (decide (1 ≤ off.toInt) && targetOk ret) .illegalField
    let m ← s.setOf r st
    let x := (s.warp r).sreg st.val
    let w := s.warp r
    let ms := s.liveOf r m
    let ret32 := BitVec.ofInt 32 ret
    let lanes := s.lanesFor r ms
    let skip := if w.stack.isEmpty then ms.isEmpty else s.carried r ms && decide (lanes &&& w.cur = 0)
    if skip then do
      let t ← s.checkTarget r ret
      pure (s.goto r t)
    else do
      need (!s.foreign r (s.nextPc r)) .priv
      if s.carried r ms then do
        need (decide (w.stack.length < Config.applyDepth)) .setNest
        let e : Entry := { encl := w.cur, ret := ret32, gathered := false, chunk := 0, base := 0, nin := 0, nout := 0, setv := x }
        pure ((s.pushEntry r e (if w.stack.isEmpty then lanes else lanes &&& w.cur)).retire r)
      else s.startGather r x ms ret32 fp

/-! ### AEND and the end of a gathered apply (R277, R279, R281) -/

/-- A pin lifted: a wake that fell due meanwhile takes effect (R268). A home warp whose live set the block has emptied ends here, at once and
with its apply stack as it is: the spec does not say whether the steps of END apply to it (R322; log entry 107, DESIGN CHOICE). -/
def State.liftPin (s : State) (c k w : Nat) : State :=
  let x := s.warpAt c k w
  let s1 := s.modWarpAt c k w fun y => { y with pin := none }
  if x.live = 0 ∧ x.status ≠ .ended then s1.endOne c k w
  else if x.wakeDue then
    let s2 := s1.modWarpAt c k w fun y => { y with wakeDue := false }
    match x.status with
    | .parked _ => s2.modWarpAt c k w fun y => { y with status := .running, parked := 0 }
    | .swapped _ => s2.pushResume c k w
    | _ => s2
  else s1

/-- Every pin of the warp's apply lifted. -/
def State.liftPins (s : State) (r : Ref) : State :=
  ((s.wgOf r).warpIdx.filter fun k => decide ((s.warpAt r.core r.set k).pin = some r.index)).foldl (fun t k => t.liftPin r.core r.set k) s

/-- The lanes of a home warp that a chunk scatters to. -/
def State.scattered (s : State) (r : Ref) (g : Gather) (e : Entry) (k : Nat) : Lanes :=
  maskOf fun j => (lanesOf (s.applied r)).any fun p => decide (g.members[32 * e.chunk + p]? = some (k, j))

/-- The compressed home registers that a scatter expands, counted (R24, R279, R382): those of resident warps. -/
def State.countScatter (s : State) (r : Ref) (g : Gather) (e : Entry) : State :=
  let ks := (otherHomes r.index g.members).filter fun k => !(s.warpAt r.core r.set k).away
  let n := (ks.flatMap fun k => (List.range e.nout).filter fun i => expands (s.scattered r g e k) ((s.warpAt r.core r.set k).vreg (e.base + i))).length
  if n = 0 then s else s.count (s.domOf r) 6 n

/-- The live-out values of a chunk scattered to the members' homes (R279): the buffer, and the state. -/
def State.scatter (s : State) (r : Ref) (g : Gather) (e : Entry) : List Row × State :=
  let ps := (lanesOf (s.applied r)).flatMap fun p => (List.range e.nout).map fun i => (p, i)
  ps.foldl (fun acc q =>
    match g.members[32 * e.chunk + q.1]? with
    | none => acc
    | some m =>
      let v := rowGet ((s.warp r).vreg (e.base + q.2)) q.1
      if m.1 = r.index then (setAt acc.1 q.2 (rowOf fun j => if j = m.2 then v else rowGet (acc.1.getD q.2 rowZero) j), acc.2)
      else (acc.1, acc.2.homePut r.core r.set m.1 (e.base + q.2) m.2 v)) (g.buf, s.countScatter r g e)

/-- The issuing warp's own live-in registers from the buffer. -/
def State.restoreBuf (s : State) (r : Ref) (buf : List Row) (b : Nat) : State :=
  buf.zipIdx.foldl (fun t x => t.mergeV r (b + x.2) (BitVec.allOnes 32) x.1) s

/-- The top entry popped: C takes its enclosing value and its reference is dropped (R272, R277). -/
def State.popEntry (s : State) (r : Ref) (e : Entry) : State :=
  (s.modWarp r fun w => { w with stack := w.stack.drop 1, cur := e.encl }).dropRef r e.setv

/-- A gathered apply ends: the warp's own registers come back, the entry is popped and every pin is lifted (R279, R281). -/
def State.endGather (s : State) (r : Ref) (buf : List Row) (e : Entry) : State :=
  let s1 := (s.restoreBuf r buf e.base).popEntry r e
  (s1.modWarp r fun w => { w with gather := none }).liftPins r

/-- The end of a gathered block's chunk: the next chunk, or the end of the apply (R279). The issuing warp ends with it when
its own live set has become empty (R287). -/
def State.endChunk (s : State) (r : Ref) (g : Gather) (e : Entry) : Exc State := do
  waitFor ((List.range (max e.nin e.nout)).all fun i => !s.pendingV r (e.base + i))
  waitFor ((otherHomes r.index g.members).all fun k => s.homeQuiet r k e.base (max e.nin e.nout))
  s.soundRun r e.base e.nout
  let (buf, s1) := s.scatter r g e
  let c := e.chunk + 1
  if 32 * c < g.members.length then do
    s.soundHomes r g.members e.base e.nin c
    let s2 := s1.modWarp r fun w => { w with
      stack := { e with chunk := c } :: w.stack.drop 1
      cur := chunkLanes g.members.length c
      gather := some { g with buf := buf } }
    pure ((s2.gatherChunk r g.members buf e.base e.nin c).goto r g.start)
  else do
    let t ← s.checkTarget r e.ret.toNat
    let s2 := (s1.endGather r buf e).goto r t
    if (s2.warp r).live = 0 then s2.finishWarp r else pure s2

/-- AEND (R277, R358). -/
def execAend (s : State) : Out :=
  issue s fun s r => do
    let w := s.warp r
    need (!(w.active && decide (w.stack.length = w.tbase))) .setNest
    s.soundStack r
    match w.stack, w.gather with
    | [], _ => trapc .illegalOp
    | e :: _, some g =>
      if e.gathered then s.endChunk r g e
      else do
        let t ← s.checkTarget r e.ret.toNat
        pure ((s.popEntry r e).goto r t)
    | e :: _, none => do
      let t ← s.checkTarget r e.ret.toNat
      pure ((s.popEntry r e).goto r t)

/-- A gathered apply abandoned: the values already scattered stand, the chunk's are lost, and every entry from the gathered
one up is popped (R281, R359). -/
def State.abandonApply (s : State) (r : Ref) (target : Word → State → State) : State :=
  let w := s.warp r
  match w.gather, w.stack.getLast? with
  | some g, some e =>
    let s1 := (w.stack.dropLast).foldl (fun t x => t.popEntry r x) s
    target e.ret (s1.endGather r g.buf e)
  | _, _ => s

/-! ### GROW and SHRINK (R282, R303, R323) -/

/-- The queue sets of the workgroups on a core. -/
def Core.resident (c : Core) : List Nat := (c.wgs.filter fun g => decide (g.1 < Config.queueSets) && g.2.present).map Prod.fst

/-- Granules that a workgroup's warps hold on the core (R266, R268). -/
def Workgroup.granulesHeld (g : Workgroup) : Nat := (g.warps.map fun w => if w.2.exists_ && !w.2.away then w.2.gran else 0).sum

/-- Granules free on a core; registers kept for inheritance hold theirs (R283). -/
def Core.freeGranules (c : Core) : Nat :=
  Config.granules - (c.resident.map fun k => (Tab.get Workgroup.init c.wgs k).granulesHeld).sum - (c.keptRegs.map fun x => x.warps * (x.inhn / 8)).sum

/-- The Growing warps of a core: age, queue set and warp index. -/
def Core.growers (c : Core) : List (Nat × Nat × Nat) :=
  c.resident.flatMap fun k =>
    let g := Tab.get Workgroup.init c.wgs k
    (g.warps.filter fun w => match w.2.status with
      | .growing _ => true
      | _ => false).map fun w => (g.seq, w.1, k)

/-- Older: a lower sequence number, then a lower warp index (R262). -/
def older (a b : Nat × Nat × Nat) : Bool := decide (a.1 < b.1) || (decide (a.1 = b.1) && decide (a.2.1 < b.2.1))

/-- The lane registers below a number kept, with their error marks. -/
def Warp.below (w : Warp) (top : Nat) : Warp :=
  { w with v := w.v.filter fun r => decide (r.1 < top), bad := w.bad.filter fun b => match b with
    | .v n _ => decide (n < top)
    | _ => true }

/-- Granules added at the top; their registers read 0 (R282). -/
def Warp.grown (w : Warp) (n : Nat) : Warp := { w.below (8 * w.gran) with gran := w.gran + n }

/-- Register granules assigned to a warp, `n` of them from its `lo`-th on: they carry the tag of their owner, with an epoch of the
core's counter (R333). What they held reads zero from that instant on (R264, R333). -/
def Core.tagRegs (c : Core) (k w lo n dom epoch : Nat) : Core :=
  { c with regTags := (List.range n).foldl (fun t i => Tab.set (0, 0) t (24 * (16 * k + w) + lo + i) (dom, epoch)) c.regTags }

/-- The granules that a GROW gains, with a new epoch (R282, R333). -/
def State.growTags (s : State) (c k w n : Nat) : State :=
  s.modCore c fun co => { co with epochs := nextEpoch co.epochs }.tagRegs k w (s.warpAt c k w).gran n (s.wg c k).dom (nextEpoch co.epochs)

/-- GROW (R282, R303). -/
def execGrow (n : BitVec 8) (s : State) : Out :=
  issue s fun s r => do
    need (!s.foreign r (s.nextPc r)) .priv
    let w := s.warp r
    need (!w.inGathered) .setNest
    need (decide (w.gran + n.toNat ≤ 24)) .regBound
    let me := ((s.wgOf r).seq, r.index, r.set)
    let co := s.core r.core
    if decide (n.toNat ≤ co.freeGranules) && !(co.growers.any fun x => older x me) then
      pure (((s.growTags r.core r.set r.index n.toNat).modWarp r fun x => x.grown n.toNat).retire r)
    else pure { s.modWarp r fun x => { x with status := .growing n.toNat, boost := 0, passed := 0, pfx := none } with last := .held }

/-- SHRINK (R282, R323). -/
def execShrink (n : BitVec 8) (s : State) : Out :=
  issueSeq s fun s r => do
    let w := s.warp r
    need (!w.inGathered) .setNest
    need (decide (n.toNat + 1 ≤ w.gran)) .regBound
    let top := 8 * (w.gran - n.toNat)
    waitFor ((List.range (8 * n.toNat)).all fun i => !s.pendingV r (top + i))
    pure (s.modWarp r fun x => { x.below top with gran := x.gran - n.toNat })

end Sys2Proof.Machine
end

