-- ==== Sys2Proof/Machine/Alu.lean ====
section
/-! DEFINITION. The integer functions of one lane or of the warp (R117, R118, R133 to R136). -/

namespace Sys2Proof.Machine

/-- MULHI: bits 63:32 of the signed product (R117). -/
def iMulhi (a b : Word) : Word := (BitVec.ofInt 64 (a.toInt * b.toInt)).extractLsb' 32 32
/-- MULHN: bits 63:32 of the unsigned product (R117). -/
def iMulhn (a b : Word) : Word := BitVec.ofNat 32 (a.toNat * b.toNat / 2 ^ 32)
/-- The smaller signed value (R117). -/
def iMin (a b : Word) : Word := if b.toInt < a.toInt then b else a
/-- The larger signed value (R117). -/
def iMax (a b : Word) : Word := if a.toInt < b.toInt then b else a
/-- The smaller unsigned value (R117). -/
def iMinn (a b : Word) : Word := if b.toNat < a.toNat then b else a
/-- The larger unsigned value (R117). -/
def iMaxn (a b : Word) : Word := if a.toNat < b.toNat then b else a
/-- ABS (R117). -/
def iAbs (a : Word) : Word := if a.toInt < 0 then -a else a
/-- SHL: 0 from a count of 32 on (R117). -/
def iShl (a b : Word) : Word := if 32 ≤ b.toNat then 0 else a <<< b.toNat
/-- SHR: 0 from a count of 32 on (R117). -/
def iShr (a b : Word) : Word := a >>> b.toNat
/-- SAR: the sign in every bit from a count of 32 on (R117). -/
def iSar (a b : Word) : Word := a.sshiftRight b.toNat
/-- ROTL: the count modulo 32 (R117). -/
def iRotl (a b : Word) : Word := a <<< (b.toNat % 32) ||| a >>> (32 - b.toNat % 32)
/-- CLZ (R117). -/
def iClz (a : Word) : Word := BitVec.ofNat 32 (if a = 0 then 32 else 31 - a.toNat.log2)
/-- POPC (R117). -/
def iPopc (a : Word) : Word := BitVec.ofNat 32 ((List.range 32).filter fun i => a.getLsbD i).length
/-- BREV: bit `i` to bit `31 - i` (R117). -/
def iBrev (a : Word) : Word := BitVec.ofNat 32 ((List.range 32).foldl (fun acc i => acc + if a.getLsbD i then 2 ^ (31 - i) else 0) 0)
/-- The position field of BFX and BFI (R117). -/
def bfPos (b : Word) : Nat := b.toNat % 32
/-- The mask of BFX and BFI: its length is B[13:8], at most 32 (R117). -/
def bfMask (b : Word) : Word := BitVec.ofNat 32 (2 ^ min (b.toNat / 256 % 64) 32 - 1)
/-- BFX (R117). -/
def iBfx (a b : Word) : Word := a >>> bfPos b &&& bfMask b
/-- BFI (R117). -/
def iBfi (a b d : Word) : Word := (d &&& ~~~(bfMask b <<< bfPos b)) ||| ((a &&& bfMask b) <<< bfPos b)
/-- MOVHI: the upper half replaced (R119). -/
def iMovhi (d : Word) (i16 : BitVec 16) : Word := i16 ++ d.extractLsb' 0 16

/-- Byte `k` of a word. -/
def byteAt (a : Word) (k : Nat) : Nat := a.toNat / 256 ^ k % 256

/-- BCMP (R133). -/
def bcmpW (a b : Word) : Word :=
  match (List.range 4).find? fun k => decide (byteAt a k ≠ byteAt b k) with
  | none => 0
  | some k => if byteAt b k < byteAt a k then BitVec.ofNat 32 (k + 1) else -(BitVec.ofNat 32 (k + 1))

/-- BZERO (R134). -/
def bzeroW (a : Word) : Word := BitVec.ofNat 32 (((List.range 4).find? fun k => decide (byteAt a k = 0)).getD 4)

/-- One bit of the reflected Castagnoli remainder (R135). -/
def crcBit (c : Word) : Word := if c.getLsbD 0 then c >>> 1 ^^^ 0x82F63B78#32 else c >>> 1

/-- CRC32C over the four bytes of `b` (R135). -/
def crcW (a b : Word) : Word :=
  (List.range 4).foldl (fun c i => (List.range 8).foldl (fun x _ => crcBit x) (c ^^^ BitVec.ofNat 32 (byteAt b i))) a

/-- HMIX (R136). -/
def hmixW (a b : Word) : Word :=
  let x := iRotl (a + b * 0x85EBCA77#32) 13 * 0x9E3779B1#32
  x ^^^ x >>> 16

end Sys2Proof.Machine
end

