-- ==== Sys2Proof/Machine/Atomics.lean ====
section
/-! DEFINITION. Atomics: the groups of one instruction, the atomic service warps that serve them, and the deterministic
sums that stay with the workgroup (R46, R108, R168, R228 to R231, R365). -/

namespace Sys2Proof.Machine

/-- The new value of an atomic of `n` bytes on an old value and one lane's operands (R46, R229). -/
def atomNew (op : AtomOp) (n : Nat) (old x y : Nat) : Nat :=
  let w := 2 ^ (8 * n)
  match op with
  | .add => (old + x) % w
  | .and => Nat.land old x
  | .or => Nat.lor old x
  | .xor => Nat.xor old x
  | .min => if signed (8 * n) x < signed (8 * n) old then x else old
  | .max => if signed (8 * n) old < signed (8 * n) x then x else old
  | .minn => min old x
  | .maxn => max old x
  | .xchg => x
  | .cas => if old = x then y else old
  | .incw => if x ≤ old then 0 else old + 1
  | .decw => if old = 0 ∨ x < old then x else old - 1
  | .fadd => (fadd .rne (BitVec.ofNat 32 old) (BitVec.ofNat 32 x)).toNat
  | .fmin => (fmin (BitVec.ofNat 32 old) (BitVec.ofNat 32 x)).toNat
  | .fmax => (fmax (BitVec.ofNat 32 old) (BitVec.ofNat 32 x)).toNat

/-- The operations whose serialisation the order log records (R46). -/
def atomOrdered (op : AtomOp) : Bool :=
  match op with
  | .xchg | .cas | .incw | .decw | .fadd => true
  | _ => false

/-- The quad whose atomic service warp performs an atomic on a byte (R230). -/
def mittenOf (pa : Nat) : Nat := if paSpace pa = 2 then pa / 2 ^ 24 % 4096 else quadOf (paVaultOf pa)

/-- The location of a lane's access: the address of its first byte. -/
def LaneAcc.loc (l : LaneAcc) : Nat := (l.refs.head?.map (·.pa)).getD 0

/-- The groups of an atomic: the lanes of one location, in order of their first lane (R229). -/
def atomGroups (ls : List LaneAcc) : List (List LaneAcc) :=
  (distinct (ls.map LaneAcc.loc)).map fun p => ls.filter fun l => decide (l.loc = p)

/-- Room in the queues of the atomic service warps an atomic goes to (R230). -/
def State.mittenRoom (s : State) (gs : List (List LaneAcc)) : Bool :=
  let qs := gs.filterMap fun g => (g.head?).map fun l => mittenOf l.loc
  (distinct qs).all fun q => decide ((s.quad q).mitten.length + (qs.filter fun x => decide (x = q)).length ≤ Config.mittenQueue)

/-- A request put into the queue of its atomic service warp, under the warp's next request number (R230, R365). -/
def State.sendAtom (s : State) (r : Ref) (op : AtomOp) (n seqNo : Nat) (vals : Nat → Nat × Nat) (g : List LaneAcc) : State :=
  match g with
  | [] => s
  | l :: _ =>
    let w := s.warp r
    let wg := s.wgOf r
    let q : MReq :=
      { ref := r
        slot := w.slot.getD 0
        req := w.requests
        seqNo := seqNo
        op := op
        size := n
        refs := l.refs
        served := []
        lanes := g.map fun x => (x.lane, BitVec.ofNat 64 (vals x.lane).1, BitVec.ofNat 64 (vals x.lane).2)
        launch := wg.launch
        index := wg.index
        dom := wg.dom
        log := wg.log }
    (s.modQuad (mittenOf l.loc) fun x => { x with mitten := x.mitten ++ [q] }).modWarp r fun x => { x with requests := x.requests + 1 }

/-! ### Deterministic sums (R108, R168, R231) -/

/-- The number under which a lane's target stands in the partial table: its virtual address, which the domain's tables may move before its
epoch closes, or the place of a quad SRAM byte, which each workgroup finds at addresses of its own (R168, R351). -/
def LaneAcc.target (l : LaneAcc) : Nat := if bitsOf l.addr.toNat 55 53 = 2 then 2 ^ 60 + l.loc else l.addr.toNat

/-- The pairs of warp and address that an atomic would add to the partial table (R168). -/
def newPartials (g : Workgroup) (k : Nat) (ls : List LaneAcc) : List Nat :=
  (distinct (ls.map LaneAcc.target)).filter fun p => !(g.partials.any fun e => decide (e.addr = p) && decide (e.warp = k))

/-- One lane's term added to the warp's private partial: the partial before it, and the table (R108, R231). A term that begins a partial
gives it the canonical NaN where it is a NaN (R92). -/
def addPartial (ps : List Partial) (k : Nat) (l : LaneAcc) (b : BRef) (x : Word) : Word × List Partial :=
  match ps.find? fun e => decide (e.addr = l.target) && decide (e.warp = k) with
  | some e => (e.val, ps.map fun y => if y = e then { e with val := fadd .rne e.val x } else y)
  | none => (0x80000000, ps ++ [{ addr := l.target, va := l.addr.toNat, ref := b, warp := k, val := if isNan x then 0x7FC00000 else x }])

/-- The lanes' terms added in ascending order, with what each receives. -/
def addPartials (k : Nat) (vals : Nat → Nat) : List LaneAcc → List Partial → List (Nat × Nat) × List Partial
  | [], ps => ([], ps)
  | l :: ls, ps =>
    match l.refs with
    | [] => addPartials k vals ls ps
    | b :: _ =>
      let (old, ps1) := addPartial ps k l b (BitVec.ofNat 32 (vals l.lane))
      let (rest, ps2) := addPartials k vals ls ps1
      ((l.lane, old.toNat) :: rest, ps2)

/-- ATOM.fadd of a deterministic launch: it performs no access at its target (R231), and leaves its counter behind the older operations of
the class (R205, R228). -/
def State.atomPartial (s : State) (r : Ref) (md : Mods) (d : Reg) (ls : List LaneAcc) (vals : Nat → Nat) : Exc State := do
  let g := s.wgOf r
  need (decide (g.partials.length + (newPartials g r.index ls).length ≤ Config.partialTable)) .dTable
  waitFor (!md.order.isRel || s.quiet r)
  waitFor (!md.order.isRel || decide (md.scope = .core) || !s.dirtyHeld r.core g.dom)
  let s0 := if md.order.isRel && decide (md.scope ≠ .core) then s.writeBackAll r.core g.dom else s
  let (olds, ps) := addPartials r.index vals ls g.partials
  let s1 := s0.modWgOf r fun w => { w with partials := ps }
  let s2 := if md.order.isAcq && decide (md.scope ≠ .core) then s1.discardClean r.core else s1
  if md.noret then pure (s2.passThrough r .st)
  else do
    let s3 ← s2.putRun r d (s.applied r) (rowsOf 1 fun j => laneVal olds 0 j)
    pure (s3.passThrough r .ld)

/-- ATOM (R228 to R231). -/
def execAtom (op : AtomOp) (d a : Reg) (m : Option Mods) (s : State) : Out :=
  issueSeq s fun s r => do
    let md := modsOf m
    let k := op.regs md.size
    let n := md.size.bytes
    s.bounds r [(d, k), (a, 2)]
    if s.applied r = 0 then pure s
    else do
      let addr ← s.addrRow r a 0
      let rows ← s.runRows r d k
      s.room r (if md.noret then .st else .ld)
      let opnd (j : Nat) : Nat × Nat := (runVal rows j % 2 ^ (8 * n), runVal rows j / 2 ^ (8 * n))
      let mk (ls : List LaneAcc) : Flight := s.flight r .atom md (s.applied r) (if md.noret then .none else .lanes d md.size.regs) ls
      let sums := decide (op = .fadd) && (s.wgOf r).det
      let ls ← s.laneAccs r .atomic (s.applied r) addr n (fun _ => []) (fun l => !sums && s.loses r.core (mk []) l)
      let s0 := s.touchAccs r true ls
      if sums then s0.atomPartial r md d ls (fun j => (opnd j).1)
      else do
        let gs := atomGroups ls
        waitFor (s.mittenRoom gs)
        s.readable (mk ls)
        let f := { mk ls with left := gs.length }
        let s1 := ((s0.enter r (if md.noret then .st else .ld)).fly f)
        pure (gs.foldl (fun t g => t.sendAtom r op n s.nextIssue opnd g) s1)

/-! ### The atomic service warp -/

/-- The lanes of a group performed in ascending order: what each returns, and the final value (R229). -/
def serveLanes (op : AtomOp) (n : Nat) (mem : Nat) : List (Nat × DWord × DWord) → List (Nat × DWord) × Nat
  | [] => ([], mem)
  | (j, x, y) :: rest =>
    let (vs, fin) := serveLanes op n (atomNew op n mem x.toNat y.toNat) rest
    ((j, BitVec.ofNat 64 mem) :: vs, fin)

/-- The flight of a request. -/
def State.flightOf (s : State) (q : MReq) : Option Flight :=
  (s.core q.ref.core).flights.find? fun f => decide (f.ref = q.ref) && decide (f.seqNo = q.seqNo)

/-- The log entry of a request at its atomic service warp (R370). -/
def MReq.entry (q : MReq) (quad : Nat) : List Byte := wickEntry 1 q.ref.index quad q.launch q.index.toNat q.req

/-- A request may be served: its access may be performed, and the log does not hold it back (R230, R371). -/
def State.atomReady (s : State) (quad : Nat) (q : MReq) : Bool :=
  match s.flightOf q with
  | none => true
  | some f => s.flightReady q.ref.core f &&
      (!atomOrdered q.op || s.wickMay q.dom q.log [1, quad] (fun i => decide (s.wickByte q.dom i 0 = 1) && decide (s.wickField q.dom i 2 2 = quad)) (q.entry quad))

/-- What is left of a request performed, and its results recorded (R229, R365). -/
def State.serveAtom (s : State) (quad : Nat) (q : MReq) : State :=
  let s0 := match s.flightOf q with
    | some f => s.before q.ref.core f
    | none => s
  let old := ofLe (q.refs.map s0.readRef)
  let (vals, fin) := serveLanes q.op q.size old q.lanes
  let s1 := s0.writeRefs q.refs (leBytes q.size fin)
  let vals := q.served ++ vals
  let s2 := s1.modQuad quad fun x => { x with mitten := x.mitten.filter (fun y => decide (y ≠ q)), results := x.results ++ [{ ref := q.ref, slot := q.slot, req := q.req, seqNo := q.seqNo, vals := vals }] }
  let s3 := if atomOrdered q.op then s2.wickNote q.dom q.log [1, quad] (fun i => decide (s2.wickByte q.dom i 0 = 1) && decide (s2.wickField q.dom i 2 2 = quad)) (q.entry quad) else s2
  match s3.flightOf q with
  | none => s3
  | some f =>
    let f1 := { f with left := f.left - 1, vals := vals.foldl (fun t v => Tab.set 0 t v.1 v.2) f.vals }
    if f.noret && decide (f1.left = 0) then
      let s4 := ((s3.land f).after q.ref.core f).leave f.ref .st f.seqNo
      s4.modQuad quad fun x => { x with results := x.results.filter fun y => !(decide (y.ref = q.ref) && decide (y.seqNo = q.seqNo)) }
    else s3.setFlight f f1

/-- The first lane left of a request performed by itself: other accesses may be performed between the lanes, but no other atomic of the
Mitten (R195, R229). -/
def State.serveLane (s : State) (quad : Nat) (q : MReq) : State :=
  match q.lanes with
  | x :: y :: rest =>
    let s0 := match s.flightOf q with
      | some f => s.before q.ref.core f
      | none => s
    let (vals, fin) := serveLanes q.op q.size (ofLe (q.refs.map s0.readRef)) [x]
    (s0.writeRefs q.refs (leBytes q.size fin)).modQuad quad fun u => { u with
      mitten := u.mitten.map fun z => if z = q then { q with lanes := y :: rest, served := q.served ++ vals } else z }
  | _ => s.serveAtom quad q

/-- The request that a Mitten performs next: one that it has begun, else the first that may be served (R229, R230). -/
def State.nextServed (s : State) (quad : Nat) : Option MReq :=
  match (s.quad quad).mitten.find? fun q => decide (q.served ≠ []) with
  | some q => if s.atomReady quad q then some q else none
  | none => (s.quad quad).mitten.find? fun q => s.atomReady quad q

/-- An atomic of which a location was lost before it was served: its other requests go with it, and it traps (R366). -/
def State.loseAtom (s : State) (f : Flight) (q : MReq) : State :=
  let s1 : State := { s with quads := s.quads.map fun x => (x.1, { x.2 with mitten := x.2.mitten.filter fun y => !(decide (y.ref = f.ref) && decide (y.seqNo = f.seqNo)) }) }
  s1.loseFlight f ((f.lanes.filter fun l => q.lanes.any fun x => decide (x.1 = l.lane)).map fun l =>
    { lane := l.lane, cause := .dataLost, addr := l.addr, addr2 := none, aux := 0 })

/-- MITTEN_SERVE: the Mitten of a quad performs its next request, the whole of it, or its next lane alone under the quad's number and 64
(R229, R230, R366). -/
def execMittenServe (quad : Nat) (s : State) : Out :=
  let m := quad % Config.quads
  let serve (q : MReq) : State := if quad < Config.quads then s.serveAtom m q else s.serveLane m q
  match s.nextServed m with
  | some q =>
    match s.flightOf q with
    | some f => .next (if q.refs.any s.badAt then s.loseAtom f q else serve q)
    | none => .next (serve q)
  | none => .next s

/-- ATOMIC_REQUEST_REPEAT: a request repeated after a lost reply has a result record, so it is answered from it and performs
nothing; the replay is counted (R364, R365, R382). -/
def execAtomicRequestRepeat (quad idx : Nat) (s : State) : Out :=
  match (s.quad quad).results[idx]? with
  | some x => .next (s.count (s.domOf x.ref) 12 1)
  | none => .next s

end Sys2Proof.Machine
end

