-- ==== Sys2Proof/Machine/Chains.lean ====
section
/-! DEFINITION. Vector chains: the descriptor, the formula of one element, and the engine that runs them (R109, R165 to R167). -/

namespace Sys2Proof.Machine

/-- The element size of a chain format (R42). -/
def chainSize (id : Nat) : Nat :=
  match id with
  | 2 | 8 => 4
  | 9 | 10 => 2
  | _ => 1

/-- A legal input format of a chain (R165). -/
def chainIn (id : Nat) : Bool := [0, 2, 4, 8, 9, 10, 11, 12].contains id

/-- A legal output format of a chain. -/
def chainOut (id : Nat) : Bool := [8, 9, 10, 11, 12].contains id

/-- Codes of one operand (R166). -/
def chainUnary (code : Nat) : Bool := [7, 8, 9, 10, 11, 12, 13, 14].contains code

/-- The fields of a chain descriptor. -/
def chainDesc (bs : List Byte) : ChainDesc :=
  { in0 := BitVec.ofNat 64 (field bs 0 8)
    in1 := BitVec.ofNat 64 (field bs 8 8)
    dst := BitVec.ofNat 64 (field bs 16 8)
    bar := BitVec.ofNat 64 (field bs 24 8)
    n := field bs 32 4
    fmt0 := field bs 36 1
    fmt1 := field bs 37 1
    ofmt := field bs 38 1
    ops := (List.range (min (field bs 39 1) 8)).map fun i => (field bs (64 + 8 * i) 1, field bs (65 + 8 * i) 1, BitVec.ofNat 32 (field bs (68 + 8 * i) 4)) }

/-- An operation entry is legal (R166). -/
def chainOpOk (bs : List Byte) (i : Nat) : Bool :=
  let code := field bs (64 + 8 * i) 1
  let opnd := field bs (65 + 8 * i) 1
  decide (1 ≤ code) && decide (code ≤ 15) && decide (opnd ≤ 2) && decide (field bs (66 + 8 * i) 2 = 0) &&
    (!chainUnary code || (decide (opnd = 0) && decide (field bs (68 + 8 * i) 4 = 0)))

/-- The range of a contiguous stream. -/
def streamRange (a : DWord) (n size : Nat) : Int × Int := (((a.toNat % 2 ^ 56 : Nat) : Int), ((a.toNat % 2 ^ 56 : Nat) : Int) + (n * size : Nat))

/-- The output meets an input other than as exactly that input (R165). -/
def ChainDesc.clash (d : ChainDesc) (a : DWord) (fmt : Nat) : Bool :=
  !(decide (a = d.dst) && decide (chainSize fmt = chainSize d.ofmt)) &&
    rangesCross (streamRange d.dst d.n (chainSize d.ofmt)) (streamRange a d.n (chainSize fmt))

/-- The output lies in quad SRAM and passes the allocation (R180). -/
def State.chainPasses (s : State) (r : Ref) (d : ChainDesc) : Bool :=
  inWindow d.dst && decide ((s.wgOf r).qsram < winOff d.dst + d.n * chainSize d.ofmt)

/-- The checks of VCHAIN, in their order (R145, R165, R166). The barrier object and a quad SRAM output are resolved at issue (R180; log entry
84, DEDUCED). That `in1` stands where an operation reads it relates two rows and is checked in the first one's place (log entry 81, DESIGN
CHOICE). -/
def State.chainChecks (s : State) (r : Ref) (bs : List Byte) : Exc Unit := do
  let d := chainDesc bs
  let nops := field bs 39 1
  let reads1 := d.ops.any fun o => decide (o.2.1 = 1)
  need (!chainIn d.fmt0 || decide (d.in0.toNat % chainSize d.fmt0 = 0)) .misalign
  need (decide (d.in1 ≠ 0) == reads1) .illegalField
  need (!chainOut d.ofmt || decide (d.dst.toNat % chainSize d.ofmt = 0)) .misalign
  s.barAddr r d.bar
  need (decide (d.n ≠ 0)) .illegalField
  need (chainIn d.fmt0) .illegalField
  need (if d.in1 = 0 then decide (d.fmt1 = 0) else chainIn d.fmt1) .illegalField
  need (chainOut d.ofmt) .illegalField
  need (decide (1 ≤ nops) && decide (nops ≤ 8)) .illegalField
  need (decide (field bs 40 24 = 0)) .illegalField
  need ((List.range 8).all fun i => if i < nops then chainOpOk bs i else decide (field bs (64 + 8 * i) 8 = 0)) .illegalField
  need (!d.clash d.in0 d.fmt0 && (decide (d.in1 = 0) || !d.clash d.in1 d.fmt1)) .illegalField
  need (!s.chainPasses r d) .qsramBound

/-- VCHAIN (R165). -/
def execVchain (a : Fin 48) (sc : Option Scope) (s : State) : Out :=
  issueSeq s fun s r => do
    let addr ← s.gpair r a
    s.room r .cp
    let (bs, s1) ← s.readStruct r addr 128 64
    s.chainChecks r bs
    pure (s1.handCp r (.chain (chainDesc bs)) sc)

/-! ### One element (R109, R166) -/

/-- An input element as a binary32 word. -/
def chainLoad (fmt x : Nat) : Word :=
  match fmtOf fmt with
  | some t => toF32 .rne (t.decode x)
  | none => toF32 .rne (fvInt (intOf fmt x))

/-- An output element. -/
def chainStore (fmt : Nat) (y : Word) : Nat :=
  match fmtOf fmt with
  | some t => t.round .rne (f32v y)
  | none => 0

/-- One operation of a chain. -/
def chainOp (code : Nat) (y o : Word) : Word :=
  match code with
  | 1 => fadd .rne y o
  | 2 => fsub .rne y o
  | 3 => fsub .rne o y
  | 4 => fmul .rne y o
  | 5 => fmin y o
  | 6 => fmax y o
  | 7 => fabs y
  | 8 => fneg y
  | 9 => frcp y
  | 10 => frsq y
  | 11 => fsqrt .rne y
  | 12 => fexp2 y
  | 13 => flog2 y
  | 14 => ftanh y
  | _ => fdiv .rne y o

/-- The output element for two input elements. -/
def ChainDesc.element (d : ChainDesc) (x0 x1 : Nat) : Nat :=
  let a := chainLoad d.fmt0 x0
  let b := chainLoad d.fmt1 x1
  chainStore d.ofmt (d.ops.foldl (fun y o => chainOp o.1 y (match o.2.1 with
    | 0 => o.2.2
    | 1 => b
    | _ => a)) a)

/-! ### Running a chain (R167) -/

/-- The output bytes of a chain that lie in one 128-byte block with an address: the granule of a landing there (R190, R244). -/
def ChainDesc.granule (d : ChainDesc) (out : Nat) : List Nat :=
  ((List.range 128).map fun t => out / 128 * 128 + t).filter fun va => decide ((va + 2 ^ 56 - d.dst.toNat % 2 ^ 56) % 2 ^ 56 < d.n * chainSize d.ofmt)

/-- A byte of the granule that an output address lies in is tagged, so that none of it is written (R190). -/
def State.chainTagged (s : State) (a : Actor) (d : ChainDesc) (out : Nat) : Bool :=
  decide (bitsOf out 55 53 = 2) && (d.granule out).any fun va =>
    match resolve s .engineWrite a (BitVec.ofNat 64 va) 1 1 with
    | .error (c, _) => decide (c = .barrierClobber)
    | .ok _ => false

/-- Element `i` read, computed and written, or its fault. The elements of `in1` are read byte by byte wherever they lie: R165 asks for no
alignment of in1, and whether one that is not aligned meets MISALIGN as its stream runs it does not say (log entry 100, DESIGN CHOICE). -/
def State.chainElement (s : State) (a : Actor) (d : ChainDesc) (i : Nat) : Except OpFault State :=
  let va0 := addVa d.in0 ((i * chainSize d.fmt0 : Nat) : Int)
  let va1 := addVa d.in1 ((i * chainSize d.fmt1 : Nat) : Int)
  let out := addVa d.dst ((i * chainSize d.ofmt : Nat) : Int)
  match s.engineNum a va0 (chainSize d.fmt0) with
  | .error f => .error f
  | .ok (x0, s1) =>
    match (if d.in1 = 0 then .ok (0, s1) else s1.engineNum a va1 (chainSize d.fmt1)) with
    | .error f => .error f
    | .ok (x1, s2) =>
      match resolve s2 .engineWrite a (BitVec.ofNat 64 out) (chainSize d.ofmt) 1 with
      | .error (c, _) => .error (opFault c va0 (some (BitVec.ofNat 64 out)))
      | .ok refs =>
        if s2.chainTagged a d out then .error (opFault .barrierClobber va0 (some (BitVec.ofNat 64 out)))
        else .ok ((s2.engineWrite a.core refs (leBytes (chainSize d.ofmt) (d.element x0 x1))).touchAll a true [out])

/-- The elements from `i` on in ascending order: how many are written, and the fault that stops them. -/
def State.chainRun (s : State) (a : Actor) (d : ChainDesc) (i : Nat) : Nat → Nat × Option OpFault × State
  | 0 => (i, none, s)
  | n + 1 =>
    match s.chainElement a d i with
    | .error f => (i, some f, s)
    | .ok s1 => s1.chainRun a d (i + 1) n

/-- The output bytes counted into the chain's barrier, or the fault (R167, R239). -/
def State.chainCount (s : State) (o : CpOp) (d : ChainDesc) : Except OpFault State :=
  if d.bar = 0 then .ok s
  else match s.countBytes o.ref.core o.ref.set (winOff d.bar) (d.n * chainSize d.ofmt) with
    | .error c => .error (opFault c d.bar.toNat none)
    | .ok s1 => .ok s1

/-- Where a chain begins or goes on: an in-place chain at its first input element. -/
def CpOp.chainFrom (o : CpOp) : Nat := if o.kind.inPlace then o.done else 0

/-- A vault that the chain's streams touch is held (R177, R392). -/
def State.chainHeld (s : State) (o : CpOp) (d : ChainDesc) : Bool :=
  let a := engineActor o.ref o.dom
  let one (k : Access) (base : DWord) (fmt i : Nat) : Bool := s.engineHeld a k (addVa base ((i * chainSize fmt : Nat) : Int)) (chainSize fmt)
  (List.range d.n).any fun i =>
    one .engineRead d.in0 d.fmt0 i || (decide (d.in1 ≠ 0) && one .engineRead d.in1 d.fmt1 i) || one .engineWrite d.dst d.ofmt i

/-- A chain may run now. -/
def State.chainMay (s : State) (o : CpOp) (d : ChainDesc) : Bool := o.fault.isNone && !o.complete && !s.chainHeld o d

/-- The whole run of a chain, with its byte count. -/
def State.chainAll (s : State) (o : CpOp) (d : ChainDesc) : Nat × Option OpFault × State :=
  match s.chainRun (engineActor o.ref o.dom) d o.chainFrom (d.n - o.chainFrom) with
  | (i, some f, s1) => (i, some f, s1)
  | (i, none, s1) => match s1.chainCount o d with
    | .error f => (i, some f, s1)
    | .ok s2 => (i, none, s2)

/-- CHAIN_COMPLETE: every element is written and counted, and the chain completes (R167). -/
def execChainComplete (core op : Nat) (s : State) : Out :=
  match s.cpGoing core op with
  | some o => match o.kind with
    | .chain d =>
      if s.chainMay o d then
        match s.chainAll o d with
        | (_, none, s1) => .next (s1.finishCp o)
        | (_, some _, _) => .next s
      else .next s
    | .copy _ => .next s
  | none => .next s

/-- CHAIN_FAULT: a chain stops on a fault of a stream; an in-place chain keeps the elements it wrote (R167). -/
def execChainFault (core op : Nat) (s : State) : Out :=
  match s.cpGoing core op with
  | some o => match o.kind with
    | .chain d =>
      if s.chainMay o d then
        match s.chainAll o d with
        | (_, none, _) => .next s
        | (i, some f, s1) => .next (s1.putCp core { o with fault := some (s1.recordFault o.dom f), done := i })
      else .next s
    | .copy _ => .next s
  | none => .next s

end Sys2Proof.Machine
end

