-- ==== Sys2Proof/Machine/Convert.lean ====
section
/-! DEFINITION. Conversions, the retrieval helpers and register-indirect access (R129 to R137). -/

namespace Sys2Proof.Machine

/-- Registers that a value of a format fills (R129). -/
def fmtRegs (id : Nat) : Nat := if id = 3 ∨ id = 7 then 2 else 1

/-- An L-form instruction that reads an aligned run and writes one, lane by lane (R129 to R131). -/
def laneRun (ka kd : Nat) (f : Mode → List Word → DWord) (d a : Reg) (s : State) : Out :=
  issueSeq s fun s r => do
    s.bounds r [(d, kd), (a, ka)]
    let rows ← s.runRows r a ka
    let s1 := s.consume r [a]
    s1.putRun r d (s.applied r) (rowsOf kd fun j => (f (s.mode r) (rows.map fun row => rowGet row j)).toNat)

/-- Words of a run as one number, lowest register first. -/
def wordsVal (xs : List Word) : Nat := xs.foldr (fun x acc => x.toNat + 2 ^ 32 * acc) 0

/-- CVT (R129). -/
def execCvt (d a : Reg) (code : BitVec 8) (sat : Option Bool) (s : State) : Out :=
  laneRun (fmtRegs (code.toNat % 16)) (fmtRegs (code.toNat / 16))
    (fun md xs => cvt md (sat.getD false) (code.toNat / 16) (code.toNat % 16) (wordsVal xs)) d a s

/-- XPND (R130). -/
def execXpnd (d a : Reg) (code : BitVec 8) (s : State) : Out :=
  laneRun 1 (if code.toNat < 2 then 2 else 1) (fun _ xs => xpnd code.toNat (xs.getD 0 0)) d a s

/-- PACK (R131). -/
def execPack (d a : Reg) (code : BitVec 8) (sat : Option Bool) (s : State) : Out :=
  laneRun (if code.toNat < 2 then 2 else 4) 1 (fun md xs => (pack md (sat.getD false) code.toNat xs).setWidth 64) d a s

/-- QSCALE: one scale for the members of S, and their element codes (R132). -/
def execQscale (d a : Reg) (code : BitVec 8) (_sat : Option Bool) (s : State) : Out :=
  issueSeq s fun s r => do
    s.bounds r [(d, 2), (a, 1)]
    let row ← s.laneRow r a
    let m := s.applied r
    let x := qscaleX code.toNat ((lanesOf m).map fun j => rowGet row j)
    (s.consume r [a]).putRun r d m
      [rowOf fun j => BitVec.ofNat 32 (qscaleE code.toNat x (rowGet row j)), rowAll (BitVec.ofNat 32 x)]

/-- BCMP (R133). -/
def execBcmp (d a b : Reg) (s : State) : Out := laneTri .int false (fun _ a b _ => bcmpW a b) d a (.reg b) s

/-- BZERO (R134). -/
def execBzero (d a : Reg) (s : State) : Out := laneUn (fun _ a => bzeroW a) d a s

/-- CRC32C (R135). -/
def execCrc32c (d a b : Reg) (s : State) : Out := laneTri .int false (fun _ a b _ => crcW a b) d a (.reg b) s

/-- HMIX (R136). -/
def execHmix (d a b : Reg) (s : State) : Out := laneTri .int false (fun _ a b _ => hmixW a b) d a (.reg b) s

/-- The register number of MOVXR and MOVXW, or REG_BOUND (R137): the uniform register is never read as signed. -/
def State.movxIdx (s : State) (r : Ref) (gx : Fin 48) (i8 : BitVec 8) : Exc (Fin 192) := do
  waitFor (!s.pendingG r gx.val)
  s.sound r (RegSite.isG gx.val)
  let x : Int := (s.greg r gx.val).toNat + i8.toInt
  if h : 0 ≤ x ∧ x < 192 then
    let n : Fin 192 := ⟨x.toNat, by omega⟩
    need ((s.warp r).inAlloc n.val) .regBound
    pure n
  else trapc .regBound

/-- MOVXR (R137); with an empty S its register number is not looked at (R110). -/
def execMovxr (d : Reg) (gx : Fin 48) (i8 : BitVec 8) (s : State) : Out :=
  issueSeq s fun s r => do
    s.bounds r [(d, 1)]
    if s.applied r = 0 then pure s else do
      let n ← s.movxIdx r gx i8
      let row ← s.laneRow r (.v n)
      s.putLanes r d (s.applied r) row

/-- MOVXW: `d` is the source (R137); with an empty S its register number is not looked at (R110). -/
def execMovxw (d : Reg) (gx : Fin 48) (i8 : BitVec 8) (s : State) : Out :=
  issueSeq s fun s r => do
    s.bounds r [(d, 1)]
    if s.applied r = 0 then pure s else do
      let n ← s.movxIdx r gx i8
      let row ← s.laneRow r d
      s.putLanes r (.v n) (s.applied r) row

end Sys2Proof.Machine
end

