-- ==== Sys2Proof/Machine/Fetch.lean ====
section
/-! DEFINITION. Fetching an instruction: the word at the program counter, its prefix word, and what an access slice may
execute (R38, R52, R68, R308, R326). -/

namespace Sys2Proof.Machine

/-- The instructions of an access slice (R68). -/
def sliceMay : Instr → Bool
  | .gadd .. | .gsub .. | .gmul .. | .gand .. | .gor .. | .gxor .. | .gshl .. | .gshr .. | .gsar .. | .gmin .. | .gmax .. => true
  | .gaddi .. | .gmovi .. | .gmovhi .. | .gmov .. | .gslt .. | .gsltn .. | .gseq .. => true
  | .br _ | .brz _ _ | .brnz _ _ | .ald .. | .illegalWord _ | .pfx _ => true
  | _ => false

/-- The step a fetched word with the payload of its prefix word calls for; a word that is no instruction calls for its
trap (R52). -/
def decoded (at' : Nat) (p : Option (BitVec 24)) (w : Word) : Instr :=
  match decodeAt at' p w with
  | .ok i => i
  | .error c => .illegalWord c

/-- A word of instruction memory fails its error check (R366). -/
def State.codeBad (s : State) (r : Ref) (pc : Word) : Bool := (s.core r.core).badWords.contains (pc.toNat / 4)

/-- The instruction a stream executes next: a PFX word by itself first, then the word it modifies (R38). A word that fails its error
check is lost data (R366). -/
def State.fetch (s : State) (r : Ref) : Instr :=
  if s.codeBad r (s.wordPc r) then .illegalWord .dataLost
  else
  let i := decoded (s.wordPc r).toNat (s.pfxOf r) (s.fetchWord r (s.wordPc r))
  if r.isSlice && !sliceMay i then .illegalWord .queueMisuse else i

/-- The instruction that a stream's next word, or its next prefix word and the word behind it, calls for (R38). -/
def State.comingUp (s : State) (r : Ref) : Instr :=
  match s.fetch r with
  | .pfx p => (s.setPfx r (some p)).fetch r
  | i => i

/-- The second word of a pair as it stands in instruction memory; none behind the last word (R40). -/
def State.secondWord (s : State) (r : Ref) : Option Word :=
  if (s.pcOf r).toNat + 4 < Config.imemBytes then some (s.fetchWord r (s.pcOf r + 4)) else none

/-- The trap of an instruction whose own word is lost: its record names the PC (R366). -/
def lostCode {α : Type} (pc : Word) : Exc α :=
  .error (.trap { Trap.of .dataLost with recs := [{ lane := 0, cause := .dataLost, addr := pc.setWidth 64, addr2 := none, aux := 0 }], unif := true })

/-- The meaning of PFX: the pair with the next word is checked as one instruction, then its payload is latched for that
word, which issues with it (R38, R40, R52, R308). -/
def execPfx (payload : BitVec 24) (s : State) : Out :=
  issue s fun s r => do
    need (decide (s.secondWord r ≠ none)) .illegalPfx
    if s.codeBad r (s.pcOf r + 4) then lostCode (s.pcOf r) else pure ()
    need (!s.foreign r (s.pcOf r + 4)) .priv
    match decodeAt ((s.pcOf r).toNat + 4) (some payload) ((s.secondWord r).getD 0) with
    | .error c => trapc c
    | .ok _ => pure { s.setPfx r (some payload) with last := .retired }

/-- The meaning of a word that is no instruction, or that is lost: its trap (R52, R366). -/
def execIllegalWord (c : Cause) (s : State) : Out := issue s fun s r => if c = .dataLost then lostCode (s.pcOf r) else trapc c

end Sys2Proof.Machine
end

