-- ==== Sys2Proof/Machine/Float.lean ====
section
/-! DEFINITION. The L-form binary32 and packed-half instructions (R121 to R128). -/

namespace Sys2Proof.Machine

/-- FADD (R122). -/
def execFadd (d a : Reg) (b : Src) (s : State) : Out :=
  laneTri .fp false (fun md a b _ => fadd md a b) d a b s

/-- FSUB (R122). -/
def execFsub (d a : Reg) (b : Src) (s : State) : Out :=
  laneTri .fp false (fun md a b _ => fsub md a b) d a b s

/-- FMUL (R122). -/
def execFmul (d a : Reg) (b : Src) (s : State) : Out :=
  laneTri .fp false (fun md a b _ => fmul md a b) d a b s

/-- FFMA (R122). -/
def execFfma (d a : Reg) (b : Src) (s : State) : Out :=
  laneTri .fp true (fun md a b d => ffma md a b d) d a b s

/-- FDIV (R122). -/
def execFdiv (d a : Reg) (b : Src) (s : State) : Out :=
  laneTri .fp false (fun md a b _ => fdiv md a b) d a b s

/-- FMIN (R123). -/
def execFmin (d a : Reg) (b : Src) (s : State) : Out :=
  laneTri .fp false (fun _ a b _ => fmin a b) d a b s

/-- FMAX (R123). -/
def execFmax (d a : Reg) (b : Src) (s : State) : Out :=
  laneTri .fp false (fun _ a b _ => fmax a b) d a b s

/-- FABS (R124). -/
def execFabs (d a : Reg) (s : State) : Out := laneUn (fun _ a => fabs a) d a s

/-- FNEG (R124). -/
def execFneg (d a : Reg) (s : State) : Out := laneUn (fun _ a => fneg a) d a s

/-- FRCP (R126). -/
def execFrcp (d a : Reg) (s : State) : Out := laneUn (fun _ a => frcp a) d a s

/-- FRSQ (R126). -/
def execFrsq (d a : Reg) (s : State) : Out := laneUn (fun _ a => frsq a) d a s

/-- FEXP2 (R126). -/
def execFexp2 (d a : Reg) (s : State) : Out := laneUn (fun _ a => fexp2 a) d a s

/-- FLOG2 (R126). -/
def execFlog2 (d a : Reg) (s : State) : Out := laneUn (fun _ a => flog2 a) d a s

/-- FSINP (R126). -/
def execFsinp (d a : Reg) (s : State) : Out := laneUn (fun _ a => fsinp a) d a s

/-- FCOSP (R126). -/
def execFcosp (d a : Reg) (s : State) : Out := laneUn (fun _ a => fcosp a) d a s

/-- FTANH (R126). -/
def execFtanh (d a : Reg) (s : State) : Out := laneUn (fun _ a => ftanh a) d a s

/-- FSQRT (R122). -/
def execFsqrt (d a : Reg) (s : State) : Out := laneUn (fun md a => fsqrt md a) d a s

/-- The rounding mode of FRND: its own, or that of `cr.round` (R44). -/
def frndMode (n : BitVec 8) (md : Mode) : Mode := if n.toNat < 4 then Mode.of (n.extractLsb' 0 2) else md

/-- FRND (R125). -/
def execFrnd (d a : Reg) (n : BitVec 8) (s : State) : Out := laneUn (fun md a => frnd (frndMode n md) a) d a s

/-- HADD2B (R128). -/
def execHadd2b (d a : Reg) (b : Src) (s : State) : Out :=
  laneTri .packed false (fun md a b _ => hadd2 bf16 md a b) d a b s

/-- HMUL2B (R128). -/
def execHmul2b (d a : Reg) (b : Src) (s : State) : Out :=
  laneTri .packed false (fun md a b _ => hmul2 bf16 md a b) d a b s

/-- HFMA2B (R128). -/
def execHfma2b (d a : Reg) (b : Src) (s : State) : Out :=
  laneTri .packed true (fun md a b d => hfma2 bf16 md a b d) d a b s

/-- HADD2H (R128). -/
def execHadd2h (d a : Reg) (b : Src) (s : State) : Out :=
  laneTri .packed false (fun md a b _ => hadd2 f16fmt md a b) d a b s

/-- HMUL2H (R128). -/
def execHmul2h (d a : Reg) (b : Src) (s : State) : Out :=
  laneTri .packed false (fun md a b _ => hmul2 f16fmt md a b) d a b s

/-- HFMA2H (R128). -/
def execHfma2h (d a : Reg) (b : Src) (s : State) : Out :=
  laneTri .packed true (fun md a b d => hfma2 f16fmt md a b d) d a b s

end Sys2Proof.Machine
end

