-- ==== Sys2Proof/Machine/Digest.lean ====
section
/-! DEFINITION. The SHA3-512 digest, the function that R340, R344 and R345 name for the check value of a key slot, a firmware image and
a domain's measurement. The spec names the function and does not print it: it is written from its published standard (log entry 6,
PRESUMED). The round constants and the lane offsets are computed by the standard's own generators. -/

namespace Sys2Proof.Machine

/-- The 64-bit words of the permuted block; the word of column `x` and plane `y` is number `x + 5 y`. -/
abbrev Block := List DWord

/-- The bits drawn in turn from the feedback register behind the round constants, whose low bit is drawn. -/
def drawBits : Nat → Nat → List Bool
  | 0, _ => []
  | n + 1, r => r.testBit 0 :: drawBits n (if 2 * r < 256 then 2 * r else (2 * r) ^^^ 0x171)

/-- A round's constant: its seven bits stand at the places 0, 1, 3, 7, 15, 31 and 63. -/
def constOf (bits : List Bool) : DWord :=
  BitVec.ofNat 64 ((bits.zipIdx.map fun b => if b.1 then 2 ^ (2 ^ b.2 - 1) else 0).sum)

/-- The constants of a number of rounds, from the bits drawn for them. -/
def constsOf : Nat → List Bool → List DWord
  | 0, _ => []
  | n + 1, bits => constOf (bits.take 7) :: constsOf n (bits.drop 7)

/-- The walk over the words other than word 0: from word `p`, turned by the next triangular number, to its place. Each entry gives the
place, the word that comes to it, and its turn. -/
def walk : Nat → Nat → Nat → List (Nat × Nat × Nat)
  | 0, _, _ => []
  | n + 1, t, p =>
    let q := p / 5 + 5 * ((2 * (p % 5) + 3 * (p / 5)) % 5)
    (q, p, (t + 1) * (t + 2) / 2 % 64) :: walk n (t + 1) q

/-- The parity of a column. -/
def parity (b : Block) (x : Nat) : DWord := (List.range 5).foldl (fun s y => s ^^^ b.getD (x % 5 + 5 * y) 0) 0

/-- Every word with the parities of the column before it and, turned by one, of the column behind it added. -/
def spread (b : Block) : Block :=
  let sums := (List.range 5).map fun x => parity b (x + 4) ^^^ (parity b (x + 1)).rotateLeft 1
  b.zipIdx.map fun w => w.1 ^^^ sums.getD (w.2 % 5) 0

/-- The words turned and moved along the walk. -/
def moved (path : List (Nat × Nat × Nat)) (b : Block) : Block :=
  (List.range 25).map fun i => match path.find? fun m => m.1 == i with
    | some m => (b.getD m.2.1 0).rotateLeft m.2.2
    | none => b.getD i 0

/-- Each word with the next two words of its plane folded in. -/
def folded (b : Block) : Block :=
  b.zipIdx.map fun w =>
    let at' (k : Nat) : DWord := b.getD (w.2 / 5 * 5 + (w.2 + k) % 5) 0
    w.1 ^^^ (at' 2 &&& ~~~at' 1)

/-- The permutation: 24 rounds. -/
def permute (b : Block) : Block :=
  let path := walk 24 0 1
  (constsOf 24 (drawBits 168 1)).foldl (fun s k => match folded (moved path (spread s)) with
    | w :: ws => (w ^^^ k) :: ws
    | [] => []) b

/-- A chunk of at most 72 bytes added to the block. -/
def absorb (b : Block) (chunk : List Byte) : Block :=
  permute (b.zipIdx.map fun w => if w.2 < 9 then w.1 ^^^ BitVec.ofNat 64 (field chunk (8 * w.2) 8) else w.1)

/-- The block after a message of at most `72 n + 71` bytes: its last chunk carries the end mark 0x06 behind the message and 0x80 in
its last byte. -/
def absorbAll : Nat → Block → List Byte → Block
  | 0, b, msg => absorb b ((List.range 72).map fun i =>
      (msg ++ [0x06#8]).getD i 0 ^^^ (if i = 71 then 0x80#8 else 0))
  | n + 1, b, msg => absorbAll n (absorb b (msg.take 72)) (msg.drop 72)

/-- The 64 bytes of the SHA3-512 digest of a message. -/
def sha3Of (msg : List Byte) : List Byte :=
  ((absorbAll (msg.length / 72) (List.replicate 25 0) msg).take 8).flatMap fun w => leBytes 8 w.toNat

/-- The digest as a number, its first byte lowest. -/
def digestOf (msg : List Byte) : BitVec 512 := BitVec.ofNat 512 (ofLe (sha3Of msg))

/-- The check value of a key: the first two bytes of its digest (R340). -/
def keyCheck (key : BitVec 512) : BitVec 16 := BitVec.ofNat 16 (field (sha3Of (leBytes 64 key.toNat)) 0 2)

end Sys2Proof.Machine
end

