-- ==== Sys2Proof/Machine/Sets.lean ====
section
/-! DEFINITION. The set instructions, STEST, the cross-lane instructions (R120, R275, R311 to R315, R317, R318). SLD and SST
stand with the memory instructions. -/

namespace Sys2Proof.Machine

/-- A set operation on two set registers, by a test of membership in each (R311). -/
def setBin (p : Bool → Bool → Bool) (sd sa sb : Fin 16) (s : State) : Out :=
  issueSeq s fun s r => do
    let a ← s.setOf r sa
    let b ← s.setOf r sb
    s.writeSet r sd (membersWhere fun k j => p (Members.has a (k, j)) (Members.has b (k, j)))

/-- SUNION (R311). -/
def execSunion (sd sa sb : Fin 16) (s : State) : Out := setBin (fun a b => a || b) sd sa sb s
/-- SINTER (R311). -/
def execSinter (sd sa sb : Fin 16) (s : State) : Out := setBin (fun a b => a && b) sd sa sb s
/-- SDIFF (R311). -/
def execSdiff (sd sa sb : Fin 16) (s : State) : Out := setBin (fun a b => a && !b) sd sa sb s

/-- A value in the canonical form of an inline set (R269). -/
def canonSet (x : DWord) : DWord := if !isWide x && decide (lo32 x = 0) then 0 else x

/-- SMOV: the value itself, with one more reference (R311). -/
def execSmov (sd sa : Fin 16) (s : State) : Out :=
  issueSeq s fun s r => do
    let _ ← s.setOf r sa
    waitFor (!s.pendingS r sd.val)
    pure (s.putSet r sd.val (canonSet ((s.warp r).sreg sa.val)))

/-- SALL (R311). -/
def execSall (sd : Fin 16) (s : State) : Out :=
  issueSeq s fun s r => do
    waitFor (!s.pendingS r sd.val)
    pure (s.putSet r sd.val (inlineSet r.index (BitVec.allOnes 32)))

/-- SNONE (R311). -/
def execSnone (sd : Fin 16) (s : State) : Out :=
  issueSeq s fun s r => do
    waitFor (!s.pendingS r sd.val)
    pure (s.putSet r sd.val 0)

/-- SFIRST (R311). -/
def execSfirst (sd sa : Fin 16) (s : State) : Out :=
  issueSeq s fun s r => do
    let m ← s.setOf r sa
    s.writeSet r sd (match s.liveOf r m with
      | [] => []
      | (k, j) :: _ => [(k, BitVec.ofNat 32 (2 ^ j))])

/-- SFREE: the register becomes 0 and drops its reference (R311). -/
def execSfree (sd : Fin 16) (s : State) : Out :=
  issueSeq s fun s r => do
    waitFor (!s.pendingS r sd.val)
    pure (s.putSet r sd.val 0)

/-- SCOUNT: the number of live members (R312). -/
def execScount (d : Reg) (st : Fin 16) (s : State) : Out :=
  issueSeq s fun s r => do
    let m ← s.setOf r st
    s.putUni r d (BitVec.ofNat 32 (s.liveOf r m).length)

/-- SFROMV: a uniform pair, read as a set, to a set register (R313). -/
def execSfromv (d : Fin 48) (st : Fin 16) (s : State) : Out :=
  issueSeq s fun s r => do
    let x ← s.gpair r d
    let _ ← s.readSet r x
    waitFor (!s.pendingS r st.val)
    pure (s.putSet r st.val (canonSet x))

/-- STOV: the raw value of a set register to a uniform pair (R313). -/
def execStov (d : Fin 48) (st : Fin 16) (s : State) : Out :=
  issueSeq s fun s r => do
    waitFor (!s.pendingS r st.val)
    s.sound r (RegSite.isS st.val)
    waitFor (!s.pendingG r d.val && !s.pendingG r (d.val + 1))
    pure (s.putPair r d.val ((s.warp r).sreg st.val))

/-- SETV: 1 in the lanes whose home position is a member (R120); with S empty nothing is read (R110). -/
def execSetv (d : Reg) (st : Fin 16) (s : State) : Out :=
  issueSeq s fun s r => do
    s.bounds r [(d, 1)]
    let m ← if s.applied r = 0 then pure [] else s.setOf r st
    s.putLanes r d (s.applied r) (rowOf fun j => boolWord (Members.has m (s.homeOf r j)))

/-- STEST: the members of S whose condition holds, and the rest of S (R275, R315). -/
def execStest (c : Cond) (st sf : Fin 16) (a : Reg) (b : Src) (s : State) : Out :=
  issueSeq s fun s r => do
    s.bounds r ((a :: srcRegs b).map fun x => (x, 1))
    let x ← s.laneRow r a
    let y ← s.srcRow r (if condFp c then .fp else .int) b
    let m := s.applied r
    let t := m &&& maskOf fun j => condHolds c (rowGet x j) (rowGet y j)
    waitFor (!s.pendingS r st.val && !s.pendingS r sf.val)
    let s1 := s.consume r (a :: srcRegs b)
    let (xt, s2) ← s1.makeSet r (s.homesOfMask r t)
    let (xf, s3) ← s2.makeSet r (s.homesOfMask r (m &&& ~~~t))
    pure ((s3.putSet r st.val xt).putSet r sf.val xf)

/-! ### Shuffles, reductions and scans (R317, R318) -/

/-- The width a W prefix names, 32 without one (R39). -/
def widthOf (w : Option Width) : Nat :=
  match w with
  | some .w2 => 2
  | some .w4 => 4
  | some .w8 => 8
  | some .w16 => 16
  | _ => 32

/-- A shuffle by a source-lane function; `sel` gives the lane operand of each lane (R317). -/
def shuffle (f : Nat → Nat → Nat) (sel : Nat → Nat) (row : Row) : Row := rowOf fun j => rowGet row (f j (sel j))

/-- The source lane of SHFL (R317). -/
def shflLane (w j x : Nat) : Nat := j / w * w + x % w
/-- The source lane of SHFLUP (R317). -/
def shflupLane (w j n : Nat) : Nat := if n ≤ j % w then j - n else j
/-- The source lane of SHFLDN (R317). -/
def shfldnLane (w j n : Nat) : Nat := if j % w + n < w then j + n else j
/-- The source lane of SHFLX (R317). -/
def shflxLane (w j m : Nat) : Nat := j / w * w + Nat.xor j m % w

/-- The lane that each lane of S reads of a lane register passes its error check (R366). -/
def State.soundFrom (s : State) (r : Ref) (a : Reg) (f : Nat → Nat) : Exc Unit :=
  match a with
  | .v n => s.sound r fun b => b.isV n.val && (lanesOf (s.applied r)).any fun j => decide (f j = b.lane)
  | _ => pure ()

/-- SHFL (R317). -/
def execShfl (d a b : Reg) (w : Option Width) (s : State) : Out :=
  issueSeq s fun s r => do
    s.bounds r [(d, 1), (a, 1), (b, 1)]
    let x ← s.laneRow r a
    let y ← s.laneRow r b
    s.soundFrom r a fun j => shflLane (widthOf w) j (rowGet y j).toNat
    (s.consume r [a, b]).putLanes r d (s.applied r) (shuffle (shflLane (widthOf w)) (fun j => (rowGet y j).toNat) x)

/-- A shuffle with an immediate lane operand (R317). -/
def shuffleImm (f : Nat → Nat → Nat → Nat) (d a : Reg) (n : BitVec 8) (w : Option Width) (s : State) : Out :=
  issueSeq s fun s r => do
    s.bounds r [(d, 1), (a, 1)]
    let x ← s.laneRow r a
    s.soundFrom r a fun j => f (widthOf w) j n.toNat
    (s.consume r [a]).putLanes r d (s.applied r) (shuffle (f (widthOf w)) (fun _ => n.toNat) x)

/-- SHFLUP (R317). -/
def execShflup (d a : Reg) (n : BitVec 8) (w : Option Width) (s : State) : Out := shuffleImm shflupLane d a n w s
/-- SHFLDN (R317). -/
def execShfldn (d a : Reg) (n : BitVec 8) (w : Option Width) (s : State) : Out := shuffleImm shfldnLane d a n w s
/-- SHFLX (R317). -/
def execShflx (d a : Reg) (n : BitVec 8) (w : Option Width) (s : State) : Out := shuffleImm shflxLane d a n w s

/-- One combination of REDUX and SCAN (R45, R107). -/
def redCombine (op : RedOp) (md : Mode) (a b : Word) : Word :=
  match op with
  | .add => a + b
  | .min => iMin a b
  | .max => iMax a b
  | .minn => iMinn a b
  | .maxn => iMaxn a b
  | .and => a &&& b
  | .or => a ||| b
  | .xor => a ^^^ b
  | .fadd => fadd md a b
  | .fmin => fmin a b
  | .fmax => fmax a b

/-- The identity of an operation (R107). -/
def redIdentity : RedOp → Word
  | .and | .minn => 0xFFFFFFFF
  | .min => 0x7FFFFFFF
  | .max => 0x80000000
  | .fadd => 0x80000000
  | .fmin => 0x7F800000
  | .fmax => 0xFF800000
  | _ => 0

/-- An operation works on binary32 values. -/
def redFloat : RedOp → Bool
  | .fadd | .fmin | .fmax => true
  | _ => false

/-- A member's value as an operation takes it: a NaN becomes the canonical one, also where it is the only input (R92). -/
def redInput (op : RedOp) (x : Word) : Word := if redFloat op && isNan x then 0x7FC00000 else x

/-- One level of the pairwise tree (R107). -/
def pairUp (f : Word → Word → Word) : List Word → List Word
  | x :: y :: rest => f x y :: pairUp f rest
  | xs => xs

/-- The pairwise tree over at most 32 values (R107). -/
def treeOf (f : Word → Word → Word) (xs : List Word) : List Word :=
  pairUp f (pairUp f (pairUp f (pairUp f (pairUp f xs))))

/-- The inclusive combinations from the left (R107). -/
def scanFrom (f : Word → Word → Word) (acc : Word) : List Word → List Word
  | [] => [acc]
  | x :: xs => acc :: scanFrom f (f acc x) xs

/-- The inclusive combinations of a list (R107). -/
def scanOf (f : Word → Word → Word) : List Word → List Word
  | [] => []
  | x :: xs => scanFrom f x xs

/-- The position of a lane among the members of a mask. -/
def rankIn (m : Lanes) (j : Nat) : Nat := ((lanesOf m).filter fun i => decide (i < j)).length

/-- REDUX (R318). -/
def execRedux (d a : Reg) (op : RedOp) (s : State) : Out :=
  issueSeq s fun s r => do
    s.bounds r [(d, 1), (a, 1)]
    let row ← s.laneRow r a
    let m := s.applied r
    let x := (treeOf (redCombine op (s.mode r)) ((lanesOf m).map fun j => redInput op (rowGet row j))).getD 0 0
    (s.consume r [a]).putLanes r d m (rowAll x)

/-- SCAN (R318). -/
def execScan (d a : Reg) (op : RedOp) (excl : Bool) (s : State) : Out :=
  issueSeq s fun s r => do
    s.bounds r [(d, 1), (a, 1)]
    let row ← s.laneRow r a
    let m := s.applied r
    let inc := scanOf (redCombine op (s.mode r)) ((lanesOf m).map fun j => redInput op (rowGet row j))
    let out := if excl then redIdentity op :: inc else inc
    (s.consume r [a]).putLanes r d m (rowOf fun j => out.getD (rankIn m j) 0)

end Sys2Proof.Machine
end

