-- ==== Sys2Proof/Machine/Work.lean ====
section
/-! DEFINITION. New work and the end of work: SPAWN, LAUNCH and RFLUSH, the launch sequencers, the continuation queues and
their refill, the ends of workgroups and grids, and reduction epochs (R168 to R170, R260 to R262, R266, R267, R288 to R292, R294,
R319, R320, R390). -/

namespace Sys2Proof.Machine

/-! ### Records (R260, R262) -/

/-- An instruction memory address of a record: a multiple of 4, inside instruction memory. -/
def codeOk (x : Nat) : Bool := decide (x % 4 = 0) && decide (x < Config.imemBytes)

/-- A launch record's fields (R260). -/
def launchRec (bs : List Byte) : LaunchRec :=
  { xcode := BitVec.ofNat 32 (field bs 0 4)
    acode := if field bs 4 4 = 2 ^ 32 - 1 then none else some (BitVec.ofNat 32 (field bs 4 4))
    frame := BitVec.ofNat 64 (field bs 8 8)
    gridm1 := field bs 16 4
    warps := field bs 20 1
    gran := field bs 21 1
    inhlo := field bs 22 1
    inhn := field bs 23 1
    qsram := field bs 24 4
    setheap := field bs 28 4
    done := BitVec.ofNat 64 (field bs 32 8)
    prio := field bs 40 1 % 4
    det := (field bs 40 1).testBit 2 }

/-- The checks of a launch record's fields at bytes 0 to 31 (R260). -/
def launchHead (bs : List Byte) : Bool :=
  codeOk (field bs 0 4) && (decide (field bs 4 4 = 2 ^ 32 - 1) || codeOk (field bs 4 4)) &&
    decide (1 ≤ field bs 20 1) && decide (field bs 20 1 ≤ 16) && decide (1 ≤ field bs 21 1) && decide (field bs 21 1 ≤ 24) &&
    decide (field bs 22 1 % 8 = 0) && decide (field bs 23 1 % 8 = 0) && decide (field bs 22 1 + field bs 23 1 ≤ 8 * field bs 21 1) &&
    decide (field bs 24 4 % 4096 = 0) && decide (field bs 24 4 ≤ 16777216) && decide (field bs 28 4 % 64 = 0) &&
    decide (field bs 28 4 ≤ field bs 24 4)

/-- The checks of a launch record's fields at bytes 40 to 63 (R260). -/
def launchTail (bs : List Byte) : Bool := decide (field bs 40 1 < 8) && (bs.drop 41).all fun x => decide (x = 0)

/-! ### Room in the backing area (R294, R301) -/

/-- Bytes of the backing area that kind 1 records and launch records take. -/
def Core.backUsed (c : Core) : Nat :=
  32 * (c.backing.map fun q => (q.2.filter fun x => decide (x.kind = .spawned)).length).sum + 64 * c.backL.length
/-- The backing area has room for `n` bytes beside the 48 records kept for swap-outs. -/
def Core.backRoom (c : Core) (n : Nat) : Bool := decide (1536 + c.backUsed + n ≤ c.backsize)

/-! ### SPAWN (R319) -/

/-- SPAWN. -/
def execSpawn (d : Reg) (a : Fin 48) (s : State) : Out :=
  issueSeq s fun s r => do
    let addr ← s.gpair r a
    let (bs, s1) ← s.readStruct r addr 32 32
    need (codeOk (field bs 0 4)) .illegalField
    need (decide (field bs 30 2 = 0)) .illegalField
    let g := s.wgOf r
    let prio := field bs 28 1 % 4
    let chip := decide (((s.core r.core).onchip prio).length < Config.contQueue)
    if chip || (s.core r.core).backRoom 32 then do
      let x : Rec :=
        { kind := .spawned
          code := BitVec.ofNat 32 (field bs 0 4)
          join := BitVec.ofNat 32 (field bs 4 4)
          frame := BitVec.ofNat 64 (field bs 8 8)
          launch := g.launch
          index := g.index
          seq := s.nextSeq
          prio := prio
          det := g.det
          warp := 0
          set := r.set
          dom := g.dom
          log := g.log
          lrec := none }
      let s2 ← s1.release r
      let s3 := (s2.modWgOf r fun w => { w with spawned := w.spawned + 1 }).modCore r.core fun c => c.pushRec x
      { s3 with nextSeq := s.nextSeq + 1 }.putUni r d (if chip then 0 else 1)
    else s1.putUni r d 2

/-! ### LAUNCH (R267, R320) -/

/-- The completion target of a LAUNCH, checked and resolved at issue (R267). -/
def State.doneTarget (s : State) (r : Ref) (done : DWord) : Exc DoneTarget := do
  let none_ : DoneTarget := { dom := s.domOf r, ref := none, vector := 0, link := 0 }
  if done = 0 then pure none_
  else if decide (done.toNat < 2 ^ 56) && decide (bitsOf done.toNat 55 53 = 2) then do
    let _ ← s.objAddr r done 16
    pure { none_ with ref := some r }
  else do
    waitFor (s.mayReach r (s.uniThreads r) done.toNat 4)
    match resolve s .atomic (s.actor r) done 4 4 with
    | .error (c, _) => trapAt c done
    | .ok _ => pure none_

/-- LAUNCH (R320). -/
def execLaunch (d : Reg) (a : Fin 48) (s : State) : Out :=
  issueSeq s fun s r => do
    let addr ← s.gpair r a
    let (bs, s1) ← s.readStruct r addr 64 64
    need (launchHead bs) .illegalField
    let tgt ← s.doneTarget r (launchRec bs).done
    need (launchTail bs) .illegalField
    let co := s.core r.core
    let chip := decide (co.pendingL.length < Config.pendingQueue)
    if chip || co.backRoom 64 then do
      let q : LaunchReq := { lrec := launchRec bs, tgt := tgt, srcCore := some r.core }
      let s2 ← s1.release r
      let s3 := s2.modCore r.core fun c => if chip then { c with pendingL := c.pendingL ++ [q] } else { c with backL := c.backL ++ [q] }
      let s4 := if tgt.ref.isSome then s3.modWgOf r fun w => { w with holds := w.holds + 1 } else s3
      s4.putUni r d (if chip then 0 else 1)
    else s1.putUni r d 2

/-! ### Reduction epochs (R168 to R170) -/

/-- An accepted launch changed. -/
def State.modLaunch (s : State) (n : Nat) (f : Launch → Launch) : State :=
  { s with launches := s.launches.map fun l => if l.number = n then f l else l }

/-- Every workgroup of a launch that has not ended the epoch which closes next (R169). -/
def Launch.owing (l : Launch) : Nat := l.lrec.gridm1 + 1 - l.ended - (l.flushed.filter fun x => decide (l.closed < x.2)).length

/-- A launch's reduction area has no room for `n` partials of an epoch, beside those that the workgroups still owing an earlier one can
bring: the flush waits until an earlier epoch closes (R170). The supervisor gives a launch the area that R170 demands at least, one full
table for each workgroup (log entry 35, DESIGN CHOICE). -/
def Launch.areaFull (l : Launch) (e n : Nat) : Bool :=
  decide (l.closed < e) && decide (Config.partialTable * (l.lrec.gridm1 + 1) < l.area.length + n + Config.partialTable * l.owing)

/-- The partials of a workgroup's open epoch find no room yet. -/
def State.flushWaits (s : State) (c k : Nat) : Bool :=
  let g := s.wg c k
  s.launches.any fun l => decide (l.number = g.launch) && l.areaFull g.redEpoch g.partials.length

/-- The epochs a workgroup of a launch has ended by RFLUSH. -/
def Launch.flushedBy (l : Launch) (wg : Nat) : Nat := ((l.flushed.find? fun x => decide (x.1 = wg)).map (·.2)).getD 0

/-- The partials of a workgroup's epoch moved to the launch's reduction area (R169). -/
def State.flushEpoch (s : State) (c k : Nat) : State :=
  let g := s.wg c k
  let s1 := s.modLaunch g.launch fun l => { l with
    area := l.area ++ g.partials.map fun p => (g.redEpoch, g.index.toNat, p)
    flushed := (g.index.toNat, l.flushedBy g.index.toNat + 1) :: l.flushed.filter fun x => decide (x.1 ≠ g.index.toNat) }
  s1.modWg c k fun w => { w with partials := [], redEpoch := w.redEpoch + 1 }

/-- RFLUSH (R169, R170): outside a deterministic launch it only retires. -/
def execRflush (s : State) : Out :=
  issueSeq s fun s r => do
    if (s.wgOf r).det then do
      waitFor (!s.flushWaits r.core r.set)
      pure (s.flushEpoch r.core r.set)
    else pure s

/-- Every workgroup of a launch has ended, or has ended the epoch that closes next by an RFLUSH (R169). -/
def Launch.epochEnded (l : Launch) : Bool :=
  decide (l.owing = 0)

/-- An epoch of the launch is open that can close: all have ended it, and it or a later one holds partials or was ended by an
RFLUSH. -/
def Launch.mayClose (l : Launch) : Bool :=
  l.det && l.epochEnded && (!l.area.isEmpty || l.flushed.any fun x => decide (l.closed < x.2))

/-- The pairwise tree over any number of values (R107). -/
def treeAll (f : Word → Word → Word) (xs : List Word) : Word := ((List.range xs.length).foldl (fun ys _ => pairUp f ys) xs).getD 0 0x80000000

/-- The order of two partials: workgroup index, then warp index (R169). -/
def partialBefore (a b : Nat × Nat × Partial) : Bool :=
  decide (a.2.1 < b.2.1) || (decide (a.2.1 = b.2.1) && decide (a.2.2.warp ≤ b.2.2.warp))

/-- A partial put in its place among those of its address. -/
def insertPartial (x : Nat × Nat × Partial) : List (Nat × Nat × Partial) → List (Nat × Nat × Partial)
  | [] => [x]
  | y :: ys => if partialBefore x y then x :: y :: ys else y :: insertPartial x ys

/-- Who reads for a sequencer or a reduction engine: a core that does not exist, so that no cached translation serves it (R390). -/
def sequencer (d : Nat) : Actor := { core := 256, set := 0, dom := d, superv := false }

/-- Where the engine finds the target of a partial as its epoch closes: through the domain's tables as they stand then, so that no sum uses a
translation that TLBINV has dropped (R351; log entry 111, DESIGN CHOICE). -/
def State.sumHome (s : State) (dom : Nat) (p : Partial) : Except Cause BRef :=
  if bitsOf p.va 55 53 = 2 then .ok p.ref
  else match resolve s .atomic (sequencer dom) (BitVec.ofNat 64 p.va) 4 4 with
    | .ok (b :: _) => .ok b
    | .ok [] => .error .space
    | .error (c, _) => .error c

/-- One address of a closing epoch: the tree over its partials added to the old value, rounded once to nearest (R169). An old value that is
lost stays as it is, and the loss is reported (R367); a target that the domain no longer maps is logged (log entry 111, DESIGN CHOICE). -/
def State.sumAt (s : State) (die dom : Nat) (ps : List (Nat × Nat × Partial)) (p : Partial) : State :=
  match s.sumHome dom p with
  | .error c => s.logError die { time := s.time, addr := BitVec.ofNat 64 p.va, cause := c.code, kind := 2, dom := dom, unit := 0 }
  | .ok b =>
    let refs := (List.range 4).map fun i => { b with pa := b.pa + i }
    let mine := (ps.filter fun x => decide (x.2.2.addr = p.addr)).foldl (fun acc x => insertPartial x acc) []
    let old := BitVec.ofNat 32 (ofLe (refs.map s.readRef))
    let sum := treeAll (fadd .rne) (mine.map fun x => x.2.2.val)
    if refs.any s.badAt then s.reportLost (paVaultOf b.pa / 64) b.pa (paVaultOf b.pa) b.dom
    else (s.walked dom p.va true).writeRefs refs (leBytes 4 (fadd .rne old sum).toNat)

/-- The reduction engine's accesses to a launch's partials may be performed: no vault of them is held. -/
def State.sumsMay (s : State) (dom : Nat) (ps : List (Nat × Nat × Partial)) : Bool :=
  ps.all fun p => match s.sumHome dom p.2.2 with
    | .ok b => !s.held b.pa
    | .error _ => true

/-- The mapping that the supervisor holds for a target of a launch's partials that has none: its table is completed first (R413). -/
def State.sumsMap (s : State) (dom : Nat) (ps : List (Nat × Nat × Partial)) : Option Mapping :=
  ps.findSome? fun p => match s.sumHome dom p.2.2 with
    | .error c => if c = .pageNotPresent ∨ c = .pageProt then s.resolves dom (BitVec.ofNat 64 p.2.2.va) none else none
    | .ok _ => none

/-- The partials of a list, one for each address. -/
def firstPartials (ps : List (Nat × Nat × Partial)) : List Partial :=
  ps.foldl (fun acc p => if acc.any fun x : Partial => decide (x.addr = p.2.2.addr) then acc else acc ++ [p.2.2]) []

/-- EPOCH_CLOSE: the next epoch of a launch closes and its sums are written (R169); on a tripped die the engine holds in place (R392). -/
def execEpochClose (launch : Nat) (s : State) : Out :=
  match s.launches.find? fun l => decide (l.number = launch) with
  | none => .next s
  | some l =>
    let ps := l.area.filter fun p => decide (p.1 = l.closed)
    if l.mayClose && s.sumsMay l.dom ps && !(s.die l.home).tripped then
      match s.sumsMap l.dom ps with
      | some m => .next (s.completeTable l.dom m)
      | none =>
        let s1 := (firstPartials ps).foldl (fun t p => t.sumAt l.home l.dom ps p) s
        .next (s1.modLaunch launch fun x => { x with closed := x.closed + 1, area := x.area.filter fun p => decide (p.1 ≠ l.closed) })
    else .next s

/-! ### The launch sequencers (R288 to R292, R390) -/

/-- The domain ids a quad lists, each once (R331). -/
def Quad.lists (q : Quad) (d : Nat) : Bool := q.slots.any fun x => decide (x = some d)

/-- The cores of a domain's partition, ascending: its logical cores (R290). -/
def State.partition (s : State) (d : Nat) : List Nat :=
  (List.range (64 * s.dieCount)).filter fun c => (s.quad (quadOf c)).lists d

/-- The refusal reason of a done target of a host push (R390). -/
def State.pushDone (s : State) (d : Nat) (done : DWord) : Option Nat :=
  if done = 0 then none
  else if decide (done.toNat < 2 ^ 56) && decide (bitsOf done.toNat 55 53 = 2) then some 5
  else if 2 ^ 56 ≤ done.toNat ∨ 1 < bitsOf done.toNat 55 53 then some 3
  else if done.toNat % 4 ≠ 0 then some 3
  else match resolve s .atomic (sequencer d) done 4 4 with
    | .ok _ => none
    | .error (c, _) => if c = .pageNotPresent ∨ c = .pageProt then some 2 else some 3

/-- The outcome of die 0's sequencer for a host push: the record, or a refusal reason; a record that is lost counts as untranslatable
(R390; log entry 77). -/
def State.takePush (s : State) (p : Push) : Except Nat LaunchRec :=
  if !(s.dom p.dom).exists_ || (s.partition p.dom).isEmpty then .error 4
  else if bitsOf p.recVa.toNat 63 53 ≠ 0 then .error 2
  else match resolve s .load (sequencer p.dom) p.recVa 64 64 with
    | .error _ => .error 2
    | .ok refs =>
      let bs := refs.map s.readRef
      if refs.any s.badAt then .error 2
      else if !launchHead bs then .error 3
      else match s.pushDone p.dom (launchRec bs).done with
        | some x => .error x
        | none => if launchTail bs then .ok (launchRec bs) else .error 3

/-- A host push refused: its tag and the reason, and vector 1 (R390). -/
def State.refusePush (s : State) (tag : DWord) (reason : Nat) : State :=
  { s with admref := tag, admreason := reason }.raiseAll 1

/-- The log entry of a launch acceptance (R370). -/
def acceptEntry (die number : Nat) (src : Option Nat) : List Byte := wickEntry 3 0 die number (src.getD (2 ^ 32 - 1)) 0
/-- The entries of one sequencer. -/
def State.acceptMine (s : State) (d die i : Nat) : Bool := decide (s.wickByte d i 0 = 3) && decide (s.wickField d i 2 2 = die)

/-- The mode a launch accepted now runs under (R371). -/
def State.logFor (s : State) (d : Nat) (det : Bool) : LogMode := if det then (s.dom d).log else .off

/-- A launch accepted: it takes the next launch number (R261, R289). -/
def State.accept (s : State) (die : Nat) (q : LaunchReq) : State :=
  let d := q.tgt.dom
  let det := q.lrec.det || (s.dom d).force
  let m := s.logFor d det
  let n := s.nextLaunch
  let home := ((s.partition d).head?.map dieOf).getD die
  let l : Launch :=
    { number := n
      lrec := q.lrec
      tgt := q.tgt
      dom := d
      det := det
      log := m
      home := home
      pushed := 0
      ended := 0
      flushed := []
      closed := 0
      area := [] }
  let s1 := { s with launches := s.launches ++ [l], nextLaunch := if n + 1 = 2 ^ 32 then 1 else n + 1 }
  s1.wickNote d m [3, die] (s.acceptMine d die) (acceptEntry die n q.srcCore)

/-- The launch at the head of a source of a die's sequencer: source 0 is the admission queue, source 1 + p its core at
position p (R289). -/
def State.sourceReady (s : State) (die i : Nat) : Bool :=
  match i with
  | 0 => decide (die = 0) && (match s.admission with
    | [] => false
    | p :: _ => match resolve s .load (sequencer p.dom) p.recVa 64 64 with
      | .ok refs => (match s.takePush p with
        | .ok x => s.wickMay p.dom (s.logFor p.dom (x.det || (s.dom p.dom).force)) [3, die] (s.acceptMine p.dom die) (acceptEntry die s.nextLaunch none)
        | .error _ => true) && refs.all fun b => !s.held b.pa
      | .error _ => true)
  | p + 1 => match (s.core (64 * die + p)).pendingL with
    | [] => false
    | q :: _ => s.wickMay q.tgt.dom (s.logFor q.tgt.dom (q.lrec.det || (s.dom q.tgt.dom).force)) [3, die] (s.acceptMine q.tgt.dom die) (acceptEntry die s.nextLaunch q.srcCore)

/-- The source a die's sequencer takes next in its rotation; until the package has booted nothing runs (R344, R388). -/
def State.nextSource (s : State) (die : Nat) : Option Nat :=
  if (s.die die).tripped || decide (s.boot ≠ .ready) then none
  else ((List.range 65).map fun i => ((s.die die).rotation + i) % 65).find? fun i => s.sourceReady die i

/-- LAUNCH_ACCEPT (R289). -/
def execLaunchAccept (die : Nat) (s : State) : Out :=
  match s.nextSource die with
  | none => .next s
  | some i =>
    let s0 := s.modDie die fun x => { x with rotation := (i + 1) % 65 }
    match i with
    | 0 => match s.admission with
      | [] => .next s
      | p :: ps =>
        let s1 := { s0 with admission := ps }
        .next (match s.takePush p with
          | .error reason => s1.refusePush p.tag reason
          | .ok x => (s1.walked p.dom p.recVa.toNat false).accept die { lrec := x, tgt := { dom := p.dom, ref := none, vector := p.vector, link := p.link }, srcCore := none })
    | p + 1 => match (s.core (64 * die + p)).pendingL with
      | [] => .next s
      | q :: qs => .next ((s0.modCore (64 * die + p) fun c => { c with pendingL := qs }).accept die q)

/-- The number of records queued at a core at a priority or above, plus its resident workgroups (R291). -/
def Core.load (c : Core) (prio : Nat) : Nat :=
  ((List.range 4).map fun p => if prio ≤ p then (c.onchip p).length + (c.inBacking p).length else 0).sum + c.resident.length

/-- The core with the least load among some; a tie goes to the first (R291). -/
def State.leastLoaded (s : State) (prio : Nat) : List Nat → Option Nat
  | [] => none
  | c :: cs => match s.leastLoaded prio cs with
    | none => some c
    | some k => if (s.core c).load prio ≤ (s.core k).load prio then some c else some k

/-- The launch a die's sequencer expands: higher priority first, then the lower number (R289). -/
def expandNext : List Launch → Option Launch
  | [] => none
  | l :: ls => match expandNext ls with
    | none => some l
    | some k => if k.lrec.prio < l.lrec.prio ∨ (k.lrec.prio = l.lrec.prio ∧ l.number ≤ k.number) then some l else some k

/-- The launch a die expands next and the core its next record goes to. -/
def State.nextPush (s : State) (die : Nat) : Option (Launch × Nat) :=
  match expandNext (s.launches.filter fun l => decide (l.home = die) && decide (l.pushed ≤ l.lrec.gridm1)) with
  | none => none
  | some l =>
    let cs := s.partition l.dom
    let room (c : Nat) : Bool := decide (((s.core c).onchip l.lrec.prio).length < Config.contQueue)
    if (s.die die).tripped || decide (s.boot ≠ .ready) then none
    else if l.det then match cs[l.pushed % cs.length]? with
      | some c => if room c then some (l, c) else none
      | none => none
    else (s.leastLoaded l.lrec.prio (cs.filter room)).map fun c => (l, c)

/-- The kind 0 record of a launch's next workgroup (R262). -/
def Launch.nextRec (l : Launch) (seq : Nat) : Rec :=
  { kind := .start
    code := l.lrec.xcode
    join := 0
    frame := l.lrec.frame
    launch := l.number
    index := BitVec.ofNat 32 l.pushed
    seq := seq
    prio := l.lrec.prio
    det := l.det
    warp := 0
    set := 0
    dom := l.dom
    log := l.log
    lrec := some l.lrec }

/-- WORKGROUP_RECORD_PUSH: the sequencer pushes the next workgroup's record (R289 to R292). -/
def execWorkgroupRecordPush (die : Nat) (s : State) : Out :=
  match s.nextPush die with
  | none => .next s
  | some (l, c) =>
    let s1 := s.modCore c fun co => co.pushRec (l.nextRec s.nextSeq)
    let s2 := s1.modLaunch l.number fun x => { x with pushed := x.pushed + 1 }
    .next { s2 with nextSeq := s.nextSeq + 1 }

/-- PENDING_LAUNCH_REFILL: a launch record of the backing area refills the pending-launch queue (R288), but on a tripped die (R392). -/
def execPendingLaunchRefill (core : Nat) (s : State) : Out :=
  match (s.core core).backL with
  | [] => .next s
  | q :: qs =>
    if (s.core core).pendingL.length < Config.pendingQueue ∧ !(s.die (dieOf core)).tripped then .next (s.modCore core fun c => { c with pendingL := c.pendingL ++ [q], backL := qs })
    else .next s

/-- CONTINUATION_REFILL: a record of the backing area refills its on-chip queue (R294), but on a tripped die (R392). -/
def execContinuationRefill (core prio : Nat) (s : State) : Out :=
  match (s.core core).inBacking prio with
  | [] => .next s
  | x :: xs =>
    if ((s.core core).onchip prio).length < Config.contQueue ∧ !(s.die (dieOf core)).tripped then
      .next (s.modCore core fun c => { c with queues := Tab.set [] c.queues prio (c.onchip prio ++ [x]), backing := Tab.set [] c.backing prio xs })
    else .next s

/-! ### The end of a workgroup (R179, R266, R283) -/

/-- A workgroup's warps and work are all at their end, on a die that is not tripped (R266, R392). A copy or chain that faults after the END
of its warp has no wait left to deliver the fault: R259 has END take it, and does not say what becomes of one met later. The model keeps
the operation, so that the workgroup does not end (log entry 103, DESIGN CHOICE). -/
def State.wgDone (s : State) (c k : Nat) : Bool :=
  let g := s.wg c k
  let co := s.core c
  let here (r : Ref) : Bool := decide (r.core = c) && decide (r.set = k)
  g.present && !(s.die (dieOf c)).tripped && decide (k < Config.queueSets) && decide (co.preempt ≠ some k) && !g.warps.isEmpty && (g.warps.all fun w => decide (w.2.status = .ended)) &&
    decide (g.spawned = 0) && decide (g.holds = 0) && !(co.flights.any fun f => here f.ref) && !(co.ldas.any fun o => here o.ref) &&
    !(co.cpops.any fun o => here o.ref) && !(co.array.ops.any fun o => here o.ref) && ((g.savedArray.map fun a => a.ops.isEmpty).getD true) &&
    !(s.pending.any fun p => here p.ref && !p.dropped) && g.slice.pending.isNone && !(s.turn.any fun t => here t.ref) &&
    !(g.det && s.flushWaits c k) && !s.dirtyHeld c g.dom

/-- A lane register of a warp, which stands in its save area where the warp ended while it was swapped out (R268). -/
def State.endedRow (s : State) (c k w n : Nat) : Row :=
  match (s.warpAt c k w).area with
  | some a => s.physRow (areaReg a n 0)
  | none => (s.warpAt c k w).vreg n

/-- The registers a core keeps of an ended workgroup of an inheritance chain, with the epoch of their tags (R283, R333). -/
def State.kept (s : State) (c k epoch : Nat) : Kept :=
  let g := s.wg c k
  { dom := g.dom
    epoch := epoch
    warps := g.warpsN
    inhlo := g.inhlo
    inhn := g.inhn
    rows := (List.range g.warpsN).flatMap fun w => (List.range g.inhn).map fun i => (w, g.inhlo + i, s.endedRow c k w (g.inhlo + i))
    bad := (List.range g.warpsN).flatMap fun w => (List.range g.inhn).flatMap fun i =>
      (laneIdx.filter fun j => s.homeBad c k w (g.inhlo + i) j).map fun j => (w, .v (g.inhlo + i) j) }

/-- The quad SRAM granules of a workgroup freed. -/
def State.freeQsram (s : State) (c : Nat) (gs : List Nat) : State :=
  s.modQuad (quadOf c) fun q => { q with used := gs.foldl (fun t i => Tab.set false t i false) q.used }

/-- WORKGROUP_END (R266): the epoch is flushed, everything the workgroup holds is free, and its writes are released. -/
def execWorkgroupEnd (core set : Nat) (s : State) : Out :=
  if s.wgDone core set then
    let g := s.wg core set
    let s1 := if g.det then s.flushEpoch core set else s
    let s2 := s1.writeBackAll core g.dom
    let s3 := s2.modLaunch g.launch fun l => { l with ended := l.ended + 1, flushed := l.flushed.filter fun x => decide (x.1 ≠ g.index.toNat) }
    let s4 := s3.modCore core fun c => { c.dropRecs set with
      keptRegs := if g.inhn = 0 then c.keptRegs else c.keptRegs ++ [s.kept core set (Tab.get (0, 0) c.regTags (24 * 16 * set + g.inhlo / 8)).2]
      array := (if c.array.holder = some set then c.array.fresh none else c.array).unclaim set }
    let s5 := { s4.freeQsram core g.granules with pending := s4.pending.filter fun p => !(decide (p.ref.core = core) && decide (p.ref.set = set)) }
    .next (s5.setWg core set Workgroup.init)
  else .next s

/-! ### The completion of a grid (R267) -/

/-- An error log entry of a completion that was not made, and its event bit (R267, R389). -/
def State.refuseDone (s : State) (l : Launch) (c : Cause) : State :=
  (s.logError l.home { time := s.time, addr := BitVec.ofNat 64 l.number, cause := c.code, kind := 2, dom := l.dom, unit := 0 }).setEvent l.home 11

/-- The launch leaves the sequencer; its vector is raised and the issuing workgroup's hold on its quad SRAM ends (R267, R320,
R390). -/
def State.retireLaunch (s : State) (l : Launch) : State :=
  let s1 := { s with launches := s.launches.filter fun x => decide (x.number ≠ l.number) }
  let s2 := match l.tgt.ref with
    | some r => s1.modWgOf r fun w => { w with holds := w.holds - 1 }
    | none => s1
  if l.tgt.vector = 0 then s2 else s2.raise l.tgt.vector l.tgt.link

/-- The add at a done address (R267): through the domain's tables as they stand; a page fault that the supervisor resolves is
tried again. -/
def State.addDone (s : State) (l : Launch) : Out :=
  match resolve s .atomic (sequencer l.dom) l.lrec.done 4 4 with
  | .ok refs =>
    if refs.any fun b => s.held b.pa then .next s
    else if refs.any s.badAt then .next ((s.refuseDone l .dataLost).retireLaunch l)
    else .next (((s.walked l.dom l.lrec.done.toNat true).writeRefs refs (leBytes 4 ((ofLe (refs.map s.readRef) + 1) % 2 ^ 32))).retireLaunch l)
  | .error (c, _) =>
    match if c = .pageNotPresent ∨ c = .pageProt then s.resolves l.dom l.lrec.done none else none with
    | some m => .next (s.completeTable l.dom m)
    | none => .next ((s.refuseDone l c).retireLaunch l)

/-- A grid is complete: every workgroup has ended and every epoch has closed. -/
def Launch.complete (l : Launch) : Bool := decide (l.lrec.gridm1 < l.ended) && l.area.isEmpty

/-- A completion can be made: the object's workgroup is not away from its core. -/
def Launch.reachable (l : Launch) : Bool := match l.tgt.ref with
  | some r => decide (r.set < Config.queueSets)
  | none => true

/-- GRID_COMPLETE (R267). -/
def execGridComplete (launch : Nat) (s : State) : Out :=
  match s.launches.find? fun l => decide (l.number = launch) with
  | none => .next s
  | some l =>
    if l.complete && l.reachable && !(s.die l.home).tripped then
      match l.tgt.ref with
      | some r => match s.arriveAt r.core r.set (winOff l.lrec.done) 0 with
        | .ok s1 => .next (s1.retireLaunch l)
        | .error c => .next ((s.refuseDone l c).retireLaunch l)
      | none => if l.lrec.done = 0 then .next (s.retireLaunch l) else s.addDone l
    else .next s

end Sys2Proof.Machine
end

