-- ==== Sys2Proof/Machine/Pop.lean ====
section
/-! DEFINITION. From a queued record to a running warp: the choice of a core, stealing, workgroup starts, spawned warps, and the
resumes of swapped warps and pre-empted workgroups (R263 to R265, R283, R285, R295, R296, R361). -/

namespace Sys2Proof.Machine

/-! ### What is free on a core (R263, R265) -/

/-- The slots that no warp holds, ascending. -/
def Core.freeSlots (c : Core) : List Nat :=
  let used := c.resident.flatMap fun k => (Tab.get Workgroup.init c.wgs k).warps.filterMap fun w => w.2.slot
  (List.range Config.slots).filter fun i => !used.contains i

/-- The lowest free queue set. -/
def Core.freeSet (c : Core) : Option Nat := (List.range Config.queueSets).find? fun k => !(Tab.get Workgroup.init c.wgs k).present

/-- The indices from `i` on, `n` of them, that a table of used ones does not list. -/
def unusedFrom : Nat → Nat → Tab Bool → List Nat
  | 0, _, _ => []
  | n + 1, i, [] => i :: unusedFrom n (i + 1) []
  | n + 1, i, x :: t => if x.1 = i then unusedFrom n (i + 1) t else i :: unusedFrom n (i + 1) (x :: t)

/-- The granules of a quad's SRAM that no workgroup holds, ascending. -/
def Quad.freeGranules (q : Quad) : List Nat := unusedFrom Config.qsramGranules 0 q.used

/-- The lowest warp index that no warp of the workgroup holds (R265). -/
def Workgroup.freeIndex (g : Workgroup) : Option Nat := (List.range 16).find? fun k => decide ((g.warp k).status = .absent)

/-- Granules that registers kept for inheritance hold. -/
def Core.keptGranules (c : Core) : Nat := (c.keptRegs.map fun x => x.warps * (x.inhn / 8)).sum

/-- A warp that was swapped out (R268). -/
def Warp.isSwapped (w : Warp) : Bool := match w.status with
  | .swapped _ => true
  | _ => false

/-- A workgroup's warps that held a slot when it was pre-empted. -/
def Workgroup.slotHolders (g : Workgroup) : List Nat :=
  (g.warps.filter fun w => w.2.exists_ && !w.2.isSwapped && decide (w.2.status ≠ .ended)).map Prod.fst

/-- The granules that the warps of a pre-empted workgroup held, those of Swapped ones left out (R295). -/
def Workgroup.granulesSaved (g : Workgroup) : Nat := (g.warps.map fun w => if w.2.exists_ && !w.2.isSwapped then w.2.gran else 0).sum

/-- A vault holds the save area of a warp that a resume reads (R177). -/
def State.areaWaits (s : State) (w : Warp) : Bool := match w.area with
  | some a => s.heldRange a w.areaBytes
  | none => false

/-- The quad has SRAM for a workgroup. -/
def State.sramFits (s : State) (c bytes : Nat) : Bool := decide (bytes / 4096 + (s.quad (quadOf c)).used.length ≤ Config.qsramGranules)

/-- The bytes of a workgroup's save area. -/
def Workgroup.areaBytes (g : Workgroup) : Nat := groupAreaBytes + g.qsram

/-- A record fits on a core (R263, R265, R295). Record pops take granules only when no Growing warp waits (R303). -/
def State.fits (s : State) (c : Nat) (x : Rec) : Bool :=
  let co := s.core c
  let slots := co.freeSlots.length
  (match x.kind with
    | .start => co.growers.isEmpty && (match x.lrec with
      | some l => decide (l.warps ≤ slots) && decide (l.warps * l.gran ≤ co.freeGranules + co.keptGranules) && co.freeSet.isSome && s.sramFits c l.qsram
      | none => false)
    | .spawned =>
      let g := s.wg c x.set
      co.growers.isEmpty && decide (1 ≤ slots) && decide (g.gran ≤ co.freeGranules) && g.present && g.freeIndex.isSome
    | .resume =>
      let w := s.warpAt c x.set x.warp
      co.growers.isEmpty && decide (1 ≤ slots) && decide (w.gran ≤ co.freeGranules) && !s.areaWaits w
    | .preempted =>
      let g := s.wg c x.set
      (co.growers.isEmpty || decide (g.granulesSaved = 0)) && decide (g.slotHolders.length ≤ slots) &&
        decide (g.granulesSaved ≤ co.freeGranules + co.keptGranules) && (g.warps.all fun w => w.2.isSwapped || !s.areaWaits w.2) && co.freeSet.isSome && s.sramFits c g.qsram &&
        (s.areaPages c g.dom x.frame.toNat g.areaBytes).isSome)

/-! ### The choice (R295, R296) -/

/-- The code of a record's kind (R262). -/
def RecKind.num : RecKind → Nat
  | .start => 0
  | .spawned => 1
  | .resume => 2
  | .preempted => 3

/-- The warp index that a popped record's log entry names. -/
def State.popIndex (s : State) (c : Nat) (x : Rec) : Nat := match x.kind with
  | .resume => x.warp
  | .spawned => (s.wg c x.set).freeIndex.getD 0
  | _ => 0

/-- The log entry of a pop (R370). -/
def State.popLog (s : State) (c : Nat) (x : Rec) : List Byte :=
  wickEntry 2 (s.popIndex c x + 64 * x.kind.num) c x.launch x.index.toNat (x.seq % 2 ^ 32)
/-- The pop entries of one core. -/
def State.popMine (s : State) (d c i : Nat) : Bool := decide (s.wickByte d i 0 = 2) && decide (s.wickField d i 2 2 = c)

/-- The order log holds a record back: another pop of its core comes first (R371). -/
def State.logHolds (s : State) (c : Nat) (x : Rec) : Bool := !(s.wickMay x.dom x.log [2, c] (s.popMine x.dom c) (s.popLog c x))

/-- A record that no choice considers now: its domain is stopped, its workgroup is away, its warp is pinned or its workgroup
is being pre-empted (R268, R295, R342). -/
def State.heldRec (s : State) (c : Nat) (x : Rec) : Bool :=
  (s.dom x.dom).stop ||
    (match x.kind with
      | .start => false
      | .spawned => decide (Config.queueSets ≤ x.set) || decide ((s.core c).preempt = some x.set)
      | .resume => decide (Config.queueSets ≤ x.set) || decide ((s.core c).preempt = some x.set) || (s.warpAt c x.set x.warp).pin.isSome
      | .preempted => false)

/-- Kinds 0 and 3, which hold back later records of both kinds. -/
def RecKind.whole : RecKind → Bool
  | .start | .preempted => true
  | _ => false

/-- The record a core chooses among its own, from the head of the highest priority on. `blocked` says that an earlier kind 0 or 3 record
cannot start, `logged` that the order log holds one back: only a record that the log names next passes that one (R295, R371). -/
def State.popChoice (s : State) (c : Nat) (blocked logged : Bool) : List Rec → Option Rec
  | [] => none
  | x :: xs =>
    if x.kind.whole && (blocked || (logged && decide (x.log ≠ .replay))) then s.popChoice c blocked logged xs
    else if s.logHolds c x then s.popChoice c blocked (logged || x.kind.whole) xs
    else if !s.heldRec c x && s.fits c x then some x
    else s.popChoice c (blocked || x.kind.whole) logged xs

/-- A core's queued records, in the order of the choice. -/
def Core.queued (c : Core) : List Rec := c.onchip 3 ++ c.onchip 2 ++ c.onchip 1 ++ c.onchip 0

/-- A record that a quad-mate may steal (R296). -/
def State.stealable (s : State) (c owner : Nat) (x : Rec) : Bool :=
  decide (x.kind = .start) && !x.det && !s.heldRec owner x && !s.logHolds owner x && s.fits c x

/-- The better of two stealable records: higher priority, then lower seq. -/
def stealBefore (a b : Rec) : Bool := decide (b.prio < a.prio) || (decide (a.prio = b.prio) && decide (a.seq ≤ b.seq))

/-- The record a core steals, with its owner (R296). -/
def State.stealChoice (s : State) (c : Nat) : Option (Nat × Rec) :=
  let xs := (quadMates c).flatMap fun m => ((s.core m).queued.filter fun x => s.stealable c m x).map fun x => (m, x)
  xs.find? fun a => xs.all fun b => stealBefore a.2 b.2

/-- The record a core takes next, with the core whose queue holds it; none on a tripped die, or before the package has booted (R344,
R392). -/
def State.nextRecord (s : State) (c : Nat) : Option (Nat × Rec) :=
  if (s.die (dieOf c)).tripped || decide (s.boot ≠ .ready) then none
  else match s.popChoice c false false (s.core c).queued with
    | some x => some (c, x)
    | none => s.stealChoice c

/-! ### Starting a workgroup (R263, R264, R283, R285) -/

/-- The inline set value of a warp's whole lanes (R264). -/
def wholeSet (k : Nat) : DWord := BitVec.ofNat 64 (k * 2 ^ 32 + (2 ^ 32 - 1))

/-- The uniform registers of a warp or slice at its start: the workgroup id, the frame pointer and the join word (R264). -/
def startG (index : Word) (launch : Nat) (frame : DWord) (join : Word) : Tab Word :=
  Tab.setMany 0 [] 0 [index, BitVec.ofNat 32 launch, lo32 frame, hi32 frame, join]

/-- A warp at its start (R264). -/
def Warp.start (k slot gran prio launch : Nat) (pc index join : Word) (frame : DWord) (v : Tab Row) : Warp :=
  { Warp.init with
    status := .running
    slot := some slot
    gran := gran
    prio := prio
    pc := pc
    v := v
    g := startG index launch frame join
    sets := Tab.set 0 [] 0 (wholeSet k)
    live := BitVec.allOnes 32
    cur := BitVec.allOnes 32 }

/-- The kept registers a launch's next workgroup inherits: the oldest of its chain (R283). -/
def Core.inherits (c : Core) (dom : Nat) (l : LaunchRec) : Option Kept :=
  if l.inhn = 0 then none
  else c.keptRegs.find? fun x => decide (x.dom = dom) && decide (x.warps = l.warps) && decide (x.inhlo = l.inhlo) && decide (x.inhn = l.inhn)

/-- The registers still kept once a workgroup of a domain is placed that needs some granules: those of other domains are discarded, and
the rest too when the granules are too few (R283). -/
def Core.stillKept (c : Core) (dom need : Nat) : List Kept :=
  let rest := c.keptRegs.filter fun x => decide (x.dom = dom)
  if need ≤ { c with keptRegs := rest }.freeGranules then rest else []

/-- The inherited places of a warp that fail their error check. -/
def Kept.badOf (x : Kept) (k : Nat) : List RegSite := (x.bad.filter fun b => decide (b.1 = k)).map Prod.snd

/-- The inherited rows of a warp. -/
def Kept.rowsOf (x : Kept) (k : Nat) : Tab Row := (x.rows.filter fun y => decide (y.1 = k)).foldl (fun t y => Tab.set rowZero t y.2.1 y.2.2) []

/-- The free granules of a quad's SRAM zeroed, before its epoch counter wraps (R333). -/
def State.zeroFree (s : State) (q : Nat) : State :=
  let kept (pa : Nat) : Bool := decide (pa < paQuad q 0) || decide (paQuad q (2 ^ 24) ≤ pa) || Tab.get false (s.quad q).used ((pa - paQuad q 0) / 4096)
  { s with mem := s.mem.filter fun c => kept c.1, bad := s.bad.filter kept }

/-- Quad SRAM granules allocated to a workgroup: the granules, the allocation's epoch, and the state (R179, R333). -/
def State.allocQsram (s : State) (c bytes : Nat) : List Nat × Nat × State :=
  let q := s.quad (quadOf c)
  let gs := q.freeGranules.take (bytes / 4096)
  let s1 := if nextEpoch q.epochs = 0 then s.zeroFree (quadOf c) else s
  (gs, nextEpoch q.epochs, s1.modQuad (quadOf c) fun x => { x with epochs := nextEpoch x.epochs, used := gs.foldl (fun t i => Tab.set false t i true) x.used })

/-- The owner tags of the registers of a warp that starts: a new epoch, but inherited registers keep theirs (R283, R333). -/
def Core.tagWarp (c : Core) (k w gran dom epoch : Nat) (inh : Option Kept) : Core :=
  let c1 := c.tagRegs k w 0 gran dom epoch
  match inh with
  | some x => c1.tagRegs k w (x.inhlo / 8) (x.inhn / 8) dom x.epoch
  | none => c1

/-- A workgroup starts on a core from its kind 0 record (R263, R264). -/
def State.startGroup (s : State) (c : Nat) (x : Rec) (l : LaunchRec) : State :=
  let co := s.core c
  let k := co.freeSet.getD 0
  let inh := co.inherits x.dom l
  let (gs, ep, s1) := s.allocQsram c l.qsram
  let warps := (List.range l.warps).foldl (fun t i => Tab.set Warp.init t i
    { Warp.start i (co.freeSlots.getD i 0) l.gran x.prio x.launch x.code x.index 0 x.frame ((inh.map fun y => y.rowsOf i).getD []) with
      bad := (inh.map fun y => y.badOf i).getD [] }) []
  let g : Workgroup :=
    { Workgroup.init with
      present := true
      dom := x.dom
      launch := x.launch
      index := x.index
      prio := x.prio
      det := x.det
      log := x.log
      seq := x.seq
      warpsN := l.warps
      gran := l.gran
      inhlo := l.inhlo
      inhn := l.inhn
      granules := gs
      qsram := l.qsram
      setheap := l.setheap
      epoch := ep
      warps := warps
      slice := match l.acode with
        | some a => { Slice.init with present := true, pc := a, g := startG x.index x.launch x.frame 0 }
        | none => Slice.init }
  let rest : Core := { co with keptRegs := match inh with
    | some y => co.keptRegs.erase y
    | none => co.keptRegs }
  let e := nextEpoch co.epochs
  (s1.modCore c fun y => (List.range l.warps).foldl (fun z i => z.tagWarp k i l.gran x.dom e inh)
    { y with keptRegs := rest.stillKept x.dom (l.warps * l.gran), epochs := e }).setWg c k g

/-- A spawned warp starts in its workgroup (R264, R265). -/
def State.startSpawned (s : State) (c : Nat) (x : Rec) : State :=
  let g := s.wg c x.set
  let i := g.freeIndex.getD 0
  let w := Warp.start i ((s.core c).freeSlots.getD 0 0) g.gran x.prio g.launch x.code g.index x.join x.frame []
  let e := nextEpoch (s.core c).epochs
  (s.modCore c fun y => { y with epochs := e }.tagWarp x.set i g.gran g.dom e none).modWg c x.set fun y => { y.setWarp i w with spawned := y.spawned - 1 }

/-! ### Resuming (R302, R303, R361) -/

/-- A warp read back from its save area, which is then free (R362). -/
def State.restored (s : State) (old : Warp) : Warp := match old.area with
  | some a => { s.readWarp a old with area := none }
  | none => old

/-- The save area of a warp holds bytes that fail their error check (R366). -/
def State.areaLost (s : State) (w : Warp) : Bool := match w.area with
  | some a => s.badRange a w.areaBytes
  | none => false

/-- A swapped warp resumes from its save area and issues its wait or its GROW again. Its granules take a new epoch (R333). An area that is
lost ends the workgroup (R366, R413). -/
def State.resumeWarp (s : State) (c : Nat) (x : Rec) : State :=
  let old := s.warpAt c x.set x.warp
  if s.areaLost old then s.saveLost c x.set
  else
    let w := s.restored old
    let e := nextEpoch (s.core c).epochs
    (s.modCore c fun y => { y with epochs := e }.tagRegs x.set x.warp 0 w.gran (s.wg c x.set).dom e).modWarpAt c x.set x.warp fun _ =>
      { w with status := .running, slot := (s.core c).freeSlots.head?, prio := x.prio, waiting := false, parked := 0, wakeDue := false, swapDue := false }

/-- A reference into a workgroup that moves to another number. -/
def moveRef (c old new : Nat) (r : Ref) : Ref := if r.core = c ∧ r.set = old then { r with set := new } else r
/-- A record of a workgroup that moves to another number. -/
def moveRec (old new : Nat) (x : Rec) : Rec := if x.kind ≠ .start ∧ x.set = old then { x with set := new } else x
/-- A completion target in a workgroup that moves to another number. -/
def moveTgt (c old new : Nat) (t : DoneTarget) : DoneTarget := { t with ref := t.ref.map (moveRef c old new) }
/-- The array operations of a workgroup that moves to another number. -/
def moveArr (c old new : Nat) (a : ArrayState) : ArrayState := { a with ops := a.ops.map fun o => { o with ref := moveRef c old new o.ref } }

/-- A workgroup moved to another number, with all that names it: a pre-empted workgroup keeps the number 16 plus its seq until
it resumes in a queue set. -/
def State.moveGroup (s : State) (c old new : Nat) : State :=
  let g := s.wg c old
  let s1 := s.modCore c fun co => { co with
    wgs := Tab.set Workgroup.init (Tab.set Workgroup.init co.wgs old Workgroup.init) new { g with savedArray := g.savedArray.map (moveArr c old new) }
    queues := co.queues.map fun q => (q.1, q.2.map (moveRec old new))
    backing := co.backing.map fun q => (q.1, q.2.map (moveRec old new))
    reserved := co.reserved.map (moveRec old new)
    heldBack := co.heldBack.map (moveRec old new)
    pendingL := co.pendingL.map fun q => { q with tgt := moveTgt c old new q.tgt }
    backL := co.backL.map fun q => { q with tgt := moveTgt c old new q.tgt }
    cpops := co.cpops.map fun o => { o with ref := moveRef c old new o.ref } }
  { s1 with
    launches := s1.launches.map fun l => { l with tgt := moveTgt c old new l.tgt }
    pending := s1.pending.map fun p => { p with ref := moveRef c old new p.ref } }

/-- A warp of a pre-empted workgroup as it resumes: it takes a slot unless it has ended; one that waited issues its wait
again unless it is pinned; a swapped one stays away (R361, R362). -/
def Warp.resumed (w : Warp) (slot : Option Nat) : Warp :=
  if !w.exists_ || w.isSwapped || decide (w.status = .ended) then w
  else { w with slot := slot, waiting := false, parked := 0, swapDue := false, status := match w.status with
    | .parked p => if w.pin.isSome then .parked p else .running
    | .growing _ => .running
    | x => x }

/-- A pre-empted workgroup resumes from its save area and those of its warps (R361 to R363). Registers kept for other domains, or that it
leaves no granules for, are discarded (R283). -/
def State.resumeGroup (s : State) (c : Nat) (x : Rec) (ps : List BRef) : State :=
  let k := (s.core c).freeSet.getD 0
  let slots := (s.core c).freeSlots
  let rd := s.areaRead ps
  let old := s.wg c x.set
  let g := readGroup rd { old with warps := old.warps.map fun w => (w.1, if w.2.isSwapped then w.2 else s.restored w.2) }
  let (gs, ep, s1) := s.allocQsram c g.qsram
  let holders := g.slotHolders
  let g1 : Workgroup :=
    { g with
      granules := gs
      epoch := ep
      savedArray := g.savedArray.map (readArray rd)
      warps := g.warps.map fun w => (w.1, w.2.resumed (slots[holders.idxOf w.1]?)) }
  let e := nextEpoch (s.core c).epochs
  let tag (z : Core) (w : Nat × Warp) : Core := if w.2.exists_ && !w.2.isSwapped then z.tagRegs k w.1 0 w.2.gran g.dom e else z
  let s2 := ((s1.setWg c x.set g1).moveGroup c x.set k).modCore c fun y =>
    g.warps.foldl tag { y with epochs := e, keptRegs := (s.core c).stillKept g.dom g.granulesSaved }
  let s3 := s2.writeRefs ((List.range g.qsram).map fun i => (s2.wg c k).qsramRef c i) ((List.range g.qsram).map fun i => rd (groupAreaBytes + i))
  if (s3.wg c k).savedArray.isNone then s3
  else if (s3.array c).holder.isNone && (s3.array c).claims.isEmpty then s3.giveArray c k
  else s3.modArray c fun a => { a with claims := a.claims ++ [k] }

/-- RECORD_POP: a core takes its next record, or steals one, and starts it; the start is an acquire (R209, R295, R296). -/
def execRecordPop (core : Nat) (s : State) : Out :=
  match s.nextRecord core with
  | none => .next s
  | some (owner, x) =>
    let s0 := s.wickNote x.dom x.log [2, owner] (s.popMine x.dom owner) (s.popLog owner x)
    let s1 := s0.modCore owner fun c => { c with queues := Tab.set [] c.queues x.prio ((c.onchip x.prio).erase x) }
    let s2 := s1.discardClean core
    .next (match x.kind with
      | .start => match x.lrec with
        | some l => s2.startGroup core x l
        | none => s2
      | .spawned => s2.startSpawned core x
      | .resume => s2.resumeWarp core x
      | .preempted => match s2.areaPages core x.dom x.frame.toNat (s2.wg core x.set).areaBytes with
        | some ps =>
          let g := s2.wg core x.set
          if g.warps.any (fun w => !w.2.isSwapped && s2.areaLost w.2) || ps.any (fun b => s2.badRange b.pa 65536) then s2.saveLost core x.set
          else s2.resumeGroup core x ps
        | none => s2)

end Sys2Proof.Machine
end

