-- ==== Sys2Proof/Machine/Swap.lean ====
section
/-! DEFINITION. Swapping out parked and growing warps, granting GROW, and pre-empting workgroups (R282, R301 to R304, R360). -/

namespace Sys2Proof.Machine

/-! ### Swap-out (R301 to R304) -/

/-- A warp parked in a wait. -/
def Warp.isParked (w : Warp) : Bool := match w.status with
  | .parked _ => true
  | _ => false
/-- A warp waiting in GROW. -/
def Warp.isGrowing (w : Warp) : Bool := match w.status with
  | .growing _ => true
  | _ => false

/-- SWAPWAIT_EXPIRY: a warp parked for `cr.swapwait` cycles is to be swapped out, unless it is pinned (R301, R302). -/
def execSwapwaitExpiry (core set warp : Nat) (s : State) : Out :=
  let w := s.warpAt core set warp
  let limit := (s.core core).swapwait
  if w.isParked && w.pin.isNone && !w.swapDue && decide (limit ≠ 0xFFFFFF) && decide (limit ≤ w.parked) then
    .next (s.modWarpAt core set warp fun x => { x with swapDue := true })
  else .next s

/-- A warp may be swapped out now: it is due, not pinned, its `ld` and `st` are 0 with no set load outstanding, and no vault holds what
the save writes (R177, R302, R373). -/
def State.swapMay (s : State) (c k w : Nat) : Bool :=
  let x := s.warpAt c k w
  (x.isParked || x.isGrowing) && x.swapDue && x.pin.isNone && decide (k < Config.queueSets) && decide ((s.core c).preempt ≠ some k) &&
    s.drained { core := c, set := k, who := .warp w } && !(s.die (dieOf c)).tripped && !s.heldRange (s.areaOf c k w) x.areaBytes &&
    !s.dirtyHeld c (s.wg c k).dom

/-- The phase that a wait awaits, which the join word of its record takes (R262, R302); a CBACQ awaits the filled-slot phase
that its slots reach. -/
def State.awaited (s : State) (c k : Nat) : Wait → Word
  | .waitph _ p => p
  | .join _ p => p
  | .cbacq d n => (s.bar c k (s.winRead c k (d + 16) 4)).phase + BitVec.ofNat 32 n

/-- SWAP_OUT: the save-and-restore engine saves a warp and frees its slot and granules; the swap-out is a release. A wake that
fell due meanwhile, and the record of a Growing warp, push the record at once (R302 to R304). A register that fails its error check ends
the workgroup (R373). -/
def execSwapOut (core set warp : Nat) (s : State) : Out :=
  if s.swapMay core set warp then
    let x := s.warpAt core set warp
    let g := s.wg core set
    let s1 := (s.writeBackAll core g.dom).count g.dom 10 1
    .next (if x.bad ≠ [] then s1.saveLost core set else match x.status with
      | .parked p =>
        let s2 := s1.swapOut core set warp (some p) (s.awaited core set p)
        if x.wakeDue then (s2.modWarpAt core set warp fun y => { y with wakeDue := false }).pushResume core set warp else s2
      | _ => (s1.swapOut core set warp none 0).pushResume core set warp)
  else .next s

/-! ### GROW (R282, R303) -/

/-- The youngest of some warps: the highest seq, then the highest warp index. -/
def youngest : List (Nat × Nat × Nat) → Option (Nat × Nat × Nat)
  | [] => none
  | a :: as => match youngest as with
    | none => some a
    | some b => if older a b then some b else some a
/-- The oldest of some warps. -/
def oldest : List (Nat × Nat × Nat) → Option (Nat × Nat × Nat)
  | [] => none
  | a :: as => match oldest as with
    | none => some a
    | some b => if older b a then some b else some a

/-- The unpinned Parked warps of a core: age, warp index and queue set. -/
def Core.parkers (c : Core) : List (Nat × Nat × Nat) :=
  c.resident.flatMap fun k =>
    let g := Tab.get Workgroup.init c.wgs k
    (g.warps.filter fun w => w.2.isParked && w.2.pin.isNone).map fun w => (g.seq, w.1, k)

/-- No resident warp of a core is Running and one is Growing (R303). -/
def Core.stuck (c : Core) : Bool :=
  !c.growers.isEmpty && c.resident.all fun k => (Tab.get Workgroup.init c.wgs k).warps.all fun w => decide (w.2.status ≠ .running)

/-- The warp that is swapped out of a core stalled in GROW. -/
def Core.growVictim (c : Core) : Option (Nat × Nat × Nat) :=
  match oldest c.growers with
  | none => none
  | some o => match youngest (c.growers.filter fun x => decide (x ≠ o)) with
    | some v => some v
    | none => youngest c.parkers

/-- GROW_STALL_CHECK: after 1,024 cycles of a core stalled in GROW one warp is to be swapped out (R303). -/
def execGrowStallCheck (core : Nat) (s : State) : Out :=
  let c := s.core core
  if c.stuck && decide (1024 ≤ c.growStall) then
    let s1 := s.modCore core fun x => { x with growStall := 0 }
    .next (match c.growVictim with
      | some (_, w, k) => s1.modWarpAt core k w fun x => { x with swapDue := true }
      | none => s1)
  else .next s

/-- The oldest Growing warp of a core, when its request fits: queue set, warp index and granules. -/
def Core.growNext (c : Core) : Option (Nat × Nat × Nat) :=
  match oldest c.growers with
  | none => none
  | some (_, w, k) =>
    let x := (Tab.get Workgroup.init c.wgs k).warp w
    match x.status with
    | .growing n => if decide (n ≤ c.freeGranules) && !x.swapDue && decide (c.preempt ≠ some k) then some (k, w, n) else none
    | _ => none

/-- GROW_GRANT: the oldest Growing warp receives its granules and its GROW retires (R282, R303). -/
def execGrowGrant (core : Nat) (s : State) : Out :=
  match (s.core core).growNext with
  | none => .next s
  | some (k, w, n) => .next ((s.growTags core k w n).modWarpAt core k w fun x => { x.grown n with status := .running, pc := x.pc + 4, level := 0 })

/-! ### Pre-emption (R360) -/

/-- PREEMPT_REQUEST: a write of go to a core's pre-emption register (R360, R387); on an absent die it is discarded (R384). -/
def execPreemptRequest (core : Nat) (hold : Bool) (s : State) : Out :=
  let c := s.core core
  if c.preempt.isSome || !s.hasDie (dieOf core) then .next s
  else
    let named := c.resident.find? fun k =>
      let g := Tab.get Workgroup.init c.wgs k
      decide (pair64 g.index (BitVec.ofNat 32 g.launch) = c.prwg)
    if c.praddr.toNat % 65536 ≠ 0 then .next (s.modCore core fun x => { x with prstatus := 3 })
    else match named with
      | none => .next (s.modCore core fun x => { x with prstatus := 3 })
      | some k => .next (s.modCore core fun x => { x with preempt := some k, prhold := hold, prstatus := 1 })

/-- Nothing is counted in a warp's `st` but stamped stores that missed their install, whose deferred fault is saved with it (R214, R360,
R373). -/
def State.stSaved (s : State) (r : Ref) : Bool := (s.warp r).stOps.all fun o => (s.missedOf r).any fun p => decide (p.seqNo = o.1)

/-- The save area of the workgroup being pre-empted, once everything it waits for has happened (R360): every warp's `ld` and `st` are 0 but
for deferred faults, every access and set load is done, copies and chains have completed or stopped on a deferred fault, no instruction is
under way, and no vault holds what the save writes (R177, R373). -/
def State.preemptMay (s : State) (core : Nat) : Option (Nat × List BRef) :=
  let c := s.core core
  match c.preempt with
  | none => none
  | some k =>
    let g := s.wg core k
    let here (r : Ref) : Bool := decide (r.core = core) && decide (r.set = k)
    if !(s.turn.any fun t => here t.ref) && !(c.flights.any fun f => here f.ref) && !(c.ldas.any fun o => here o.ref) &&
        (g.warps.all fun w => decide (w.2.ld = 0) && s.stSaved { core := core, set := k, who := .warp w.1 }) && (c.cpops.all fun o => !here o.ref || o.complete || OpFault.owed o.fault) &&
        (c.array.ops.all fun o => !here o.ref || o.fault.isNone || OpFault.owed o.fault) &&
        (g.warps.all fun w => !w.2.exists_ || w.2.away || !s.heldRange (s.areaOf core k w.1) w.2.areaBytes) && !s.dirtyHeld core g.dom && g.slice.pending.isNone && !(s.die (dieOf core)).tripped then
      (s.areaPages core g.dom c.praddr.toNat g.areaBytes).map fun ps => (k, ps)
    else none

/-- The kind 3 record of a pre-empted workgroup (R262, R360). -/
def Workgroup.preemptRec (g : Workgroup) (area : DWord) (set : Nat) : Rec :=
  { kind := .preempted
    code := 0
    join := 0
    frame := area
    launch := g.launch
    index := g.index
    seq := g.seq
    prio := g.prio
    det := g.det
    warp := 0
    set := set
    dom := g.dom
    log := g.log
    lrec := none }

/-- A warp of a pre-empted workgroup as the core keeps it: its registers are in its save area (R360, R362). -/
def Warp.saved (w : Warp) (area : Nat) : Warp := if w.exists_ && !w.away then w.emptied area else w

/-- PREEMPT_SAVE: the workgroup's warps and the workgroup are saved, everything they hold is free, and the kind 3 record is
pushed or held (R360). A register that fails its error check ends the workgroup instead (R373). -/
def execPreemptSave (core : Nat) (s : State) : Out :=
  match s.preemptMay core with
  | none => .next s
  | some (k, ps) =>
    let c := s.core core
    let g := s.wg core k
    let mine := decide (c.array.holder = some k)
    let a := if mine then some c.array else g.savedArray
    let new := Config.queueSets + g.seq
    let s1 := s.writeBackAll core g.dom
    if (g.warps.any fun w => w.2.exists_ && !w.2.away && decide (w.2.bad ≠ [])) || s.groupBad core k a then
      .next ((s1.saveLost core k).modCore core fun x => { x with preempt := none, prstatus := 3 })
    else
    let s2 := (g.warps.filter fun w => w.2.exists_ && !w.2.away).foldl (fun t w => t.saveWarp core k w.1) s1
    let s3 := (s2.saveGroup core k ps a).freeQsram core g.granules
    let s4 := s3.modWg core k fun x => { x with
      granules := []
      savedArray := a
      warps := x.warps.map fun w => (w.1, w.2.saved (s.areaOf core k w.1)) }
    let s5 := s4.modArray core fun x => (if mine then x.fresh none else x).unclaim k
    let s6 := s5.moveGroup core k new
    let r := g.preemptRec c.praddr new
    .next (s6.modCore core fun x => { (if x.prhold then { x with heldBack := x.heldBack ++ [r] } else x.pushRec r) with preempt := none, prstatus := 2 })

/-- PREEMPTED_RECORD_PUSH: the supervisor pushes a kind 3 record that was held back (R360). -/
def execPreemptedRecordPush (core : Nat) (s : State) : Out :=
  match (s.core core).heldBack with
  | [] => .next s
  | x :: xs => .next (s.modCore core fun c => { c with heldBack := xs }.pushRec x)

end Sys2Proof.Machine
end

