-- ==== Sys2Proof/Machine/Issue.lean ====
section
/-! DEFINITION. Issue selection: candidates, credits, effective priorities, aging, gates and back-off, and what one cycle of a core
counts (R27, R297 to R300, R303, R382). -/

namespace Sys2Proof.Machine

/-! ### Candidates (R27, R298, R299) -/

/-- The pipe number of the uniform pipe. -/
def uniformPipe : Nat := 4

/-- A word is a prefix word (R38). -/
def isPfxWord (w : Word) : Bool := decide (w.extractLsb' 24 8 = 0xFF#8)

/-- The word that decides which pipe a stream's next instruction goes to: the one behind a prefix word (R28). -/
def State.issueWord (s : State) (r : Ref) : Word :=
  let w := s.fetchWord r (s.pcOf r)
  if isPfxWord w then s.fetchWord r (s.pcOf r + 4) else w

/-- The instruction goes to the uniform pipe: its F bit is set (R33). -/
def State.uniformNext (s : State) (r : Ref) : Bool := (s.issueWord r).getLsbD 31

/-- The next instruction of an access slice would push to a full queue (R299); the ALD whose marked row is to be replaced pushes none (R286). -/
def State.sliceFull (s : State) (r : Ref) : Bool :=
  match s.comingUp r with
  | .ald q _ _ => !(s.wgOf r).slice.replaces (s.pcOf r) && decide (Config.queueRows ≤ ((s.wgOf r).queue q.val).rows.length)
  | _ => false

/-- The workgroup of a stream may issue: it is on its core and its domain is not stopped (R342). -/
def State.groupIssues (s : State) (c k : Nat) : Bool :=
  let g := s.wg c k
  g.present && decide (k < Config.queueSets) && !(s.dom g.dom).stop

/-- A warp is a candidate of a pipe as far as the scheduler sees before it issues (R27, R298): pre-emption stops it (R360), and one whose
instruction has been found not ready waits until something happens (R29). -/
def State.warpReady (s : State) (c k w pipe : Nat) : Bool :=
  let r : Ref := { core := c, set := k, who := .warp w }
  let x := s.warpAt c k w
  decide (x.status = .running) && decide (x.gate = 0) && !x.waiting && decide ((s.core c).preempt ≠ some k) && !((s.core c).ldas.any fun o => decide (o.ref = r)) &&
    (match x.slot with
      | none => false
      | some n => if pipe = uniformPipe then s.uniformNext r else decide (n % 4 = pipe) && !s.uniformNext r)

/-- An access slice is a candidate of the uniform pipe (R285, R299). -/
def State.sliceReady (s : State) (c k : Nat) : Bool :=
  let t := (s.wg c k).slice
  t.present && !t.halted && decide ((s.core c).preempt ≠ some k) && t.pending.isNone && !t.waiting && !s.sliceFull { core := c, set := k, who := .slice }

/-- A candidate with what the choice compares. -/
structure Cand where
  ref : Ref
  dom : Nat
  eff : Int
  seq : Nat
  deriving DecidableEq, Repr

/-- The candidates of a pipe (R298, R299). -/
def State.cands (s : State) (c pipe : Nat) : List Cand :=
  ((s.core c).resident.filter fun k => s.groupIssues c k).flatMap fun k =>
    let g := s.wg c k
    (if pipe = uniformPipe ∧ s.sliceReady c k then [{ ref := { core := c, set := k, who := .slice }, dom := g.dom, eff := (g.prio : Int) + g.slice.boost, seq := g.seq }] else []) ++
    (g.warps.filter fun w => s.warpReady c k w.1 pipe).map fun w =>
      { ref := { core := c, set := k, who := .warp w.1 }, dom := g.dom, eff := (w.2.prio : Int) - w.2.level + w.2.boost, seq := g.seq }

/-! ### Credits (R297, R298) -/

/-- The place of a domain's credit on a pipe. -/
def credKey (pipe d : Nat) : Nat := pipe * 1024 + d
/-- A domain's credit on a pipe. -/
def Core.credit (c : Core) (pipe d : Nat) : Int := Tab.get 0 c.credits (credKey pipe d)
/-- A domain's issue share on a core: 256 for a domain alone, where no share is set (R297). R297 does not give the share of a domain that
the last write of SHARE does not name: the model gives it none (log entry 106, DESIGN CHOICE). -/
def Core.shareOf (c : Core) (d : Nat) : Nat :=
  ((c.share.find? fun x => decide (x.1 = d)).map (·.2)).getD (if c.share.isEmpty then 256 else 0)
/-- The domains of a core's quad. -/
def State.domsOn (s : State) (c : Nat) : List Nat := distinct ((s.quad (quadOf c)).slots.filterMap id)
/-- Every domain's share added to its credit on a pipe. -/
def State.addCredits (s : State) (c pipe : Nat) : State :=
  let ds := s.domsOn c
  s.modCore c fun x => { x with credits := ds.foldl (fun t d => Tab.set 0 t (credKey pipe d) (min (Tab.get 0 t (credKey pipe d) + x.shareOf d) 512)) x.credits }

/-- One candidate is chosen before another: a domain with a share before one without (R304), its domain's greater credit, the lower
domain, the greater eff, the slice, the lower seq, the lower warp index. -/
def candBefore (co : Core) (pipe : Nat) (a b : Cand) : Bool :=
  let idle (x : Cand) : Bool := decide (co.shareOf x.dom = 0)
  if idle a ≠ idle b then idle b
  else if co.credit pipe a.dom ≠ co.credit pipe b.dom then decide (co.credit pipe b.dom < co.credit pipe a.dom)
  else if a.dom ≠ b.dom then decide (a.dom < b.dom)
  else if a.eff ≠ b.eff then decide (b.eff < a.eff)
  else if a.ref.isSlice ≠ b.ref.isSlice then a.ref.isSlice
  else if a.seq ≠ b.seq then decide (a.seq < b.seq)
  else decide (a.ref.index ≤ b.ref.index)

/-- The choice among candidates: the selection, with the candidates it was made over. -/
def choose (co : Core) (pipe : Nat) (second : Bool) (cs : List Cand) : Option Turn :=
  (cs.find? fun a => cs.all fun b => candBefore co pipe a b).map fun a =>
    { ref := a.ref, pipe := pipe, passed := (cs.filter fun x => decide (x.ref ≠ a.ref)).map (·.ref), second := second }

/-! ### What a cycle counts (R298, R301, R303, R382) -/

/-- One cycle of a warp: its gate falls, unless it was set in the cycle that ends, and its Parked cycles are counted. -/
def Warp.cycle (w : Warp) : Warp := { w with issued := false, gate := if w.issued then w.gate else w.gate - 1, parked := if w.isParked then w.parked + 1 else w.parked }

/-- A domain has a warp resident on a core. -/
def State.domResident (s : State) (c d : Nat) : Bool :=
  (s.core c).resident.any fun k => decide ((s.wg c k).dom = d) && (s.wg c k).warps.any fun w => w.2.slot.isSome

/-- One cycle of a core. -/
def State.cycle (s : State) (c : Nat) : State :=
  let co := s.core c
  let ds := s.domsOn c
  let s1 := s.modCore c fun x => { x with
    wgs := x.wgs.map fun g => (g.1, { g.2 with warps := g.2.warps.map fun w => (w.1, w.2.cycle) })
    growStall := if co.stuck then x.growStall + 1 else 0
    sampleAt := ds.foldl (fun t d => Tab.set 0 t d (if (s.dom d).octl.getLsbD 0 then Tab.get 0 t d + 1 else 0)) x.sampleAt }
  let s2 := ds.foldl (fun t d => if s.domResident c d then t.count d 0 1 else t) s1
  match co.array.holder with
  | some k => if co.array.queued.isEmpty then s2 else s2.count (s.wg c k).dom 27 1
  | none => s2

/-! ### Selecting and charging -/

/-- The core can issue: the package has booted, its die is not tripped and its quad runs (R344, R391, R392). -/
def State.coreRuns (s : State) (c : Nat) : Bool := decide (s.boot = .ready) && !(s.die (dieOf c)).tripped && !(s.quad (quadOf c)).parked && (s.quad (quadOf c)).awake

/-- ISSUE_SELECT: one pipe of a core makes its choice of a cycle; the selection of pipe 0 begins a cycle of the core (R297 to R299). -/
def execIssueSelect (core pipe : Nat) (s : State) : Out :=
  if !s.coreRuns core || decide (uniformPipe < pipe) || !s.turn.isEmpty then .next s
  else
    let s1 := (if pipe = 0 then s.cycle core else s).addCredits core pipe
    .next { s1 with turn := (choose (s1.core core) pipe false (s1.cands core pipe)).toList }

/-- A candidate that was passed over: at the 1,024th time its boost rises (R298). -/
def Warp.passedOver (w : Warp) : Warp :=
  if w.passed + 1 = 1024 then { w with boost := min (w.boost + 1) 3, passed := 0 } else { w with passed := w.passed + 1 }

/-- An access slice that was passed over (R298, R299). -/
def Slice.passedOver (t : Slice) : Slice :=
  if t.passed + 1 = 1024 then { t with boost := min (t.boost + 1) 3, passed := 0 } else { t with passed := t.passed + 1 }

/-- The candidates of a cycle that issued in no pick are passed over once (R298, R299). -/
def State.passOver (s : State) (ps : List Ref) : State :=
  ps.foldl (fun x p => (x.modWarp p Warp.passedOver).modSlice p fun t => if p.isSlice then t.passedOver else t) s

/-- An issue charged: the domain's credit, and the stream's boost, passed count and gate (R298, R299). -/
def State.charge (s : State) (t : Turn) : State :=
  let r := t.ref
  let d := s.domOf r
  let s1 := s.modCore r.core fun c => { c with credits := Tab.set 0 c.credits (credKey t.pipe d) (max (c.credit t.pipe d - 256) (-512)) }
  (s1.modWarp r fun w => { w with boost := 0, passed := 0, gate := 2 ^ w.level - 1, issued := true }).modSlice r fun x =>
    if r.isSlice then { x with boost := 0, passed := 0 } else x

/-- The uniform register and the ones behind it, as resources of the control tier: registers are 0 to 47. -/
def gRes (n k : Nat) : List Nat := (List.range k).map (n + ·)
/-- A set register. -/
def sRes (n : Fin 16) : List Nat := [64 + n.val]
/-- A fibre register. -/
def fRes (n : Fin 8) : List Nat := [80 + n.val]
/-- Memory, and what the order of its accesses rests on. -/
def memRes : List Nat := [96]
/-- The array state and the sequencer's order. -/
def arrRes : List Nat := [97]
/-- The control registers, the region stack and the log. -/
def csrRes : List Nat := [98]
/-- The live sets and the apply stack. -/
def liveRes : List Nat := [99]

/-- The resources of an operand of `k` registers: a queue register is both read and written, as a pop or a push changes it. -/
def regRes (x : Reg) (k : Nat) : List Nat :=
  match x with
  | .g n => gRes n.val k
  | .q n => [100 + n.val]
  | .v n => [128 + n.val]
  | _ => []

/-- The queue registers among some operands, which a read changes. -/
def popRes (xs : List Reg) : List Nat := xs.flatMap fun x => match x with
  | .q n => [100 + n.val]
  | _ => []

/-- What an instruction of the control tier reads and writes: registers, queues and the order of memory. An instruction of the lane tier
never stands beside another one of its warp in the uniform pipe (R27). -/
def uniUses : Instr → Option (List Nat × List Nat)
  | .gadd d a b | .gsub d a b | .gmul d a b | .gand d a b | .gor d a b | .gxor d a b | .gshl d a b | .gshr d a b | .gsar d a b | .gmin d a b | .gmax d a b
  | .gslt d a b | .gsltn d a b | .gseq d a b =>
    let xs := a :: srcRegs b
    some (xs.flatMap fun x => regRes x 1, regRes d 1 ++ popRes xs)
  | .gaddi d a _ | .gmov d a => some (regRes a 1, regRes d 1 ++ popRes [a])
  | .gmovi d _ => some ([], regRes d 1)
  | .gmovhi d _ => some (regRes d 1, regRes d 1)
  | .grdl d a b => some (regRes (.v a) 1 ++ regRes b 1, regRes d 1 ++ popRes [b])
  | .gld d a _ m => some (regRes a 2 ++ memRes, regRes d (modsOf m).size.regs)
  | .gst d a _ m => some (regRes a 2 ++ regRes d (modsOf m).size.regs, memRes ++ popRes [d])
  | .br _ | .nop | .yield => some ([], [])
  | .brz a _ | .brnz a _ => some (gRes a.val 1, [])
  | .brse st _ | .brsne st _ => some (sRes st ++ liveRes, [])
  | .call _ => some ([], gRes 47 1)
  | .callr a => some (regRes a 1, gRes 47 1 ++ popRes [a])
  | .ret a | .jmpr a => some (regRes a 1, popRes [a])
  | .sunion sd sa sb | .sinter sd sa sb | .sdiff sd sa sb => some (sRes sa ++ sRes sb, sRes sd)
  | .smov sd sa | .sfirst sd sa => some (sRes sa, sRes sd)
  | .sall sd | .snone sd | .sfree sd => some (liveRes, sRes sd)
  | .scount d st => some (sRes st ++ liveRes, regRes d 1)
  | .sld sd a _ => some (gRes a.val 2 ++ memRes, sRes sd)
  | .sst sd a _ => some (gRes a.val 2 ++ sRes sd, memRes)
  | .sfromv d st => some (gRes d.val 2, sRes st)
  | .stov d st => some (sRes st, gRes d.val 2)
  | .apply st _ _ => some (sRes st ++ liveRes, liveRes)
  | .aend | .endWarp | .exit => some (liveRes ++ memRes, liveRes)
  | .grow _ | .shrink _ => some (liveRes, liveRes)
  | .barinit a b | .arrive a b | .waitph a b _ | .cbinit a b | .cbacq a b _ | .cbrel a b | .join a b _ => some (gRes a.val 2 ++ regRes b 1 ++ memRes, memRes ++ popRes [b])
  | .fence .. | .waitc .. | .rflush | .unbindw _ => some (memRes, memRes)
  | .copy a _ | .bindw a _ | .vchain a _ => some (gRes a.val 2 ++ memRes, memRes)
  | .loadw a _ | .mloop a | .mmask a => some (gRes a.val 2 ++ memRes ++ arrRes, arrRes)
  | .tcfg .. | .tzero _ | .trel _ => some (arrRes, arrRes)
  | .clkiv d => some (csrRes, gRes (4 * d.val) 4 ++ csrRes)
  | .time d => some (csrRes, gRes d.val 2 ++ csrRes)
  | .fopen f a b => some (gRes a.val 2 ++ regRes b 1 ++ memRes, fRes f ++ popRes [b])
  | .fadv f a | .fseek f a => some (fRes f ++ regRes a 1 ++ memRes, fRes f ++ popRes [a])
  | .ftend f st => some (fRes f, sRes st)
  | .fclose f => some ([], fRes f)
  | .fmerge f a b => some (fRes a ++ fRes b ++ memRes, fRes f ++ fRes a ++ fRes b)
  | .spawn d a | .launch d a => some (gRes a.val 2 ++ memRes, regRes d 1 ++ memRes)
  | .ald q a _ => some (gRes a.val 2, [100 + q.val])
  | .enter _ | .leave _ | .mark _ => some (csrRes, csrRes)
  | .csrr x _ => some (csrRes, regRes x 1 ++ csrRes)
  | .csrw x _ => some (csrRes ++ regRes x 1, csrRes ++ popRes [x])
  | .bkpt _ | .trap _ | .syscall _ | .rte => some (csrRes, csrRes)
  | .tlbinv a => some (gRes a.val 2 ++ memRes, memRes)
  | .cflush a b => some (regRes a 2 ++ regRes b 1 ++ memRes, memRes ++ popRes [b])
  | .waitev a | .logctlOff a | .logctlRecord a | .logctlReplay a => some (regRes a 1 ++ csrRes, csrRes ++ popRes [a])
  | .logctlReadPosition a => some (csrRes, regRes a 1 ++ csrRes)
  | _ => none

/-- The instruction may change the program counter otherwise than to the next word, or take the warp off its pipe, so that whatever is
behind it depends on it. -/
def steers : Instr → Bool
  | .br _ | .brz _ _ | .brnz _ _ | .brse _ _ | .brsne _ _ | .call _ | .callr _ | .ret _ | .jmpr _ | .apply .. | .aend | .endWarp | .exit | .grow _ | .shrink _
  | .waitph .. | .cbacq .. | .join .. | .waitev _ | .bkpt _ | .trap _ | .syscall _ | .rte | .yield | .ald .. => true
  | _ => false

/-- Two instructions of one warp, `i` first, of which neither depends on the other: neither reads what the other writes, nor do both write
one thing. R27 does not say how the scheduler judges memory: the model lets a store and any other access depend on each other, and two loads
not (R27, R299; log entry 44, DESIGN CHOICE). -/
def independent (i j : Instr) : Bool :=
  !steers i && (match uniUses i, uniUses j with
    | some (ri, wi), some (rj, wj) => wi.all (fun n => !(rj ++ wj).contains n) && wj.all fun n => !ri.contains n
    | _, _ => false)

/-- A candidate of a cycle's second pick may issue in it: a domain without a share only where no other domain has a candidate in the cycle,
the first pick's among them (R304). -/
def State.shareLets (s : State) (t : Turn) (x : Cand) : Bool :=
  decide ((s.core x.ref.core).shareOf x.dom ≠ 0) || (t.ref :: t.passed).all fun p => decide (s.domOf p = x.dom)

/-- The uniform pipe's second pick, after the first has issued an instruction: among the candidates of the cycle that are still ready, and
the first pick's own warp if its level is 0 and its next instruction is independent (R299). -/
def State.secondPick (s : State) (t : Turn) (i : Instr) : State :=
  let again := if (s.warp t.ref).level = 0 ∧ independent i (s.comingUp t.ref) then some t.ref else none
  let cs := (s.cands t.ref.core t.pipe).filter fun x => (t.passed.contains x.ref || decide (again = some x.ref)) && s.shareLets t x
  match choose (s.core t.ref.core) t.pipe true cs with
  | some u => { s with turn := [{ u with passed := t.passed.filter fun p => decide (p ≠ u.ref), again := again }] }
  | none => { s.passOver t.passed with turn := [] }

/-- The cycle's choice of a pipe goes on after an issue: the uniform pipe's second pick, or the count of those passed over. -/
def State.afterIssue (s : State) (t : Turn) (i : Instr) : State :=
  if t.pipe = uniformPipe ∧ !t.second then s.secondPick t i else { s.passOver t.passed with turn := [] }

/-- A selected stream whose instruction is not ready is no candidate of the cycle: the choice is made again without it (R29, R298,
R299). In a second pick the first pick's own warp stays a candidate, and a stream that was one in the first pick is still passed over. -/
def State.rechoose (s : State) (t : Turn) : State :=
  let left := if t.second && decide (t.again ≠ some t.ref) then t.ref :: t.passed else t.passed
  let cs := (s.cands t.ref.core t.pipe).filter fun x => !t.second || ((t.passed.contains x.ref || decide (t.again = some x.ref)) && s.shareLets t x)
  match choose (s.core t.ref.core) t.pipe t.second cs with
  | some u => { s with turn := [if t.second then { u with passed := left.filter fun p => decide (p ≠ u.ref), again := t.again } else u] }
  | none => { (if t.second then s.passOver left else s) with turn := [] }

/-! ### Back-off (R300) -/

/-- The instructions that leave the back-off level as it is when they retire: POLL sets it itself, and the spin class keeps
it. -/
def keepsLevel : Instr → Bool
  | .poll .. | .nop | .yield | .br _ | .brz _ _ | .brnz _ _ | .brse _ _ | .brsne _ _ | .stest .. | .grdl .. | .gseq .. | .gslt .. | .gsltn .. | .scount .. => true
  | _ => false

/-- WATCHED_LINE_WRITE: a write to a line that the warp's last POLL read resets its level (R300). -/
def execWatchedLineWrite (core set warp : Nat) (s : State) : Out :=
  let w := s.warpAt core set warp
  if w.hit then .next (s.modWarpAt core set warp fun x => { x with level := 0, hit := false }) else .next s

end Sys2Proof.Machine
end

