-- ==== Sys2Proof/Machine/Slice.lean ====
section
/-! DEFINITION. The access slice's load: ALD, the return of its row, marked rows and the restart after repair (R284 to R286,
R326). -/

namespace Sys2Proof.Machine

/-- ALD (R286, R326): the slice waits for the row, and goes on behind the ALD when it is pushed. -/
def execAld (q : Fin 8) (a : Fin 48) (i8 : BitVec 8) (s : State) : Out :=
  issue s fun s r => do
    need r.isSlice .queueMisuse
    need (!s.foreign r (s.nextPc r)) .priv
    let base ← s.gpair r a
    waitFor ((s.wgOf r).slice.replaces (s.pcOf r) || decide (((s.wgOf r).queue q.val).rows.length < Config.queueRows))
    let op : AldOp := { q := q.val, seqNo := s.nextIssue, addr := base + BitVec.ofInt 64 (i8.toInt * 128), pc := s.pcOf r }
    pure { s.modSlice r fun t => { t with pending := some op } with nextIssue := s.nextIssue + 1, last := .held }

/-- A row of an ALD pushed, or put in the place of the marked row it replaces (R286); none while the queue is full. -/
def Workgroup.aldPut (g : Workgroup) (op : AldOp) (x : QRow) : Option Workgroup :=
  let q := g.queue op.q
  let old (y : QRow) : Bool := decide (y.mark = g.slice.faulted) && y.mark.isSome
  if g.slice.replaces op.pc && q.rows.any old then some (g.setQueue op.q { q with rows := q.rows.map fun y => if old y then x else y, last := op.pc })
  else if q.rows.length < Config.queueRows then some (g.setQueue op.q { q with rows := q.rows ++ [x], last := op.pc })
  else none

/-- The row of an ALD delivered: good rows let the slice go on, a marked row halts it at its ALD (R286). -/
def State.aldDone (s : State) (core set : Nat) (op : AldOp) (row : Row) (m : Option Mark) : State :=
  match (s.wg core set).aldPut op { row := row, mark := m, bad := false } with
  | none => s
  | some g =>
    let t := g.slice
    s.setWg core set { g with slice := { t with
      pending := none
      faulted := m
      halted := t.halted || m.isSome
      pc := if m.isSome then op.pc else op.pc + 4
      waiting := false } }

/-- ALD_ROW_RETURN: the load of an ALD is done, behind the rows of the loads issued before it (R284, R286). A page fault that the supervisor
resolves only delays the row. -/
def execAldRowReturn (core set : Nat) (s : State) : Out :=
  match (s.wg core set).slice.pending with
  | none => .next s
  | some op =>
    let a : Actor := { core := core, set := set, dom := (s.wg core set).dom, superv := false }
    let marked (c : Cause) (addr : DWord) : Out := .next (s.aldDone core set op rowZero (some { cause := c, addr := addr, pc := op.pc }))
    if s.engineHeld a .load op.addr.toNat 128 || s.pushesBefore core set op.seqNo op.q then .next s
    else match resolve s .load a op.addr 128 128 with
    | .ok refs =>
      if ((s.wg core set).aldPut op { row := [], mark := none, bad := false }).isNone then .next s
      else if refs.any fun b => s.lostAt core false b then marked .dataLost op.addr
      else
        let (bs, s1) := (s.touchAll a false [op.addr.toNat]).readNow core a.dom refs
        .next (s1.aldDone core set op (rowOf fun j => BitVec.ofNat 32 (field bs (4 * j) 4)) none)
    | .error (c, a2) =>
      match if c = .pageNotPresent ∨ c = .pageProt then s.resolves a.dom op.addr a2 else none with
      | some m => .next (s.completeTable a.dom m)
      | none => marked c (a2.getD op.addr)

/-- The causes that a slice meets at an instruction itself, whose marked row no load of an ALD made. -/
def decodingCause : Cause → Bool
  | .illegalOp | .illegalField | .illegalOperand | .illegalPfx | .priv | .queueMisuse | .regEcc => true
  | _ => false

/-- A slice halted at an ALD, whose load made the marked row. -/
def State.haltedAtAld (s : State) (r : Ref) (m : Mark) : Bool :=
  !decodingCause m.cause && (match s.comingUp { r with who := .slice } with
    | .ald .. => true
    | _ => false)

/-- The slice restarted where it halted, after the exec warp's handler has returned: an ALD's marked row waits to be
replaced in place, and the row of another trap of the slice leaves `q0` (R286). -/
def State.restartSlice (s : State) (r : Ref) : State :=
  s.modWgOf r fun g =>
    match g.slice.faulted with
    | none => g
    | some m =>
      if !s.haltedAtAld r m then
        let q := g.queue 0
        { g.setQueue 0 { q with rows := q.rows.filter fun y => decide (y.mark ≠ some m) } with slice := { g.slice with halted := false, faulted := none } }
      else { g with slice := { g.slice with halted := false } }

end Sys2Proof.Machine
end

