-- ==== Sys2Proof/Machine/Stamps.lean ====
section
/-! DEFINITION. Stamped stores and as-of loads, the versions they make and read, and the interval clock (R212 to R217, R232 to
R234). -/

namespace Sys2Proof.Machine

/-- The width of a die's interval exceeds its bound W (R213, R214). -/
def State.clockWide (s : State) (d : Nat) : Bool := decide ((s.die d).clkw < (s.interval d).2 - (s.interval d).1)

/-- The earliest bound of a die reaches a stamp and the die's W (R214, R216). -/
def State.clockReached (s : State) (d t : Nat) : Bool := decide (t + (s.die d).clkw ≤ (s.interval d).1)

/-- The die that holds a line. -/
def dieOfLine (line : Nat) : Nat := paVaultOf (line * 64) / 64

/-- The lines that the lanes of an STS hit, each with the bytes written there, higher lanes last (R214, R221). -/
def stampLines (ls : List LaneAcc) : List (Nat × List (Nat × Byte)) :=
  let bytes := ls.flatMap fun l => l.refs.zip l.data
  (distinct (bytes.map fun x => x.1.pa / 64)).map fun line =>
    (line, (bytes.filter fun x => decide (x.1.pa / 64 = line)).map fun x => (x.1.pa % 64, x.2))

/-- The stamp of an STS: the latest bound of the issuing die, reported, and logged or forced (R212, R214, R232). -/
def State.takeStamp (s : State) (r : Ref) : Nat × State :=
  let d := dieOf r.core
  let v := (s.interval d).2 % 2 ^ 64
  (s.report d).wickValue r 6 8 v

/-- The versions an STS forms, on their way to their lines (R214). -/
def State.formVersions (s : State) (r : Ref) (stamp : Nat) (ls : List LaneAcc) : State :=
  let refs := ls.flatMap (·.refs)
  let ps := (stampLines ls).map fun x =>
    let b := (refs.find? fun y => decide (y.pa / 64 = x.1)).getD { pa := 0, dom := 0, epoch := 0, tagged := true, cached := false, stamp := 2 }
    ({ line := x.1, limit := b.stamp, stamp := stamp, die := dieOf r.core, ref := r, pc := s.pcOf r, seqNo := s.nextIssue, bytes := x.2, arrived := false, dropped := false, dom := b.dom, epoch := b.epoch, threads := distinct ((ls.filter fun l => l.refs.any fun y => decide (y.pa / 64 = x.1)).flatMap (·.threads)) } : Pending)
  { s with pending := s.pending ++ ps, nextIssue := s.nextIssue + 1 }

/-- STS (R214, R232). -/
def execSts (d a b : Reg) (m : Option Mods) (s : State) : Out :=
  issueSeq s fun s r => do
    let md := modsOf m
    s.bounds r [(d, dataRegs d md.size), (a, 2)]
    let pairOf := match b with
      | .g n => n.val
      | _ => 0
    waitFor (!s.pendingG r pairOf && !s.pendingG r (pairOf + 1))
    if s.applied r = 0 then do
      need (!s.clockWide (dieOf r.core)) .clockWide
      let (stamp, s1) := s.takeStamp r
      pure ((s1.putPair r pairOf (BitVec.ofNat 64 stamp)).modWarp r fun w => { w with laststamp := BitVec.ofNat 64 stamp })
    else do
      let addr ← s.addrRow r a 0
      let rows ← s.runRows r d (dataRegs d md.size)
      s.room r .st
      need (!s.clockWide (dieOf r.core)) .clockWide
      let ls ← s.laneAccs r .stampStore (s.applied r) addr md.size.bytes (fun j => leBytes md.size.bytes (runVal rows j)) (fun _ => false)
      let (stamp, s1) := ((s.touchAccs r true ls).consume r [d]).takeStamp r
      let s2 := (s1.enter r .st).formVersions r stamp ls
      pure ((s2.putPair r pairOf (BitVec.ofNat 64 stamp)).modWarp r fun w => { w with laststamp := BitVec.ofNat 64 stamp })

/-- The key of one version lies below another's: stamp first, then origin die (R215). -/
def keyLt (a b : Nat × Nat) : Bool := decide (a.1 < b.1) || (decide (a.1 = b.1) && decide (a.2 < b.2))

/-- Bytes laid over a line. -/
def overlay (line : List Byte) (bytes : List (Nat × Byte)) : List Byte := bytes.foldl (fun l b => setAt l b.1 b.2) line

/-- A version installed among the retained ones (R215). -/
def installVersion (limit : Nat) (vs : List Version) (p : Pending) : List Version :=
  let key := (p.stamp, p.die)
  if vs.any fun v => decide ((v.stamp, v.die) = key) then vs.map fun v => if (v.stamp, v.die) = key then { v with data := overlay v.data p.bytes } else v
  else
    match (vs.filter fun v => keyLt (v.stamp, v.die) key).getLast? with
    | none => vs
    | some base =>
      let new : Version := { stamp := p.stamp, die := p.die, visible := false, data := overlay base.data p.bytes }
      let all := (vs.filter fun v => keyLt (v.stamp, v.die) key) ++ new :: vs.filter fun v => keyLt key (v.stamp, v.die)
      all.drop (all.length - limit)

/-- A line's granule taken by an owner before versions are kept in it (R333). -/
def State.ownLine (s : State) (b : BRef) : State :=
  if s.tagOf b.pa = (b.dom, b.epoch) then s else s.ownWrite b 0

/-- A version installed at its line. -/
def State.installPending (s : State) (p : Pending) : State :=
  let vs := installVersion p.limit (s.versions p.lineRef) p
  let s1 := s.ownLine p.lineRef
  { s1 with stamped := Tab.set [] s1.stamped p.line vs }

/-- An STS leaves its counter when no version of it is outstanding (R214, R222). -/
def State.stampDone (s : State) (r : Ref) (seqNo : Nat) : State :=
  if s.pending.any fun p => decide (p.ref = r) && decide (p.seqNo = seqNo) then s else s.leave r .st seqNo

/-- STAMP_VERSION_ARRIVE: a version reaches its line, after the older accesses of its threads that go before it, and is installed in
time, or is discarded (R194, R202, R214). -/
def execStampVersionArrive (idx : Nat) (s : State) : Out :=
  match s.pending[idx]? with
  | some p =>
    if p.arrived || p.dropped || s.heldFor p.seqNo (p.line * 64) || !s.inOrder p.ref.core p.access then .next s
    else if s.clockReached (dieOfLine p.line) p.stamp then
      .next ({ s with pending := setAt s.pending idx { p with dropped := true } }.drainSt p.ref)
    else
      let s1 := (s.installPending p).heal (p.bytes.map fun x => { p.lineRef with pa := p.line * 64 + x.1 })
      .next { s1 with pending := setAt s1.pending idx { p with arrived := true } }
  | none => .next s

/-- A version marked visible. -/
def markVisible (vs : List Version) (p : Pending) : List Version :=
  vs.map fun v => if v.stamp = p.stamp ∧ v.die = p.die then { v with visible := true } else v

/-- STAMP_VERSION_VISIBLE: an installed version becomes visible when the earliest bound of its line's die reaches its stamp
and W (R214). -/
def execStampVersionVisible (idx : Nat) (s : State) : Out :=
  match s.pending[idx]? with
  | some p =>
    if p.arrived && !p.dropped && !s.held (p.line * 64) && s.clockReached (dieOfLine p.line) p.stamp then
      let s1 := { s with stamped := Tab.set [] s.stamped p.line (markVisible (Tab.get [] s.stamped p.line) p), pending := dropAt s.pending idx }
      .next ((s1.noteWrite (p.line * 64)).stampDone p.ref p.seqNo)
    else .next s
  | none => .next s

/-- LDAS: the warp waits for its answer and issues nothing else (R216, R233). -/
def execLdas (d a b : Reg) (m : Option Mods) (s : State) : Out :=
  issue s fun s r => do
    need (!s.foreign r (s.nextPc r)) .priv
    let md := modsOf m
    s.bounds r [(d, dataRegs d md.size), (a, 2)]
    if s.applied r = 0 then pure (s.retire r)
    else do
      let addr ← s.addrRow r a 0
      let t ← (match b with
        | .g n => s.pairVal r n.val
        | _ => trapc .illegalOperand)
      s.destReady r d (dataRegs d md.size)
      s.room r .ld
      need (!s.clockWide (dieOf r.core)) .clockWide
      let mk (ls : List LaneAcc) : Flight := Flight.bare r .load s.nextIssue (s.pcOf r) ls
      let ls ← s.laneAccs r .stampLoad (s.applied r) addr md.size.bytes (fun _ => []) (s.loses r.core (mk []))
      s.readable (mk ls)
      let op : LdasOp := { ref := r, seqNo := s.nextIssue, t := t.toNat, dest := d, size := md.size.bytes, pc := s.pcOf r, next := s.nextPc r, mask := s.applied r, lanes := ls, got := [] }
      let s1 := ((s.touchAccs r false ls).enter r .ld).modCore r.core fun c => { c with ldas := c.ldas ++ [op] }
      pure { s1.setPfx r none with nextIssue := s.nextIssue + 1, last := .held }

/-- The newest retained version of a line whose stamp is at most t (R216). -/
def asOf (vs : List Version) (t : Nat) : Option Version := (vs.filter fun v => decide (v.stamp ≤ t)).getLast?

/-- One lane's bytes as of a stamp, if its line retains such a version. -/
def State.laneAsOf (s : State) (t : Nat) (l : LaneAcc) : Option (List Byte) :=
  (l.refs.head?).bind fun b => (asOf (s.versions b) t).map fun v => l.refs.map fun x => v.data.getD (x.pa % 64) 0

/-- A lane of an LDAS may be answered: its line's die has reached t and W, and the older accesses that go before it are performed
(R202, R216). -/
def State.ldasMay (s : State) (o : LdasOp) (l : LaneAcc) : Bool :=
  l.refs.all (fun b => !s.heldFor o.seqNo b.pa && s.clockReached (dieOfLine (b.pa / 64)) o.t) && s.inOrder o.ref.core { o.access with lanes := [l] }

/-- The lanes of an LDAS that are not answered yet. -/
def LdasOp.open_ (o : LdasOp) : List LaneAcc := o.lanes.filter fun l => !(o.got.any fun x => decide (x.1 = l.lane))

/-- The size of an LDAS. -/
def LdasOp.mods (o : LdasOp) : Size := if o.size = 16 then .b128 else if o.size = 8 then .b64 else .b32

/-- An LDAS as a load that fills its destination. -/
def LdasOp.fills (o : LdasOp) : Flight := { o.access with mask := o.mask, dest := .lanes o.dest (dataRegs o.dest o.mods) }

/-- The lanes of an LDAS whose lines retain no version at or below its stamp (R216). -/
def LdasOp.expired (o : LdasOp) : List FaultRec := o.lanes.filterMap fun l =>
  if o.got.any fun x => decide (x.1 = l.lane) && x.2.isNone then some { lane := l.lane, cause := .stampExpired, addr := l.addr, addr2 := none, aux := 0 } else none

/-- An LDAS whose lanes are all answered: every lane takes its version and the warp goes on, or STAMP_EXPIRED is taken at the LDAS
(R216). It retires there, so the warp's back-off level returns to 0 (R300). -/
def State.answerLdas (s : State) (o : LdasOp) : State :=
  let s1 := (s.modCore o.ref.core fun c => { c with ldas := c.ldas.filter fun x => decide (x ≠ o) }).leave o.ref .ld o.seqNo
  match o.expired with
  | [] => ((s1.deliver o.fills (o.got.map fun x => (x.1, ofLe (x.2.getD []))) 0).modWarp o.ref fun w => { w with level := 0 }).setPc o.ref o.next
  | bad => s1.takeTrap o.ref (failTrap false bad)

/-- LDAS_ANSWER: the vault controller answers one lane; the last answer completes the LDAS, once a queue register that it fills has room
(R113, R216). -/
def execLdasAnswer (core set : Nat) (at_ : HeldLane) (s : State) : Out :=
  match (s.core core).ldas.find? fun o => decide (o.ref = { core := core, set := set, who := .warp at_.warp }) with
  | some o =>
    match o.open_.find? fun l => decide (l.lane = at_.lane) with
    | some l =>
      let o1 := { o with got := o.got ++ [(at_.lane, s.laneAsOf o.t l)] }
      if s.ldasMay o l && (!o1.open_.isEmpty || decide (o1.expired ≠ []) || s.destRoom o1.fills) then
        let s1 := s.modCore core fun c => { c with ldas := c.ldas.map fun x => if x = o then o1 else x }
        .next (if o1.open_.isEmpty then s1.answerLdas o1 else s1)
      else .next s
    | none => .next s
  | none => .next s

/-- CLKIV: both bounds of the issuing die's interval, read at one instant (R234). -/
def execClkiv (d : Fin 12) (s : State) : Out :=
  issueSeq s fun s r => do
    let n := 4 * d.val
    waitFor ((List.range 4).all fun i => !s.pendingG r (n + i))
    let die := dieOf r.core
    let (e, l) := s.interval die
    let (v, s1) := (s.report die).wickValue r 4 16 (e % 2 ^ 64 + 2 ^ 64 * (l % 2 ^ 64))
    pure ((s1.putPair r n (BitVec.ofNat 64 v)).putPair r (n + 2) (BitVec.ofNat 64 (v / 2 ^ 64)))

/-- BEACON_ARRIVAL: a beacon that places pod time in [lo, hi] (R212). At the first one the interval takes the beacon's bounds, and the
weight banks whose window the calendar's move to pod time skips are refreshed (R184). -/
def State.beacon (s : State) (d lo hi : Nat) : State :=
  let (e, m) := s.interval d
  let first := if (s.die d).lantern.beaconed then [] else skippedBanks (s.calendarAt d s.time) (s.calendarAt d (max e lo))
  s.modDie d fun x => { (first.foldl (fun y b => y.refresh b s.time) x) with lantern := { x.lantern with beaconed := true, earliest := max e lo, latest := max (min m hi) x.lantern.floor_, at_ := s.time } }

/-- Beacons reach the package on its fabric ports: it takes them from there, is no KY-1S, and a port is up (R395). -/
def State.fabricBeacons (s : State) : Bool :=
  !s.bcnsrc && decide (s.part ≠ .ky1s) && s.routed

/-- BEACON_ARRIVAL reaches a die of a package that takes its beacons from the fabric (R212, R395). -/
def execBeaconArrival (die lo hi : Nat) (s : State) : Out :=
  .next (if s.fabricBeacons && decide (die < s.dieCount) && decide (lo ≤ hi) then s.beacon die lo hi else s)

/-- HBEACON: in host mode a write is a beacon for every die, forwarded on every fabric port that is up; otherwise it is
stored (R395). -/
def execHbeacon (t : DWord) (s : State) : Out :=
  let s1 := { s with hbeacon := t }
  if s.bcnsrc then
    let u := s.hbeaconu.toNat
    let s2 := (List.range s.dieCount).foldl (fun x d => x.beacon d (t.toNat - u) (min (t.toNat + u) (2 ^ 64 - 1))) s1
    let up := (List.range s.dieCount).flatMap fun d => ((s.die d).ports.filter fun p => p.2.up).map fun _ => (t.toNat - u, min (t.toNat + u) (2 ^ 64 - 1))
    .next { s2 with beaconsOut := s2.beaconsOut ++ up }
  else .next s1

end Sys2Proof.Machine
end

