-- ==== Sys2Proof/Machine/System.lean ====
section
/-! DEFINITION. Control registers, TRAP, SYSCALL, RTE, TLBINV, CFLUSH, WAITEV, LOGCTL and TIME (R293, R346, R348 to R353, R356,
R359, R371, R378). -/

namespace Sys2Proof.Machine

/-! ### Control registers (R346, R348) -/

/-- The domain whose copy a control register instruction reaches (R346). -/
def State.csrDom (s : State) (r : Ref) : Nat := if s.isSuper r then (s.warp r).sdom else s.domOf r

/-- The events of a stream: its domain's doorbell and time compare, and its die's events (R353). -/
def State.eventsOf (s : State) (r : Ref) : Word :=
  let d := s.csrDom r
  let x := s.dom d
  (if x.doorbell then 1#32 else 0) ||| (if decide (x.tcmp.toNat ≤ (s.guest d).toNat) then 2#32 else 0) ||| ((s.die (dieOf r.core)).events &&& 0xF00#32)

/-- A mode of the order log as its two bits. -/
def LogMode.num : LogMode → Nat
  | .off => 0
  | .record => 1
  | .replay => 2

/-- Two entries of a region stack as a word, the lower entry in bits 15:0; an absent entry reads 0 (R346, R375). -/
def regionPair (rs : List (BitVec 16)) (i : Nat) : Word := (rs.getD (i + 1) 0) ++ (rs.getD i 0)

/-- `cr.applystk` (R346). -/
def Warp.applystk (w : Warp) : Word :=
  let top := w.stack.head?
  BitVec.ofNat 32 (w.stack.length + (if (top.map (·.gathered)).getD false then 128 else 0) + 256 * (top.map (·.chunk)).getD 0 + 65536 * (w.tbase % 128))

/-- A control register as CSRR reads it (R346). -/
def State.csrRead (s : State) (r : Ref) (c : Csr) : Word :=
  let w := s.warp r
  let x := s.dom (s.csrDom r)
  let co := s.core r.core
  let die := s.die (dieOf r.core)
  match c with
  | .round => w.round.setWidth 32
  | .tvec => w.tvec
  | .cause => w.cause
  | .epc => w.epc
  | .ftab => lo32 w.ftab
  | .ftabhi => hi32 w.ftab
  | .applystk => w.applystk
  | .priv => if w.priv then 1 else 0
  | .vault => BitVec.ofNat 32 r.core
  | .pd => BitVec.ofNat 32 (s.domOf r)
  | .events => s.eventsOf r
  | .tcmp => lo32 x.tcmp
  | .tcmphi => hi32 x.tcmp
  | .laststamp => lo32 w.laststamp
  | .laststamphi => hi32 w.laststamp
  | .region => regionPair w.regions 0
  | .region2 => regionPair w.regions 2
  | .dmode => BitVec.ofNat 32 ((if x.force then 1 else 0) + 4 * x.log.num)
  | .clkw => BitVec.ofNat 32 die.clkw
  | .wrefresh => BitVec.ofNat 32 die.phase
  | .swapwait => BitVec.ofNat 32 co.swapwait
  | .tmode => if x.tmode then 1 else 0
  | .tscale => x.tscale
  | .svec => co.svec
  | .scause => w.scause
  | .sepc => w.sepc
  | .ptbase => lo32 x.ptbase
  | .ptbasehi => hi32 x.ptbase
  | .hptbase => lo32 x.hptbase
  | .hptbasehi => hi32 x.hptbase
  | .vwbase => lo32 x.vwbase
  | .vwbasehi => hi32 x.vwbase
  | .sdom => BitVec.ofNat 32 w.sdom
  | .toffset => lo32 x.toffset
  | .toffsethi => hi32 x.toffset

/-- Registers that only the supervisor reads (R346). -/
def csrSuper (c : Csr) : Bool := decide (0x100 ≤ c.num.toNat)

/-- Registers that a user may write (R346). -/
def csrUserWrites : Csr → Bool
  | .round | .tvec | .epc | .ftab | .ftabhi | .events | .tcmp | .tcmphi => true
  | _ => false

/-- Registers that are read-only at every privilege (R346). -/
def csrReadOnly : Csr → Bool
  | .applystk | .priv | .vault | .pd | .laststamp | .laststamphi | .region | .region2 => true
  | _ => false

/-- The values that a control register does not take: a handler address that is misaligned or outside instruction memory, a
misaligned trap area (R348). -/
def csrBad (c : Csr) (x : Word) : Bool :=
  match c with
  | .tvec | .svec => decide (x.toNat % 4 ≠ 0) || decide (Config.imemBytes ≤ x.toNat)
  | .ftab => decide (x.toNat % 16 ≠ 0)
  | _ => false

/-- The values that a control register of a core does not take: those of R348, and a supervisor entry outside the supervisor's granules
(R346). -/
def State.csrRefuses (s : State) (core : Nat) (c : Csr) (x : Word) : Bool :=
  csrBad c x || (decide (c = .svec) && decide ((s.core core).ownerOf x ≠ .supervisor))

/-- The low word of a 64-bit value replaced. -/
def setLo (x : DWord) (w : Word) : DWord := pair64 w (hi32 x)
/-- The high word of a 64-bit value replaced. -/
def setHi (x : DWord) (w : Word) : DWord := pair64 (lo32 x) w

/-- The events that a write of 1 clears: the domain's doorbell, and at supervisor privilege those of the die (R346, R353). -/
def State.clearEvents (s : State) (r : Ref) (x : Word) : State :=
  let s1 := if x.getLsbD 0 then s.modDom (s.csrDom r) fun d => { d with doorbell := false } else s
  if s.isSuper r then s1.modDie (dieOf r.core) fun d => { d with events := d.events &&& ~~~(x &&& 0xF00#32) } else s1

/-- `cr.dmode` written: bit 0 forces, bits 3:2 are the log mode; the value 3 is ignored (R293). -/
def Domain.setMode (d : Domain) (x : Word) : Domain :=
  match x.toNat / 4 % 4 with
  | 0 => { d with force := x.getLsbD 0, log := .off }
  | 1 => { d with force := x.getLsbD 0, log := .record }
  | 2 => { d with force := x.getLsbD 0, log := .replay }
  | _ => d

/-- A control register of a core, die or domain written; reserved bits are ignored (R346). -/
def State.csrShared (s : State) (core dom : Nat) (c : Csr) (x : Word) : State :=
  let onDom (f : Domain → Domain) : State := s.modDom dom f
  let onDie (f : Die → Die) : State := s.modDie (dieOf core) f
  match c with
  | .tcmp => onDom fun d => { d with tcmp := setLo d.tcmp x }
  | .tcmphi => onDom fun d => { d with tcmp := setHi d.tcmp x }
  | .dmode => onDom fun d => d.setMode x
  | .clkw => onDie fun d => { d with clkw := min 1000 (max 20 (x.toNat % 1024)) }
  | .wrefresh => onDie fun d => { d with phase := x.toNat % 32768 % 32000 }
  | .swapwait => s.modCore core fun co => { co with swapwait := x.toNat % 2 ^ 24 }
  | .tmode => onDom fun d => { d with tmode := x.getLsbD 0 }
  | .tscale => onDom fun d => { d with tscale := if x = 0 then 0x00010000 else x }
  | .svec => s.modCore core fun co => { co with svec := x }
  | .ptbase => onDom fun d => { d with ptbase := setLo d.ptbase x }
  | .ptbasehi => onDom fun d => { d with ptbase := setHi d.ptbase x }
  | .hptbase => onDom fun d => { d with hptbase := setLo d.hptbase x }
  | .hptbasehi => onDom fun d => { d with hptbase := setHi d.hptbase x }
  | .vwbase => onDom fun d => { d with vwbase := setLo d.vwbase x }
  | .vwbasehi => onDom fun d => { d with vwbase := setHi d.vwbase x }
  | .toffset => onDom fun d => { d with toffset := setLo d.toffset x }
  | .toffsethi => onDom fun d => { d with toffset := setHi d.toffset x }
  | .events => (if x.getLsbD 0 then onDom fun d => { d with doorbell := false } else s).modDie (dieOf core) fun d =>
      { d with events := d.events &&& ~~~(x &&& 0xF00#32) }
  | _ => s

/-- A control register written by CSRW; reserved bits are ignored (R346). -/
def State.csrWrite (s : State) (r : Ref) (c : Csr) (x : Word) : State :=
  match c with
  | .round => s.modWarp r fun w => { w with round := x.setWidth 2 }
  | .tvec => s.modWarp r fun w => { w with tvec := x }
  | .cause => s.modWarp r fun w => { w with cause := causeMask &&& x }
  | .epc => s.modWarp r fun w => { w with epc := x }
  | .ftab => s.modWarp r fun w => { w with ftab := setLo w.ftab x }
  | .ftabhi => s.modWarp r fun w => { w with ftab := setHi w.ftab x }
  | .events => s.clearEvents r x
  | .scause => s.modWarp r fun w => { w with scause := scauseMask &&& x }
  | .sepc => s.modWarp r fun w => { w with sepc := x }
  | .sdom => s.modWarp r fun w => { w with sdom := x.toNat % 1024 }
  | c => s.csrShared r.core (s.csrDom r) c x

/-- CSRR (R348). -/
def execCsrr (x : Reg) (csr : Csr) (s : State) : Out :=
  issueSeq s fun s r => do
    need (!csrSuper csr || s.isSuper r) .priv
    s.putUni r x (s.csrRead r csr)

/-- CSRW (R348). -/
def execCsrw (x : Reg) (csr : Csr) (s : State) : Out :=
  issueSeq s fun s r => do
    need (s.isSuper r || (!csrSuper csr && csrUserWrites csr)) .priv
    need (!csrReadOnly csr) .illegalField
    let v ← s.uniVal r x
    need (!s.csrRefuses r.core csr v) .illegalField
    pure ((s.consume r [x]).csrWrite r csr v)

/-! ### TRAP, SYSCALL and stops (R349, R377) -/

/-- A trap taken after an instruction that has had its whole effect (R355). An entry that must wait holds back the instruction with it. -/
def State.trapAfter (s : State) (r : Ref) (c : Cause) (code : BitVec 16) (site : BitVec 2) : Exc State :=
  let t := s.takeTrap r { Trap.of c with code := code, site := site, after := true }
  if t.last = .stalled then .error .stall else .ok { t with last := .retired }

/-- TRAP and SYSCALL: where the next word, at the saved PC, lies in a foreign granule, the instruction traps with PRIV instead (R308, R349). -/
def callTrap (c : Cause) (i16 : BitVec 16) (s : State) : Out :=
  issue s fun s r => do
    need (!s.foreign r (s.nextPc r)) .priv
    s.trapAfter r c i16 0

/-- TRAP (R349). -/
def execTrap (i16 : BitVec 16) (s : State) : Out := callTrap .trap i16 s
/-- SYSCALL (R349). -/
def execSyscall (i16 : BitVec 16) (s : State) : Out := callTrap .syscall i16 s

/-! ### RTE (R350, R356, R359) -/

/-- A copy or chain that failed, and every later one of its warp, cancelled (R247). -/
def State.cancelCp (s : State) (r : Ref) (op : Nat) : State :=
  let gone := (s.core r.core).cpops.filter fun o => decide (o.ref = r) && decide (op ≤ o.id)
  let s1 := gone.foldl (fun t o => t.leave r .cp o.id) s
  (s1.modCore r.core fun c => { c with cpops := c.cpops.filter fun o => !(decide (o.ref = r) && decide (op ≤ o.id)) }).drainCp r (s.core r.core).cpops.length

/-- The oldest stamped store of a warp with a missed install dealt with: its discarded versions are gone (R214, R359). -/
def State.dropMissed (s : State) (r : Ref) : State :=
  match s.missedOf r with
  | [] => s
  | p :: _ => { s with pending := s.pending.filter fun x => !(decide (x.ref = r) && decide (x.seqNo = p.seqNo) && x.dropped) }.stampDone r p.seqNo

/-- The array operation that a handler dealt with restarted, or all cancelled. -/
def State.settleArray (s : State) (r : Ref) (op : Nat) (abandon : Bool) : State := if abandon then s.discardArr r.core else s.restartArr r.core op

/-- As `settleArray`, on the array state that a resumed workgroup has not yet got back (R160, R359). -/
def State.settleSaved (s : State) (r : Ref) (op : Nat) (abandon : Bool) : State :=
  match (s.wgOf r).savedArray with
  | none => s
  | some a =>
    let t := (s.modArray r.core fun _ => a).settleArray r op abandon
    (t.modWgOf r fun g => { g with savedArray := some (t.array r.core) }).modArray r.core fun _ => s.array r.core

/-- What the return does with the deferred operation that the handler dealt with (R359). -/
def State.settleDeferred (s : State) (r : Ref) (d : Deferred) (abandon : Bool) : State :=
  match d with
  | .none => s
  | .copyOrChain op =>
    if abandon then s.cancelCp r op
    else match (s.core r.core).cpops.find? fun o => decide (o.id = op) with
      | some o => s.putCp r.core o.restarted
      | none => s
  | .array op =>
    if (s.array r.core).holder ≠ some r.set then s.settleSaved r op abandon
    else if (s.arrOf r).any fun o => decide (o.seqNo = op) && OpFault.owed o.fault then s.settleArray r op abandon
    else s
  | .stamp => s.dropMissed r

/-- The uniform registers that a trap area keeps, restored, and the handler is left (R359). -/
def State.leaveHandler (s : State) (r : Ref) (bs : List Byte) : State :=
  let s1 := (List.range 8).foldl (fun t i => t.setG r (40 + i) (BitVec.ofNat 32 (field bs (32 + 4 * i) 4))) s
  s1.modWarp r fun w => { w with active := false, deferred := .none }

/-- RTE at user privilege (R359). -/
def State.returnUser (s : State) (r : Ref) : Exc State := do
  let w := s.warp r
  need w.active .priv
  need (decide (w.stack.length = w.tbase)) .setNest
  waitFor ((List.range 8).all fun i => !s.pendingG r (40 + i))
  let (bs, s1) ← s.readStruct r w.ftab 64 16
  let abandon := (field bs 14 1).testBit 0
  let s2 := if decide (w.cause.extractLsb' 0 8 = Cause.accessFault.code) then s1.restartSlice r else s1
  if abandon && decide (w.deferred = .none) && w.inGathered then do
    let t ← s.checkTarget r ((w.stack.getLast?.map Entry.ret).getD 0).toNat
    let s3 := (s2.leaveHandler r bs).abandonApply r fun _ x => x.goto r t
    if (s3.warp r).live = 0 then s3.finishWarp r else pure s3
  else do
    let t ← s.checkTarget r w.epc.toNat
    pure (((s2.settleDeferred r w.deferred abandon).leaveHandler r bs).goto r t)

/-- RTE at supervisor privilege: a saved PC in a granule that the warp may not run traps it with PRIV, and a slice whose marked row the
handler has dealt with is restarted (R286, R308, R350). -/
def State.returnHandler (s : State) (r : Ref) : Exc State := do
  let w := s.warp r
  need w.sactive .priv
  let s1 := if decide (w.scause.extractLsb' 0 8 = Cause.accessFault.code) then s.restartSlice r else s
  let s2 := s1.returnSupervisor r
  need (!s2.foreign r w.sepc) .priv
  pure s2

/-- RTE (R350). -/
def execRte (s : State) : Out := issue s fun s r => if s.isSuper r then s.returnHandler r else s.returnUser r

/-! ### TLBINV and CFLUSH (R351, R352) -/

/-- Translations of a domain dropped: all of them, or those that cover an address. -/
def dropTlb (d : Nat) (va : Option Nat) (t : List TlbEntry) : List TlbEntry :=
  t.filter fun e => !(decide (e.dom = d) && (match va with
    | none => true
    | some a => decide (e.space = bitsOf a 55 53) && decide (e.vpn = a % 2 ^ 53 / e.size)))

/-- Translations dropped in every TLB of the package. -/
def State.dropTlbs (s : State) (d : Nat) (va : Option Nat) : State :=
  { s with
    cores := s.cores.map fun c => (c.1, { c.2 with tlb := dropTlb d va c.2.tlb })
    quads := s.quads.map fun q => (q.1, { q.2 with tlb := dropTlb d va q.2.tlb }) }

/-- Every access of a domain that has used a translation is performed, but for the bytes its cores' L1 hold dirty, and no vault keeps
those from their write-back, nor a write of the device for the domain (R177, R203, R351). -/
def State.domQuiet (s : State) (d : Nat) : Bool :=
  (s.delayed.all fun w => w.refs.all fun b => decide (b.dom ≠ d)) &&
  s.cores.all fun c => !((s.outstanding c.1).any fun f => decide ((s.wg c.1 f.ref.set).dom = d)) && !s.dirtyHeld c.1 d

/-- The dirty bytes that every core's L1 holds for a domain performed. -/
def State.flushDomain (s : State) (d : Nat) : State := s.cores.foldl (fun t c => t.writeBackAll c.1 d) s

/-- TLBINV (R351). -/
def execTlbinv (a : Fin 48) (s : State) : Out :=
  issueSeq s fun s r => do
    need (s.isSuper r) .priv
    let x ← s.gpair r a
    need (decide (bitsOf x.toNat 62 56 = 0)) .illegalField
    let d := (s.warp r).sdom
    waitFor (s.domQuiet d)
    pure ((s.flushDomain d).dropTlbs d (if x.getLsbD 63 then none else some (x.toNat % 2 ^ 56)))

/-- The physical ranges behind a range of virtual addresses, one for each 64 KiB page that has a translation (R352). -/
def State.spans (s : State) (core dom va n : Nat) : List (Nat × Nat) :=
  (List.range ((va + n - 1) / 65536 - va / 65536 + 1)).filterMap fun i =>
    let lo := max va ((va / 65536 + i) * 65536)
    let hi := min (va + n) ((va / 65536 + i + 1) * 65536)
    if bitsOf lo 55 53 = 2 ∨ bitsOf lo 55 53 = 3 then none
    else match s.translate core dom lo with
      | .ok e => some (e.pa + lo % 2 ^ 53 % e.size, hi - lo)
      | .error _ => none

/-- An L1 line holds a byte of a physical range. -/
def L1Line.meets (l : L1Line) (p : Nat × Nat) : Bool := decide (l.line * 128 < p.1 + p.2) && decide (p.1 < l.line * 128 + 128)

/-- Lines written back and invalidated. -/
def State.flushLines (s : State) (core : Nat) (ls : List L1Line) : State :=
  ls.foldl (fun t l => (t.writeBack core l (BitVec.allOnes 128)).modCore core fun c => c.l1Drop l.dom l.line) s

/-- No vault keeps the dirty bytes of some lines from their write-back (R177). -/
def State.linesFree (s : State) (ls : List L1Line) : Bool := ls.all fun l => decide (l.dirty = 0) || !s.held (l.line * 128)

/-- CFLUSH (R352): the warp's own accesses are performed first. -/
def execCflush (a b : Reg) (s : State) : Out :=
  issueSeq s fun s r => do
    let n ← s.uniVal r b
    let d := s.domOf r
    let mine := (s.core r.core).l1.filter fun l => decide (l.dom = d)
    if n = 0 then do
      waitFor (s.quiet r && s.linesFree mine)
      pure ((s.consume r [b]).flushLines r.core mine)
    else do
      let addr ← s.uniAddr r a 0
      let last := addr.toNat + n.toNat - 1
      needAt (decide (last < 2 ^ 56) && decide (bitsOf addr.toNat 55 53 = bitsOf last 55 53) && decide (bitsOf last 55 53 ≤ 4)) .space addr
      let ps := s.spans r.core d addr.toNat n.toNat
      let ls := mine.filter fun l => ps.any fun p => l.meets p
      waitFor (s.quiet r && s.linesFree ls)
      pure ((s.consume r [b]).flushLines r.core ls)

/-! ### WAITEV (R353) -/

/-- The defined events. -/
def eventMask : Word := 0xF03#32

/-- WAITEV. -/
def execWaitev (a : Reg) (s : State) : Out :=
  issueSeq s fun s r => do
    let m ← s.uniVal r a
    need (decide (m &&& ~~~eventMask = 0)) .illegalField
    waitFor (decide (m = 0) || decide (s.eventsOf r &&& m ≠ 0))
    pure (s.consume r [a])

/-- No stream of a workgroup waits for another try. -/
def Workgroup.wake (g : Workgroup) : Workgroup :=
  { g with warps := g.warps.map fun w => (w.1, { w.2 with waiting := false }), slice := { g.slice with waiting := false } }

/-- The streams of a domain's workgroups test again what they wait for. -/
def State.wakeDomain (s : State) (d : Nat) : State :=
  { s with cores := s.cores.map fun c => (c.1, { c.2 with wgs := c.2.wgs.map fun g => (g.1, if g.2.dom = d then g.2.wake else g.2) }) }

/-- TCMP_REACHED: guest time has reached the compare value; event bit 1 follows the comparison, and waiting warps test it
again (R353). No time is returned to the domain (R341). -/
def execTcmpReached (dom : Nat) (s : State) : Out := .next (if (s.dom dom).tcmp.toNat ≤ (s.guest dom).toNat then s.wakeDomain dom else s)

/-! ### LOGCTL (R371) -/

/-- LOGCTL off. -/
def execLogctlOff (_a : Reg) (s : State) : Out :=
  issueSeq s fun s r => pure (s.modDom (s.domOf r) fun d => { d with log := .off })

/-- LOGCTL record: entries are written from entry g(a). -/
def execLogctlRecord (a : Reg) (s : State) : Out :=
  issueSeq s fun s r => do
    let x ← s.uniVal r a
    pure ((s.consume r [a]).modDom (s.domOf r) fun d => { d with log := .record, logNext := x.toNat, overflow := false })

/-- LOGCTL replay: forcing reads from entry g(a). -/
def execLogctlReplay (a : Reg) (s : State) : Out :=
  issueSeq s fun s r => do
    let x ← s.uniVal r a
    pure ((s.consume r [a]).modDom (s.domOf r) fun d => { d with log := .replay, logFrom := x.toNat, logNext := x.toNat, cursors := [], diverged := false })

/-- LOGCTL read position. -/
def execLogctlReadPosition (a : Reg) (s : State) : Out :=
  issueSeq s fun s r =>
    let d := s.dom (s.domOf r)
    s.putUni r a (BitVec.ofNat 32 ((if d.diverged then 2 ^ 31 else 0) + (if d.overflow then 2 ^ 30 else 0) + d.logNext % 2 ^ 30))

/-! ### TIME (R378) -/

/-- TIME: guest time, logged in record mode and forced in replay mode. -/
def execTime (d : Fin 48) (s : State) : Out :=
  issueSeq s fun s r => do
    waitFor (!s.pendingG r d.val && !s.pendingG r (d.val + 1))
    let dom := s.domOf r
    let (v, s1) := (s.noteGuest dom).wickValue r 5 8 (s.guest dom).toNat
    pure (s1.putPair r d.val (BitVec.ofNat 64 v))

end Sys2Proof.Machine
end

