-- ==== Sys2Proof/Machine/Observe.lean ====
section
/-! DEFINITION. Seeing the machine work: ENTER, LEAVE, MARK, BKPT, trace records, and stall samples with their blame (R374 to R377,
R379 to R382). -/

namespace Sys2Proof.Machine

/-! ### Trace records (R380, R381) -/

/-- The 32 bytes of a trace record. -/
def traceBytes (kind cls who pipe core dom time : Nat) (pc aux : Word) (regions : List (BitVec 16)) : List Byte :=
  leBytes 1 kind ++ leBytes 1 cls ++ leBytes 1 who ++ leBytes 1 pipe ++ leBytes 2 core ++ leBytes 2 dom ++ leBytes 8 time ++
    leBytes 4 pc.toNat ++ leBytes 4 aux.toNat ++ (List.range 4).flatMap fun i => leBytes 2 (regions.getD i 0).toNat

/-- A record written to the trace buffer of a domain; without a present, writable translation, or in a full buffer that does
not wrap, it is dropped and counted (R380). TWPTR moves behind it as it is performed: one for a held vault waits, and so do those behind it
(R177, R381). -/
def State.trace (s : State) (core d : Nat) (bs : List Byte) : State :=
  let x := s.dom d
  let lost := s.modDom d fun y => { y with tlost := y.tlost + 1 }
  if !x.octl.getLsbD 4 && decide (2 ^ x.tsize ≤ x.tnext) then lost
  else
    let va := x.tbuf + BitVec.ofNat 64 (32 * (x.tnext % 2 ^ x.tsize))
    let a : Actor := { core := core, set := Config.queueSets, dom := d, superv := true }
    if bitsOf va.toNat 63 53 ≠ 0 then lost
    else match resolve s .store a va 32 32 with
      | .error _ => lost
      | .ok refs =>
      let t := (s.touchAll a true [va.toNat]).modDom d fun y => { y with tnext := y.tnext + 1 }
      if refs.any (fun b => s.held b.pa) || s.delayed.any (fun w => decide (w.trace = some d)) then t.deviceWrite refs bs (some d)
      else (t.engineWrite core refs bs).modDom d fun y => { y with twptr := y.twptr + 1 }

/-- The record of an ENTER, LEAVE or MARK of a stream. -/
def State.traceHere (s : State) (r : Ref) (kind : Nat) (aux : Word) : State :=
  let d := s.domOf r
  s.trace r.core d (traceBytes kind 0 r.index uniformPipe r.core d (s.guest d).toNat (s.pcOf r) aux (s.warp r).regions)

/-! ### Regions, marks and breakpoints (R375 to R377) -/

/-- Depth of the region stack (R375). -/
def regionDepth : Nat := 16

/-- A region is armed for its enter edge, or its leave edge (R380). -/
def Domain.armed (x : Domain) (id : BitVec 16) (leave : Bool) : Bool :=
  (List.range 4).any fun k =>
    let b := Tab.get 0 x.barm k
    decide (b.extractLsb' 0 16 = id) && decide (id ≠ 0) && b.getLsbD (if leave then 17 else 16)

/-- The instruction retires, or stops for the supervisor after its whole effect (R377). -/
def State.retireOrStop (s : State) (r : Ref) (stop : Bool) (code : BitVec 16) (site : BitVec 2) : Exc State :=
  if stop then s.trapAfter r .bkpt code site else .ok (s.retire r)

/-- ENTER (R376). -/
def execEnter (i16 : BitVec 16) (s : State) : Out :=
  issue s fun s r => do
    need (!s.foreign r (s.nextPc r)) .priv
    let d := s.domOf r
    let full := decide ((s.warp r).regions.length = regionDepth)
    let s1 := s.modWarp r fun w => { w with regions := (i16 :: w.regions).take regionDepth }
    let s2 := if full then s1.count d 15 1 else s1
    let s3 := if (s.dom d).octl.getLsbD 2 then s2.traceHere r 3 (i16.setWidth 32) else s2
    s3.retireOrStop r ((s.dom d).armed i16 false) i16 1

/-- LEAVE (R376). -/
def execLeave (i16 : BitVec 16) (s : State) : Out :=
  issue s fun s r => do
    need (!s.foreign r (s.nextPc r)) .priv
    let d := s.domOf r
    let rs := (s.warp r).regions
    let s1 := if rs.contains i16 then s.modWarp r fun w => { w with regions := rs.drop (rs.idxOf i16 + 1) } else s.count d 15 1
    let s2 := if (s.dom d).octl.getLsbD 2 then s1.traceHere r 4 (i16.setWidth 32) else s1
    s2.retireOrStop r ((s.dom d).armed i16 true) i16 2

/-- MARK (R376). -/
def execMark (i16 : BitVec 16) (s : State) : Out :=
  issueSeq s fun s r => pure (if (s.dom (s.domOf r)).octl.getLsbD 1 then s.traceHere r 2 (i16.setWidth 32) else s)

/-- BKPT (R376, R377). -/
def execBkpt (i16 : BitVec 16) (s : State) : Out :=
  issue s fun s r => do
    need (!s.foreign r (s.nextPc r)) .priv
    s.retireOrStop r ((s.dom (s.domOf r)).octl.getLsbD 3) i16 0

/-! ### Stall samples (R379, R381) -/

/-- What an instruction reads or writes that it may have to wait for: a run of lane or uniform registers, a queue register it pops or
pushes, a set register (R29, R284). -/
inductive Use where
  | v (n k : Nat)
  | g (n k : Nat)
  | q (n : Nat) (push : Bool)
  | s (n : Nat)
  deriving DecidableEq, Repr

/-- A register operand of `k` registers. -/
def regUse (push : Bool) (r : Reg) (k : Nat) : List Use := match r with
  | .v n => [.v n.val k]
  | .g n => [.g n.val k]
  | .q n => [.q n.val push]
  | _ => []

/-- A source operand. -/
def srcUse : Src → List Use
  | .reg r => regUse false r 1
  | .imm _ => []

/-- The registers of an instruction's operands; conversions, slices and atomics count as quadruples. -/
def usesOf : Instr → List Use
  | .add d a b | .sub d a b | .mul d a b | .mulhi d a b | .mulhn d a b | .mad d a b | .min d a b | .max d a b | .minn d a b | .maxn d a b
  | .and d a b | .or d a b | .xor d a b | .andn d a b | .shl d a b | .shr d a b | .sar d a b | .rotl d a b | .bfx d a b | .bfi d a b
  | .fadd d a b | .fsub d a b | .fmul d a b | .ffma d a b | .fmin d a b | .fmax d a b | .fdiv d a b | .hadd2b d a b | .hmul2b d a b
  | .hfma2b d a b | .hadd2h d a b | .hmul2h d a b | .hfma2h d a b | .gadd d a b | .gsub d a b | .gmul d a b | .gand d a b | .gor d a b
  | .gxor d a b | .gshl d a b | .gshr d a b | .gsar d a b | .gmin d a b | .gmax d a b | .gslt d a b | .gsltn d a b | .gseq d a b => regUse true d 1 ++ regUse false a 1 ++ srcUse b
  | .abs d a | .clz d a | .popc d a | .brev d a | .addi d a _ | .shli d a _ | .shri d a _ | .sari d a _ | .mov d a | .fabs d a | .fneg d a
  | .frcp d a | .frsq d a | .fsqrt d a | .fexp2 d a | .flog2 d a | .fsinp d a | .fcosp d a | .ftanh d a | .frnd d a _ | .bzero d a
  | .shflup d a _ _ | .shfldn d a _ _ | .shflx d a _ _ | .redux d a _ | .scan d a _ _ | .gaddi d a _ | .gmov d a => regUse true d 1 ++ regUse false a 1
  | .movi d _ | .movhi d _ | .gmovi d _ | .gmovhi d _ => regUse true d 1
  | .setv d st | .scount d st => regUse true d 1 ++ [.s st.val]
  | .cvt d a _ _ | .xpnd d a _ | .pack d a _ _ | .qscale d a _ _ => regUse true d 4 ++ regUse false a 4
  | .bcmp d a b | .crc32c d a b | .hmix d a b | .shfl d a b _ => regUse true d 1 ++ regUse false a 1 ++ regUse false b 1
  | .movxr d gx _ | .movxw d gx _ => regUse true d 1 ++ regUse false (.g gx) 1
  | .stest _ st sf a b => [.s st.val, .s sf.val] ++ regUse false a 1 ++ srcUse b
  | .ld d a _ m | .poll d a _ m | .gld d a _ m => regUse true d (dataRegs d (modsOf m).size) ++ regUse false a 2
  | .st d a _ m | .gst d a _ m => regUse false d (dataRegs d (modsOf m).size) ++ regUse false a 2
  | .atom _ d a _ => regUse true d 4 ++ regUse false a 2
  | .ldas d a b m | .sts d a b m => regUse true d (dataRegs d (modsOf m).size) ++ regUse false a 2 ++ regUse false b 2
  | .fgetc _ d | .fgetv _ d => regUse true d 4
  | .trd d _ _ gx _ _ => regUse true d 4 ++ regUse false (.g gx) 1
  | .twr d _ _ gx _ _ | .tacc d _ _ gx _ _ => regUse false d 4 ++ regUse false (.g gx) 1
  | .grdl d a b => regUse true d 1 ++ regUse false (.v a) 1 ++ regUse false b 1
  | .brz a _ | .brnz a _ => regUse false (.g a) 1
  | .brse st _ | .brsne st _ | .apply st _ _ | .ftend _ st => [.s st.val]
  | .callr a | .ret a | .jmpr a | .fadv _ a | .fseek _ a | .waitev a | .logctlRecord a | .logctlReplay a => regUse false a 1
  | .sunion sd sa sb | .sinter sd sa sb | .sdiff sd sa sb => [.s sd.val, .s sa.val, .s sb.val]
  | .smov sd sa | .sfirst sd sa => [.s sd.val, .s sa.val]
  | .sall sd | .snone sd | .sfree sd => [.s sd.val]
  | .sld sd a _ | .sst sd a _ => [.s sd.val] ++ regUse false (.g a) 2
  | .sfromv d st => regUse true (.g d) 2 ++ [.s st.val]
  | .stov d st => regUse false (.g d) 2 ++ [.s st.val]
  | .barinit a b | .arrive a b | .waitph a b _ | .cbinit a b | .cbacq a b _ | .cbrel a b | .fopen _ a b | .join a b _ => regUse false (.g a) 2 ++ regUse false b 1
  | .copy a _ | .bindw a _ | .vchain a _ | .loadw a _ | .mloop a | .mmask a | .ald _ a _ | .tlbinv a => regUse false (.g a) 2
  | .spawn d a | .launch d a => regUse true d 1 ++ regUse false (.g a) 2
  | .time d => regUse true (.g d) 2
  | .csrr x _ => regUse true x 1
  | .csrw x _ => regUse false x 1
  | .cflush a b => regUse false a 2 ++ regUse false b 1
  | .logctlReadPosition a => regUse true a 1
  | .clkiv d => [.g (4 * d.val) 4]
  | _ => []

/-- An access in flight has a pending write of an operand. -/
def Dest.writes (d : Dest) (u : Use) : Bool :=
  match d, u with
  | .lanes (.v n) m, .v i k => decide (i < n.val + m) && decide (n.val < i + k)
  | .uni (.g n) m, .g i k => decide (i < n.val + m) && decide (n.val < i + k)
  | .lanes (.q n) _, .q i _ => decide (n.val = i)
  | .uni (.q n) _, .q i _ => decide (n.val = i)
  | .setReg n, .s i => decide (n = i)
  | _, _ => false

/-- The access in flight whose pending write an instruction waits for: its address (R379, class 1). -/
def State.blamedWrite (s : State) (r : Ref) (i : Instr) : Option Word :=
  ((s.core r.core).flights.find? fun f => decide (f.ref = r) && (usesOf i).any f.dest.writes).map (·.pc)

/-- The queue whose row an instruction waits to pop, or whose room to push: its last producer (R379, class 2). -/
def State.blamedQueue (s : State) (r : Ref) (i : Instr) : Option Word :=
  (usesOf i).findSome? fun u => match u with
    | .q n push =>
      let x := (s.wgOf r).queue n
      if (if push then decide (Config.queueRows ≤ x.rows.length) else x.rows.isEmpty) then some x.last else none
    | _ => none

/-- The class whose counter an access enters. What an instruction reads or writes at its issue enters none: it is put with the loads or with
the stores (log entry 86, DEDUCED). -/
def ctrOf : Instr → Option Ctr
  | .atom _ _ _ m => some (if (modsOf m).noret then .st else .ld)
  | .ld .. | .gld .. | .poll .. | .ldas .. | .fgetc .. | .fgetv .. | .sld .. | .spawn .. | .launch .. | .bindw .. | .fopen .. | .fadv .. | .fseek ..
  | .fmerge .. | .mmask _ => some .ld
  | .st .. | .gst .. | .sts .. | .sst .. | .fence .. | .arrive .. | .cflush .. | .tlbinv .. => some .st
  | .copy .. | .vchain .. => some .cp
  | .loadw .. | .mloop _ | .tzero _ => some .tl
  | _ => none

/-- The counter classes that a WAITC still waits for. -/
def Warp.due (w : Warp) : Instr → List Ctr
  | .waitc ld st cp tl => ([(Ctr.ld, ld.val), (.st, st.val), (.cp, cp.val), (.tl, tl.val)].filter fun x => decide (x.2 < w.ctr x.1)).map (·.1)
  | _ => []

/-- The instruction would be the 64th operation of its class (R49). -/
def Warp.full (w : Warp) (i : Instr) : Bool :=
  match ctrOf i with
  | some c => decide (Config.counterMax ≤ w.ctr c)
  | none => false

/-- An array instruction waits for its workgroup's claim (R142). -/
def State.claimWait (s : State) (r : Ref) (i : Instr) : Bool := (s.array r.core).claims.contains r.set && claims i

/-- The counter class that an instruction waits for: its WAITC's, or its own as a 64th operation. An access that waits for none of these, for
no claim and for no register or queue, which stand in lower classes, waits for a vault, an atomic service warp or its warp's older accesses:
its own class too. The class's last issuer is blamed; a held LDAS waits for itself (R177, R216, R230; R379, class 3; log entry 86,
DEDUCED). -/
def State.blamedCounter (s : State) (r : Ref) (i : Instr) : Option Word :=
  let w := s.warp r
  if (s.core r.core).ldas.any fun o => decide (o.ref = r) then some (Tab.get 0 w.writers Ctr.ld.num)
  else if !w.stuck || (s.claimWait r i && !w.full i) then none
  else ((w.due i).head?.or (ctrOf i)).map fun c => Tab.get 0 w.writers c.num

/-- A byte of the weight store lies in a bank in its refresh window (R184). -/
def State.bankStalls (s : State) (a : Actor) (va : Nat) : Bool :=
  match resolve s .weightRead a (BitVec.ofNat 64 (va % 2 ^ 56)) 1 1 with
  | .ok refs => refs.any fun b => decide (paSpace b.pa = 1) && s.bankBusy (bitsOf b.pa 33 32) (bitsOf b.pa 31 27)
  | .error _ => false

/-- A load that the array runs waits for a weight bank in its refresh window, at a column or in its scale stream (R184). A column lies in two
pages at most, and a page in one bank. -/
def State.refreshStalls (s : State) (o : ArrOp) (d : LoadwDesc) : Bool :=
  let a := engineActor o.ref (s.domOf o.ref)
  ((List.range 128).any fun n =>
    let at' := d.src.toNat + n * d.colstride
    s.bankStalls a at' || s.bankStalls a (at' + recordBytes d.fmt - 1)) ||
    (d.scaled && (match s.scales a .weightRead d.scales.toNat d.scalebytes (128 * (latchK d.fmt / 32)) with
      | .error none => true
      | _ => false))

/-- A counter wait, a WAITC or a 64th operation, whose oldest outstanding LOADW stalls on refresh: that LOADW (R184; R379, class 5). It
stands in the place of class 3, which every such wait would meet too (log entry 86, DEDUCED). -/
def State.blamedRefresh (s : State) (r : Ref) (i : Instr) : Option Word :=
  let w := s.warp r
  if w.stuck && ((w.due i).contains .tl || (w.full i && decide (ctrOf i = some .tl))) then
    ((s.arrOf r).findSome? fun o => match o.kind with
      | .loadw d _ => some (o, d)
      | _ => none).bind fun x => if s.refreshStalls x.1 x.2 then some x.1.pc else none
  else none

/-- The pinning warp of a pinned warp: the address of its APPLY. -/
def State.blamedPin (s : State) (r : Ref) : Option Word :=
  match (s.warp r).pin with
  | none => none
  | some k => (((s.wgOf r).warp k).gather).map fun g => g.start - 4

/-- The class of a stall sample of a warp and the instruction blamed: the lowest class above 0 that holds (R379). A warp in WAITEV waits
as for an empty queue, which has no producer (R353). -/
def State.blame (s : State) (r : Ref) : Nat × Word :=
  let w := s.warp r
  let i := s.comingUp r
  let stalled (x : Option Word) : Option Word := if w.stuck then x else none
  let own (b : Bool) : Option Word := if b then some w.pc else none
  let event := match i with
    | .waitev _ => own w.stuck
    | _ => none
  let refresh := s.blamedRefresh r i
  let found := [(1, stalled (s.blamedWrite r i)), (2, (stalled (s.blamedQueue r i)).or event),
    (3, if refresh.isSome then none else s.blamedCounter r i), (4, own w.isParked), (5, refresh),
    (6, if 0 < w.gate then some w.gatePc else none), (7, own w.isGrowing), (8, own (s.claimWait r i)),
    (9, own (decide (0 < w.passed) && !w.stuck && decide (w.status = .running))), (10, s.blamedPin r)]
  match found.find? fun x => x.2.isSome with
  | some (k, some pc) => (k, pc)
  | _ => (0, w.pc)

/-- The class of a stall sample of an access slice: a full queue, or another stream chosen before it (R299, R379). -/
def State.blameSlice (s : State) (r : Ref) : Nat × Word :=
  let t := (s.wgOf r).slice
  match s.comingUp r with
  | .ald q _ _ => if s.sliceFull r then (2, ((s.wgOf r).queue q.val).last) else if 0 < t.passed then (9, t.pc) else (0, t.pc)
  | _ => if 0 < t.passed then (9, t.pc) else (0, t.pc)

/-- A stream's place in the sampling order: warps by slot, access slices behind them by queue set (R381); a warp that is being swapped out
is skipped (R383). -/
def State.sampleOrder (s : State) (c d : Nat) : List (Nat × Ref) :=
  (s.core c).resident.flatMap fun k =>
    let g := s.wg c k
    if g.dom ≠ d then [] else
      ((g.warps.filter fun w => !w.2.swapDue).filterMap fun w => w.2.slot.map fun n => (n, { core := c, set := k, who := .warp w.1 })) ++
        (if g.slice.present ∧ !g.slice.halted then [(Config.slots + k, { core := c, set := k, who := .slice })] else [])

/-- The stream with the lowest place at or after a place. -/
def lowestFrom (n : Nat) (xs : List (Nat × Ref)) : Option (Nat × Ref) :=
  let ys := xs.filter fun x => decide (n ≤ x.1)
  ys.find? fun x => ys.all fun y => decide (x.1 ≤ y.1)

/-- The next stream of a domain to sample on a core. -/
def State.nextSample (s : State) (c d : Nat) : Option (Nat × Ref) :=
  let xs := s.sampleOrder c d
  match lowestFrom (Tab.get 0 (s.core c).sampled d) xs with
  | some x => some x
  | none => lowestFrom 0 xs

/-- The domain whose sample period has passed on a core. -/
def State.sampleDue (s : State) (c : Nat) : Option Nat :=
  (s.domsOn c).find? fun d =>
    let o := (s.dom d).octl
    o.getLsbD 0 && decide ((bitsOf o.toNat 31 16 + 1) * 64 ≤ Tab.get 0 (s.core c).sampleAt d)

/-- STALL_SAMPLE: a core samples the next resident stream of a domain (R381). -/
def execStallSample (core : Nat) (s : State) : Out :=
  match s.sampleDue core with
  | none => .next s
  | some d =>
    let s0 := s.modCore core fun c => { c with sampleAt := Tab.set 0 c.sampleAt d 0 }
    match s.nextSample core d with
    | none => .next s0
    | some (n, r) =>
      let (cls, pc) := if r.isSlice then s.blameSlice r else s.blame r
      let who := r.index + if r.isSlice then 16 else 0
      let pipe := if r.isSlice || s.uniformNext r then uniformPipe else n % 4
      let s1 := (s0.modCore core fun c => { c with sampled := Tab.set 0 c.sampled d (n + 1) }).count d (16 + cls) 1
      .next (s1.trace core d (traceBytes 1 cls who pipe core d (s.guest d).toNat (s.pcOf r) pc (s.warp r).regions))

end Sys2Proof.Machine
end

