-- ==== Sys2Proof/Machine/Recovery.lean ====
section
/-! DEFINITION. Errors that replay clears, that become permanent, or that lose data no instruction waits for (R364, R366, R367, R382,
R389). -/

namespace Sys2Proof.Machine

/-! ### Marks of permanent errors (R366) -/

/-- A byte of memory fails its error check from now on. -/
def State.spoil (s : State) (pa : Nat) : State := { s with bad := pa :: s.bad.filter fun x => decide (x ≠ pa) }

/-- A place that a warp holds in its registers. -/
def Warp.hasSite (w : Warp) : RegSite → Bool
  | .v n j => w.inAlloc n && decide (j < 32)
  | .g n => decide (n < 48)
  | .s n => decide (n < 16)
  | .f n => decide (n < 8)
  | .stack => true
  | _ => false

/-- A place that an access slice holds in its registers (R285). -/
def sliceSite : RegSite → Bool
  | .g n => decide (n < 48)
  | _ => false

/-- The place of a register of a resident warp, of its workgroup's access slice (warp index 16), of a queue register of the workgroup, or
of the array state that the workgroup holds fails its error check from now on. -/
def State.spoilReg (s : State) (core set warp : Nat) (x : RegSite) : State :=
  match x with
  | .queue q row => s.modWg core set fun g =>
    let y := g.queue q
    { g with queues := g.queues.map fun e => if e.1 = q then (e.1, { y with rows := (y.rows.zipIdx).map fun z => if z.2 = row then { z.1 with bad := true } else z.1 }) else e }
  | .tile t row => s.modArray core fun a =>
    if a.holder = some set ∧ t < tileCount a.cfg ∧ row < tileRows a.cfg then { a with badRows := a.badRows ++ [(t, row)] } else a
  | .ias col => s.modArray core fun a => if a.holder = some set ∧ col < 128 then { a with badIas := a.badIas ++ [col] } else a
  | x => if warp < 16 then s.modWarpAt core set warp fun w => if w.exists_ && w.hasSite x && !w.away then { w with bad := w.bad ++ [x] } else w
    else s.modWg core set fun g => if g.slice.present && sliceSite x then { g with slice := { g.slice with bad := g.slice.bad ++ [x] } } else g

/-! ### Replays (R364) -/

/-- A replay for a domain counted, once for each attempt the device made, which are at most three (R364, R382). -/
def State.countReplays (s : State) (dom failed : Nat) : State := s.count dom 12 (min (failed + 1) Config.replayMax)

/-- What a replay's domain is. -/
def State.replayDom (s : State) : Replay → Nat
  | .byte pa => (s.tagOf pa).1
  | .flight core idx => (((s.core core).flights[idx]?).map fun f => s.domOf f.ref).getD 0
  | .atomic quad idx => (((s.quad quad).mitten[idx]?).map (·.dom)).getD 0
  | .copy core op => ((s.cpById core op).map (·.dom)).getD 0
  | .array core => (((s.array core).ops.head?).map fun o => s.domOf o.ref).getD 0
  | .reg core set _ _ => (s.wg core set).dom
  | .code core word => match Tab.get .none (s.core core).owners (word / 64) with
    | .dom d => d
    | _ => 0

/-- The address that a copy or chain reads first. -/
def CpKind.source : CpKind → DWord
  | .copy d => d.src
  | .chain d => d.in0

/-- The address that an array operation reads first. -/
def ArrKind.source : ArrKind → DWord
  | .loadw d _ => d.src
  | .mloop d => d.act
  | .tzero _ | .mmask _ => 0

/-- An error that replay did not clear (R366): it fails the instruction or operation that needs the value, and stays where it lies. -/
def State.permanent (s : State) (what : Replay) : State :=
  match what with
  | .byte pa => s.spoil pa
  | .flight core idx => match (s.core core).flights[idx]? with
    | some f => if f.kind.loads then s.loseFlight f (f.lanes.map lostRec) else s
    | none => s
  | .atomic quad idx => match (s.quad quad).mitten[idx]? with
    | some q => match s.flightOf q with
      | some f => s.loseAtom f q
      | none => s
    | none => s
  | .copy core op => match s.cpById core op with
    | some o => if o.fault.isNone && !o.complete then s.putCp core { o with fault := some (opFault .dataLost o.kind.source.toNat none) } else s
    | none => s
  | .array core => match (s.array core).ops with
    | o :: os =>
      let f : OpFault := opFault .dataLost o.kind.source.toNat none
      if o.fault.isNone && o.kind.runs then s.modArray core fun a => ({ a with ops := { o with fault := some f } :: os }).stopOp o.kind 0 else s
    | [] => s
  | .reg core set warp site => s.spoilReg core set warp site
  | .code core word => s.modCore core fun c => { c with badWords := word :: c.badWords.filter fun x => decide (x ≠ word) }

/-- What a replay that clears the error does: an engine or array operation runs again (R161, R247); a read answers as if nothing had
happened. -/
def State.runAgain (s : State) (what : Replay) : State :=
  match what with
  | .copy core op => match s.cpById core op with
    | some o => if o.fault.isNone && !o.complete then s.putCp core o.restarted else s
    | none => s
  | .array core => match (s.array core).ops.head? with
    | some o => if o.fault.isNone && o.kind.runs then s.modArray core fun a => a.stopOp o.kind 0 else s
    | none => s
  | _ => s

/-- READ_REISSUE: a read or an operation is made again after an error that no code corrects. `failed` replays have failed: the next one
clears the error, unless three have failed, which makes it permanent (R364, R366). -/
def execReadReissue (what : Replay) (failed : Nat) (s : State) : Out :=
  let s1 := s.countReplays (s.replayDom what) failed
  .next (if failed < Config.replayMax then s1.runAgain what else s1.permanent what)

/-- A port with no link. -/
def Port.init : Port := { up := false, peer := 0, replays := 0 }
/-- A fabric port of a die (R394). -/
def State.port (s : State) (die port : Nat) : Port := Tab.get Port.init (s.die die).ports port
/-- A fabric port changed. -/
def State.modPort (s : State) (die port : Nat) (f : Port → Port) : State :=
  s.modDie die fun d => { d with ports := Tab.set Port.init d.ports port (f (s.port die port)) }

/-- FLIT_RESEND: a flit of a link is sent again from the sender's retry buffer, for a domain's transfer; a fabric port counts it too
(R364, R382, R394). -/
def execFlitResend (die : Nat) (flit : ResentFlit) (s : State) : Out :=
  let s1 := s.count flit.dom 12 1
  .next (if s.hasPort die flit.port then s1.modPort die flit.port fun p => { p with replays := p.replays + 1 } else s1)

/-! ### Corrections, and banks that exhaust their repair (R175, R364) -/

/-- A bank-risk bit set: event bit 9 and vector 0 (R175, R353, R389). -/
def State.riskAlert (s : State) (die : Nat) : State := (s.setEvent die 9).raiseAll 0

/-- ECC_CORRECTION: an error is corrected in place and counted. It may be the one that exhausts the repair of a live bank of a vault, which
is at risk from then on (R175, R364, R382). -/
def execEccCorrection (fix : Correction) (s : State) : Out :=
  let s1 := s.count fix.dom 13 1
  match fix.spent with
  | none => .next s1
  | some (v, b) =>
    if s.hasDie (dieOf v) && (s.vault v).vbmap.getLsbD b && !(s.vault v).risk.getLsbD b then
      .next ((s1.modVault v fun x => { x with risk := x.risk ||| BitVec.ofNat 64 (2 ^ b) }).riskAlert (dieOf v))
    else .next s1

/-! ### Data that no instruction waits for (R367) -/

/-- The next granule of a remap move cannot be read: the controller stops with status 2, the granule's bytes fail at every later read, and
the loss is reported with the domain of its tag (R178, R366 to R368). -/
def State.stopMove (s : State) (vault : Nat) : State :=
  let pa := paVault vault (256 * (s.vault vault).moved)
  let at_ := ((List.range 256).find? fun i => s.bad.contains (pa + i)).getD 0 + pa
  ((s.modVault vault fun x => { x with busy := false, status := 2 }).spoil at_).reportLost (dieOf vault) at_ vault (s.tagOf at_).1

/-- The unit and die that an address belongs to: its vault's, or die 0's for another space. -/
def dieOfPa (pa : Nat) : Nat := if paSpace pa = 0 then dieOf (paVaultOf pa) else if paSpace pa = 1 then bitsOf pa 33 32 else 0

/-- A version that awaits visibility is lost: its line keeps what it held, and its store leaves its counter (R367). -/
def State.loseVersion (s : State) (idx : Nat) (p : Pending) : State :=
  let keep (v : Version) : Bool := v.visible || !(decide (v.stamp = p.stamp) && decide (v.die = p.die))
  let s1 := { s with
    stamped := if p.arrived then Tab.set [] s.stamped p.line ((Tab.get [] s.stamped p.line).filter keep) else s.stamped
    pending := dropAt s.pending idx }
  s1.stampDone p.ref p.seqNo

/-- ASYNC_DATA_LOST: the write that the data belonged to is lost, and its place keeps its earlier value; the loss is logged and goes to the
die's supervisor core, with the domain of the granule's tag (R367, R389). -/
def execAsyncDataLost (die unit : Nat) (what : Lost) (at_ : Nat) (s : State) : Out :=
  .next (match what with
    | .l1 => match (s.core unit).l1[at_]? with
      | some l => if decide (l.dirty ≠ 0) && decide (dieOf unit = die) then
          (s.modCore unit fun c => c.l1Drop l.dom l.line).reportLost die (l.line * 128) unit (s.tagOf (l.line * 128)).1
        else s
      | none => s
    | .move => if (s.vault at_).busy then s.stopMove at_ else s
    | .version => match s.pending[at_]? with
      | some p => if p.dropped then s else
          (s.loseVersion at_ p).reportLost (dieOfLine p.line) (p.line * 64) (paVaultOf (p.line * 64)) (s.tagOf (p.line * 64)).1
      | none => s
    | .scrub => if decide (paSpace at_ = 0) && s.hasDie (dieOf (paVaultOf at_)) then
        (s.spoil at_).reportLost (dieOfPa at_) at_ (paVaultOf at_) (s.tagOf at_).1
      else s)

end Sys2Proof.Machine
end

