-- ==== Sys2Proof/Machine/Power.lean ====
section
/-! DEFINITION. Reset and boot, vault remaps, power, heat, the fabric, the weight store's window and calendar (R15, R174 to
R178, R183, R184, R211, R344, R368, R388, R389, R391 to R394). What names a die or vault that the part lacks changes nothing (R2, R384). -/

namespace Sys2Proof.Machine

/-! ### Reset and firmware (R344, R388) -/

/-- A package figure of a part: a KY-1S has a quarter of it (R3). -/
def Part.figure (p : Part) (x : Nat) : Nat := match p with
  | .ky1s => x / 4
  | _ => x

/-- Power-on or a fundamental reset: every die in Boot with all state lost. Host memory lies outside the package, what the package has
sent out is gone from it, and the inputs still to come are not its state. The cap starts at the part's nominal power (R3, R21; log entry
24). -/
def State.powerUp (s : State) : State :=
  { State.reset with
    part := s.part
    pcap := s.part.figure 1500
    mem := s.mem.filter fun c => decide (paSpace c.1 = 3)
    msix := s.msix
    hostRead := s.hostRead
    attested := s.attested
    fabric := s.fabric
    beaconsOut := s.beaconsOut
    pace := s.pace
    script := s.script }

/-- POWER_ON_RESET (R388). -/
def execPowerOnReset (s : State) : Out := .next s.powerUp

/-- HRESET: the magic value resets the package, any other is ignored (R388). -/
def execHreset (value : Word) (s : State) : Out := .next (if value = 0x52455345 then s.powerUp else s)

/-- FWGO: the boot ROM starts to load the image; a bad length fails with reason 1 (R388). -/
def execFwgo (s : State) : Out :=
  .next (if s.boot = .awaiting then
    if s.fwlen.toNat % 4096 = 0 ∧ s.fwlen.toNat ≤ 64 * 2 ^ 20 then { s with boot := .loading } else { s with boot := .failed, bootReason := 1 }
  else s)

/-- The digest of the firmware image in host memory (R345, R388). -/
def State.imageDigest (s : State) : BitVec 512 := digestOf (s.physBytes (3 * 2 ^ 44 + s.fwaddr.toNat % 2 ^ 44) s.fwlen.toNat)

/-- FIRMWARE_VERIFIED: the load ends, with a read error, a bad signature, or a verified image that starts (R344, R345, R388). -/
def execFirmwareVerified (ok readError : Bool) (s : State) : Out :=
  .next (if s.boot = .loading then
    if readError then { s with boot := .failed, bootReason := 2 }
    else if ok then { s with boot := .verified, fwDigest := s.imageDigest } else { s with boot := .failed, bootReason := 3 }
  else s)

/-- BOOT_READY: the firmware has built every vault's bank map afresh (R175, R388). -/
def execBootReady (s : State) : Out := .next (if s.boot = .verified then { s with boot := .ready, vaults := [] } else s)

/-! ### Vaults (R174 to R178) -/

/-- A vault controller of the part changed. -/
def State.atVault (s : State) (v : Nat) (f : Vault → Vault) : State := if s.hasDie (dieOf v) then s.modVault v f else s
/-- A die of the part changed. -/
def State.atDie (s : State) (d : Nat) (f : Die → Die) : State := if s.hasDie d then s.modDie d f else s

/-- VAULT_QUIESCE: accesses that are new from now on are held (R177). -/
def execVaultQuiesce (vault : Nat) (s : State) : Out :=
  .next (s.atVault vault fun v => if v.quiesce then v else { v with quiesce := true, qseq := s.nextIssue })

/-- An access touches a vault. -/
def Flight.inVault (f : Flight) (v : Nat) : Bool := f.lanes.any fun l => l.refs.any fun b => decide (paSpace b.pa = 0) && decide (paVaultOf b.pa = v)

/-- A release or a promoting acquire has L1 bytes of a vault to write back (R201, R226). -/
def State.bringsBack (s : State) (core : Nat) (f : Flight) (v : Nat) : Bool :=
  ((if f.order.isRel && decide (f.scope ≠ .core) then [(core, s.domOf f.ref)] else []) ++ f.promotes core).any fun x =>
    (s.core x.1).l1.any fun l => decide (l.dom = x.2) && decide (l.dirty ≠ 0) && decide (paSpace (l.line * 128) = 0) && decide (paVaultOf (l.line * 128) = v)

/-- An access that was in flight when the quiesce was written is not performed yet, or the L1 bytes that it writes back are not (R177). -/
def State.vaultBusy (s : State) (v : Nat) : Bool :=
  s.cores.any fun c => (s.outstanding c.1).any fun f => decide (f.seqNo < (s.vault v).qseq) && (f.inVault v || s.bringsBack c.1 f v)

/-- VAULT_QUIESCE_DONE: the accesses that were in flight at the controller are performed (R175, R177). -/
def execVaultQuiesceDone (vault : Nat) (s : State) : Out :=
  .next (if s.vaultBusy vault then s else s.atVault vault fun v => { v with qdone := v.quiesce })

/-- VAULT_QUIESCE_RELEASE: what was held goes on, and the device's own writes at once (R176, R177). -/
def execVaultQuiesceRelease (vault : Nat) (s : State) : Out :=
  .next (s.atVault vault fun v => { v with quiesce := false, qdone := false }).releaseDelayed

/-- A move of a vault's granules started: a stopped one, which a refused write of go leaves as it is, goes on where it stopped, in its
split layout, unless another map is asked for (R176, R178). -/
def Vault.start (v : Vault) : Vault :=
  { v with
    busy := true
    status := 0
    moved := if v.moveTo = v.vbnext ∧ v.moved < capacityOf v.moveTo / 256 then v.moved else 0
    moveTo := v.vbnext }

/-- REMAP_GO: the next map is checked and the move starts, or is refused with status 3 (R176, R178). -/
def execRemapGo (vault : Nat) (s : State) : Out :=
  .next (s.atVault vault fun v =>
    if v.busy then v
    else if v.vbnext = 0 ∨ v.vbnext &&& ~~~v.vbmap ≠ 0 then { v with status := 3 }
    else v.start)

/-- The bytes, tags and versions of a vault at or above an offset are gone (R176). -/
def State.cutVault (s : State) (vault cap : Nat) : State :=
  let gone (pa : Nat) : Bool := decide (paVault vault cap ≤ pa) && decide (pa < paVault vault (2 ^ 36))
  { s with
    mem := s.mem.filter fun c => !gone c.1
    bad := s.bad.filter fun pa => !gone pa
    tags := s.tags.filter fun c => !gone (c.1 * 64)
    pages := s.pages.map fun p => { p with cells := p.cells.filter fun c => !gone c.1, tags := p.tags.filter fun c => !gone (c.1 * 64) }
    stamped := s.stamped.filter fun c => !gone (c.1 * 64) }

/-- The next granule of a move has a byte that fails its error check (R178, R366). -/
def State.moveBad (s : State) (vault : Nat) : Bool :=
  let pa := paVault vault (256 * (s.vault vault).moved)
  s.bad.any fun x => decide (pa ≤ x) && decide (x < pa + 256)

/-- REMAP_GRANULE_MOVE: one granule goes to its place under the next map; the last one puts the map in force, and one that
cannot be read stops the move (R176, R178, R368). A trip of the die holds the move (R396). -/
def execRemapGranuleMove (vault : Nat) (readable : Bool) (s : State) : Out :=
  let v := s.vault vault
  let total := capacityOf v.moveTo / 256
  .next (if !v.busy || (s.die (dieOf vault)).tripped || !s.hasDie (dieOf vault) then s
    else if !readable || s.moveBad vault then s.stopMove vault
    else if v.moved + 1 < total then s.modVault vault fun x => { x with moved := x.moved + 1 }
    else (s.cutVault vault (capacityOf v.moveTo)).modVault vault fun x =>
      { x with moved := total, vbmap := x.moveTo, risk := x.risk &&& x.moveTo, busy := false, status := 1 })

/-! ### Clocks, parking and the cap (R391, R396) -/

/-- A quad of a die. -/
def dieQuad (die q : Nat) : Nat := 16 * die + q

/-- PSTATE: a clock and supply pair of the table becomes the target; any other is refused (R391). While the die is tripped
the change waits for the clear (R396). -/
def execPstate (die : Nat) (value : Word) (s : State) : Out :=
  let p := (bitsOf value.toNat 11 0, bitsOf value.toNat 27 16)
  .next (s.atDie die fun d =>
    if s.ptable.contains p then { d with target := p, refused := false, clkBusy := !d.tripped } else { d with refused := true })

/-- CLOCK_CHANGE_DONE: the target is in force (R391). -/
def execClockChangeDone (die : Nat) (s : State) : Out :=
  .next (s.modDie die fun d => if d.clkBusy && !d.tripped then { d with inForce := d.target, clkBusy := false } else d)

/-- A quad parked, or woken by QPARK. -/
def Quad.park (q : Quad) (p : Bool) : Quad := if p then { q with parked := true, awake := false } else { q with parked := false, awake := q.awake && !q.parked }

/-- QPARK: quads are parked and woken, or the write is refused whole when it parks one that lists a domain (R391). -/
def execQpark (die : Nat) (value : BitVec 16) (s : State) : Out :=
  let qs := List.range 16
  if !s.hasDie die || qs.any fun q => value.getLsbD q && (s.quad (dieQuad die q)).slots.any (·.isSome) then .next s
  else .next (qs.foldl (fun t q => t.modQuad (dieQuad die q) fun x => x.park (value.getLsbD q)) s)

/-- QUAD_WAKE_DONE: a woken quad runs (R391). -/
def execQuadWakeDone (die quad : Nat) (s : State) : Out :=
  .next (if s.hasDie die && decide (quad < 16) then s.modQuad (dieQuad die quad) fun q => if q.parked then q else { q with awake := true } else s)

/-- POWER_CAP_THROTTLE: the measured power; above the cap an issue cycle is withheld on every die (R391). -/
def execPowerCapThrottle (watts : Nat) (s : State) : Out :=
  let s1 := { s with pmeas := watts }
  .next (if s.pcap < watts then (List.range s.dieCount).foldl (fun t d => t.modDie d fun x => { x with pthrot := x.pthrot + 1 }) s1 else s1)

/-- PTHROT_CLEAR (R391). -/
def execPthrotClear (die : Nat) (s : State) : Out := .next (s.atDie die fun d => { d with pthrot := 0 })

/-! ### Heat and coolant (R15, R392, R393) -/

/-- A zone of a die of the part: sixteen on each (R15). -/
def State.hasZone (s : State) (die zone : Nat) : Bool := s.hasDie die && decide (zone < 16)

/-- A zone's temperature in 0.125 °C units, and the crossings and spans that end when it falls. -/
def State.setZone (s : State) (die zone temp : Nat) : State :=
  if !s.hasZone die zone then s else s.modDie die fun d => { d with
    zones := Tab.set 0 d.zones zone temp
    alerted := if temp < 8 * d.talert then d.alerted &&& ~~~BitVec.ofNat 16 (2 ^ zone) else d.alerted
    retained := if temp < 8 * d.tretainC then d.retained &&& ~~~BitVec.ofNat 16 (2 ^ zone) else d.retained }

/-- A zone that rises through the threshold raises the alert, once a crossing (R392). -/
def State.heatAlert (s : State) (die zone temp : Nat) : State :=
  let d := s.die die
  if 8 * d.talert ≤ temp ∧ d.alerted.getLsbD zone = false ∧ s.hasZone die zone then
    ((s.modDie die fun x => { x with alerted := x.alerted ||| BitVec.ofNat 16 (2 ^ zone) }).setEvent die 8).raiseAll 2
  else s

/-- A zone at 105 °C trips its die (R392). -/
def State.heatTrip (s : State) (die zone temp : Nat) : State :=
  if 8 * 105 ≤ temp ∧ (s.die die).tripped = false ∧ s.hasZone die zone then (s.modDie die fun x => { x with tripped := true }).raiseAll 2 else s

/-- THERMAL_ALERT: a zone's temperature rises, through the threshold or on to 105 °C (R392). -/
def execThermalAlert (die zone temp : Nat) (s : State) : Out := .next (((s.setZone die zone temp).heatAlert die zone temp).heatTrip die zone temp)

/-- THERMAL_TRIP: a zone's temperature reaches 105 °C; a rise through the threshold on the way raises the alert too (R392). -/
def execThermalTrip (die zone temp : Nat) (s : State) : Out := .next (((s.setZone die zone temp).heatAlert die zone temp).heatTrip die zone temp)

/-- TRIP_CLEAR: ignored while a zone is at or above the threshold; a stored clock change then starts (R392, R396). -/
def execTripClear (die : Nat) (s : State) : Out :=
  .next (s.atDie die fun d =>
    if d.zones.any fun z => decide (8 * d.talert ≤ z.2) then d else { d with tripped := false, clkBusy := d.clkBusy || decide (d.target ≠ d.inForce) }).releaseDelayed

/-- RETENTION_LIMIT: a zone has stayed at the retention temperature for the set time; once a span, every live bank of its
quad's vaults is at risk (R175, R392). -/
def execRetentionLimit (die zone : Nat) (s : State) : Out :=
  let d := s.die die
  if 8 * d.tretainC ≤ Tab.get 0 d.zones zone ∧ d.retained.getLsbD zone = false ∧ s.hasZone die zone then
    let s1 := (coresOf (dieQuad die zone)).foldl (fun t v => t.modVault v fun x => { x with risk := x.risk ||| x.vbmap }) s
    .next ((s1.modDie die fun x => { x with retained := x.retained ||| BitVec.ofNat 16 (2 ^ zone) }).riskAlert die)
  else .next s

/-- VALVE_ADJUST: the PMC sets the valves of a zone (R15, R393). -/
def execValveAdjust (die zone : Nat) (a b c : Byte) (s : State) : Out :=
  .next (if s.hasZone die zone then s.modDie die fun d => { d with valves := Tab.set (0, 0, 0) d.valves zone (a, b, c) } else s)

/-! ### Fabric (R394) -/

/-- FABRIC_LINK_UP, at a port of the part (R1, R2, R394). -/
def execFabricLinkUp (die port peer : Nat) (s : State) : Out :=
  .next (if s.hasPort die port then s.modPort die port fun p => { p with up := true, peer := peer % 2 ^ 18 } else s)

/-- FABRIC_LINK_DOWN (R394). -/
def execFabricLinkDown (die port : Nat) (s : State) : Out :=
  .next (if s.hasPort die port then s.modPort die port fun p => { p with up := false } else s)

/-! ### The weight store (R183, R184, R211) -/

/-- One address in every page that a copy writes: the ends of its elements in mode 3, else the starts of its rows' pages and their ends. -/
def CopyDesc.spots (d : CopyDesc) : List Nat :=
  (List.range d.rows).flatMap fun row =>
    if d.mode = 3 then
      (List.range (d.rowbytes / 2 ^ d.zlog)).flatMap fun e => [d.dstStart row e % 2 ^ 56, (d.dstStart row e + 2 ^ d.zlog - 1) % 2 ^ 56]
    else ((List.range (d.rowbytes / 65536 + 1)).map fun i => (d.dstStart row 0 + 65536 * i) % 2 ^ 56) ++ [(d.dstStart row 0 + d.rowbytes - 1) % 2 ^ 56]

/-- A copy of a domain into a page of a die's weight store is in progress (R211). -/
def State.weightCopies (s : State) (die dom : Nat) : Bool :=
  s.cores.any fun c => c.2.cpops.any fun o => decide (o.dom = dom) && !o.complete && o.fault.isNone && (match o.kind with
    | .copy d => d.spots.any fun va => (match s.translate c.1 dom va with
      | .ok e => decide (e.attr = 1) && decide (bitsOf e.pa 33 32 = die)
      | .error _ => false)
    | .chain _ => false)

/-- A die's weight window stays as it is: it is open, and a copy that it was opened for has not completed (R211). -/
def State.windowBusy (s : State) (die : Nat) : Bool :=
  match (s.die die).weightDom with
  | some dom => s.weightCopies die dom
  | none => false

/-- WEIGHT_WINDOW_OPEN: copies of a domain may write the die's weight store. The supervisor opens it only while no kernel of the domain
runs on the die, and for another domain only when the copies of the one before have completed (R183, R211). -/
def execWeightWindowOpen (die dom : Nat) (s : State) : Out :=
  .next (if s.kernelOn die dom || s.windowBusy die then s else s.atDie die fun d => { d with weightDom := some dom })

/-- WEIGHT_WINDOW_CLOSE: the supervisor closes the window after the copies it opened it for have completed (R211). -/
def execWeightWindowClose (die : Nat) (s : State) : Out :=
  .next (if s.windowBusy die then s else s.atDie die fun d => { d with weightDom := none })

/-- A weight bank is due: its window is open, and it was not refreshed in it (R184). -/
def State.refreshDue (s : State) (die bank : Nat) : Bool :=
  let last := Tab.get 0 (s.die die).refreshed bank
  s.hasDie die && decide (bank < 32) && s.bankBusy die bank && (decide (last = 0) || decide (last + 640 ≤ s.time))

/-- WEIGHT_BANK_REFRESH: a bank whose window is open is refreshed; the calendar fixes when that is (R184). -/
def execWeightBankRefresh (die bank : Nat) (s : State) : Out :=
  .next (if s.refreshDue die bank then s.modDie die fun d => d.refresh bank s.time else s)

end Sys2Proof.Machine
end

