-- ==== Sys2Proof/Machine/Host.lean ====
section
/-! DEFINITION. What the host and the supervisor do: pushes, doorbells, domains, quads, shares, keys, the memory windows, the state
window, and what the supervisor does to memory, code, pages and reports (R84, R85, R215, R328, R329, R331, R340, R342, R345 to R347,
R356, R377, R384, R385, R387, R389, R390, R413). What names a die that the part lacks changes nothing (R384). -/

namespace Sys2Proof.Machine

/-! ### Admission (R390) -/

/-- ADMIT: a push over a link of the part is checked and queued, or refused with the first reason found; a write of another size is
counted. Until the boot has ended nothing takes a push (R344, R388). -/
def execHostPush (bytes : List Byte) (link : Nat) (s : State) : Out :=
  let rec_ := field bytes 0 8
  let d := field bytes 8 2
  let v := field bytes 10 1
  let tag := BitVec.ofNat 64 (field bytes 16 8)
  .next (if !s.links.contains link || decide (s.boot ≠ .ready) then s
    else if bytes.length ≠ 32 then { s with admbad := s.admbad + 1 }
    else if field bytes 11 5 ≠ 0 ∨ field bytes 24 8 ≠ 0 ∨ ¬(v = 0 ∨ (4 ≤ v ∧ v ≤ 63)) then s.refusePush tag 3
    else if rec_ % 64 ≠ 0 then s.refusePush tag 3
    else if !(s.dom d).exists_ || (s.partition d).isEmpty then s.refusePush tag 4
    else if Config.admissionQueue ≤ s.admission.length then s.refusePush tag 1
    else { s with admission := s.admission ++ [{ recVa := BitVec.ofNat 64 rec_, dom := d, vector := v, tag := tag, link := link }] })

/-- Domains are numbered 0 to 1,023 (R329). -/
def domainIds : Nat := 1024

/-! ### Signals to programs and the supervisor (R353, R389) -/

/-- DOORBELL (R353, R387). -/
def execDoorbell (dom : Nat) (s : State) : Out := .next (if dom < domainIds then s.modDom dom fun d => { d with doorbell := true } else s)

/-- MAILBOX: a host request to the supervisor (R353, R389). -/
def execMailbox (die : Nat) (value : DWord) (s : State) : Out :=
  .next (if s.hasDie die then (s.modDie die fun d => { d with mailbox := value }).setEvent die 10 else s)

/-! ### Domains (R329, R331, R340, R342, R347) -/

/-- DOMAIN_CREATE: a domain that does not exist starts as R347 lays down, once the supervisor runs (R329, R344). -/
def execDomainCreate (dom : Nat) (s : State) : Out :=
  .next (if s.boot = .ready ∧ dom < domainIds ∧ (s.dom dom).exists_ = false then s.modDom dom fun _ => { Domain.init with exists_ := true, toffset := BitVec.ofNat 64 s.time } else s)

/-- A domain has a resident workgroup, a queued record or a quad SRAM allocation on a core (R331). -/
def Core.uses (c : Core) (d : Nat) : Bool :=
  (c.wgs.any fun g => g.2.present && decide (g.2.dom = d)) ||
    (c.queues.any fun q => q.2.any fun x => decide (x.dom = d)) || (c.backing.any fun q => q.2.any fun x => decide (x.dom = d)) ||
    (c.heldBack.any fun x => decide (x.dom = d)) || (c.pendingL.any fun q => decide (q.tgt.dom = d)) || (c.backL.any fun q => decide (q.tgt.dom = d))

/-- A core of a quad that a destroyed domain leaves, whose other domains are `rest`: one that is then alone has share 256, several keep
theirs, and the domain's credits are gone (R297; log entry 113). -/
def Core.withoutDom (c : Core) (dom : Nat) (rest : List Nat) : Core :=
  { c with
    share := match rest with
      | [d] => [(d, 256)]
      | _ => c.share.filter fun x => decide (x.1 ≠ dom)
    credits := c.credits.filter fun x => decide (x.1 % 1024 ≠ dom) }

/-- DOMAIN_DESTROY: once all its work has ended, a domain's key is erased, its tables and its quads' slots are free and its
cached state is gone, so that its id may be reused (R329). -/
def execDomainDestroy (dom : Nat) (s : State) : Out :=
  if (s.dom dom).exists_ && !(s.cores.any fun c => c.2.uses dom) && !(s.launches.any fun l => decide (l.dom = dom)) then
    let s1 := (s.dropTlbs dom none).modDom dom fun _ => Domain.init
    let s2 : State := { s1 with
      quads := s1.quads.map fun q => (q.1, { q.2 with slots := q.2.slots.map fun x => if x = some dom then none else x })
      cores := s1.cores.map fun c => (c.1, { c.2 with
        l1 := c.2.l1.filter fun l => decide (l.dom ≠ dom)
        keptRegs := c.2.keptRegs.filter fun k => decide (k.dom ≠ dom) }) }
    let left := (s.quads.filter fun q => q.2.lists dom).map Prod.fst
    .next (left.foldl (fun t q => (coresOf q).foldl (fun u c => u.modCore c fun x => x.withoutDom dom (distinct ((t.quad q).slots.filterMap id))) t) s2)
  else .next s

/-- DCTL_STOP (R342). -/
def execDctlStop (dom : Nat) (s : State) : Out := .next (s.modDom dom fun d => if d.stop then d else { d with stop := true, stopAt := s.time })

/-- DCTL_START: in hide mode the stopped span is added to the offset (R342). -/
def execDctlStart (dom : Nat) (s : State) : Out :=
  .next (s.modDom dom fun d =>
    if d.stop then { d with stop := false, toffset := if d.tmode then d.toffset else d.toffset + BitVec.ofNat 64 (s.time - d.stopAt) } else d)

/-- The slots of an assignment value (R331). -/
def assignSlots (value : DWord) : List (Option Nat) :=
  (List.range 4).map fun i => if value.getLsbD (11 * i + 10) then some (bitsOf value.toNat (11 * i + 9) (11 * i)) else none

/-- The domains of a slot list, each once. -/
def slotDoms (xs : List (Option Nat)) : List Nat := distinct (xs.filterMap id)

/-- The reason an assignment write is refused for: 1 a removed domain still in use, 3 an added domain that does not exist, 2
one without a valid key (R331). Where several hold, the model's choice is the first in this order, which the spec does not give (log entry
108, DESIGN CHOICE). -/
def State.assignRefusal (s : State) (quad : Nat) (new : List Nat) : Option Nat :=
  let old := slotDoms (s.quad quad).slots
  let added := new.filter fun d => !old.contains d
  if (old.filter fun d => !new.contains d).any fun d => (coresOf quad).any fun c => (s.core c).uses d then some 1
  else if added.any fun d => !(s.dom d).exists_ then some 3
  else if added.any fun d => !(s.dom d).keyValid then some 2
  else none

/-- The shares that an assignment write sets: equal parts of 256, the remainder to the lowest domain (R297). -/
def freshShares (ds : List Nat) : List (Nat × Nat) :=
  let n := ds.length
  ds.map fun d => (d, 256 / n + if ds.all fun x => decide (d ≤ x) then 256 % n else 0)

/-- QUAD_ASSIGNMENT_WRITE (R331): accepted or refused whole; a change of the set of domains sets the shares anew (R297). -/
def execQuadAssignmentWrite (quad : Nat) (value : DWord) (s : State) : Out :=
  let new := slotDoms (assignSlots value)
  if !s.hasDie (quad / 16) || decide (s.boot ≠ .ready) then .next s
  else match s.assignRefusal quad new with
  | some reason => .next (s.modQuad quad fun q => { q with astat := 2, areason := reason })
  | none =>
    let old := slotDoms (s.quad quad).slots
    let s1 := s.modQuad quad fun q => { q with slots := assignSlots value, astat := 1, areason := 0 }
    .next (if (old.all fun d => new.contains d) && (new.all fun d => old.contains d) then s1
      else (coresOf quad).foldl (fun t c => t.modCore c fun x => { x with share := freshShares new, credits := [] }) s1)

/-- SHARE: the issue shares of a core, ignored when they sum above 256 (R297, R387). -/
def execShare (core : Nat) (value : BitVec 128) (s : State) : Out :=
  let es := (List.range 4).map fun i => (bitsOf value.toNat (32 * i + 9) (32 * i), bitsOf value.toNat (32 * i + 24) (32 * i + 16))
  .next (if 256 < (es.map (·.2)).sum ∨ !s.hasDie (dieOf core) then s else s.modCore core fun c => { c with share := es })

/-- KEY: accepted while the domain's slot is not valid (R340). -/
def execKey (dom : Nat) (key : BitVec 512) (s : State) : Out :=
  .next (s.modDom dom fun d => if d.exists_ && !d.keyValid then { d with key := key, keyValid := true } else d)

/-- The check value of a domain's key slot as KEYSTAT reads it (R340, R387). -/
def Domain.keystat (d : Domain) : Nat := if d.keyValid then 1 + 65536 * (keyCheck d.key).toNat else 0

/-- SUPERVISOR_ENDS_WORKGROUP (R356, R389, R413). -/
def execSupervisorEndsWorkgroup (core set : Nat) (cause : Cause) (addr : DWord) (s : State) : Out :=
  .next (if (s.wg core set).present then s.endWorkgroup core set cause addr else s)

/-! ### Memory windows (R385) -/

/-- The virtual address and domain of a window access; none when the slot is not valid. -/
def State.windowVa (s : State) (slot off : Nat) : Option (Nat × Nat) :=
  match Tab.get (0, 0, false) s.windows slot with
  | (base, d, true) => some (base * 2 ^ 30 + off, d)
  | _ => none

/-- The bytes of a window access, each through the domain's paged global tables, or the cause that ends it (R385). A window has sixteen
slots of 1 GiB (R384). -/
def State.windowRefs (s : State) (k : Access) (slot off n : Nat) : Except (Cause × Nat × Nat) (List BRef) :=
  match if slot < 16 ∧ off + n ≤ 2 ^ 30 then s.windowVa slot off else none with
  | none => .error (.space, off, 0xFFFF)
  | some (va, d) =>
    if 2 ^ 53 < va + n then .error (.space, va, d)
    else match (List.range n).mapM fun i => resolve s k (sequencer d) (BitVec.ofNat 64 (va + i)) 1 1 with
      | .ok rs => .ok rs.flatten
      | .error (c, _) => .error (c, va, d)

/-- A window access waits for a vault that holds one of its bytes or of the tables of its translations (R177). -/
def State.windowHeld (s : State) (slot off n : Nat) (refs : List BRef) : Bool :=
  refs.any (fun b => s.held b.pa) || (match s.windowVa slot off with
    | some (va, d) => (walkReads s d va ++ walkReads s d (va + n - 1)).any s.held
    | none => false)

/-- The entries that translate a window access marked by the walker, one for each 64 KiB page (R336). -/
def State.windowMarks (s : State) (slot off n : Nat) (store : Bool) : State :=
  match s.windowVa slot off with
  | some (va, d) => (distinct ((List.range n).map fun i => (va + i) / 65536)).foldl (fun t p => t.walked d (p * 65536) store) s
  | none => s

/-- A window access refused: an error log entry of kind 3 (R385, R389). -/
def State.refuseWindow (s : State) (c : Cause) (va d : Nat) : State :=
  s.logError 0 { time := s.time, addr := BitVec.ofNat 64 va, cause := c.code, kind := 3, dom := d, unit := 0 }

/-- HOST_WINDOW_READ (R385). Lost bytes end the read as a refusal does (log entry 88). -/
def execHostWindowRead (slot off n : Nat) (s : State) : Out :=
  .next (match s.windowRefs .load slot off n with
    | .ok refs =>
      if s.windowHeld slot off n refs then s
      else if refs.any s.badAt then { s.refuseWindow .dataLost (((s.windowVa slot off).map (·.1)).getD 0) (((s.windowVa slot off).map (·.2)).getD 0xFFFF) with hostRead := List.replicate n 0xFF }
      else { s.windowMarks slot off n false with hostRead := refs.map s.readRef }
    | .error (c, va, d) => { s.refuseWindow c va d with hostRead := List.replicate n 0xFF })

/-- HOST_WINDOW_WRITE (R385). -/
def execHostWindowWrite (slot off : Nat) (bytes : List Byte) (s : State) : Out :=
  .next (match s.windowRefs .store slot off bytes.length with
    | .ok refs => if s.windowHeld slot off bytes.length refs then s else ((s.windowMarks slot off bytes.length true).writeRefs refs bytes).heal refs
    | .error (c, va, d) => s.refuseWindow c va d)

/-! ### The state window (R387) -/

/-- The warp in a slot of a core: queue set and warp index. -/
def Core.inSlot (c : Core) (slot : Nat) : Option (Nat × Nat) :=
  (c.resident.flatMap fun k => ((Tab.get Workgroup.init c.wgs k).warps.filter fun w => decide (w.2.slot = some slot)).map fun w => (k, w.1)).head?

/-- A warp's save layout laid out from address 0 on. -/
def State.warpImage (s : State) (w : Warp) (k seq : Nat) : State := { s with mem := [] }.physPieces 0 (w.pieces k seq)

/-- A range of a save layout that is written touches another. -/
def touches (off n lo len : Nat) : Bool := decide (off < lo + len) && decide (lo < off + n)

/-- A counter's list of operations made as long as the counter that is written: the oldest are forgotten, or operations are counted that
never end (log entry 114). -/
def resizeOps (ops : List (Nat × Bool)) (n : Nat) : List (Nat × Bool) := ops.drop (ops.length - n) ++ List.replicate (n - ops.length) (0, false)

/-- An apply stack made as deep as the depth that is written; a new entry holds what the layout gives it (log entry 114). -/
def resizeStack (xs : List Entry) (n : Nat) : List Entry :=
  List.replicate (n - xs.length) { encl := 0, ret := 0, gathered := false, chunk := 0, base := 0, nin := 0, nout := 0, setv := 0 } ++ xs.drop (xs.length - n)

/-- A warp's state as a code of the layout leaves it: 0 and 3 make it Running or Ended; the other states hold more than the layout does, and
their codes change nothing (log entry 114). -/
def Status.coded (x : Status) (code : Nat) : Status :=
  match code with
  | 0 => .running
  | 3 => .ended
  | _ => x

/-- Where the layout holds a register, with its bytes. -/
def siteBytes : RegSite → Option (Nat × Nat)
  | .v n j => some (0x2000 + 128 * n + 4 * j, 4)
  | .g n => some (0x40 + 4 * n, 4)
  | .s n => some (0x100 + 8 * n, 8)
  | _ => none

/-- A register that a write of the layout covers whole. -/
def coversSite (off n : Nat) (x : RegSite) : Bool :=
  match siteBytes x with
  | some (lo, len) => decide (off ≤ lo) && decide (lo + len ≤ off + n)
  | none => false

/-- The footprint of the open gathered apply, which its own bytes hold beside the entry's. -/
def State.readFootprint (s : State) (stack : List Entry) : List Entry :=
  match stack.reverse with
  | e :: es => (({ e with chunk := s.physNum 0x702 1, base := s.physNum 0x703 1, nin := s.physNum 0x704 1, nout := s.physNum 0x705 1 } : Entry) :: es).reverse
  | [] => []

/-- A warp with bytes of its save layout replaced (R362, R387; log entry 114). `opener` is the workgroup's warp that has a gathered apply
open. Its allocation stays, and so does what the device keeps of it outside the layout; a register that the bytes cover whole passes its
error check again. -/
def State.patchWarp (s : State) (w : Warp) (opener : Option Nat) (k seq off : Nat) (bytes : List Byte) : Warp :=
  let n := bytes.length
  let img := ((s.warpImage w k seq).physStore off bytes).physWrite 6 (BitVec.ofNat 8 w.gran)
  let poll := if touches off n 0x1C 4 || touches off n 0x28 4 || touches off n 0x200 256 then some (w.poll.getD { pc := 0, mask := 0, vals := [] }) else w.poll
  let x := img.readWarp 0 { w with poll := poll, stack := resizeStack w.stack (min 64 (img.physNum 0x24 1)) }
  let stack := if touches off n 0x702 4 && w.gather.isSome then img.readFootprint x.stack else x.stack
  let pin := img.physNum 0x16 1
  let status := w.status.coded (img.physNum 7 1)
  { x with
    stack := stack
    gather := if stack.any (·.gathered) then x.gather else none
    ldOps := resizeOps w.ldOps (img.physNum 0x20 1)
    stOps := resizeOps w.stOps (img.physNum 0x21 1)
    cp := img.physNum 0x22 1
    tl := img.physNum 0x23 1
    status := status
    slot := if status = .ended then none else w.slot
    pin := if pin.testBit 0 then w.pin.or opener else none
    wakeDue := pin.testBit 1
    watched := w.watched
    hit := w.hit
    pfx := w.pfx
    bad := w.bad.filter fun b => !coversSite off n b }

/-- The warp of a workgroup that has a gathered apply open. -/
def Workgroup.opener (g : Workgroup) : Option Nat := (g.warps.find? fun w => w.2.gather.isSome).map Prod.fst

/-- STATE_WINDOW_WRITE: the selected warp's live state changes only while its domain is stopped (R362, R387). -/
def execStateWindowWrite (core off : Nat) (bytes : List Byte) (s : State) : Out :=
  match (s.core core).inSlot (s.core core).wsel with
  | none => .next s
  | some (k, w) =>
    let g := s.wg core k
    .next (if (s.dom g.dom).stop && decide (off + bytes.length ≤ warpAreaBytes) then s.modWarpAt core k w fun x => s.patchWarp x g.opener w g.seq off bytes else s)

/-! ### What the supervisor does (R84, R85, R215, R328, R345, R368, R413) -/

/-- A byte under the supervisor's own tag, the reset tag, which no entry of a domain matches (R333, R334). -/
def superRef (pa : Nat) : BRef := { pa := pa, dom := 0, epoch := 0, tagged := decide (paSpace pa = 0), cached := false, stamp := 0 }

/-- A physical store by the supervisor (R328, R368): it heals the bad bytes of the granules it covers whole (R366). -/
def State.superStore (s : State) (pa : Nat) (bytes : List Byte) : State :=
  let refs := (List.range bytes.length).map fun i => superRef (pa + i)
  (s.deviceWrite refs bytes).heal refs

/-- A word of instruction memory written by the supervisor, with the owner of its granule; the word passes its error check again (R84,
R85, R308). -/
def State.writeCode (s : State) (core word : Nat) (owner : GranOwner) (x : Word) : State :=
  if s.hasDie (dieOf core) && decide (4 * word < Config.imemBytes) then
    s.modCore core fun c => { c with imem := Tab.set 0 c.imem word x, owners := Tab.set .none c.owners (word / 64) owner, badWords := c.badWords.filter fun i => decide (i ≠ word) }
  else s

/-- An image loaded into a domain extends its measurement (R345). -/
def Domain.measured (d : Domain) (digest : BitVec 512) : Domain :=
  { d with measure := digestOf (leBytes 64 d.measure.toNat ++ leBytes 64 digest.toNat) }

/-- The first 216 bytes of a domain's report (R345). -/
def State.reportHead (s : State) (dom : Nat) (nonce : BitVec 512) : List Byte :=
  leBytes 4 0x4B594154 ++ leBytes 4 1 ++ leBytes 8 Config.deviceSerial.toNat ++ leBytes 64 s.fwDigest.toNat ++ leBytes 2 dom ++ leBytes 6 0 ++
    leBytes 64 (s.dom dom).measure.toNat ++ leBytes 64 nonce.toNat

/-- A domain's report on a nonce, with its signature, 4,843 bytes (R345). -/
def State.domainReport (s : State) (dom : Nat) (nonce : BitVec 512) : List Byte :=
  let head := s.reportHead dom nonce
  head ++ (List.range 4627).map (Config.signatureByte (digestOf head))

end Sys2Proof.Machine
end

