-- ==== Sys2Proof/Machine/Lane.lean ====
section
/-! DEFINITION. The L-form integer instructions (R116 to R119). -/

namespace Sys2Proof.Machine

/-- ADD (R117). -/
def execAdd (d a : Reg) (b : Src) (s : State) : Out :=
  laneTri .int false (fun _ a b _ => a + b) d a b s

/-- SUB (R117). -/
def execSub (d a : Reg) (b : Src) (s : State) : Out :=
  laneTri .int false (fun _ a b _ => a - b) d a b s

/-- MUL (R117). -/
def execMul (d a : Reg) (b : Src) (s : State) : Out :=
  laneTri .int false (fun _ a b _ => a * b) d a b s

/-- MULHI (R117). -/
def execMulhi (d a : Reg) (b : Src) (s : State) : Out :=
  laneTri .int false (fun _ a b _ => iMulhi a b) d a b s

/-- MULHN (R117). -/
def execMulhn (d a : Reg) (b : Src) (s : State) : Out :=
  laneTri .int false (fun _ a b _ => iMulhn a b) d a b s

/-- MAD (R117). -/
def execMad (d a : Reg) (b : Src) (s : State) : Out :=
  laneTri .int true (fun _ a b d => a * b + d) d a b s

/-- MIN (R117). -/
def execMin (d a : Reg) (b : Src) (s : State) : Out :=
  laneTri .int false (fun _ a b _ => iMin a b) d a b s

/-- MAX (R117). -/
def execMax (d a : Reg) (b : Src) (s : State) : Out :=
  laneTri .int false (fun _ a b _ => iMax a b) d a b s

/-- MINN (R117). -/
def execMinn (d a : Reg) (b : Src) (s : State) : Out :=
  laneTri .int false (fun _ a b _ => iMinn a b) d a b s

/-- MAXN (R117). -/
def execMaxn (d a : Reg) (b : Src) (s : State) : Out :=
  laneTri .int false (fun _ a b _ => iMaxn a b) d a b s

/-- AND (R117). -/
def execAnd (d a : Reg) (b : Src) (s : State) : Out :=
  laneTri .int false (fun _ a b _ => a &&& b) d a b s

/-- OR (R117). -/
def execOr (d a : Reg) (b : Src) (s : State) : Out :=
  laneTri .int false (fun _ a b _ => a ||| b) d a b s

/-- XOR (R117). -/
def execXor (d a : Reg) (b : Src) (s : State) : Out :=
  laneTri .int false (fun _ a b _ => a ^^^ b) d a b s

/-- ANDN (R117). -/
def execAndn (d a : Reg) (b : Src) (s : State) : Out :=
  laneTri .int false (fun _ a b _ => a &&& ~~~b) d a b s

/-- SHL (R117). -/
def execShl (d a : Reg) (b : Src) (s : State) : Out :=
  laneTri .int false (fun _ a b _ => iShl a b) d a b s

/-- SHR (R117). -/
def execShr (d a : Reg) (b : Src) (s : State) : Out :=
  laneTri .int false (fun _ a b _ => iShr a b) d a b s

/-- SAR (R117). -/
def execSar (d a : Reg) (b : Src) (s : State) : Out :=
  laneTri .int false (fun _ a b _ => iSar a b) d a b s

/-- ROTL (R117). -/
def execRotl (d a : Reg) (b : Src) (s : State) : Out :=
  laneTri .int false (fun _ a b _ => iRotl a b) d a b s

/-- BFX (R117). -/
def execBfx (d a : Reg) (b : Src) (s : State) : Out :=
  laneTri .int false (fun _ a b _ => iBfx a b) d a b s

/-- BFI (R117). -/
def execBfi (d a : Reg) (b : Src) (s : State) : Out :=
  laneTri .int true (fun _ a b d => iBfi a b d) d a b s

/-- ABS (R117). -/
def execAbs (d a : Reg) (s : State) : Out := laneUn (fun _ a => iAbs a) d a s

/-- CLZ (R117). -/
def execClz (d a : Reg) (s : State) : Out := laneUn (fun _ a => iClz a) d a s

/-- POPC (R117). -/
def execPopc (d a : Reg) (s : State) : Out := laneUn (fun _ a => iPopc a) d a s

/-- BREV (R117). -/
def execBrev (d a : Reg) (s : State) : Out := laneUn (fun _ a => iBrev a) d a s

/-- MOV (R119). -/
def execMov (d a : Reg) (s : State) : Out := laneUn (fun _ a => a) d a s

/-- ADDI (R118). -/
def execAddi (d a : Reg) (i : Imm8) (s : State) : Out := laneUn (fun _ a => a + imm8Word i) d a s

/-- SHLI (R118). -/
def execShli (d a : Reg) (n : BitVec 8) (s : State) : Out := laneUn (fun _ a => iShl a (n.setWidth 32)) d a s

/-- SHRI (R118). -/
def execShri (d a : Reg) (n : BitVec 8) (s : State) : Out := laneUn (fun _ a => iShr a (n.setWidth 32)) d a s

/-- SARI (R118). -/
def execSari (d a : Reg) (n : BitVec 8) (s : State) : Out := laneUn (fun _ a => iSar a (n.setWidth 32)) d a s

/-- MOVI (R119). -/
def execMovi (d : Reg) (i16 : BitVec 16) (s : State) : Out :=
  issueSeq s fun s r => do
    s.bounds r [(d, 1)]
    s.putLanes r d (s.applied r) (rowAll (i16.signExtend 32))

/-- MOVHI, which also reads its destination (R119). -/
def execMovhi (d : Reg) (i16 : BitVec 16) (s : State) : Out := laneUn (fun _ x => iMovhi x i16) d d s

end Sys2Proof.Machine
end

