-- ==== Sys2Proof/Machine/Image.lean ====
section
/-! DEFINITION. Loading and unloading an image: the check of a linked `.ixo` file, the code base, the code, the data sections with their load
relocations, the handle and the measurement (R71 to R81, R84, R85, R345; log entry 112). -/

namespace Sys2Proof.Machine

/-! ### The file (R71 to R74) -/

/-- A section table entry (R73). -/
structure Sect where
  name    : Nat
  kind    : Nat
  flags   : Nat
  align   : Nat
  offset  : Nat
  size    : Nat
  addr    : Nat
  link    : Nat
  count   : Nat
  entsize : Nat
  deriving DecidableEq, Repr

/-- The section table entry whose bytes start at a place of the file. -/
def sectAt (f : List Byte) (p : Nat) : Sect :=
  { name := field f p 4
    kind := field f (p + 4) 1
    flags := field f (p + 5) 1
    align := field f (p + 6) 1
    offset := field f (p + 8) 8
    size := field f (p + 16) 8
    addr := field f (p + 24) 8
    link := field f (p + 32) 4
    count := field f (p + 36) 4
    entsize := field f (p + 40) 4 }

/-- The section table of a file, its null entry first (R72, R73). -/
def sectsOf (f : List Byte) : List Sect := (List.range (field f 8 2)).map fun i => sectAt f (field f 16 8 + 48 * i)

/-- The kind of the section of an index; 0 where there is none. -/
def kindOf (ss : List Sect) (i : Nat) : Nat := ((ss[i]?).map (·.kind)).getD 0

/-- The bytes of code that a linked image says it has (R72). -/
def codeSize (f : List Byte) : Nat := field f 24 4

/-- The entry size of a table section's kind (R74). -/
def entryBytes (kind : Nat) : Nat :=
  match kind with
  | 6 => 64
  | 7 => 32
  | 8 | 9 => 24
  | 10 => 8
  | 11 => 16
  | _ => 0

/-- The places in the file of the entries of a table section. -/
def Sect.entries (x : Sect) : List Nat := (List.range x.count).map fun i => x.offset + x.entsize * i

/-- The sections of one kind. -/
def ofKind (ss : List Sect) (k : Nat) : List Sect := ss.filter fun x => decide (x.kind = k)

/-- The entries of all the table sections of one kind. -/
def entriesOf (ss : List Sect) (k : Nat) : List Nat := (ofKind ss k).flatMap Sect.entries

/-! ### The check of the image (R71 to R81) -/

/-- A file's bytes at a place are all zero (R71). -/
def zeroAt (f : List Byte) (p n : Nat) : Bool := decide (field f p n = 0)

/-- The header of a linked image (R72). Its code size is a matter of the code base (R84). -/
def headerOk (f : List Byte) : Bool :=
  decide (64 ≤ f.length) && decide (field f 0 4 = 0x4F465849) && decide (field f 4 2 = 1) && decide (field f 6 2 < 4) && decide (field f 6 1 % 2 = 1) &&
    decide (1 ≤ field f 8 2) && decide (field f 10 2 = 48) && zeroAt f 12 4 && decide (field f 16 8 % 8 = 0) &&
    decide (field f 16 8 + 48 * field f 8 2 ≤ f.length) && zeroAt f 36 4 && decide (field f 40 8 = f.length) && zeroAt f 48 16

/-- A name stands in the string section: its offset starts a string there, and the string ends there (R75). -/
def nameOk (f : List Byte) (strs : Sect) (o : Nat) : Bool :=
  decide (o < strs.size) && (decide (o = 0) || zeroAt f (strs.offset + o - 1) 1) && (List.range (strs.size - o)).any fun i => zeroAt f (strs.offset + o + i) 1

/-- A section's kind, flags and alignment suit each other (R73, R74). -/
def Sect.kindOk (x : Sect) : Bool :=
  let code := x.kind = 1 ∨ x.kind = 2
  decide (1 ≤ x.kind ∧ x.kind ≤ 12 ∧ x.flags < 16 ∧ x.align ≤ 16) && (decide (x.flags % 2 = 0) || decide code) &&
    (decide (x.flags < 8) || decide (x.kind = 5)) && (!decide code || decide (2 ≤ x.align ∧ x.size % 4 = 0))

/-- A section's contents lie in the file, and its code in the code image (R73). -/
def Sect.placeOk (f : List Byte) (x : Sect) : Bool :=
  (if x.kind = 5 then decide (x.offset = 0) else decide (x.offset + x.size ≤ f.length)) &&
    (if x.kind = 1 ∨ x.kind = 2 then decide (x.addr + x.size ≤ codeSize f) else decide (x.addr = 0)) &&
    decide (x.entsize = entryBytes x.kind) && (if x.entsize = 0 then decide (x.count = 0) else decide (x.count * x.entsize = x.size))

/-- A section's link names a section of the right kind (R73). -/
def Sect.linkOk (ss : List Sect) (x : Sect) : Bool :=
  let k := kindOf ss x.link
  if x.kind = 9 then decide (1 ≤ k ∧ k ≤ 4) else if x.kind = 11 then decide (k = 1 ∨ k = 2) else decide (x.link = 0)

/-- The section table: the null entry, every other entry, and the tables a file holds once (R73, R74). -/
def sectionsOk (f : List Byte) (ss : List Sect) (strs : Sect) : Bool :=
  zeroAt f (field f 16 8) 48 &&
    (ss.drop 1).all (fun x => nameOk f strs x.name && x.kindOk && x.placeOk f && x.linkOk ss) &&
    (List.range (ss.length - 1)).all (fun i => zeroAt f (field f 16 8 + 48 * (i + 1) + 7) 1 && zeroAt f (field f 16 8 + 48 * (i + 1) + 44) 4) &&
    [6, 7, 8, 10, 12].all fun k => decide ((ofKind ss k).length ≤ 1)

/-- A symbol's place in the file, by index. -/
def symAt (f : List Byte) (ss : List Sect) (i : Nat) : Option Nat :=
  match ss[field f 32 4]? with
  | some x => x.entries[i]?
  | none => none

/-- The type of a symbol; 0 where there is none (R76). -/
def symType (f : List Byte) (ss : List Sect) (i : Nat) : Nat := ((symAt f ss i).map fun p => field f (p + 7) 1).getD 0

/-- A symbol's value is no further than its section reaches (R76). -/
def symPlaced (x : Sect) (code : Bool) (value : Nat) : Bool :=
  if code then decide (x.addr ≤ value ∧ value ≤ x.addr + x.size) else decide (value ≤ x.size)

/-- A symbol table entry (R76). -/
def symbolOk (f : List Byte) (ss : List Sect) (strs : Sect) (p : Nat) : Bool :=
  let sect := field f (p + 4) 2
  let bind := field f (p + 6) 1
  let type := field f (p + 7) 1
  let code := kindOf ss sect = 1 ∨ kindOf ss sect = 2
  nameOk f strs (field f p 4) && decide (bind ≤ 1) && decide (type ≤ 4) &&
    (decide (sect = 0 ∨ sect = 0xFFFF) || (match ss[sect]? with
      | some x => symPlaced x (decide code) (field f (p + 8) 8)
      | none => false)) &&
    (decide (sect ≠ 0) || decide (bind = 1)) && (!decide (type = 1 ∨ type = 3) || decide code) && (!decide (type = 2) || !decide code)

/-- The symbols, the null symbol first (R72, R76). -/
def symbolsOk (f : List Byte) (ss : List Sect) (strs : Sect) : Bool :=
  let i := field f 32 4
  (decide (i = 0) && (ofKind ss 8).isEmpty || decide (kindOf ss i = 8)) &&
    (match entriesOf ss 8 with
      | [] => true
      | p :: ps => zeroAt f p 24 && ps.all (symbolOk f ss strs))

/-- A kernel table entry (R77). -/
def kernelOk (f : List Byte) (ss : List Sect) (p : Nat) : Bool :=
  let asect := field f (p + 6) 2
  let regs := field f (p + 24) 1
  let warps := field f (p + 25) 1
  let inhlo := field f (p + 26) 1
  let inhn := field f (p + 27) 1
  let qsram := field f (p + 28) 4
  let setheap := field f (p + 32) 4
  decide (symType f ss (field f p 4) = 3) && decide (kindOf ss (field f (p + 4) 2) = 1) && decide (asect = 0xFFFF ∨ kindOf ss asect = 2) &&
    (match symAt f ss (field f p 4) with
      | some q => decide (field f (p + 8) 4 = field f (q + 8) 8)
      | none => false) &&
    decide (4 ≤ field f (p + 12) 4) && (decide (asect ≠ 0xFFFF) || zeroAt f (p + 20) 4) &&
    decide (8 ≤ regs ∧ regs ≤ 192 ∧ regs % 8 = 0 ∧ 1 ≤ warps ∧ warps ≤ 16) && decide (inhlo % 8 = 0 ∧ inhn % 8 = 0 ∧ inhlo + inhn ≤ regs) &&
    decide (qsram % 4096 = 0 ∧ qsram ≤ 2 ^ 24 ∧ setheap % 64 = 0 ∧ setheap ≤ qsram) && decide (field f (p + 36) 4 < 4) && zeroAt f (p + 40) 24

/-- A launch template entry (R78). -/
def templateOk (f : List Byte) (ss : List Sect) (p : Nat) : Bool :=
  let data (i : Nat) : Bool := decide (i = 0) || decide (symType f ss i = 2)
  decide (field f (p + 4) 4 < (entriesOf ss 6).length) && data (field f (p + 12) 4) && data (field f (p + 16) 4) &&
    decide (field f (p + 20) 1 ≤ 3) && decide (field f (p + 21) 1 ≤ 1) && zeroAt f (p + 22) 10

/-- A relocation entry of a section that patches another (R79, R80). -/
def relocOk (f : List Byte) (ss : List Sect) (target : Sect) (p : Nat) : Bool :=
  let kind := field f (p + 12) 2
  let at_ := field f p 8
  let long := kind = 5 ∨ kind = 7
  decide (1 ≤ kind ∧ kind ≤ 7) && (decide long || decide (at_ % 4 = 0)) && decide (at_ + (if long then 8 else 4) ≤ target.size) && zeroAt f (p + 14) 2 &&
    (if kind ≤ 3 then decide (target.kind ≤ 2) else decide (3 ≤ target.kind)) && (decide (kind < 6) || zeroAt f (p + 8) 4) &&
    (decide (kind ≠ 7) || (let k := kindOf ss (field f (p + 16) 2); decide (3 ≤ k ∧ k ≤ 5)))

/-- Every relocation section (R79, R80). -/
def relocsOk (f : List Byte) (ss : List Sect) : Bool :=
  (ofKind ss 9).all fun x => match ss[x.link]? with
    | some t => x.entries.all (relocOk f ss t)
    | none => false

/-- The region table and the line tables (R81). -/
def regionsOk (f : List Byte) (ss : List Sect) (strs : Sect) : Bool :=
  let rs := entriesOf ss 10
  let ids := rs.map fun p => field f p 2
  rs.all (fun p => decide (field f p 2 ≠ 0) && zeroAt f (p + 2) 2 && nameOk f strs (field f (p + 4) 4)) && decide ((distinct ids).length = ids.length) &&
    (ofKind ss 11).all fun x => x.entries.all (fun p => nameOk f strs (field f (p + 4) 4) && decide (1 ≤ field f (p + 8) 4) && zeroAt f (p + 14) 2) &&
      (x.entries.zip (x.entries.drop 1)).all fun e => decide (field f e.1 4 < field f e.2 4)

/-- The supervisor's check of an image (R84, step 1). -/
def imageOk (f : List Byte) : Bool :=
  let ss := sectsOf f
  headerOk f && (match ss[field f 28 4]? with
    | some strs => decide (strs.kind = 12) && sectionsOk f ss strs && symbolsOk f ss strs && (entriesOf ss 6).all (kernelOk f ss) &&
        (entriesOf ss 7).all (templateOk f ss) && relocsOk f ss && regionsOk f ss strs
    | none => false)

/-! ### The code (R84, steps 2 and 3) -/

/-- The granules of instruction memory that a code image takes. -/
def codeGrans (base size : Nat) : List Nat := (List.range ((size + 255) / 256)).map fun i => base / 256 + i

/-- A code base that the supervisor may choose: a multiple of 256, with the range free on every core of the domain. -/
def State.baseFree (s : State) (dom size base : Nat) : Bool :=
  decide (base % 256 = 0 ∧ base + size ≤ Config.imemBytes) &&
    (s.partition dom).all fun c => (codeGrans base size).all fun g => decide (Tab.get .none (s.core c).owners g = .none)

/-- There is a code base for the image (R84). -/
def State.anyBase (s : State) (dom size : Nat) : Bool := (List.range (Config.imemBytes / 256)).any fun i => s.baseFree dom size (256 * i)

/-- The word of the code image at an offset; a gap between sections reads as zero. -/
def imageWord (f : List Byte) (off : Nat) : Word :=
  match (sectsOf f).find? fun x => decide ((x.kind = 1 ∨ x.kind = 2) ∧ x.addr ≤ off ∧ off < x.addr + x.size) with
  | some x => BitVec.ofNat 32 (field f (x.offset + off - x.addr) 4)
  | none => 0

/-- Code words written at a base on one core, for an owner. -/
def State.writeImage (s : State) (core base size : Nat) (owner : GranOwner) (word : Nat → Word) : State :=
  (List.range ((size + 3) / 4)).foldl (fun t i => t.writeCode core (base / 4 + i) owner (word (4 * i))) s

/-! ### The data (R84, steps 4 and 5) -/

/-- The sections that a load maps, each with its index (R84). -/
def dataSects (ss : List Sect) : List (Nat × Sect) := (ss.zipIdx.filter fun x => decide (3 ≤ x.1.kind ∧ x.1.kind ≤ 5)).map fun x => (x.2, x.1)

/-- A number in bytes with a value added to it (R80). -/
def addAt (bs : List Byte) (at_ n x : Nat) : List Byte := bs.take at_ ++ leBytes n (field bs at_ n + x) ++ bs.drop (at_ + n)

/-- The contents of a section with one load relocation applied: kind 6 adds the code base, kind 7 the address of the section it names
(R80, R84). -/
def applyReloc (f : List Byte) (base : Nat) (placed : List (Nat × Nat)) (bs : List Byte) (p : Nat) : List Byte :=
  match field f (p + 12) 2 with
  | 6 => addAt bs (field f p 8) 4 base
  | 7 => addAt bs (field f p 8) 8 (((placed.find? fun x => decide (x.1 = field f (p + 16) 2)).map Prod.snd).getD 0)
  | _ => bs

/-- What a mapped section holds once loaded: nothing for zero fill, else its contents with its relocations applied. -/
def sectionBytes (f : List Byte) (base : Nat) (placed : List (Nat × Nat)) (i : Nat) (x : Sect) : List Byte :=
  if x.kind = 5 then []
  else ((ofKind (sectsOf f) 9).filter fun y => decide (y.link = i)).foldl (fun bs y => y.entries.foldl (applyReloc f base placed) bs)
    ((List.range x.size).map fun k => f.getD (x.offset + k) 0)

/-- The first addresses of the pages of 64 KiB that a section at an address takes. -/
def sectPages (va size : Nat) : List Nat := (List.range ((size + 65535) / 65536)).map fun i => va + 65536 * i

/-- A page maps a section as its kind asks: in ordinary memory, for the program, writable but for kind 4; and its epoch is fresh, so that
it holds no byte under its owner's tag (R84, R334). -/
def State.pageSuits (s : State) (dom : Nat) (x : Sect) (va : Nat) : Bool :=
  match walkOf s dom va with
  | .ok e => e.user && e.rd && decide (e.attr = 0) && decide (e.w = (x.kind ≠ 4)) &&
      (s.mem.all fun c => decide (c.1 / 65536 ≠ (e.pa + va % e.size) / 65536) || decide (s.tagOf c.1 ≠ (dom, e.epoch)))
  | .error _ => false

/-- A section's address suits it: in the paged global space, aligned, with every page mapped. -/
def State.placeSuits (s : State) (dom : Nat) (x : Sect) (va : Nat) : Bool :=
  decide (va % 2 ^ max x.align 16 = 0 ∧ va + x.size ≤ 2 ^ 53) && (sectPages va x.size).all (s.pageSuits dom x)

/-- Two ranges of addresses have no page in common. -/
def apart (a b : Nat × Nat) : Bool := (sectPages a.1 a.2).all fun p => !(sectPages b.1 b.2).contains p

/-- Every pair of a list is apart. -/
def allApart : List (Nat × Nat) → Bool
  | [] => true
  | x :: xs => xs.all (apart x) && allApart xs

/-- The reference of a byte of a domain's page, under the owner tag of its entry (R333). -/
def State.pageRef (s : State) (dom va : Nat) : Option BRef :=
  match walkOf s dom va with
  | .ok e => some { pa := e.pa + va % e.size, dom := dom, epoch := e.epoch, tagged := decide (paSpace e.pa = 0), cached := false, stamp := 0 }
  | .error _ => none

/-- Bytes that the supervisor writes into a domain's pages, for the domain (R84, R333). -/
def State.fillSection (s : State) (dom va : Nat) (bs : List Byte) : State :=
  let xs := bs.zipIdx.filterMap fun b => (s.pageRef dom (va + b.2)).map fun r => (r, b.1)
  (s.deviceWrite (xs.map Prod.fst) (xs.map Prod.snd)).heal (xs.map Prod.fst)

/-! ### The load and the unload (R84, R85) -/

/-- The table entries of a load written by the supervisor. -/
def State.writeEntries (s : State) (es : List (Nat × DWord)) : State := es.foldl (fun t e => t.superStore e.1 (leBytes 8 e.2.toNat)) s

/-- The choice of addresses and table entries is one for the image: one for each section it maps, each suits its section, and no two share
a page. -/
def State.choiceSuits (s : State) (dom : Nat) (xs : List (Nat × Sect)) (vas : List Nat) : Bool :=
  decide (xs.length = vas.length) && (xs.zip vas).all (fun x => s.placeSuits dom x.1.2 x.2) && allApart ((xs.zip vas).map fun x => (x.2, x.1.2.size))

/-- An image that the check passed, loaded at a code base with its sections at the places chosen (R84, steps 3 to 6). -/
def State.loadAt (s : State) (dom base : Nat) (f : List Byte) (places : List (Nat × List (Nat × DWord))) : State :=
  let xs := dataSects (sectsOf f)
  let vas := places.map Prod.fst
  let placed := (xs.map Prod.fst).zip vas
  let entries := places.flatMap Prod.snd
  let s1 := s.writeEntries entries
  if s1.choiceSuits dom xs vas then
    let s2 := (s1.partition dom).foldl (fun t c => t.writeImage c base (codeSize f) (.dom dom) (imageWord f)) s1
    let s3 := (xs.zip vas).foldl (fun t x => t.fillSection dom x.2 (sectionBytes f base placed x.1.1 x.1.2)) s2
    let image : Image := { handle := s.nextImage, dom := dom, base := base, size := codeSize f, sections := placed, entries := entries.map Prod.fst }
    let s4 := { s3 with images := s.images ++ [image], nextImage := s.nextImage + 1, reply := .loaded s.nextImage }
    s4.modDom dom fun d => d.measured (digestOf f)
  else s

/-- The host asks the supervisor to load an image into a domain (R84): a file that the check refuses, or no room in instruction memory, is
answered; a base or place that the supervisor could not choose is no choice of it. -/
def State.loadImage (s : State) (dom base : Nat) (f : List Byte) (places : List (Nat × List (Nat × DWord))) : State :=
  if !(s.dom dom).exists_ then s
  else if !imageOk f then { s with reply := .format }
  else if s.baseFree dom (codeSize f) base then s.loadAt dom base f places
  else if s.anyBase dom (codeSize f) then s
  else { s with reply := .imem }

/-- A code range of a domain's image zero-filled on a core, and free again (R85). -/
def State.clearImage (s : State) (x : Image) (core : Nat) : State :=
  if (codeGrans x.base x.size).all fun g => decide (Tab.get .none (s.core core).owners g = .dom x.dom) then s.writeImage core x.base x.size .none fun _ => 0 else s

/-- The image of a handle unloaded: its code is zero on every core that holds it, and its data is unmapped (R85, R351). -/
def State.unloadImage (s : State) (handle : Nat) : State :=
  match s.images.find? fun x => decide (x.handle = handle) with
  | some x =>
    let s1 := (s.cores.map Prod.fst).foldl (fun t c => t.clearImage x c) s
    let s2 := (s1.writeEntries (x.entries.map fun e => (e, 0))).dropTlbs x.dom none
    { s2 with images := s.images.filter fun y => decide (y.handle ≠ handle) }
  | none => s

end Sys2Proof.Machine
end

