-- ==== Sys2Proof/Machine/Mmio.lean ====
section
/-! DEFINITION. The MMIO map: the registers that the host writes and reads behind BAR0 and BAR4, by name and by offset (R2, R26, R175,
R212, R331, R345, R346, R380, R384 to R395). -/

namespace Sys2Proof.Machine

/-! ### Registers by name -/

/-- A number held between two bounds. -/
def clampTo (lo hi x : Nat) : Nat := min hi (max lo x)

/-- The records of a domain's trace buffer that a vault holds no longer move TWPTR: the buffer has been restarted (R380). -/
def State.dropShown (s : State) (dom : Nat) : State :=
  { s with delayed := s.delayed.map fun d => if d.trace = some dom then { d with trace := none } else d }

/-- TBASE: an aligned base restarts the trace buffer (R380, R383). -/
def execTbase (dom : Nat) (value : DWord) (s : State) : Out :=
  .next (if value.toNat % 4096 = 0 then (s.modDom dom fun d => { d with tbuf := BitVec.ofNat 64 (value.toNat % 2 ^ 56), tnext := 0, twptr := 0 }).dropShown dom else s)

/-- TLOST_CLEAR (R380). -/
def execTlostClear (dom : Nat) (s : State) : Out := .next (s.modDom dom fun d => { d with tlost := 0 })

/-- The reach of a control register's copies: a core, a die or a domain (R346). -/
def State.controlAt (s : State) (u : Nat) : Csr → Option (Nat × Nat)
  | .clkw | .wrefresh => if s.hasDie u then some (64 * u, 0) else none
  | .swapwait | .svec | .vault => if s.hasDie (dieOf u) then some (u, 0) else none
  | .events => if s.hasDie (u / domainIds) then some (64 * (u / domainIds), u % domainIds) else none
  | _ => if u < domainIds then some (0, u) else none

/-- A copy of a control register of a core, die or domain that the host writes; values that a CSRW would refuse are ignored (R346). The
copy of `cr.events` that a number `d + 1024 k` names is that of domain `d` and die `k`. -/
def State.hostControl (s : State) (u : Nat) (c : Csr) (x : Word) : State :=
  match s.controlAt u c with
  | some (core, dom) => if s.csrRefuses core c x then s else s.csrShared core dom c x
  | none => s

/-- A register of the observation block of a domain written (R380). -/
def Domain.observe (x : Domain) (k : Nat) (value : DWord) : Domain :=
  if k = 0 then { x with octl := lo32 value &&& 0xFFFF001F#32 }
  else if k = 2 then (if 6 ≤ value.toNat % 32 ∧ value.toNat % 32 ≤ 24 then { x with tsize := value.toNat % 32 } else x)
  else if 5 ≤ k ∧ k < 9 then { x with barm := Tab.set 0 x.barm (k - 5) (lo32 value &&& 0x3FFFF#32) }
  else if 32 ≤ k ∧ k < 60 then { x with counters := Tab.set 0 x.counters (k - 32) value }
  else x

/-- A domain of the map changed. -/
def State.atDom (s : State) (d : Nat) (f : Domain → Domain) : State := if d < domainIds then s.modDom d f else s
/-- A core of the part changed. -/
def State.atCore (s : State) (c : Nat) (f : Core → Core) : State := if s.hasDie (dieOf c) then s.modCore c f else s

/-- An entry of the MSI-X table of a link: bytes 0 to 7 are half 0, bytes 8 to 15 half 1. Unmasking an entry raises a vector that is
pending (R384; log entry 72). -/
def State.writeMsix (s : State) (link vector half : Nat) (x : DWord) : State :=
  if s.links.contains link && decide (vector < 64) && decide (half < 2) then
    let s1 := { s with msixTable := Tab.set 0 s.msixTable (128 * link + 2 * vector + half) x }
    if !s1.masked vector link && Tab.get false s.msixPending (64 * link + vector) then
      { s1 with msixPending := Tab.set false s1.msixPending (64 * link + vector) false }.raise vector link
    else s1
  else s

/-- How a controller stands, as the host reads it: 0 absent, 1 held in reset, 2 enabled (log entry 89). -/
def UnitState.code : UnitState → Nat
  | .absent => 0
  | .heldInReset => 1
  | .enabled => 2

/-- A controller of a die: 0 its host link, 1 to 3 its die-to-die links, 4 its PMC, 5 to 8 its fabric ports (R2). -/
def State.controller (s : State) (die k : Nat) : UnitState :=
  if k = 0 then s.hostLink die
  else if k < 4 then s.dieLink die (k - 1)
  else if k = 4 then s.pmc die
  else if s.hasPort die (k - 5) then .enabled else .absent

/-- A stream through which the host reads the copies of a core, die and domain. -/
def hostRef (core : Nat) : Ref := { core := core, set := Config.queueSets, who := .warp 0 }

/-- A copy of a control register of a core, die or domain as the host reads it. -/
def State.controlRead (s : State) (u : Nat) (c : Csr) : Word :=
  match s.controlAt u c with
  | some (core, dom) =>
    if c = .events then
      (if (s.dom dom).doorbell then 1#32 else 0) ||| (if decide ((s.dom dom).tcmp.toNat ≤ (s.guest dom).toNat) then 2#32 else 0) |||
        ((s.die (dieOf core)).events &&& 0xF00#32)
    else ((s.modWg core Config.queueSets fun g => { g with dom := dom }).csrRead (hostRef core) c)
  | none => BitVec.allOnes 32

/-- A warp's copy of a control register as the host reads it; all ones where there is no such warp. -/
def State.warpControl (s : State) (core set warp : Nat) (c : Csr) : Word :=
  if (s.warpAt core set warp).exists_ then s.csrRead { core := core, set := set, who := .warp warp } c else BitVec.allOnes 32

/-- An entry of the MSI-X table of a link and its pending bit, as they read behind BAR4 (R384). -/
def State.msixBytes (s : State) (link vector : Nat) : List Byte :=
  if s.links.contains link && decide (vector < 64) then
    leBytes 8 (Tab.get 0 s.msixTable (128 * link + 2 * vector)).toNat ++ leBytes 8 (Tab.get 0 s.msixTable (128 * link + 2 * vector + 1)).toNat ++
      [if Tab.get false s.msixPending (64 * link + vector) then 1#8 else 0]
  else List.replicate 17 0xFF

/-- Physical bytes as the supervisor or the host reads them (R328, R336, R337): they wait for a vault that holds one, and lost ones read as
all ones (log entry 88). -/
def State.readPhysical (s : State) (pa n : Nat) : State :=
  if s.heldRange pa n then s
  else { s with hostRead := if s.badRange pa n then List.replicate n 0xFF else s.physBytes pa n }

/-- A register named by itself, with no behaviour but its bounds and reserved bits, and what the supervisor and the host ask for beside
registers. -/
def State.setReg (s : State) (reg : MmioReg) (value : DWord) : State :=
  let v := value.toNat
  match reg with
  | .fwaddr => { s with fwaddr := value }
  | .fwlen => { s with fwlen := lo32 value }
  | .vbnext k => s.atVault k fun x => { x with vbnext := value }
  | .talert d => s.atDie d fun x => { x with talert := clampTo 60 104 (v % 256) }
  | .tretain d => s.atDie d fun x => { x with tretainC := clampTo 80 104 (v % 256), tretainS := clampTo 1 3600 (bitsOf v 31 16) }
  | .win k => if k < 16 then { s with windows := Tab.set (0, 0, false) s.windows k (bitsOf v 55 30, bitsOf v 9 0, value.getLsbD 63) } else s
  | .wsel c => s.atCore c fun x => { x with wsel := v % 64 }
  | .praddr c => s.atCore c fun x => { x with praddr := value }
  | .prwg c => s.atCore c fun x => { x with prwg := value }
  | .savebase c => s.atCore c fun x => { x with savebase := value }
  | .backbase c => s.atCore c fun x => { x with backbase := value }
  | .backsize c => s.atCore c fun x => { x with backsize := max 1536 v }
  | .strap c => s.atCore c fun x => { x with strap := value }
  | .pcap => { s with pcap := clampTo (s.part.figure 900) (s.part.figure 1800) (v % 2048) }
  | .podix => { s with podix := v % 2 ^ 18 }
  | .bcnsrc => { s with bcnsrc := value.getLsbD 0 }
  | .hbeaconu => { s with hbeaconu := lo32 value }
  | .mailback d => if s.hasDie d then (s.modDie d fun x => { x with mailback := value }).raiseAll 3 else s
  | .octl d => s.atDom d fun x => x.observe 0 value
  | .tsize d => s.atDom d fun x => x.observe 2 value
  | .barm d k => if k < 4 then s.atDom d fun x => x.observe (5 + k) value else s
  | .counter d k => if k < 28 then s.atDom d fun x => x.observe (32 + k) value else s
  | .logbase d => s.atDom d fun x => { x with logbase := value }
  | .logsize d => s.atDom d fun x => { x with logsize := value }
  | .control u c => s.hostControl u c (lo32 value)
  | .epoch d => s.atDom d fun x => if v % 2 ^ 14 = 0 then x else { x with epoch := v % 2 ^ 14 }
  | .msixEntry link vector half => s.writeMsix link vector half value
  | .physical pa bytes => s.superStore pa bytes
  | .code core word owner => s.writeCode core word owner (lo32 value)
  | .physicalRead pa n => s.readPhysical pa n
  | .page pa size => s.makePage pa size (value.getLsbD 0)
  | .load d base image places => s.loadImage d base image places
  | .unload handle => s.unloadImage handle
  | .report d nonce => if (s.dom d).exists_ then { s with attested := s.domainReport d nonce } else s
  | .holds d va size entry => s.atDom d fun x => { x with holds := x.holds ++ [{ va := va, size := size, entry := entry, value := value }] }
  | .readWarp core set warp c => { s with hostRead := leBytes 4 (s.warpControl core set warp c).toNat }
  | .lastTime d => { s with hostRead := leBytes 8 (if d < domainIds then (s.dom d).lastTime.toNat else 2 ^ 64 - 1) }
  | .msixRead link vector => { s with hostRead := s.msixBytes link vector }
  | .readControl u c => { s with hostRead := leBytes 4 (s.controlRead u c).toNat }
  | .interval d => if s.hasDie d then { s.report d with hostRead := leBytes 8 ((s.interval d).1 % 2 ^ 64) ++ leBytes 8 ((s.interval d).2 % 2 ^ 64) } else { s with hostRead := List.replicate 16 0xFF }
  | .controller d k => { s with hostRead := leBytes 4 (s.controller d k).code }
  | .identity cert off n => { s with hostRead := (List.range n).map fun i => Config.identityByte cert (off + i) }
  | .goOn core set warp => s.modWarpAt core set warp fun w => { w with service := w.service.map fun x => { x with told := true } }
  | .bar0 _ | .read _ _ | .readOnly => s

/-! ### Registers by offset (R386) -/

/-- The state a meaning leads to. -/
def State.from (s : State) (o : Out) : State := match o with
  | .next t => t
  | _ => s

/-- A write to the housekeeping block of a die (R385, R388, R389, R394, R395). -/
def State.houseWrite (s : State) (die o : Nat) (x : DWord) : State :=
  if o = 0x010 then s.from (execHreset (lo32 x) s)
  else if o = 0x018 then s.from (execMailbox die x s)
  else if o = 0x020 then s.setReg (.mailback die) x
  else if o = 0x040 then s.setReg .podix x
  else if o = 0x048 then s.setReg .bcnsrc x
  else if o = 0x050 then s.from (execHbeacon x s)
  else if o = 0x058 then s.setReg .hbeaconu x
  else if 0x200 ≤ o ∧ o < 0x280 then s.setReg (.win ((o - 0x200) / 8)) x
  else s

/-- A write to the power and thermal block of a die (R391, R392); that of PCAP on die 0 only. -/
def State.powerWrite (s : State) (die o : Nat) (x : DWord) : State :=
  if o = 0x000 then s.from (execPstate die (lo32 x) s)
  else if o = 0x010 then (if die = 0 then s.setReg .pcap x else s)
  else if o = 0x020 then (if x = 0 then s.from (execPthrotClear die s) else s)
  else if o = 0x030 then s.setReg (.talert die) x
  else if o = 0x038 then (if x.getLsbD 1 then s.from (execTripClear die s) else s)
  else if o = 0x040 then s.from (execQpark die (x.setWidth 16) s)
  else if o = 0x050 then s.setReg (.tretain die) x
  else s

/-- The shares of a core as its four 32-bit entries (R387). -/
def Core.shareWord (c : Core) : BitVec 128 :=
  BitVec.ofNat 128 (ofLe ((List.range 4).flatMap fun i => let e := c.share.getD i (0, 0); leBytes 4 (e.1 + 65536 * e.2)))

/-- A write to the block of a core (R387). -/
def State.coreWrite (s : State) (c o : Nat) (x : DWord) : State :=
  if o = 0x000 then s.setReg (.praddr c) x
  else if o = 0x008 then s.setReg (.prwg c) x
  else if o = 0x010 then (if x.getLsbD 0 then s.from (execPreemptRequest c (x.getLsbD 1) s) else s)
  else if o = 0x020 then s.setReg (.savebase c) x
  else if o = 0x028 then s.setReg (.backbase c) x
  else if o = 0x030 then s.setReg (.backsize c) x
  else if o = 0x038 then s.setReg (.strap c) x
  else if o = 0x040 then s.from (execShare c ((s.core c).shareWord.extractLsb' 64 64 ++ x) s)
  else if o = 0x048 then s.from (execShare c (x ++ (s.core c).shareWord.setWidth 64) s)
  else if o = 0x050 then s.setReg (.wsel c) x
  else if 0x2000 ≤ o ∧ o < 0x10000 then s.from (execStateWindowWrite c (o - 0x2000) (leBytes 8 x.toNat) s)
  else s

/-- A write to VRCTL (R175). -/
def State.vrctlWrite (s : State) (v : Nat) (x : DWord) : State :=
  let s1 := if x.getLsbD 0 then s.from (execVaultQuiesce v s) else s.from (execVaultQuiesceRelease v s)
  if x.getLsbD 2 then s1.from (execRemapGo v s1) else s1

/-- A write to the block of a domain (R380, R387). A key is written whole by KEY; a part of it is no key (log entry 89). -/
def State.domWrite (s : State) (d o : Nat) (x : DWord) : State :=
  if o = 0x008 then s.from (execTbase d x s)
  else if o = 0x020 then (if x = 0 then s.from (execTlostClear d s) else s)
  else if o < 0x200 then s.atDom d fun y => y.observe (o / 8) x
  else if o = 0x200 then (if x.getLsbD 0 then s.from (execDctlStop d s) else s.from (execDctlStart d s))
  else if o = 0x208 then s.from (execDoorbell d s)
  else if o = 0x210 then s.setReg (.logbase d) x
  else if o = 0x218 then s.setReg (.logsize d) x
  else s

/-- A write to a die's region, whose blocks R386 lays out. -/
def State.regionWrite (s : State) (die o : Nat) (x : DWord) : State :=
  if o < 0x10000 then s.houseWrite die o x
  else if o < 0x20000 then s.powerWrite die (o - 0x10000) x
  else if o < 0x21000 then (if die = 0 ∧ o < 0x20020 then { s with admbad := s.admbad + 1 } else s)
  else if 0x30000 ≤ o ∧ o < 0x31000 then
    (if die ≠ 0 then s else if o = 0x30000 then s.setReg .fwaddr x else if o = 0x30008 then s.setReg .fwlen x
      else if o = 0x30010 then s.from (execFwgo s) else s)
  else if 0x100000 ≤ o ∧ o < 0x110000 then
    (if o % 4096 = 0 then s.from (execQuadAssignmentWrite (16 * die + (o - 0x100000) / 4096) x s) else s)
  else if 0x400000 ≤ o ∧ o < 0x800000 then s.coreWrite (64 * die + (o - 0x400000) / 65536) (o % 65536) x
  else if 0x800000 ≤ o ∧ o < 0x840000 then
    (let v := 64 * die + (o - 0x800000) / 4096
     if o % 4096 = 0x08 then s.setReg (.vbnext v) x else if o % 4096 = 0x10 then s.vrctlWrite v x else s)
  else if 0x1000000 ≤ o ∧ o < 0x1400000 then (if die = 0 then s.domWrite ((o - 0x1000000) / 4096) (o % 4096) x else s)
  else s

/-- A write of 8 bytes behind BAR0: die d's region stands at d × 2^28. That of an absent die is discarded (R384), and so is one that is not
aligned to 8. -/
def State.mmioWrite (s : State) (off : Nat) (x : DWord) : State :=
  if off % 8 = 0 ∧ s.hasDie (off / 2 ^ 28) then s.regionWrite (off / 2 ^ 28) (off % 2 ^ 28) x else s

/-- An error log entry as its 32 bytes (R389). -/
def ErrEntry.bytes (e : ErrEntry) : List Byte :=
  leBytes 8 e.time ++ leBytes 8 e.addr.toNat ++ [e.cause] ++ leBytes 1 e.kind ++ leBytes 2 e.dom ++ leBytes 2 e.unit ++ leBytes 10 0

/-- The entry of the error log ring at a place: the `n`-th written stands at `n mod 256` (R389). -/
def Die.errAt (d : Die) (i : Nat) : List Byte :=
  let first := d.errcount - d.errlog.length
  ((d.errlog[(i + 256 - first % 256) % 256]?).map ErrEntry.bytes).getD (leBytes 32 0)

/-- Eight bytes of a housekeeping block as it reads (R385, R389, R394, R395). -/
def State.houseRead (s : State) (die o : Nat) : Nat :=
  let d := s.die die
  if o = 0x018 then d.mailbox.toNat
  else if o = 0x020 then d.mailback.toNat
  else if o = 0x040 then s.podix
  else if o = 0x048 then (if s.bcnsrc then 1 else 0)
  else if o = 0x050 then s.hbeacon.toNat
  else if o = 0x058 then s.hbeaconu.toNat
  else if o = 0x100 then d.errcount
  else if 0x200 ≤ o ∧ o < 0x280 then
    let w := Tab.get (0, 0, false) s.windows ((o - 0x200) / 8)
    w.1 * 2 ^ 30 + w.2.1 + (if w.2.2 then 2 ^ 63 else 0)
  else if 0x1000 ≤ o ∧ o < 0x3000 then field (d.errAt ((o - 0x1000) / 32)) (o % 32) 8
  else 0

/-- A set of quads of a die as bits. -/
def State.quadBits (s : State) (die : Nat) (p : Quad → Bool) : Nat :=
  ((List.range 16).map fun q => if p (s.quad (dieQuad die q)) then 2 ^ q else 0).sum

/-- Eight bytes of a power and thermal block as it reads (R391 to R393). -/
def State.powerRead (s : State) (die o : Nat) : Nat :=
  let d := s.die die
  if o = 0x000 then d.target.1 + 2 ^ 16 * d.target.2
  else if o = 0x008 then d.inForce.1 + 2 ^ 16 * d.inForce.2 + (if d.refused then 2 ^ 30 else 0) + (if d.clkBusy then 2 ^ 31 else 0)
  else if o = 0x010 then (if die = 0 then s.pcap else 0)
  else if o = 0x018 then s.pmeas
  else if o = 0x020 then d.pthrot
  else if o = 0x030 then d.talert
  else if o = 0x038 then (if d.tripped then 1 else 0)
  else if o = 0x040 then s.quadBits die (·.parked)
  else if o = 0x048 then s.quadBits die (·.awake)
  else if o = 0x050 then d.tretainC + 2 ^ 16 * d.tretainS
  else if 0x100 ≤ o ∧ o < 0x140 then
    let at' (i : Nat) : Nat := let p := s.ptable.getD i (0, 0); p.1 + 2 ^ 16 * p.2
    at' ((o - 0x100) / 4) + 2 ^ 32 * at' ((o - 0x100) / 4 + 1)
  else if 0x200 ≤ o ∧ o < 0x220 then ofLe ((List.range 4).flatMap fun i => leBytes 2 (Tab.get 0 d.zones ((o - 0x200) / 2 + i)))
  else if 0x300 ≤ o ∧ o < 0x340 then
    ofLe ((List.range 2).flatMap fun i => let v := Tab.get (0, 0, 0) d.valves ((o - 0x300) / 4 + i); [v.1, v.2.1, v.2.2, 0#8])
  else 0

/-- The states of BOOTSTAT as they read (R388). -/
def Boot.code : Boot → Nat
  | .awaiting => 1
  | .loading => 2
  | .verified => 3
  | .failed => 4
  | .ready => 5

/-- The slots of a quad's assignment register as they read (R331). -/
def Quad.assignment (q : Quad) : Nat :=
  ((List.range 4).map fun i => match q.slots.getD i none with
    | some d => (d + 1024) * 2 ^ (11 * i)
    | none => 0).sum

/-- Eight bytes of a core's block as it reads (R387). -/
def State.coreRead (s : State) (c o : Nat) : Nat :=
  let x := s.core c
  if o = 0x000 then x.praddr.toNat
  else if o = 0x008 then x.prwg.toNat
  else if o = 0x010 then (if x.prhold then 2 else 0) + 4 * x.prstatus
  else if o = 0x020 then x.savebase.toNat
  else if o = 0x028 then x.backbase.toNat
  else if o = 0x030 then x.backsize
  else if o = 0x038 then x.strap.toNat
  else if o = 0x040 then x.shareWord.toNat % 2 ^ 64
  else if o = 0x048 then x.shareWord.toNat / 2 ^ 64
  else if o = 0x050 then x.wsel
  else if 0x2000 ≤ o ∧ o < 0x10000 then
    match x.inSlot x.wsel with
    | some (k, w) => (s.warpImage (s.warpAt c k w) w (s.wg c k).seq).phys64 (o - 0x2000)
    | none => 0
  else 0

/-- Eight bytes of a vault controller's block as it reads (R175). -/
def State.vaultRead (s : State) (k o : Nat) : Nat :=
  let v := s.vault k
  if o = 0x00 then v.vbmap.toNat
  else if o = 0x08 then v.vbnext.toNat
  else if o = 0x10 then (if v.quiesce then 1 else 0) + (if v.qdone then 2 else 0) + (if v.busy then 8 else 0) + 16 * v.status
  else if o = 0x18 then v.moved
  else if o = 0x20 then v.risk.toNat
  else 0

/-- A domain issues nothing: it is stopped, and no stream of it is selected (R342, R387). -/
def State.domStopped (s : State) (d : Nat) : Bool := (s.dom d).stop && !(s.turn.any fun t => decide (s.domOf t.ref = d))

/-- Eight bytes of a domain's block as it reads; a key never does (R340, R380, R387). -/
def State.domRead (s : State) (d o : Nat) : Nat :=
  let x := s.dom d
  if o = 0x00 then x.octl.toNat
  else if o = 0x08 then x.tbuf.toNat
  else if o = 0x10 then x.tsize
  else if o = 0x18 then x.twptr
  else if o = 0x20 then x.tlost
  else if 0x28 ≤ o ∧ o < 0x48 then (Tab.get 0 x.barm ((o - 0x28) / 8)).toNat
  else if 0x100 ≤ o ∧ o < 0x1E0 then (Tab.get 0 x.counters ((o - 0x100) / 8)).toNat
  else if o = 0x200 then (if x.stop then 1 else 0) + (if s.domStopped d then 2 else 0)
  else if o = 0x210 then x.logbase.toNat
  else if o = 0x218 then x.logsize.toNat
  else if o = 0x440 then x.keystat
  else 0

/-- Eight bytes of a die's region as it reads (R386); what no register holds reads 0. -/
def State.regionRead (s : State) (die o : Nat) : Nat :=
  if o < 0x10000 then s.houseRead die o
  else if o < 0x20000 then s.powerRead die (o - 0x10000)
  else if o < 0x21000 then
    (if die ≠ 0 then 0 else if o = 0x20020 then s.admission.length else if o = 0x20030 then s.admbad
      else if o = 0x20040 then s.admref.toNat else if o = 0x20048 then s.admreason else 0)
  else if 0x30000 ≤ o ∧ o < 0x31000 then
    (if die ≠ 0 then 0 else if o = 0x30000 then s.fwaddr.toNat else if o = 0x30008 then s.fwlen.toNat
      else if o = 0x30018 then s.boot.code + 256 * s.bootReason else 0)
  else if 0x40000 ≤ o ∧ o < 0x44000 then
    (let p := s.port die ((o - 0x40000) / 4096)
     if o % 4096 = 0 then (if p.up then 1 else 0) + 2 ^ 32 * p.peer else if o % 4096 = 8 then p.replays else 0)
  else if 0x100000 ≤ o ∧ o < 0x110000 then
    (let q := s.quad (16 * die + (o - 0x100000) / 4096)
     if o % 4096 = 0 then q.assignment else if o % 4096 = 8 then q.astat + 256 * q.areason else 0)
  else if 0x400000 ≤ o ∧ o < 0x800000 then s.coreRead (64 * die + (o - 0x400000) / 65536) (o % 65536)
  else if 0x800000 ≤ o ∧ o < 0x840000 then s.vaultRead (64 * die + (o - 0x800000) / 4096) (o % 4096)
  else if 0x1000000 ≤ o ∧ o < 0x1400000 then (if die = 0 then s.domRead ((o - 0x1000000) / 4096) (o % 4096) else 0)
  else 0

/-- Up to eight bytes behind BAR0 as they read; the region of an absent die reads all ones (R384). -/
def State.mmioRead (s : State) (off n : Nat) : List Byte :=
  if s.hasDie (off / 2 ^ 28) then leBytes n (s.regionRead (off / 2 ^ 28) (off % 2 ^ 28 / 8 * 8) / 2 ^ (8 * (off % 8))) else List.replicate n 0xFF

/-- What the host asks of the supervisor's firmware, which runs from a verified image on (R344, R388). -/
def askedOf : MmioReg → Bool
  | .physical _ _ | .code _ _ _ | .physicalRead _ _ | .page _ _ | .load _ _ _ _ | .unload _ | .report _ _ | .holds _ _ _ _ | .epoch _ | .goOn _ _ _ => true
  | _ => false

/-- REGISTER_WRITE: a register written by name or by its offset, which leads to the meaning of the register's own row where it has one, or
a read of one (R386). -/
def execRegisterWrite (reg : MmioReg) (value : DWord) (s : State) : Out :=
  .next (match reg with
    | .bar0 off => s.mmioWrite off value
    | .read off n => { s with hostRead := s.mmioRead off n }
    | r => if askedOf r && !(decide (s.boot = .verified) || decide (s.boot = .ready)) then s else s.setReg r value)

end Sys2Proof.Machine
end

