-- ==== Sys2Proof/Machine/Uniform.lean ====
section
/-! DEFINITION. The uniform instructions (R138, R139). -/

namespace Sys2Proof.Machine

/-- GADD (R138). -/
def execGadd (d a : Reg) (b : Src) (s : State) : Out := uniTri (fun a b => a + b) d a b s

/-- GSUB (R138). -/
def execGsub (d a : Reg) (b : Src) (s : State) : Out := uniTri (fun a b => a - b) d a b s

/-- GMUL (R138). -/
def execGmul (d a : Reg) (b : Src) (s : State) : Out := uniTri (fun a b => a * b) d a b s

/-- GAND (R138). -/
def execGand (d a : Reg) (b : Src) (s : State) : Out := uniTri (fun a b => a &&& b) d a b s

/-- GOR (R138). -/
def execGor (d a : Reg) (b : Src) (s : State) : Out := uniTri (fun a b => a ||| b) d a b s

/-- GXOR (R138). -/
def execGxor (d a : Reg) (b : Src) (s : State) : Out := uniTri (fun a b => a ^^^ b) d a b s

/-- GSHL (R138). -/
def execGshl (d a : Reg) (b : Src) (s : State) : Out := uniTri (fun a b => iShl a b) d a b s

/-- GSHR (R138). -/
def execGshr (d a : Reg) (b : Src) (s : State) : Out := uniTri (fun a b => iShr a b) d a b s

/-- GSAR (R138). -/
def execGsar (d a : Reg) (b : Src) (s : State) : Out := uniTri (fun a b => iSar a b) d a b s

/-- GMIN (R138). -/
def execGmin (d a : Reg) (b : Src) (s : State) : Out := uniTri (fun a b => iMin a b) d a b s

/-- GMAX (R138). -/
def execGmax (d a : Reg) (b : Src) (s : State) : Out := uniTri (fun a b => iMax a b) d a b s

/-- GSLT (R138). -/
def execGslt (d a : Reg) (b : Src) (s : State) : Out := uniTri (fun a b => boolWord (sLt a b)) d a b s

/-- GSLTN (R138). -/
def execGsltn (d a : Reg) (b : Src) (s : State) : Out := uniTri (fun a b => boolWord (uLt a b)) d a b s

/-- GSEQ (R138). -/
def execGseq (d a : Reg) (b : Src) (s : State) : Out := uniTri (fun a b => boolWord (decide (a = b))) d a b s

/-- GADDI (R138). -/
def execGaddi (d a : Reg) (i : Imm8) (s : State) : Out := uniUn (fun a => a + imm8Word i) d a s

/-- GMOVI (R138). -/
def execGmovi (d : Reg) (i16 : BitVec 16) (s : State) : Out := issueSeq s fun s r => s.putUni r d (i16.signExtend 32)

/-- GMOVHI, which also reads its destination (R138). -/
def execGmovhi (d : Reg) (i16 : BitVec 16) (s : State) : Out := uniUn (fun x => iMovhi x i16) d d s

/-- GMOV (R138). -/
def execGmov (d a : Reg) (s : State) : Out := uniUn (fun a => a) d a s

/-- GRDL: lane `b mod 32` of a lane register (R30, R139). -/
def execGrdl (d : Reg) (a : Fin 192) (b : Reg) (s : State) : Out :=
  issueSeq s fun s r => do
    s.bounds r [(.v a, 1)]
    let j ← s.uniVal r b
    waitFor (!s.pendingV r a.val)
    s.sound r fun x => x.isV a.val && decide (x.lane = j.toNat % 32)
    (s.consume r [b]).putUni r d (rowGet ((s.warp r).vreg a.val) (j.toNat % 32))

end Sys2Proof.Machine
end

