-- ==== Sys2Proof/Machine/Dispatch.lean ====
section
/-! DEFINITION. The dispatcher: one arm for each constructor of `Instr`. -/

namespace Sys2Proof.Machine

-- Each arm calls the meaning of its instruction.
def exec (i : Instr) (s : State) : Host.Outcome State Fault Refusal :=
  match i with
  | .add d a b => Sys2Proof.Machine.execAdd d a b s
  | .sub d a b => Sys2Proof.Machine.execSub d a b s
  | .mul d a b => Sys2Proof.Machine.execMul d a b s
  | .mulhi d a b => Sys2Proof.Machine.execMulhi d a b s
  | .mulhn d a b => Sys2Proof.Machine.execMulhn d a b s
  | .mad d a b => Sys2Proof.Machine.execMad d a b s
  | .min d a b => Sys2Proof.Machine.execMin d a b s
  | .max d a b => Sys2Proof.Machine.execMax d a b s
  | .minn d a b => Sys2Proof.Machine.execMinn d a b s
  | .maxn d a b => Sys2Proof.Machine.execMaxn d a b s
  | .abs d a => Sys2Proof.Machine.execAbs d a s
  | .and d a b => Sys2Proof.Machine.execAnd d a b s
  | .or d a b => Sys2Proof.Machine.execOr d a b s
  | .xor d a b => Sys2Proof.Machine.execXor d a b s
  | .andn d a b => Sys2Proof.Machine.execAndn d a b s
  | .shl d a b => Sys2Proof.Machine.execShl d a b s
  | .shr d a b => Sys2Proof.Machine.execShr d a b s
  | .sar d a b => Sys2Proof.Machine.execSar d a b s
  | .rotl d a b => Sys2Proof.Machine.execRotl d a b s
  | .clz d a => Sys2Proof.Machine.execClz d a s
  | .popc d a => Sys2Proof.Machine.execPopc d a s
  | .brev d a => Sys2Proof.Machine.execBrev d a s
  | .bfx d a b => Sys2Proof.Machine.execBfx d a b s
  | .bfi d a b => Sys2Proof.Machine.execBfi d a b s
  | .addi d a imm => Sys2Proof.Machine.execAddi d a imm s
  | .shli d a n => Sys2Proof.Machine.execShli d a n s
  | .shri d a n => Sys2Proof.Machine.execShri d a n s
  | .sari d a n => Sys2Proof.Machine.execSari d a n s
  | .movi d i16 => Sys2Proof.Machine.execMovi d i16 s
  | .movhi d i16 => Sys2Proof.Machine.execMovhi d i16 s
  | .mov d a => Sys2Proof.Machine.execMov d a s
  | .setv d st => Sys2Proof.Machine.execSetv d st s
  | .fadd d a b => Sys2Proof.Machine.execFadd d a b s
  | .fsub d a b => Sys2Proof.Machine.execFsub d a b s
  | .fmul d a b => Sys2Proof.Machine.execFmul d a b s
  | .ffma d a b => Sys2Proof.Machine.execFfma d a b s
  | .fmin d a b => Sys2Proof.Machine.execFmin d a b s
  | .fmax d a b => Sys2Proof.Machine.execFmax d a b s
  | .fabs d a => Sys2Proof.Machine.execFabs d a s
  | .fneg d a => Sys2Proof.Machine.execFneg d a s
  | .frcp d a => Sys2Proof.Machine.execFrcp d a s
  | .frsq d a => Sys2Proof.Machine.execFrsq d a s
  | .fsqrt d a => Sys2Proof.Machine.execFsqrt d a s
  | .fdiv d a b => Sys2Proof.Machine.execFdiv d a b s
  | .fexp2 d a => Sys2Proof.Machine.execFexp2 d a s
  | .flog2 d a => Sys2Proof.Machine.execFlog2 d a s
  | .fsinp d a => Sys2Proof.Machine.execFsinp d a s
  | .fcosp d a => Sys2Proof.Machine.execFcosp d a s
  | .ftanh d a => Sys2Proof.Machine.execFtanh d a s
  | .frnd d a n => Sys2Proof.Machine.execFrnd d a n s
  | .hadd2b d a b => Sys2Proof.Machine.execHadd2b d a b s
  | .hmul2b d a b => Sys2Proof.Machine.execHmul2b d a b s
  | .hfma2b d a b => Sys2Proof.Machine.execHfma2b d a b s
  | .hadd2h d a b => Sys2Proof.Machine.execHadd2h d a b s
  | .hmul2h d a b => Sys2Proof.Machine.execHmul2h d a b s
  | .hfma2h d a b => Sys2Proof.Machine.execHfma2h d a b s
  | .cvt d a code sat => Sys2Proof.Machine.execCvt d a code sat s
  | .xpnd d a code => Sys2Proof.Machine.execXpnd d a code s
  | .pack d a code sat => Sys2Proof.Machine.execPack d a code sat s
  | .qscale d a code sat => Sys2Proof.Machine.execQscale d a code sat s
  | .bcmp d a b => Sys2Proof.Machine.execBcmp d a b s
  | .bzero d a => Sys2Proof.Machine.execBzero d a s
  | .crc32c d a b => Sys2Proof.Machine.execCrc32c d a b s
  | .hmix d a b => Sys2Proof.Machine.execHmix d a b s
  | .movxr d gx i8 => Sys2Proof.Machine.execMovxr d gx i8 s
  | .movxw d gx i8 => Sys2Proof.Machine.execMovxw d gx i8 s
  | .shfl d a b w => Sys2Proof.Machine.execShfl d a b w s
  | .shflup d a n w => Sys2Proof.Machine.execShflup d a n w s
  | .shfldn d a n w => Sys2Proof.Machine.execShfldn d a n w s
  | .shflx d a n w => Sys2Proof.Machine.execShflx d a n w s
  | .redux d a op => Sys2Proof.Machine.execRedux d a op s
  | .scan d a op excl => Sys2Proof.Machine.execScan d a op excl s
  | .stest c st sf a b => Sys2Proof.Machine.execStest c st sf a b s
  | .ld d a i8 m => Sys2Proof.Machine.execLd d a i8 m s
  | .st d a i8 m => Sys2Proof.Machine.execSt d a i8 m s
  | .atom op d a m => Sys2Proof.Machine.execAtom op d a m s
  | .ldas d a b m => Sys2Proof.Machine.execLdas d a b m s
  | .sts d a b m => Sys2Proof.Machine.execSts d a b m s
  | .poll d a i8 m => Sys2Proof.Machine.execPoll d a i8 m s
  | .fgetc f d => Sys2Proof.Machine.execFgetc f d s
  | .fgetv f d => Sys2Proof.Machine.execFgetv f d s
  | .trd d tile col gx imm6 hi => Sys2Proof.Machine.execTrd d tile col gx imm6 hi s
  | .twr d tile col gx imm6 hi => Sys2Proof.Machine.execTwr d tile col gx imm6 hi s
  | .tacc d tile col gx imm6 hi => Sys2Proof.Machine.execTacc d tile col gx imm6 hi s
  | .gadd d a b => Sys2Proof.Machine.execGadd d a b s
  | .gsub d a b => Sys2Proof.Machine.execGsub d a b s
  | .gmul d a b => Sys2Proof.Machine.execGmul d a b s
  | .gand d a b => Sys2Proof.Machine.execGand d a b s
  | .gor d a b => Sys2Proof.Machine.execGor d a b s
  | .gxor d a b => Sys2Proof.Machine.execGxor d a b s
  | .gshl d a b => Sys2Proof.Machine.execGshl d a b s
  | .gshr d a b => Sys2Proof.Machine.execGshr d a b s
  | .gsar d a b => Sys2Proof.Machine.execGsar d a b s
  | .gmin d a b => Sys2Proof.Machine.execGmin d a b s
  | .gmax d a b => Sys2Proof.Machine.execGmax d a b s
  | .gaddi d a imm => Sys2Proof.Machine.execGaddi d a imm s
  | .gmovi d i16 => Sys2Proof.Machine.execGmovi d i16 s
  | .gmovhi d i16 => Sys2Proof.Machine.execGmovhi d i16 s
  | .gmov d a => Sys2Proof.Machine.execGmov d a s
  | .grdl d a b => Sys2Proof.Machine.execGrdl d a b s
  | .gslt d a b => Sys2Proof.Machine.execGslt d a b s
  | .gsltn d a b => Sys2Proof.Machine.execGsltn d a b s
  | .gseq d a b => Sys2Proof.Machine.execGseq d a b s
  | .gld d a i8 m => Sys2Proof.Machine.execGld d a i8 m s
  | .gst d a i8 m => Sys2Proof.Machine.execGst d a i8 m s
  | .br off => Sys2Proof.Machine.execBr off s
  | .brz a off => Sys2Proof.Machine.execBrz a off s
  | .brnz a off => Sys2Proof.Machine.execBrnz a off s
  | .brse st off => Sys2Proof.Machine.execBrse st off s
  | .brsne st off => Sys2Proof.Machine.execBrsne st off s
  | .call off => Sys2Proof.Machine.execCall off s
  | .callr a => Sys2Proof.Machine.execCallr a s
  | .ret a => Sys2Proof.Machine.execRet a s
  | .jmpr a => Sys2Proof.Machine.execJmpr a s
  | .sunion sd sa sb => Sys2Proof.Machine.execSunion sd sa sb s
  | .sinter sd sa sb => Sys2Proof.Machine.execSinter sd sa sb s
  | .sdiff sd sa sb => Sys2Proof.Machine.execSdiff sd sa sb s
  | .smov sd sa => Sys2Proof.Machine.execSmov sd sa s
  | .sall sd => Sys2Proof.Machine.execSall sd s
  | .snone sd => Sys2Proof.Machine.execSnone sd s
  | .scount d st => Sys2Proof.Machine.execScount d st s
  | .sfirst sd sa => Sys2Proof.Machine.execSfirst sd sa s
  | .sld sd a i8 => Sys2Proof.Machine.execSld sd a i8 s
  | .sst sd a i8 => Sys2Proof.Machine.execSst sd a i8 s
  | .apply st off fp => Sys2Proof.Machine.execApply st off fp s
  | .aend => Sys2Proof.Machine.execAend s
  | .sfromv d st => Sys2Proof.Machine.execSfromv d st s
  | .stov d st => Sys2Proof.Machine.execStov d st s
  | .sfree sd => Sys2Proof.Machine.execSfree sd s
  | .barinit a b => Sys2Proof.Machine.execBarinit a b s
  | .arrive a b => Sys2Proof.Machine.execArrive a b s
  | .waitph a b swap => Sys2Proof.Machine.execWaitph a b swap s
  | .fence sc kind hv => Sys2Proof.Machine.execFence sc kind hv s
  | .waitc ld st cp tl => Sys2Proof.Machine.execWaitc ld st cp tl s
  | .yield => Sys2Proof.Machine.execYield s
  | .copy a sc => Sys2Proof.Machine.execCopy a sc s
  | .bindw a slot => Sys2Proof.Machine.execBindw a slot s
  | .unbindw slot => Sys2Proof.Machine.execUnbindw slot s
  | .vchain a sc => Sys2Proof.Machine.execVchain a sc s
  | .loadw a latch => Sys2Proof.Machine.execLoadw a latch s
  | .mloop a => Sys2Proof.Machine.execMloop a s
  | .mmask a => Sys2Proof.Machine.execMmask a s
  | .tcfg cfg discard => Sys2Proof.Machine.execTcfg cfg discard s
  | .tzero tile => Sys2Proof.Machine.execTzero tile s
  | .trel tile => Sys2Proof.Machine.execTrel tile s
  | .rflush => Sys2Proof.Machine.execRflush s
  | .cbinit a b => Sys2Proof.Machine.execCbinit a b s
  | .cbacq a b swap => Sys2Proof.Machine.execCbacq a b swap s
  | .cbrel a b => Sys2Proof.Machine.execCbrel a b s
  | .clkiv d => Sys2Proof.Machine.execClkiv d s
  | .fopen f a b => Sys2Proof.Machine.execFopen f a b s
  | .fadv f a => Sys2Proof.Machine.execFadv f a s
  | .ftend f st => Sys2Proof.Machine.execFtend f st s
  | .fclose f => Sys2Proof.Machine.execFclose f s
  | .fmerge f a b => Sys2Proof.Machine.execFmerge f a b s
  | .fseek f a => Sys2Proof.Machine.execFseek f a s
  | .spawn d a => Sys2Proof.Machine.execSpawn d a s
  | .launch d a => Sys2Proof.Machine.execLaunch d a s
  | .endWarp => Sys2Proof.Machine.execEndWarp s
  | .exit => Sys2Proof.Machine.execExit s
  | .grow n => Sys2Proof.Machine.execGrow n s
  | .shrink n => Sys2Proof.Machine.execShrink n s
  | .join a b swap => Sys2Proof.Machine.execJoin a b swap s
  | .ald q a i8 => Sys2Proof.Machine.execAld q a i8 s
  | .time d => Sys2Proof.Machine.execTime d s
  | .enter i16 => Sys2Proof.Machine.execEnter i16 s
  | .leave i16 => Sys2Proof.Machine.execLeave i16 s
  | .mark i16 => Sys2Proof.Machine.execMark i16 s
  | .bkpt i16 => Sys2Proof.Machine.execBkpt i16 s
  | .csrr x csr => Sys2Proof.Machine.execCsrr x csr s
  | .csrw x csr => Sys2Proof.Machine.execCsrw x csr s
  | .trap i16 => Sys2Proof.Machine.execTrap i16 s
  | .syscall i16 => Sys2Proof.Machine.execSyscall i16 s
  | .rte => Sys2Proof.Machine.execRte s
  | .tlbinv a => Sys2Proof.Machine.execTlbinv a s
  | .cflush a b => Sys2Proof.Machine.execCflush a b s
  | .waitev a => Sys2Proof.Machine.execWaitev a s
  | .logctlOff a => Sys2Proof.Machine.execLogctlOff a s
  | .logctlRecord a => Sys2Proof.Machine.execLogctlRecord a s
  | .logctlReplay a => Sys2Proof.Machine.execLogctlReplay a s
  | .logctlReadPosition a => Sys2Proof.Machine.execLogctlReadPosition a s
  | .nop => Sys2Proof.Machine.execNop s
  | .pfx payload => Sys2Proof.Machine.execPfx payload s
  | .illegalWord c => Sys2Proof.Machine.execIllegalWord c s
  | .loadReturn core which => Sys2Proof.Machine.execLoadReturn core which s
  | .storePerformed core which => Sys2Proof.Machine.execStorePerformed core which s
  | .l1LineWriteback core idx => Sys2Proof.Machine.execL1LineWriteback core idx s
  | .mittenServe quad => Sys2Proof.Machine.execMittenServe quad s
  | .atomicRequestRepeat quad idx => Sys2Proof.Machine.execAtomicRequestRepeat quad idx s
  | .pageWalkComplete core dom va store => Sys2Proof.Machine.execPageWalkComplete core dom va store s
  | .aldRowReturn core set => Sys2Proof.Machine.execAldRowReturn core set s
  | .arrayClaimGrant core => Sys2Proof.Machine.execArrayClaimGrant core s
  | .arrayStateGiveUp core => Sys2Proof.Machine.execArrayStateGiveUp core s
  | .loadwComplete at_ => Sys2Proof.Machine.execLoadwComplete at_ s
  | .mloopStep core => Sys2Proof.Machine.execMloopStep core s
  | .mloopComplete core => Sys2Proof.Machine.execMloopComplete core s
  | .tzeroComplete core => Sys2Proof.Machine.execTzeroComplete core s
  | .arrayStreamFault at_ => Sys2Proof.Machine.execArrayStreamFault at_ s
  | .arrayOpRestart at_ => Sys2Proof.Machine.execArrayOpRestart at_ s
  | .weightBankRefresh die bank => Sys2Proof.Machine.execWeightBankRefresh die bank s
  | .copyGranuleLand core op row piece => Sys2Proof.Machine.execCopyGranuleLand core op row piece s
  | .copyComplete core op => Sys2Proof.Machine.execCopyComplete core op s
  | .cbPieceStart core op => Sys2Proof.Machine.execCbPieceStart core op s
  | .signalCopyStart core op => Sys2Proof.Machine.execSignalCopyStart core op s
  | .remoteLandingAck core op row piece => Sys2Proof.Machine.execRemoteLandingAck core op row piece s
  | .copyFault core op row piece => Sys2Proof.Machine.execCopyFault core op row piece s
  | .copyRestart core op => Sys2Proof.Machine.execCopyRestart core op s
  | .chainComplete core op => Sys2Proof.Machine.execChainComplete core op s
  | .chainFault core op => Sys2Proof.Machine.execChainFault core op s
  | .epochClose launch => Sys2Proof.Machine.execEpochClose launch s
  | .beaconArrival die lo hi => Sys2Proof.Machine.execBeaconArrival die lo hi s
  | .stampVersionArrive idx => Sys2Proof.Machine.execStampVersionArrive idx s
  | .stampVersionVisible idx => Sys2Proof.Machine.execStampVersionVisible idx s
  | .ldasAnswer core set lane => Sys2Proof.Machine.execLdasAnswer core set lane s
  | .tcmpReached dom => Sys2Proof.Machine.execTcmpReached dom s
  | .launchAccept die => Sys2Proof.Machine.execLaunchAccept die s
  | .workgroupRecordPush die => Sys2Proof.Machine.execWorkgroupRecordPush die s
  | .pendingLaunchRefill core => Sys2Proof.Machine.execPendingLaunchRefill core s
  | .continuationRefill core prio => Sys2Proof.Machine.execContinuationRefill core prio s
  | .recordPop core => Sys2Proof.Machine.execRecordPop core s
  | .issueSelect core pipe => Sys2Proof.Machine.execIssueSelect core pipe s
  | .watchedLineWrite core set warp => Sys2Proof.Machine.execWatchedLineWrite core set warp s
  | .swapwaitExpiry core set warp => Sys2Proof.Machine.execSwapwaitExpiry core set warp s
  | .swapOut core set warp => Sys2Proof.Machine.execSwapOut core set warp s
  | .growStallCheck core => Sys2Proof.Machine.execGrowStallCheck core s
  | .growGrant core => Sys2Proof.Machine.execGrowGrant core s
  | .workgroupEnd core set => Sys2Proof.Machine.execWorkgroupEnd core set s
  | .gridComplete launch => Sys2Proof.Machine.execGridComplete launch s
  | .preemptRequest core hold => Sys2Proof.Machine.execPreemptRequest core hold s
  | .preemptSave core => Sys2Proof.Machine.execPreemptSave core s
  | .stallSample core => Sys2Proof.Machine.execStallSample core s
  | .flitResend die flit => Sys2Proof.Machine.execFlitResend die flit s
  | .eccCorrection fix => Sys2Proof.Machine.execEccCorrection fix s
  | .readReissue what failed => Sys2Proof.Machine.execReadReissue what failed s
  | .asyncDataLost die unit what at_ => Sys2Proof.Machine.execAsyncDataLost die unit what at_ s
  | .powerOnReset => Sys2Proof.Machine.execPowerOnReset s
  | .hreset value => Sys2Proof.Machine.execHreset value s
  | .fwgo => Sys2Proof.Machine.execFwgo s
  | .firmwareVerified ok readError => Sys2Proof.Machine.execFirmwareVerified ok readError s
  | .bootReady => Sys2Proof.Machine.execBootReady s
  | .hostPush bytes link => Sys2Proof.Machine.execHostPush bytes link s
  | .doorbell dom => Sys2Proof.Machine.execDoorbell dom s
  | .mailbox die value => Sys2Proof.Machine.execMailbox die value s
  | .dctlStop dom => Sys2Proof.Machine.execDctlStop dom s
  | .dctlStart dom => Sys2Proof.Machine.execDctlStart dom s
  | .quadAssignmentWrite quad value => Sys2Proof.Machine.execQuadAssignmentWrite quad value s
  | .share core value => Sys2Proof.Machine.execShare core value s
  | .key dom key => Sys2Proof.Machine.execKey dom key s
  | .stateWindowWrite core off bytes => Sys2Proof.Machine.execStateWindowWrite core off bytes s
  | .hostWindowRead slot off n => Sys2Proof.Machine.execHostWindowRead slot off n s
  | .hostWindowWrite slot off bytes => Sys2Proof.Machine.execHostWindowWrite slot off bytes s
  | .vaultQuiesce vault => Sys2Proof.Machine.execVaultQuiesce vault s
  | .vaultQuiesceDone vault => Sys2Proof.Machine.execVaultQuiesceDone vault s
  | .vaultQuiesceRelease vault => Sys2Proof.Machine.execVaultQuiesceRelease vault s
  | .remapGo vault => Sys2Proof.Machine.execRemapGo vault s
  | .remapGranuleMove vault readable => Sys2Proof.Machine.execRemapGranuleMove vault readable s
  | .pstate die value => Sys2Proof.Machine.execPstate die value s
  | .clockChangeDone die => Sys2Proof.Machine.execClockChangeDone die s
  | .qpark die value => Sys2Proof.Machine.execQpark die value s
  | .quadWakeDone die quad => Sys2Proof.Machine.execQuadWakeDone die quad s
  | .powerCapThrottle watts => Sys2Proof.Machine.execPowerCapThrottle watts s
  | .pthrotClear die => Sys2Proof.Machine.execPthrotClear die s
  | .tlostClear dom => Sys2Proof.Machine.execTlostClear dom s
  | .tbase dom value => Sys2Proof.Machine.execTbase dom value s
  | .thermalAlert die zone temp => Sys2Proof.Machine.execThermalAlert die zone temp s
  | .thermalTrip die zone temp => Sys2Proof.Machine.execThermalTrip die zone temp s
  | .tripClear die => Sys2Proof.Machine.execTripClear die s
  | .retentionLimit die zone => Sys2Proof.Machine.execRetentionLimit die zone s
  | .valveAdjust die zone a b c => Sys2Proof.Machine.execValveAdjust die zone a b c s
  | .hbeacon t => Sys2Proof.Machine.execHbeacon t s
  | .fabricLinkUp die port peer => Sys2Proof.Machine.execFabricLinkUp die port peer s
  | .registerWrite reg value => Sys2Proof.Machine.execRegisterWrite reg value s
  | .fabricLinkDown die port => Sys2Proof.Machine.execFabricLinkDown die port s
  | .preemptedRecordPush core => Sys2Proof.Machine.execPreemptedRecordPush core s
  | .weightWindowOpen die dom => Sys2Proof.Machine.execWeightWindowOpen die dom s
  | .weightWindowClose die => Sys2Proof.Machine.execWeightWindowClose die s
  | .domainCreate dom => Sys2Proof.Machine.execDomainCreate dom s
  | .domainDestroy dom => Sys2Proof.Machine.execDomainDestroy dom s
  | .supervisorEndsWorkgroup core set cause addr => Sys2Proof.Machine.execSupervisorEndsWorkgroup core set cause addr s

end Sys2Proof.Machine
end

