-- ==== Sys2Proof/Machine/Sched.lean ====
section
/-! DEFINITION. The order of steps: issuing the selected stream, what its issue settles, the events that are due, and time (R29, R38,
R298 to R300, R382, R413). One step is one issue, one event, or one selection. -/

namespace Sys2Proof.Machine

/-! ### Time and waiting streams -/

/-- One step of time passes: the next amount of `pace`, or 1 ns (log entry 10). -/
def State.tick (s : State) : State := { s with time := s.time + s.pace.headD 1, pace := s.pace.drop 1 }

/-- A stalled instruction may issue again once anything has happened (R29, R284). -/
def State.wakeAll (s : State) : State :=
  { s with cores := s.cores.map fun c => (c.1, { c.2 with wgs := c.2.wgs.map fun g => (g.1, g.2.wake) }) }

/-- A stream waits for another try; its instruction was not ready (R29, R379). -/
def State.setWaiting (s : State) (r : Ref) : State :=
  match r.who with
  | .warp _ => s.modWarp r fun w => { w with waiting := true, stuck := true, pfx := none }
  | .slice => s.modSlice r fun x => { x with waiting := true, pfx := none }

/-! ### Issuing the selected stream -/

/-- A selected stream still runs. -/
def State.turnLive (s : State) (r : Ref) : Bool :=
  (s.wgOf r).present && (match r.who with
    | .warp _ => decide ((s.warp r).status = .running)
    | .slice => (s.wgOf r).slice.present && !(s.wgOf r).slice.halted)

/-- The cause that the firmware answers for a stream: one is saved, and the supervisor's entry holds no code that the host has
loaded in its place (R413; log entry 11). -/
def State.serviceDue (s : State) (r : Ref) : Option Service :=
  if (s.core r.core).ownerOf (s.core r.core).svec = .supervisor then none else (s.warp r).service

/-- The instruction is a prefix word, which the next word of its stream follows in the same issue (R38). -/
def isPfx : Instr → Bool
  | .pfx _ => true
  | _ => false

/-- An instruction that did not issue: the state is as before its selection, and the stream waits; an array instruction's
claim is noted (R29, R142). The pipe chooses again without it (R298). -/
def State.settleStall (s : State) (t : Turn) (i : Instr) : State :=
  let s1 := { s with last := .stalled }.setWaiting t.ref
  ((if claims i then s1.noteClaim t.ref i else s1).rechoose t).tick

/-- An instruction that issued: its pipe's counter rises, a retirement resets the back-off level, and the cycle's choice of the pipe goes
on (R299, R300, R382). -/
def State.settleIssue (s : State) (t : Turn) (i : Instr) : State :=
  let s1 := s.count (s.domOf t.ref) (1 + t.pipe) 1
  let s2 := s1.modWarp t.ref fun w => { w with stuck := false, level := if s.last = .retired ∧ !keepsLevel i then 0 else w.level }
  let s3 := if claims i then s2.useClaim t.ref else s2
  (s3.afterIssue t i).wakeAll.tick

/-- A stream's next instruction could issue now, or the firmware's answer that it waits for be given: it is a candidate of the cycle (R29,
R298). -/
def State.couldIssue (s : State) (r : Ref) : Bool :=
  (s.serviceDue r).isSome || (match exec (s.comingUp r) (match s.fetch r with
      | .pfx p => s.setPfx r (some p)
      | _ => s) with
    | .next t => decide (t.last ≠ .stalled)
    | _ => false)

/-- A first pick with those it was made over that could issue beside it; a second pick was made over such alone (R298, R299). -/
def State.overReady (s : State) (t : Turn) : Turn := if t.second then t else { t with passed := t.passed.filter s.couldIssue }

/-- What the selected stream's instruction leads to. -/
def State.settle (s : State) (t : Turn) (i : Instr) : Out → Out
  | .next s1 =>
    match s1.last with
    | .stalled => .next (s.settleStall t i)
    | .retired => .next (if isPfx i then s1 else s1.settleIssue (s.overReady t) i)
    | _ => .next ((if isPfx i then s1.charge t else s1).settleIssue (s.overReady t) i)
  | o => o

/-- The firmware's answer to a cause of the selected stream; one that must still wait leaves the stream waiting (R377, R413). -/
def State.serveTurn (s : State) (t : Turn) (v : Service) : State :=
  let s1 := s.serve t.ref v
  if s1.last = .stalled then (({ s with last := .stalled }.setWaiting t.ref).rechoose t).tick
  else { s1 with turn := [] }.wakeAll.tick

/-- The selected stream issues its instruction, charged for it; a prefix word is charged with the word behind it (R38, R298). -/
def State.runTurn (s : State) (t : Turn) (rest : List Turn) : Out :=
  let r := t.ref
  if s.turnLive r then
    match s.serviceDue r with
    | some v => .next (s.serveTurn t v)
    | none =>
      let i := s.fetch r
      s.settle t i (exec i (if isPfx i then s else s.charge t))
  else .next { s with turn := rest }

/-! ### The events of agents -/

/-- A step that is no instruction word: an event of an agent or an input from outside. -/
def isEvent : Instr → Bool
  | .illegalWord _ => false
  | i => (encode i).isEmpty

/-- The events of one copy or chain. -/
def CpOp.events (c : Nat) (slotbytes : Nat) (o : CpOp) : List Instr :=
  match o.kind with
  | .chain _ => [.chainComplete c o.id, .chainFault c o.id, .copyRestart c ⟨o.id, false⟩]
  | .copy d =>
    let left := (o.granules d slotbytes).find? fun g => !o.landed.contains g
    let un := o.landed.find? fun g => !o.acked.contains g
    [.signalCopyStart c o.id, .cbPieceStart c o.id] ++
      (match left with
        | some g => [.copyGranuleLand c o.id g.1 g.2, .copyFault c o.id g.1 g.2]
        | none => []) ++
      (match un with
        | some g => [.remoteLandingAck c o.id g.1 g.2]
        | none => []) ++
      [.copyComplete c o.id, .copyRestart c ⟨o.id, false⟩]

/-- The bytes of the buffer slot a copy's piece goes to. -/
def State.pieceBytes (s : State) (o : CpOp) : Nat :=
  match o.kind with
  | .copy d => (s.cb o.ref.core o.ref.set (winOff d.dstA)).slotbytes
  | .chain _ => 0

/-- The events of the warps of one core. -/
def State.warpEvents (s : State) (c : Nat) : List Instr :=
  (s.core c).resident.flatMap fun k => (s.wg c k).warps.flatMap fun w =>
    [.watchedLineWrite c k w.1, .swapwaitExpiry c k w.1, .swapOut c k w.1]

/-- The places at which an operation of the array may meet a fault of a stream: a loop at each of its rows. -/
def ArrOp.faultRows (o : ArrOp) : List Nat :=
  match o.kind with
  | .mloop d => List.range d.rows
  | _ => [0]

/-- The events of one core. -/
def State.coreEvents (s : State) (c : Nat) : List Instr :=
  let co := s.core c
  ((List.range co.flights.length).flatMap fun i => [Instr.loadReturn c ⟨i, none⟩, .storePerformed c ⟨i, none⟩]) ++
    (co.ldas.flatMap fun o => o.open_.map fun l => Instr.ldasAnswer c o.ref.set ⟨o.ref.index, l.lane⟩) ++
    (co.resident.map fun k => Instr.aldRowReturn c k) ++
    ((co.array.ops.take 2).zipIdx.flatMap fun o => o.1.faultRows.map fun row => Instr.arrayStreamFault ⟨c, o.2, row⟩) ++
    [.arrayOpRestart ⟨c, false⟩, .loadwComplete ⟨c, 0⟩, .loadwComplete ⟨c, 1⟩, .mloopStep c, .mloopComplete c, .tzeroComplete c, .arrayStateGiveUp c,
      .arrayClaimGrant c] ++
    (co.cpops.flatMap fun o => o.events c (s.pieceBytes o)) ++
    [.pendingLaunchRefill c, .continuationRefill c 3, .continuationRefill c 2, .continuationRefill c 1, .continuationRefill c 0] ++
    s.warpEvents c ++
    [.growStallCheck c, .growGrant c, .preemptSave c, .stallSample c] ++
    (co.resident.map fun k => Instr.workgroupEnd c k)

/-- The pops of records: by their own cores first, then by the cores of the same quad (R295, R296). -/
def State.popEvents (s : State) : List Instr :=
  let owners := (s.cores.filter fun c => !c.2.queued.isEmpty).map Prod.fst
  (owners ++ owners.flatMap quadMates).map fun c => Instr.recordPop c

/-- The events of a die's controllers: launches, the weight calendar, clocks and woken quads (R184, R289, R291, R391). -/
def State.dieEvents (s : State) (d : Nat) : List Instr :=
  [.launchAccept d, .workgroupRecordPush d, .clockChangeDone d] ++ ((List.range 32).filter fun b => s.refreshDue d b).map fun b => Instr.weightBankRefresh d b

/-- The events of the vault controllers that are quiesced or move (R175 to R177). -/
def State.vaultEvents (s : State) : List Instr :=
  (s.vaults.filter fun v => v.2.quiesce).flatMap fun v => [Instr.vaultQuiesceDone v.1, .remapGranuleMove v.1 true]

/-- The events the package's agents may take now, in the order they are tried; those that cannot happen change nothing. -/
def State.candidates (s : State) : List Instr :=
  (s.cores.flatMap fun c => s.coreEvents c.1) ++ s.popEvents ++
    (s.quads.flatMap fun q => [Instr.mittenServe q.1, .mittenServe (Config.quads + q.1), .quadWakeDone (q.1 / 16) (q.1 % 16)]) ++
    ((List.range s.pending.length).flatMap fun i => [Instr.stampVersionArrive i, .stampVersionVisible i]) ++
    (s.launches.flatMap fun l => [Instr.epochClose l.number, .gridComplete l.number]) ++
    ((List.range s.dieCount).flatMap fun d => s.dieEvents d) ++ s.vaultEvents

/-- The effect of an event, if it happens: an event that cannot happen leaves the state as it is. -/
def State.happens (s : State) (i : Instr) : Option State :=
  match exec i s with
  | .next t => if t = s then none else some t
  | _ => none

/-- The first of some events that happens now, and those behind it. -/
def State.firstDue (s : State) : List Instr → Option (State × List Instr)
  | [] => none
  | i :: is => match s.happens i with
    | some t => some (t, is)
    | none => s.firstDue is

/-- The next event that happens: the sweep goes on behind the last one, so that none is put off for ever (R305), and begins anew with every
event the agents may take. -/
def State.dueEvent (s : State) : Option State :=
  match s.firstDue s.sweep with
  | some (t, rest) => some { t with sweep := rest }
  | none => (s.firstDue s.candidates).map fun x => { x.1 with sweep := x.2 }

/-- The pipes of the cores with a resident workgroup. -/
def State.pipes (s : State) : List (Nat × Nat) :=
  (s.cores.filter fun c => !c.2.resident.isEmpty).flatMap fun c => (List.range 5).map fun p => (c.1, p)

/-- The next selection, in turn over the pipes; one that finds no candidate lets the waiting streams try again. -/
def State.selectNext (s : State) (n : Nat) : Out :=
  let s0 := { s with chooser := n }
  match s.pipes with
  | [] => .next s0.tick
  | p :: ps =>
    let x := (p :: ps).getD ((s.chooser / 2) % (ps.length + 1)) p
    match exec (.issueSelect x.1 x.2) s0 with
    | .next t => .next (if t.turn.isEmpty then t.wakeAll.tick else t.tick)
    | o => o

/-- A step with no stream selected: an event proposed by `script` comes first; else an event that is due and the next selection take
turns (log entry 12). -/
def State.runFree (s : State) : Out :=
  match s.script with
  | i :: rest =>
    let s1 := { s with script := rest }
    if isEvent i then
      match exec i s1 with
      | .next t => .next t.wakeAll.tick
      | o => o
    else .next s1
  | [] =>
    if s.chooser % 2 = 0 then
      match s.dueEvent with
      | some t => .next ({ t with chooser := s.chooser + 1 }).wakeAll.tick
      | none => s.selectNext (s.chooser + 2)
    else s.selectNext (s.chooser + 1)

/-- One step of the package. -/
def State.advance (s : State) : Out :=
  match s.turn with
  | t :: rest => s.runTurn t rest
  | [] => s.runFree

/-! ### Placing an instruction -/

/-- A word stored at an address of a core's instruction memory, with a zero word behind it; granules of no domain become a
domain's (R308). -/
def Core.placeWord (c : Core) (dom : Nat) (pc w : Word) : Core :=
  let own (t : Tab GranOwner) (a : Nat) : Tab GranOwner := if Tab.get .none t a = .none then Tab.set .none t a (.dom dom) else t
  { c with
    imem := Tab.set 0 (Tab.set 0 c.imem (pc.toNat / 4) w) (pc.toNat / 4 + 1) 0
    owners := own (own c.owners (pc.toNat / 256)) ((pc.toNat + 4) / 256)
    badWords := c.badWords.filter fun i => decide (i ≠ pc.toNat / 4) && decide (i ≠ pc.toNat / 4 + 1) }

/-- The stream that a loaded program starts as: warp 0 of the workgroup in queue set 0 of core 0. -/
def loadedRef : Ref := { core := 0, set := 0, who := .warp 0 }

/-- A workgroup of one warp of domain 1, as the start of its record would leave it (R263, R264). -/
def loadedGroup : Workgroup :=
  { Workgroup.init with
    present := true
    dom := 1
    launch := 1
    warpsN := 1
    gran := 24
    warps := [(0, Warp.start 0 0 24 0 1 0 0 0 0 [])] }

/-- The package booted, with domain 1 on quad 0 and its workgroup resident and selected on core 0 (log entry 13). -/
def State.loaded (s : State) (pipe : Nat) : State :=
  let s1 := { s with boot := .ready, nextLaunch := 2, turn := [{ ref := loadedRef, pipe := pipe, passed := [] }] }
  let s2 := s1.modDom 1 fun d => { d with exists_ := true, keyValid := true }
  let s3 := s2.modQuad 0 fun q => { q with slots := [some 1, none, none, none] }
  s3.setWg 0 0 loadedGroup

/-- A word placed where the selected stream fetches its next instruction, after loading a stream if none is ready to. -/
def State.placed (s : State) (w : Word) : State :=
  let here (t : State) (r : Ref) : State := t.modCore r.core fun c => c.placeWord (t.domOf r) (t.wordPc r) w
  match s.turn with
  | t :: _ =>
    if s.turnLive t.ref && (s.serviceDue t.ref).isNone && (s.pfxOf t.ref).isNone then here s t.ref
    else here (s.loaded (if w.getLsbD 31 then uniformPipe else 0)) loadedRef
  | [] => here (s.loaded (if w.getLsbD 31 then uniformPipe else 0)) loadedRef

end Sys2Proof.Machine
end

