-- ==== Sys2Proof/Machine/Step.lean ====
section
/-! DEFINITION. The step function, and a word placed where the next step fetches. -/

namespace Sys2Proof.Machine

/-- One step of the machine: the selected stream's instruction if one is selected, else an event or a selection. -/
def step (s : State) : Host.Outcome State Fault Refusal := s.advance

/-- The state with an instruction's word stored where the next step fetches it (the bits above its first word are zero). -/
def State.withFetchWord (s : State) (_nbits w : Nat) : State := s.placed (BitVec.ofNat 32 w)

end Sys2Proof.Machine
end

