-- ==== Sys2Proof/Safety.lean ====
section
/-! DEFINITION. What claims about the machine are said in: runs that go on, canonical memory, operands that can be read and
written, and the frames of the instructions. Written from the rules, beside the meanings. -/

namespace Sys2Proof.Machine

/-! ### Runs -/

/-- An outcome that goes on. -/
def Goes (o : Out) : Prop := ∃ t, o = .next t

/-- The canonical form of memory (addresses rising, no byte listed that an unlisted address reads as). -/
def State.Canonical (s : State) : Prop := Memory.wf s.mem = true

/-- A stream is selected to issue. -/
def State.issues (s : State) (r : Ref) : Prop := s.turn.head?.map Turn.ref = some r

/-- Control may pass to the next word in sequence (R308). -/
def State.fallsThrough (s : State) (r : Ref) : Prop := s.foreign r (s.nextPc r) = false

/-- A warp is selected and its next word may follow. -/
structure State.warpRuns (s : State) (r : Ref) : Prop where
  selected : s.issues r
  isWarp : r.isSlice = false
  falls : s.fallsThrough r

/-! ### Operands (R22, R36, R113) -/

/-- The places of a stream's registers that fail their error check (R366). -/
def State.badPlaces (s : State) (r : Ref) : List RegSite :=
  match r.who with
  | .warp _ => (s.warp r).bad
  | .slice => (s.wgOf r).slice.bad

/-- A place of a stream's registers passes its error check (R366). -/
def State.intact (s : State) (r : Ref) (b : RegSite) : Prop := b ∉ s.badPlaces r

/-- Lane register `n` can be read in the lanes of S now: it lies below the allocation, no write of it is pending, and no lane of S of it
fails its error check. -/
def State.canReadV (s : State) (r : Ref) (n : Nat) : Prop :=
  n < 8 * (s.warp r).gran ∧ s.pendingV r n = false ∧ ∀ j, (s.applied r).getLsbD j = true → s.intact r (.v n j)

/-- Uniform register `n` can be read now by a G-form instruction. -/
def State.canReadG (s : State) (r : Ref) (n : Nat) : Prop := s.pendingG r n = false ∧ s.intact r (.g n)

/-- A queue register can be read now: it holds a row, which is neither marked nor bad. -/
def State.canReadQ (s : State) (r : Ref) (n : Nat) : Prop :=
  ∃ x xs, ((s.wgOf r).queue n).rows = x :: xs ∧ x.mark = none ∧ x.bad = false

/-- A queue register can be read now by an L-form instruction: with an empty S no error check is made of its head row (R110). -/
def State.canReadRow (s : State) (r : Ref) (n : Nat) : Prop :=
  ∃ x xs, ((s.wgOf r).queue n).rows = x :: xs ∧ x.mark = none ∧ (s.applied r = 0 ∨ x.bad = false)

/-- A source register of an L-form instruction can be read now. With an empty S no error check is made of it (R110, R366). -/
def State.canRead (s : State) (r : Ref) : Reg → Prop
  | .v n => s.canReadV r n.val
  | .g n => s.pendingG r n.val = false ∧ (s.applied r = 0 ∨ s.intact r (.g n.val))
  | .q n => s.canReadRow r n.val
  | _ => True

/-- A source of `k` registers of a G-form instruction can be read now. -/
def State.canReadUni (s : State) (r : Ref) (x : Reg) (k : Nat) : Prop :=
  match x with
  | .g n => ∀ i, i < k → s.canReadG r (n.val + i)
  | .q n => s.canReadQ r n.val
  | _ => True

/-- What lane `j` of an L-form source reads: its own word of a lane register, the value of a uniform register in every lane,
the head row of a queue register, zero, the lane number, or a special register. -/
def State.laneVal (s : State) (r : Ref) (x : Reg) (j : Nat) : Word :=
  match x with
  | .v n => rowGet ((s.warp r).vreg n.val) j
  | .g n => s.greg r n.val
  | .q n => match ((s.wgOf r).queue n.val).rows with
    | y :: _ => rowGet y.row j
    | [] => 0
  | .zero => 0
  | .laneid => BitVec.ofNat 32 j
  | .warpix => BitVec.ofNat 32 r.index
  | .wgid => (s.wgOf r).index
  | .coreix => BitVec.ofNat 32 r.core
  | .vaultix => BitVec.ofNat 32 r.core
  | .cyc => lo32 (s.guest (s.domOf r))

/-- What a G-form source reads: lane 0 of a queue row; `laneid` reads 0. -/
def State.uniRead (s : State) (r : Ref) (x : Reg) : Word := s.laneVal r x 0

/-- A second source of an L-form instruction can be read now. -/
def State.canReadSrc (s : State) (r : Ref) : Src → Prop
  | .reg x => s.canRead r x
  | .imm _ => True

/-- A second source of a G-form instruction can be read now. -/
def State.canReadSrcUni (s : State) (r : Ref) : Src → Prop
  | .reg x => s.canReadUni r x 1
  | .imm _ => True

/-- The lanes that the lanes of S read of a source can be read (R317, R366). -/
def State.canReadFrom (s : State) (r : Ref) (x : Reg) (f : Nat → Nat) : Prop :=
  ∀ n : Fin 192, x = .v n → ∀ j, (s.applied r).getLsbD j = true → s.intact r (.v n.val (f j))

/-- What lane `j` of a second source reads. -/
def State.srcVal (s : State) (r : Ref) (k : ImmKind) (b : Src) (j : Nat) : Word :=
  match b with
  | .reg x => s.laneVal r x j
  | .imm p => immWord k p

/-- A queue register can take a row now, after the registers `srcs` have been read. -/
def State.canPush (s : State) (r : Ref) (srcs : List Reg) (n : Fin 8) : Prop :=
  s.pendingQ r n.val = false ∧ ((s.wgOf r).queue n.val).rows.length < Config.queueRows + (if Reg.q n ∈ srcs then 1 else 0)

/-- A destination of an L-form instruction can be written now, after the registers `srcs` have been read: no write of it is pending, a
lane register lies below the allocation, a queue register has room for a row. With an empty S no row is pushed (R287). -/
def State.canWrite (s : State) (r : Ref) (srcs : List Reg) : Reg → Prop
  | .v n => n.val < 8 * (s.warp r).gran ∧ s.pendingV r n.val = false
  | .q n => s.applied r = 0 ∨ s.canPush r srcs n
  | _ => True

/-- As `canWrite`, with room for a row whatever S holds. -/
def State.canWriteRoom (s : State) (r : Ref) (srcs : List Reg) : Reg → Prop
  | .v n => n.val < 8 * (s.warp r).gran ∧ s.pendingV r n.val = false
  | .q n => s.canPush r srcs n
  | _ => True

/-- A destination of a G-form instruction can be written now. -/
def State.canWriteUni (s : State) (r : Ref) (srcs : List Reg) : Reg → Prop
  | .g n => s.pendingG r n.val = false
  | .q n => s.canPush r srcs n
  | _ => True

/-- The rows of a queue register after an instruction has read `srcs`, each queue register once, and written `row` to `d`
(R113, R284). -/
def State.rowsAfter (s : State) (r : Ref) (srcs : List Reg) (d : Reg) (row : Row) (q : Fin 8) : List QRow :=
  (if Reg.q q ∈ srcs then ((s.wgOf r).queue q.val).rows.drop 1 else ((s.wgOf r).queue q.val).rows) ++
    (if d = Reg.q q then [{ row := row, mark := none, bad := false }] else [])

/-- The registers of a run of `k` from `d` that a write in the lanes of S expands (R24, R110, R287). -/
def State.expanded (s : State) (r : Ref) (d : Reg) (k : Nat) : Nat :=
  match d with
  | .v n => ((List.range k).filter fun i => expands (s.applied r) ((s.warp r).vreg (n.val + i))).length
  | _ => 0

/-- What a counter of a domain's block holds (R382). -/
def Domain.counter (d : Domain) (k : Nat) : DWord := Tab.get 0 d.counters k

/-! ### Frames -/

/-- The parts of a warp that an instruction on registers does not write. -/
def Warp.rest (w : Warp) : Warp := { w with v := [], g := [], bad := [], pc := 0, pfx := none }

/-- The parts of an access slice that an instruction on registers does not write. -/
def Slice.rest (x : Slice) : Slice := { x with g := [], bad := [], pc := 0, pfx := none }

/-- Nothing but a stream's own registers and program counter, the queue registers of its workgroup, and the last guest time and
counter 6 of its domain has changed. -/
structure StreamOnly (s t : State) (r : Ref) : Prop where
  machine : t = { s with cores := t.cores, domains := t.domains, last := t.last }
  bytes : ∀ pa, t.physRead pa = s.physRead pa
  domains : ∀ d, t.dom d = { s.dom d with lastTime := (t.dom d).lastTime, counters := (t.dom d).counters }
  counts : ∀ d k, k ≠ 6 → (t.dom d).counter k = (s.dom d).counter k
  times : ∀ d, d ≠ s.domOf r → t.dom d = s.dom d
  cores : ∀ c, t.core c = { s.core c with wgs := (t.core c).wgs }
  groups : ∀ c k, t.wg c k = { s.wg c k with queues := (t.wg c k).queues, warps := (t.wg c k).warps, slice := (t.wg c k).slice }
  queues : ∀ c k, ¬(c = r.core ∧ k = r.set) → (t.wg c k).queues = (s.wg c k).queues
  warps : ∀ r', r' ≠ r → t.warp r' = s.warp r'
  slices : ∀ c k, ¬(c = r.core ∧ k = r.set ∧ r.isSlice = true) → (t.wg c k).slice = (s.wg c k).slice
  own : (t.warp r).rest = (s.warp r).rest
  ownSlice : (t.wgOf r).slice.rest = (s.wgOf r).slice.rest

/-- An L-form instruction has read `srcs`, written `val` to `d` in the lanes of S, and nothing else (R110 to R113). -/
structure LaneDone (s t : State) (r : Ref) (srcs : List Reg) (d : Reg) (val : Nat → Word) : Prop where
  last : t.last = .retired
  pc : t.pcOf r = s.nextPc r
  pfx : t.pfxOf r = none
  lanes : ∀ n : Fin 192, ∀ j, j < 32 → rowGet ((t.warp r).vreg n.val) j =
    if d = .v n ∧ (s.applied r).getLsbD j = true then val j else rowGet ((s.warp r).vreg n.val) j
  others : ∀ n : Fin 192, d ≠ .v n → (t.warp r).vreg n.val = (s.warp r).vreg n.val
  uniform : ∀ n, t.greg r n = s.greg r n
  queues : ∀ q : Fin 8, ((t.wgOf r).queue q.val).rows =
    s.rowsAfter r srcs (if s.applied r = 0 then .zero else d) (rowOf fun j => if (s.applied r).getLsbD j then val j else 0) q
  bad : ∀ b, b ∈ (t.warp r).bad ↔
    b ∈ (s.warp r).bad ∧ ∀ n : Fin 192, d = .v n → ∀ j, (s.applied r).getLsbD j = true → b ≠ .v n.val j
  counted : (t.dom (s.domOf r)).counter 6 =
    (s.dom (s.domOf r)).counter 6 + (if (s.dom (s.domOf r)).stop then 0 else BitVec.ofNat 64 (s.expanded r d 1))
  frame : StreamOnly s t r

/-- What `LaneDone` says without the model's choices: which writes count as expansions, and what an empty S leaves of the queue
registers, stay open. -/
structure LaneWrites (s t : State) (r : Ref) (srcs : List Reg) (d : Reg) (val : Nat → Word) : Prop where
  last : t.last = .retired
  pc : t.pcOf r = s.nextPc r
  pfx : t.pfxOf r = none
  lanes : ∀ n : Fin 192, ∀ j, j < 32 → rowGet ((t.warp r).vreg n.val) j =
    if d = .v n ∧ (s.applied r).getLsbD j = true then val j else rowGet ((s.warp r).vreg n.val) j
  uniform : ∀ n, t.greg r n = s.greg r n
  queues : s.applied r ≠ 0 → ∀ q : Fin 8, ((t.wgOf r).queue q.val).rows =
    s.rowsAfter r srcs d (rowOf fun j => if (s.applied r).getLsbD j then val j else 0) q
  frame : StreamOnly s t r

/-- A G-form instruction has read `srcs`, written `x` to `d`, and nothing else (R138). -/
structure UniDone (s t : State) (r : Ref) (srcs : List Reg) (d : Reg) (x : Word) : Prop where
  last : t.last = .retired
  pc : t.pcOf r = s.nextPc r
  pfx : t.pfxOf r = none
  regs : ∀ n : Fin 48, t.greg r n.val = if d = .g n then x else s.greg r n.val
  lanes : (t.warp r).v = (s.warp r).v
  queues : ∀ q : Fin 8, ((t.wgOf r).queue q.val).rows = s.rowsAfter r srcs d (rowAll x) q
  bad : ∀ b, b ∈ t.badPlaces r ↔ b ∈ s.badPlaces r ∧ ∀ n : Fin 48, d = .g n → b ≠ .g n.val
  counted : ∀ e, (t.dom e).counters = (s.dom e).counters
  frame : StreamOnly s t r

/-! ### Runs of registers (R36, R129) -/

/-- Word `i` of an aligned run of registers in lane `j`: lane registers, a uniform pair, or the one word of any other source. -/
def State.runWord (s : State) (r : Ref) (x : Reg) (i j : Nat) : Word :=
  match x with
  | .v n => rowGet ((s.warp r).vreg (n.val + i)) j
  | .g n => s.greg r (n.val + i)
  | y => s.laneVal r y j

/-- A run of `k` registers can be read now by an L-form instruction. -/
def State.canReadRun (s : State) (r : Ref) (x : Reg) (k : Nat) : Prop :=
  match x with
  | .v n => ∀ i, i < k → s.canReadV r (n.val + i)
  | .g n => ∀ i, i < k → s.pendingG r (n.val + i) = false ∧ (s.applied r = 0 ∨ s.intact r (.g (n.val + i)))
  | y => s.canRead r y

/-- A run of `k` registers can be written now by an L-form instruction, after the registers `srcs` have been read. -/
def State.canWriteRun (s : State) (r : Ref) (srcs : List Reg) (x : Reg) (k : Nat) : Prop :=
  match x with
  | .v n => n.val + k ≤ 8 * (s.warp r).gran ∧ ∀ i, i < k → s.pendingV r (n.val + i) = false
  | y => s.canWrite r srcs y

/-- A run of `k` words as one number, lowest register first. -/
def State.runNat (s : State) (r : Ref) (x : Reg) (k j : Nat) : Nat :=
  (List.range k).foldr (fun i acc => (s.runWord r x (if k = 1 then 0 else i) j).toNat + 2 ^ 32 * acc) 0

/-- Word `i` of a number. -/
def word32 (x i : Nat) : Word := BitVec.ofNat 32 (x / 2 ^ (32 * i))

/-- The place of a lane register in a run of `k` from `d`. -/
def placeIn (d : Reg) (k : Nat) (n : Fin 192) : Option Nat :=
  match d with
  | .v m => if m.val ≤ n.val ∧ n.val < m.val + k then some (n.val - m.val) else none
  | _ => none

/-- An L-form instruction has read `srcs`, written word `i` of each lane's result to register `i` of the run `d` in the lanes of
S, and nothing else; a queue register takes word 0. -/
structure RunDone (s t : State) (r : Ref) (srcs : List Reg) (d : Reg) (k : Nat) (val : Nat → Nat → Word) : Prop where
  last : t.last = .retired
  pc : t.pcOf r = s.nextPc r
  pfx : t.pfxOf r = none
  lanes : ∀ n : Fin 192, ∀ j, j < 32 → rowGet ((t.warp r).vreg n.val) j =
    match placeIn d k n with
    | some i => if (s.applied r).getLsbD j = true then val i j else rowGet ((s.warp r).vreg n.val) j
    | none => rowGet ((s.warp r).vreg n.val) j
  others : ∀ n : Fin 192, placeIn d k n = none → (t.warp r).vreg n.val = (s.warp r).vreg n.val
  uniform : ∀ n, t.greg r n = s.greg r n
  queues : ∀ q : Fin 8, ((t.wgOf r).queue q.val).rows =
    s.rowsAfter r srcs (if s.applied r = 0 then .zero else d) (rowOf fun j => if (s.applied r).getLsbD j then val 0 j else 0) q
  bad : ∀ b, b ∈ (t.warp r).bad ↔
    b ∈ (s.warp r).bad ∧ ∀ n : Fin 192, (placeIn d k n).isSome → ∀ j, (s.applied r).getLsbD j = true → b ≠ .v n.val j
  counted : (t.dom (s.domOf r)).counter 6 =
    (s.dom (s.domOf r)).counter 6 + (if (s.dom (s.domOf r)).stop then 0 else BitVec.ofNat 64 (s.expanded r d k))
  frame : StreamOnly s t r

/-- An instruction of a stream has read `srcs`, written the words `ws` to uniform registers, left the program counter at `pc`, and
changed nothing else. -/
structure RegsDone (s t : State) (r : Ref) (srcs : List Reg) (pc : Word) (ws : Fin 48 → Option Word) : Prop where
  last : t.last = .retired
  pc : t.pcOf r = pc
  pfx : t.pfxOf r = none
  lanes : (t.warp r).v = (s.warp r).v
  uniform : ∀ n : Fin 48, t.greg r n.val = (ws n).getD (s.greg r n.val)
  queues : ∀ q : Fin 8, ((t.wgOf r).queue q.val).rows = s.rowsAfter r srcs .zero [] q
  bad : ∀ b, b ∈ t.badPlaces r ↔ b ∈ s.badPlaces r ∧ ∀ n : Fin 48, (ws n).isSome → b ≠ .g n.val
  counted : ∀ e, (t.dom e).counters = (s.dom e).counters
  frame : StreamOnly s t r

/-- A transfer may go to an address: inside instruction memory, aligned, in a granule the stream may execute (R34, R307,
R308). -/
def State.mayGo (s : State) (r : Ref) (x : Int) : Prop :=
  0 ≤ x ∧ x < 262144 ∧ x % 4 = 0 ∧ s.foreign r (BitVec.ofInt 32 x) = false

/-- The address a branch word names: its own address and 4, and the offset in words (R307). -/
def State.branchTo (s : State) (r : Ref) (off : Int) : Int := (s.wordPc r).toNat + 4 + 4 * off

/-- An address lies outside instruction memory (R34, R307). -/
def offMap (x : Int) : Prop := x < 0 ∨ 262144 ≤ x

/-- A branch to an address does not halt the stream: it is a warp, or the address is not the branch's own (R285). -/
def State.passesOn (s : State) (r : Ref) (x : Int) : Prop := r.isSlice = false ∨ BitVec.ofInt 32 x ≠ s.pcOf r

/-- Nothing but one warp has changed. -/
structure WarpOnly (s t : State) (r : Ref) (w : Warp) : Prop where
  machine : t = { s with cores := t.cores, last := t.last }
  warp : t.warp r = w
  others : ∀ r', r' ≠ r → t.warp r' = s.warp r'
  cores : ∀ c, t.core c = { s.core c with wgs := (t.core c).wgs }
  groups : ∀ c k, t.wg c k = { s.wg c k with warps := (t.wg c k).warps }

/-! ### Memory accesses (R218 to R231) -/

/-- A destination that an access in flight fills later can be given to it: below the allocation, with no pending write; the rows of a queue
register come in the order of issue (R284). -/
def State.canAwait (s : State) (r : Ref) (d : Reg) (k : Nat) : Prop :=
  match d with
  | .v n => n.val + k ≤ 8 * (s.warp r).gran ∧ ∀ i, i < k → s.pendingV r (n.val + i) = false
  | .g n => ∀ i, i < k → s.pendingG r (n.val + i) = false
  | _ => True

/-- The address of lane `j`: its own pair of words, or the uniform pair, and the offset (R218). -/
def State.eaOf (s : State) (r : Ref) (a : Reg) (off : Int) (j : Nat) : DWord :=
  pair64 (s.runWord r a 0 j) (s.runWord r a 1 j) + BitVec.ofInt 64 off

/-- The accesses of the lanes of S: address, bytes and data of each (R192, R219). -/
def State.accs (s : State) (r : Ref) (addr : Nat → DWord) (refs : Nat → List BRef) (data : Nat → List Byte) : List LaneAcc :=
  (lanesOf (s.applied r)).map fun j => { lane := j, threads := [s.threadOf r j], addr := addr j, refs := refs j, data := data j }

/-- What the accesses of the lanes of S read at their issue can be read now (R177, R193). -/
def State.lanesReach (s : State) (r : Ref) (n : Nat) (addr : Nat → DWord) : Prop :=
  ∀ j, j < 32 → (s.applied r).getLsbD j = true → s.mayReach r [s.threadOf r j] (addr j).toNat n = true

/-- Every lane of S passes the checks of R219, and these are its bytes. -/
def State.lanesPass (s : State) (r : Ref) (k : Access) (n : Nat) (addr : Nat → DWord) (refs : Nat → List BRef) : Prop :=
  s.lanesReach r n addr ∧ ∀ j, j < 32 → (s.applied r).getLsbD j = true → resolve s k (s.actor r) (addr j) n n = .ok (refs j)

/-- The fault records of the failing lanes, in ascending order (R220, R357). -/
def State.failing (s : State) (r : Ref) (k : Access) (n : Nat) (addr : Nat → DWord) : List FaultRec :=
  (lanesOf (s.applied r)).filterMap fun j => match resolve s k (s.actor r) (addr j) n n with
    | .error (c, a2) => some { lane := j, cause := c, addr := addr j, addr2 := a2, aux := 0 }
    | .ok _ => none

/-- The records of the lanes of S that pass the checks of R219 and would read a lost byte by an access of one kind (R356, R366). -/
def State.losing (s : State) (r : Ref) (f : Flight) (n : Nat) (addr : Nat → DWord) : List FaultRec :=
  (lanesOf (s.applied r)).filterMap fun j => match resolve s .load (s.actor r) (addr j) n n with
    | .error _ => none
    | .ok refs =>
      let l : LaneAcc := { lane := j, threads := [s.threadOf r j], addr := addr j, refs := refs, data := [] }
      if s.loses r.core f l then some (lostRec l) else none

/-- A warp with one more operation of a class in progress, of issue number `n` (R49, R205, R379). -/
def Warp.entered (w : Warp) (c : Option Ctr) (n : Nat) : Warp :=
  match c with
  | none => w
  | some c => { w.begun c n with writers := Tab.set 0 w.writers c.num w.pc }

/-- An access has entered flight behind those of its core and is counted in its class; its instruction has read `srcs`, and
nothing else has changed since the state `u` (R222). -/
structure Flies (u t : State) (r : Ref) (f : Flight) (c : Option Ctr) (srcs : List Reg) : Prop where
  last : t.last = .retired
  flights : (t.core r.core).flights = (u.core r.core).flights ++ [{ f with seqNo := u.nextIssue }]
  seps : (t.core r.core).seps = u.sepsWith f
  order : t.nextIssue = u.nextIssue + 1
  warp : t.warp r = { (u.warp r).entered c u.nextIssue with pc := u.nextPc r, pfx := none }
  others : ∀ r', r' ≠ r → t.warp r' = u.warp r'
  queues : ∀ q : Fin 8, ((t.wgOf r).queue q.val).rows = u.rowsAfter r srcs .zero [] q
  bytes : ∀ pa, t.physRead pa = u.physRead pa
  cores : ∀ c, t.core c = { u.core c with wgs := (t.core c).wgs, flights := (t.core c).flights, seps := (t.core c).seps }
  elsewhere : ∀ c, c ≠ r.core → t.core c = u.core c
  groups : ∀ c k, t.wg c k = { u.wg c k with queues := (t.wg c k).queues, warps := (t.wg c k).warps }
  domains : ∀ d, t.dom d = { u.dom d with lastTime := (t.dom d).lastTime }
  machine : t = { u with cores := t.cores, domains := t.domains, nextIssue := t.nextIssue, last := t.last }

/-! ### Objects in the quad SRAM window (R179, R189, R237) -/

/-- The value of a uniform pair. -/
def State.pairOf (s : State) (r : Ref) (a : Fin 48) : DWord := pair64 (s.greg r a.val) (s.greg r (a.val + 1))

/-- An address passes the checks of BARINIT for an object of `n` bytes, whose window offset is `off` (R237). -/
def State.objOk (s : State) (r : Ref) (a : DWord) (n off : Nat) : Prop :=
  a.toNat < 2 ^ 56 ∧ bitsOf a.toNat 55 53 = 2 ∧ bitsOf a.toNat 52 24 = 0 ∧ off = a.toNat % 2 ^ 24 ∧ off % n = 0 ∧
    off + n ≤ (s.wgOf r).qsram

/-- No byte outside 16 bytes of a window object has changed; a granule that another owner's tag held is zeroed first (R333). -/
def ObjectOnly (s t : State) (r : Ref) (off : Nat) : Prop :=
  let p := (s.wgOf r).qsramPa r.core off
  ∀ pa, ¬(p ≤ pa ∧ pa < p + 16) → (pa / 64 ≠ p / 64 ∨ s.tagOf p = ((s.wgOf r).dom, (s.wgOf r).epoch)) →
    t.physRead pa = s.physRead pa

/-- Every warp keeps everything but its mark of a watched line that was written (R300), and the stream `r` goes on to its next
word. -/
structure GoesOn (s t : State) (r : Ref) : Prop where
  last : t.last = .retired
  warp : t.warp r = { s.warp r with pc := s.nextPc r, pfx := none, hit := (t.warp r).hit }
  others : ∀ r', r' ≠ r → t.warp r' = { s.warp r' with hit := (t.warp r').hit }

/-! ### Save areas (R362, R363) -/

/-- What a warp holds has the sizes that its save layout has room for: whole rows of its own registers, each once, an apply stack of 64
entries, 16 regions and 8 fibres. -/
structure Warp.fits (w : Warp) : Prop where
  gran : w.gran ≤ 24
  rows : ∀ x ∈ w.v, x.1 < 8 * w.gran ∧ x.2.length = 32
  order : w.v.Pairwise fun a b => a.1 < b.1
  depth : w.stack.length ≤ 64 ∧ w.tbase < 128
  entries : ∀ e ∈ w.stack, e.chunk < 16 ∧ e.base < 256 ∧ e.nin < 256 ∧ e.nout < 256
  regions : w.regions.length ≤ 16
  fibres : ∀ f ∈ w.fibres, f.1 < 8 ∧ f.2.matched.length ≤ 32

/-- What a workgroup holds beside its warps, with an array state or none, has the sizes that its save layout has room for. -/
structure Workgroup.fits (g : Workgroup) (a : Option ArrayState) : Prop where
  qsram : g.qsram % 4096 = 0 ∧ g.qsram ≤ 2 ^ 24
  heap : g.setheap % 64 = 0 ∧ g.setheap ≤ g.qsram
  queues : ∀ i, i < 8 → (g.queue i).head < 16 ∧ (g.queue i).rows.length ≤ 16 ∧ ∀ x ∈ (g.queue i).rows, x.row.length = 32
  windows : ∀ i w, i < 16 → Tab.get none g.windows i = some w → w.count < 2 ^ 32 ∧ w.zlog < 256
  array : ∀ x p, a = some x → p ∈ x.pieces → p.1 + p.2.length ≤ 0x96000

/-- The pages of a save area of `n` bytes: 64 KiB each, no two the same. -/
def areaFits (ps : List BRef) (n : Nat) : Prop :=
  n ≤ 65536 * ps.length ∧ (∀ b ∈ ps, b.pa % 65536 = 0) ∧ ps.Pairwise fun a b => a.pa ≠ b.pa

/-! ### Tables of instructions of one shape -/

/-- The L-form integer instructions with two sources (R117): what each computes from A, B and the old D, and whether it reads D. -/
def intTable : List ((Reg → Reg → Src → Instr) × Bool × (Word → Word → Word → Word)) :=
  [(.add, false, fun a b _ => a + b), (.sub, false, fun a b _ => a - b), (.mul, false, fun a b _ => a * b),
   (.mulhi, false, fun a b _ => BitVec.ofInt 32 (a.toInt * b.toInt / 2 ^ 32)),
   (.mulhn, false, fun a b _ => BitVec.ofNat 32 (a.toNat * b.toNat / 2 ^ 32)), (.mad, true, fun a b d => a * b + d),
   (.min, false, fun a b _ => if a.toInt ≤ b.toInt then a else b), (.max, false, fun a b _ => if b.toInt ≤ a.toInt then a else b),
   (.minn, false, fun a b _ => if a.toNat ≤ b.toNat then a else b), (.maxn, false, fun a b _ => if b.toNat ≤ a.toNat then a else b),
   (.and, false, fun a b _ => a &&& b), (.or, false, fun a b _ => a ||| b), (.xor, false, fun a b _ => a ^^^ b),
   (.andn, false, fun a b _ => a &&& ~~~b), (.shl, false, fun a b _ => if b.toNat < 32 then a <<< b.toNat else 0),
   (.shr, false, fun a b _ => if b.toNat < 32 then a >>> b.toNat else 0),
   (.sar, false, fun a b _ => a.sshiftRight (min b.toNat 31)), (.rotl, false, fun a b _ => a.rotateLeft (b.toNat % 32)),
   (.bfx, false, fun a b _ => (a >>> bfPos b) &&& bfMask b),
   (.bfi, true, fun a b d => (d &&& ~~~(bfMask b <<< bfPos b)) ||| ((a &&& bfMask b) <<< bfPos b))]

/-- The L-form binary32 and packed instructions with two sources (R122, R123, R128): how an immediate reads, whether D is
read, and what each computes in a rounding mode. -/
def floatTable : List ((Reg → Reg → Src → Instr) × ImmKind × Bool × (Mode → Word → Word → Word → Word)) :=
  [(.fadd, .fp, false, fun md a b _ => Sys2Proof.Machine.fadd md a b), (.fsub, .fp, false, fun md a b _ => Sys2Proof.Machine.fsub md a b),
   (.fmul, .fp, false, fun md a b _ => Sys2Proof.Machine.fmul md a b), (.ffma, .fp, true, fun md a b d => Sys2Proof.Machine.ffma md a b d),
   (.fdiv, .fp, false, fun md a b _ => Sys2Proof.Machine.fdiv md a b), (.fmin, .fp, false, fun _ a b _ => Sys2Proof.Machine.fmin a b),
   (.fmax, .fp, false, fun _ a b _ => Sys2Proof.Machine.fmax a b),
   (.hadd2b, .packed, false, fun md a b _ => hadd2 bf16 md a b), (.hmul2b, .packed, false, fun md a b _ => hmul2 bf16 md a b),
   (.hfma2b, .packed, true, fun md a b d => hfma2 bf16 md a b d), (.hadd2h, .packed, false, fun md a b _ => hadd2 f16fmt md a b),
   (.hmul2h, .packed, false, fun md a b _ => hmul2 f16fmt md a b), (.hfma2h, .packed, true, fun md a b d => hfma2 f16fmt md a b d)]

/-- The L-form instructions with one register source (R117, R119, R122, R124, R126, R134). -/
def unaryTable : List ((Reg → Reg → Instr) × (Mode → Word → Word)) :=
  [(.abs, fun _ a => if a.toInt < 0 then -a else a), (.clz, fun _ a => iClz a), (.popc, fun _ a => iPopc a),
   (.brev, fun _ a => a.reverse), (.mov, fun _ a => a), (.fabs, fun _ a => if isNan a then 0x7FC00000 else a &&& 0x7FFFFFFF#32),
   (.fneg, fun _ a => if isNan a then 0x7FC00000 else a ^^^ 0x80000000#32),
   (.fsqrt, fun md a => Sys2Proof.Machine.fsqrt md a), (.frcp, fun _ a => Sys2Proof.Machine.frcp a), (.frsq, fun _ a => Sys2Proof.Machine.frsq a),
   (.fexp2, fun _ a => Sys2Proof.Machine.fexp2 a), (.flog2, fun _ a => Sys2Proof.Machine.flog2 a), (.fsinp, fun _ a => Sys2Proof.Machine.fsinp a),
   (.fcosp, fun _ a => Sys2Proof.Machine.fcosp a), (.ftanh, fun _ a => Sys2Proof.Machine.ftanh a), (.bzero, fun _ a => bzeroW a)]

/-- The L-form instructions with one register source and a byte of immediate (R118, R125). -/
def byteTable : List ((Reg → Reg → BitVec 8 → Instr) × (Mode → Word → BitVec 8 → Word)) :=
  [(.shli, fun _ a n => a <<< n.toNat), (.shri, fun _ a n => a >>> n.toNat), (.sari, fun _ a n => a.sshiftRight n.toNat),
   (.frnd, fun md a n => Sys2Proof.Machine.frnd (if n.toNat < 4 then Mode.of (n.extractLsb' 0 2) else md) a)]

/-- The L-form retrieval instructions (R133, R135, R136). -/
def helperTable : List ((Reg → Reg → Reg → Instr) × (Word → Word → Word)) :=
  [(.bcmp, bcmpW), (.crc32c, crcW), (.hmix, hmixW)]

/-- The uniform instructions with two sources (R138). -/
def uniTable : List ((Reg → Reg → Src → Instr) × (Word → Word → Word)) :=
  [(.gadd, fun a b => a + b), (.gsub, fun a b => a - b), (.gmul, fun a b => a * b), (.gand, fun a b => a &&& b),
   (.gor, fun a b => a ||| b), (.gxor, fun a b => a ^^^ b), (.gshl, fun a b => if b.toNat < 32 then a <<< b.toNat else 0),
   (.gshr, fun a b => if b.toNat < 32 then a >>> b.toNat else 0), (.gsar, fun a b => a.sshiftRight (min b.toNat 31)),
   (.gmin, fun a b => if a.toInt ≤ b.toInt then a else b), (.gmax, fun a b => if b.toInt ≤ a.toInt then a else b),
   (.gslt, fun a b => if a.toInt < b.toInt then 1 else 0), (.gsltn, fun a b => if a.toNat < b.toNat then 1 else 0),
   (.gseq, fun a b => if a = b then 1 else 0)]


/-! ### Opcodes (R50, R51): F and OP as one number, 128 and more for G-form words -/

/-- The opcodes that neither map assigns. -/
def unassignedOps : List Nat :=
  [0x00, 0x21, 0x22, 0x23, 0x36, 0x37, 0x3E, 0x3F, 0x4A, 0x4B, 0x4C, 0x4D, 0x4E, 0x4F, 0x56, 0x57, 0x58, 0x59, 0x5A, 0x5B, 0x5C, 0x5D,
   0x5E, 0x5F, 0x6D, 0x6E, 0x6F, 0x7B, 0x7C, 0x7D, 0x7E, 0x7F] ++
  [0x80, 0x96, 0x97, 0xA1, 0xA2, 0xA3, 0xA4, 0xA5, 0xA6, 0xA7, 0xB7, 0xBE, 0xBF, 0xCF, 0xD6, 0xD7, 0xDF, 0xE1, 0xE2, 0xE3, 0xE4, 0xE5, 0xE6,
   0xE7, 0xED, 0xEE, 0xEF, 0xF9, 0xFA, 0xFB, 0xFC, 0xFD]

/-- The assigned opcodes of the prefix class —, the prefix word itself among them. -/
def plainOps : List Nat :=
  [0x0B, 0x14, 0x15, 0x16, 0x1F, 0x1A, 0x1B, 0x1C, 0x1D, 0x1E, 0x20, 0x2A, 0x2B, 0x2C, 0x2D, 0x2E, 0x30, 0x31, 0x32, 0x33, 0x34, 0x35, 0x41,
   0x44, 0x46, 0x47, 0x45, 0x48, 0x49, 0x54, 0x55, 0x76, 0x77] ++
  [0x8D, 0x8E, 0x8F, 0x90, 0x98, 0x9D, 0x99, 0x9A, 0x9B, 0x9C, 0x9E, 0x9F, 0xA0, 0xA8, 0xA9, 0xAA, 0xAB, 0xAF, 0xAC, 0xAD, 0xB6, 0xAE, 0xB0,
   0xB1, 0xB3, 0xBD, 0xB4, 0xB5, 0xB8, 0xB9, 0xBB, 0xBC, 0xC1, 0xC2, 0xCB, 0xCD, 0xCE, 0xD0, 0xD1, 0xD5, 0xD2, 0xD3, 0xD4, 0xC4, 0xC5,
   0xC6, 0xC8, 0xC9, 0xCA] ++
  [0xD8, 0xD9, 0xDA, 0xDB, 0xDC, 0xDD, 0xE0, 0xFE, 0xE8, 0xE9, 0xEA, 0xEB, 0xEC, 0xF0, 0xF1, 0xF2, 0xF3, 0xF4, 0xF5, 0xF7, 0xF6, 0xF8, 0xFF]

end Sys2Proof.Machine
end

