-- ==== Sys2Proof/Certificates/Slice0/Obligations.lean ====
section
/-! DEFINITION. The statements for the provers. Each says, from the rules of the spec, what an instruction or an event does: that
it answers a next state, what it writes, and what it leaves alone. -/

open Sys2Proof Sys2Proof.Machine

/-- R110 to R113, R117: an L-form integer instruction with two sources, in every operand form.

Which registers a write under a partial set expands (log entry 34, DESIGN CHOICE) and that an empty set pushes no row
(log entry 78, DEDUCED) are the model's reading. -/
def Obligations.LaneIntegerResult : Prop :=
  ∀ e ∈ intTable, ∀ (d a : Reg) (b : Src) (s : State) (r : Ref),
    (e.1 d a b).wf = true → s.warpRuns r → s.canRead r a → s.canReadSrc r b → (e.2.1 = true → s.canRead r d) →
    s.canWrite r (a :: srcRegs b ++ (if e.2.1 then [d] else [])) d →
    ∃ t, exec (e.1 d a b) s = .next t ∧
      LaneDone s t r (a :: srcRegs b ++ (if e.2.1 then [d] else [])) d
        (fun j => e.2.2 (s.laneVal r a j) (s.srcVal r .int b j) (s.laneVal r d j))

/-- R110 to R113, R122, R123, R128: an L-form binary32 or packed instruction with two sources, under the warp's rounding
mode.

Which registers a write under a partial set expands (log entry 34, DESIGN CHOICE) and that an empty set pushes no row
(log entry 78, DEDUCED) are the model's reading. -/
def Obligations.LaneFloatResult : Prop :=
  ∀ e ∈ floatTable, ∀ (d a : Reg) (b : Src) (s : State) (r : Ref),
    (e.1 d a b).wf = true → s.warpRuns r → s.canRead r a → s.canReadSrc r b → (e.2.2.1 = true → s.canRead r d) →
    s.canWrite r (a :: srcRegs b ++ (if e.2.2.1 then [d] else [])) d →
    ∃ t, exec (e.1 d a b) s = .next t ∧
      LaneDone s t r (a :: srcRegs b ++ (if e.2.2.1 then [d] else [])) d
        (fun j => e.2.2.2 (Mode.of (s.warp r).round) (s.laneVal r a j) (s.srcVal r e.2.1 b j) (s.laneVal r d j))

/-- R110 to R113, R117, R119, R122, R124, R126, R134: an L-form instruction with one register source.

R118, R119, R125: the L-form instructions with an immediate.

R133, R135, R136, R317: the retrieval helpers and the shuffle by a lane register, with two register sources.

Rests on the model's reading of log entry 3 (DEDUCED: the bits of a special function inside its bound are not
published (R127); the model returns a free value when it lies in the bound, and else the value nearest to the exact
result). Which registers a write under a partial set expands (log entry 34, DESIGN CHOICE) and that an empty set
pushes no row (log entry 78, DEDUCED) are the model's reading. -/
def Obligations.LaneUnaryAndImmediate : Prop :=
  (∀ e ∈ unaryTable, ∀ (d a : Reg) (s : State) (r : Ref),
     (e.1 d a).wf = true → s.warpRuns r → s.canRead r a → s.canWrite r [a] d →
     ∃ t, exec (e.1 d a) s = .next t ∧ LaneDone s t r [a] d (fun j => e.2 (Mode.of (s.warp r).round) (s.laneVal r a j))) ∧
  (∀ (d a : Reg) (s : State) (r : Ref), s.warpRuns r →
     (∀ e ∈ byteTable, ∀ n : BitVec 8, (e.1 d a n).wf = true → s.canRead r a → s.canWrite r [a] d →
       ∃ t, exec (e.1 d a n) s = .next t ∧ LaneDone s t r [a] d (fun j => e.2 (Mode.of (s.warp r).round) (s.laneVal r a j) n)) ∧
     (∀ i : Imm8, (Instr.addi d a i).wf = true → s.canRead r a → s.canWrite r [a] d →
       ∃ t, exec (.addi d a i) s = .next t ∧ LaneDone s t r [a] d (fun j => s.laneVal r a j + (match i with
         | .short x => x.signExtend 32
         | .long p x => p ++ x))) ∧
     (∀ i16 : BitVec 16, (Instr.movi d i16).wf = true → s.canWrite r [] d →
       ∃ t, exec (.movi d i16) s = .next t ∧ LaneDone s t r [] d (fun _ => i16.signExtend 32)) ∧
     (∀ i16 : BitVec 16, (Instr.movhi d i16).wf = true → s.canRead r d → s.canWrite r [d] d →
       ∃ t, exec (.movhi d i16) s = .next t ∧ LaneDone s t r [d] d (fun j => i16 ++ (s.laneVal r d j).extractLsb' 0 16))) ∧
  (∀ (d a b : Reg) (s : State) (r : Ref), s.warpRuns r → d.isLaneDst = true → s.canRead r a → s.canRead r b →
     s.canWrite r [a, b] d →
     (∀ e ∈ helperTable, ∃ t, exec (e.1 d a b) s = .next t ∧
       LaneDone s t r [a, b] d (fun j => e.2 (s.laneVal r a j) (s.laneVal r b j))) ∧
     (∀ w : Option Width, s.canReadFrom r a (fun j => j / widthOf w * widthOf w + (s.laneVal r b j).toNat % widthOf w) →
       ∃ t, exec (.shfl d a b w) s = .next t ∧ LaneDone s t r [a, b] d (fun j => s.laneVal r a (j / widthOf w * widthOf w + (s.laneVal r b j).toNat % widthOf w))))

/-- R317: the shuffles by an immediate; a source lane outside the group of `w` lanes leaves the lane's own value.

R107, R318: REDUX writes the pairwise-tree combination of the members' values to every member, SCAN the combination of
the values up to the member, or below it with the operation's identity first. A NaN among the values of a binary32
operation is taken as the canonical one, a lone one too (R92).

Which registers a write under a partial set expands (log entry 34, DESIGN CHOICE) and that an empty set pushes no row
(log entry 78, DEDUCED) are the model's reading. -/
def Obligations.CrossLaneResult : Prop :=
  (∀ (d a : Reg) (n : BitVec 8) (w : Option Width) (s : State) (r : Ref), s.warpRuns r → d.isLaneDst = true → n.toNat < 32 →
     s.canRead r a → s.canWrite r [a] d →
     let up : Nat → Nat := fun j => if n.toNat ≤ j % widthOf w then j - n.toNat else j
     let down : Nat → Nat := fun j => if j % widthOf w + n.toNat < widthOf w then j + n.toNat else j
     let across : Nat → Nat := fun j => j / widthOf w * widthOf w + Nat.xor j n.toNat % widthOf w
     (s.canReadFrom r a up → ∃ t, exec (.shflup d a n w) s = .next t ∧ LaneDone s t r [a] d (fun j => s.laneVal r a (up j))) ∧
     (s.canReadFrom r a down → ∃ t, exec (.shfldn d a n w) s = .next t ∧ LaneDone s t r [a] d (fun j => s.laneVal r a (down j))) ∧
     (s.canReadFrom r a across → ∃ t, exec (.shflx d a n w) s = .next t ∧ LaneDone s t r [a] d (fun j => s.laneVal r a (across j)))) ∧
  (∀ (d a : Reg) (op : RedOp) (s : State) (r : Ref), s.warpRuns r → d.isLaneDst = true → s.canRead r a → s.canWrite r [a] d →
     let vals : List Word := (lanesOf (s.applied r)).map fun j =>
       if op ∈ [RedOp.fadd, .fmin, .fmax] ∧ isNan (s.laneVal r a j) = true then 0x7FC00000 else s.laneVal r a j
     (∃ t, exec (.redux d a op) s = .next t ∧
       LaneDone s t r [a] d (fun _ => (treeOf (redCombine op (Mode.of (s.warp r).round)) vals).getD 0 0)) ∧
     (∀ excl, ∃ t, exec (.scan d a op excl) s = .next t ∧
       LaneDone s t r [a] d (fun j =>
         ((if excl then [redIdentity op] else []) ++ scanOf (redCombine op (Mode.of (s.warp r).round)) vals).getD
             ((lanesOf (s.applied r)).filter fun i => decide (i < j)).length 0)))

/-- R129 to R132: the conversions read a run of registers and write one, lane by lane; QSCALE writes one scale for the
members of S beside each member's code.

R110, R137: MOVXR and MOVXW reach the lane register g(gx) + i8, the uniform register read as unsigned; a number
outside the allocation traps REG_BOUND and moves nothing. With an empty S the number is not looked at and both retire.

Which registers a write under a partial set expands (log entry 34, DESIGN CHOICE) and that an empty set pushes no row
(log entry 78, DEDUCED) are the model's reading. -/
def Obligations.ConversionsAndIndirectMoves : Prop :=
  (∀ (d a : Reg) (code : BitVec 8) (s : State) (r : Ref), s.warpRuns r →
     (∀ sat, (Instr.cvt d a code sat).wf = true → s.canReadRun r a (fmtRegs (code.toNat % 16)) →
       s.canWriteRun r [a] d (fmtRegs (code.toNat / 16)) →
       ∃ t, exec (.cvt d a code sat) s = .next t ∧
         RunDone s t r [a] d (fmtRegs (code.toNat / 16)) (fun i j => word32 (cvt (Mode.of (s.warp r).round) (sat.getD false)
           (code.toNat / 16) (code.toNat % 16) (s.runNat r a (fmtRegs (code.toNat % 16)) j)).toNat i)) ∧
     ((Instr.xpnd d a code).wf = true → s.canReadRun r a 1 → s.canWriteRun r [a] d (if code.toNat < 2 then 2 else 1) →
       ∃ t, exec (.xpnd d a code) s = .next t ∧
         RunDone s t r [a] d (if code.toNat < 2 then 2 else 1) (fun i j => word32 (xpnd code.toNat (s.runWord r a 0 j)).toNat i)) ∧
     (∀ sat, (Instr.pack d a code sat).wf = true → s.canReadRun r a (if code.toNat < 2 then 2 else 4) → s.canWriteRun r [a] d 1 →
       ∃ t, exec (.pack d a code sat) s = .next t ∧
         RunDone s t r [a] d 1 (fun _ j => Sys2Proof.Machine.pack (Mode.of (s.warp r).round) (sat.getD false) code.toNat
           ((List.range (if code.toNat < 2 then 2 else 4)).map fun i => s.runWord r a i j))) ∧
     (∀ sat, (Instr.qscale d a code sat).wf = true → s.canReadRun r a 1 → s.canWriteRun r [a] d 2 →
       ∃ t, exec (.qscale d a code sat) s = .next t ∧
         RunDone s t r [a] d 2 (fun i j =>
           let x := qscaleX code.toNat ((lanesOf (s.applied r)).map fun j => s.runWord r a 0 j)
           if i = 0 then BitVec.ofNat 32 (qscaleE code.toNat x (s.runWord r a 0 j)) else BitVec.ofNat 32 x))) ∧
  (∀ (d : Fin 192) (gx : Fin 48) (i8 : BitVec 8) (s : State) (r : Ref), s.warpRuns r → d.val < 8 * (s.warp r).gran →
     (s.applied r = 0 →
       (∃ t, exec (.movxr (.v d) gx i8) s = .next t ∧ RegsDone s t r [] (s.nextPc r) fun _ => none) ∧
       (∃ t, exec (.movxw (.v d) gx i8) s = .next t ∧ RegsDone s t r [] (s.nextPc r) fun _ => none)) ∧
     (∀ n : Fin 192, s.applied r ≠ 0 → s.canRead r (.g gx) → (n.val : Int) = (s.greg r gx.val).toNat + i8.toInt →
       (s.canRead r (.v n) → s.canWrite r [] (.v d) →
         ∃ t, exec (.movxr (.v d) gx i8) s = .next t ∧ LaneDone s t r [] (.v d) (fun j => s.laneVal r (.v n) j)) ∧
       (s.canRead r (.v d) → s.canWrite r [] (.v n) →
         ∃ t, exec (.movxw (.v d) gx i8) s = .next t ∧ LaneDone s t r [] (.v n) (fun j => s.laneVal r (.v d) j))) ∧
     (s.applied r ≠ 0 → s.canRead r (.g gx) →
         (∀ n : Nat, n < 8 * (s.warp r).gran → (n : Int) ≠ (s.greg r gx.val).toNat + i8.toInt) →
       exec (.movxr (.v d) gx i8) s = .next (s.takeTrap r (Trap.of .regBound)) ∧
       exec (.movxw (.v d) gx i8) s = .next (s.takeTrap r (Trap.of .regBound))))

/-- R138: a uniform instruction with two sources, on a warp or an access slice, in every operand form.

R138, R139: the uniform moves and immediates, and GRDL, which reads lane `g(b) mod 32` of a lane register.

Rests on the model's choice of log entry 70 (DESIGN CHOICE: what `warpix` reads when an access slice names it: the
spec gives a slice no warp index; it reads 0). -/
def Obligations.UniformRunsOnEmptySet : Prop :=
  (∀ e ∈ uniTable, ∀ (d a : Reg) (b : Src) (s : State) (r : Ref),
     (e.1 d a b).wf = true → s.issues r → s.fallsThrough r → s.canReadUni r a 1 → s.canReadSrcUni r b →
     s.canWriteUni r (a :: srcRegs b) d →
     ∃ t, exec (e.1 d a b) s = .next t ∧
       UniDone s t r (a :: srcRegs b) d (e.2 (s.uniRead r a) (s.srcVal r .int b 0))) ∧
  (∀ (d a : Reg) (s : State) (r : Ref), s.issues r → s.fallsThrough r →
     (∀ i : Imm8, (Instr.gaddi d a i).wf = true → s.canReadUni r a 1 → s.canWriteUni r [a] d →
       ∃ t, exec (.gaddi d a i) s = .next t ∧ UniDone s t r [a] d (s.uniRead r a + (match i with
         | .short x => x.signExtend 32
         | .long p x => p ++ x))) ∧
     (∀ i16 : BitVec 16, (Instr.gmovi d i16).wf = true → s.canWriteUni r [] d →
       ∃ t, exec (.gmovi d i16) s = .next t ∧ UniDone s t r [] d (i16.signExtend 32)) ∧
     (∀ i16 : BitVec 16, (Instr.gmovhi d i16).wf = true → s.canReadUni r d 1 → s.canWriteUni r [d] d →
       ∃ t, exec (.gmovhi d i16) s = .next t ∧ UniDone s t r [d] d (i16 ++ (s.uniRead r d).extractLsb' 0 16)) ∧
     ((Instr.gmov d a).wf = true → s.canReadUni r a 1 → s.canWriteUni r [a] d →
       ∃ t, exec (.gmov d a) s = .next t ∧ UniDone s t r [a] d (s.uniRead r a)) ∧
     (∀ n : Fin 192, (Instr.grdl d n a).wf = true → n.val < 8 * (s.warp r).gran → s.pendingV r n.val = false →
       s.canReadUni r a 1 → s.intact r (.v n.val ((s.uniRead r a).toNat % 32)) → s.canWriteUni r [a] d →
       ∃ t, exec (.grdl d n a) s = .next t ∧ UniDone s t r [a] d (s.laneVal r (.v n) ((s.uniRead r a).toNat % 32))))

/-- R34, R68, R285, R307, R308: the branches of a warp, and those that an access slice has. A taken branch goes to its
label, one not taken to the next word; no register changes. A label outside instruction memory traps with
ILLEGAL_FIELD, taken or not, whatever the register or set holds.

R22, R34, R307, R309: CALL and CALLR write the address of the next word to `link` (`g47`) and go to their target, RET
and JMPR go to theirs; the target of CALLR is read before `link` is written. An unaligned target, or one outside
instruction memory, traps with ILLEGAL_FIELD and has no effect.

R285: an access slice halts at a branch to its own address that is taken, by each of the branches that it has. -/
def Obligations.TransfersOfControl : Prop :=
  (∀ (s : State) (r : Ref), s.issues r →
     (∀ off : BitVec 24, s.mayGo r (s.branchTo r off.toInt) → s.passesOn r (s.branchTo r off.toInt) →
       ∃ t, exec (.br off) s = .next t ∧ RegsDone s t r [] (BitVec.ofInt 32 (s.branchTo r off.toInt)) fun _ => none) ∧
     (∀ off : BitVec 24, offMap (s.branchTo r off.toInt) → exec (.br off) s = .next (s.takeTrap r (Trap.of .illegalField))) ∧
     (∀ (a : Fin 48) (off : BitVec 16), s.canReadUni r (.g a) 1 →
       (s.mayGo r (s.branchTo r off.toInt) → s.passesOn r (s.branchTo r off.toInt) →
         (s.greg r a.val = 0 → ∃ t, exec (.brz a off) s = .next t ∧
           RegsDone s t r [] (BitVec.ofInt 32 (s.branchTo r off.toInt)) fun _ => none) ∧
         (s.greg r a.val ≠ 0 → ∃ t, exec (.brnz a off) s = .next t ∧
           RegsDone s t r [] (BitVec.ofInt 32 (s.branchTo r off.toInt)) fun _ => none)) ∧
       (s.fallsThrough r → ¬offMap (s.branchTo r off.toInt) →
         (s.greg r a.val ≠ 0 → ∃ t, exec (.brz a off) s = .next t ∧ RegsDone s t r [] (s.nextPc r) fun _ => none) ∧
         (s.greg r a.val = 0 → ∃ t, exec (.brnz a off) s = .next t ∧ RegsDone s t r [] (s.nextPc r) fun _ => none))) ∧
     (∀ (a : Fin 48) (off : BitVec 16), offMap (s.branchTo r off.toInt) →
       exec (.brz a off) s = .next (s.takeTrap r (Trap.of .illegalField)) ∧
       exec (.brnz a off) s = .next (s.takeTrap r (Trap.of .illegalField))) ∧
     (∀ (st : Fin 16) (off : BitVec 20) (m : Members), r.isSlice = false → s.pendingS r st.val = false → s.intact r (.s st.val) →
         s.readSet r ((s.warp r).sreg st.val) = .ok m →
       (s.mayGo r (s.branchTo r off.toInt) →
         ((∀ p ∈ homesOf m, (s.wgOf r).isLive p = false) → ∃ t, exec (.brse st off) s = .next t ∧
           RegsDone s t r [] (BitVec.ofInt 32 (s.branchTo r off.toInt)) fun _ => none) ∧
         ((∃ p ∈ homesOf m, (s.wgOf r).isLive p = true) → ∃ t, exec (.brsne st off) s = .next t ∧
           RegsDone s t r [] (BitVec.ofInt 32 (s.branchTo r off.toInt)) fun _ => none)) ∧
       (s.fallsThrough r → ¬offMap (s.branchTo r off.toInt) →
         ((∃ p ∈ homesOf m, (s.wgOf r).isLive p = true) → ∃ t, exec (.brse st off) s = .next t ∧
           RegsDone s t r [] (s.nextPc r) fun _ => none) ∧
         ((∀ p ∈ homesOf m, (s.wgOf r).isLive p = false) → ∃ t, exec (.brsne st off) s = .next t ∧
           RegsDone s t r [] (s.nextPc r) fun _ => none))) ∧
     (∀ (st : Fin 16) (off : BitVec 20), r.isSlice = false → offMap (s.branchTo r off.toInt) →
       exec (.brse st off) s = .next (s.takeTrap r (Trap.of .illegalField)) ∧
       exec (.brsne st off) s = .next (s.takeTrap r (Trap.of .illegalField)))) ∧
  (∀ (s : State) (r : Ref), s.issues r → r.isSlice = false →
     (∀ off : BitVec 24, s.mayGo r (s.branchTo r off.toInt) → s.pendingG r 47 = false →
       ∃ t, exec (.call off) s = .next t ∧ RegsDone s t r [] (BitVec.ofInt 32 (s.branchTo r off.toInt))
         fun n => if n = 47 then some (s.nextPc r) else none) ∧
     (∀ off : BitVec 24, offMap (s.branchTo r off.toInt) → exec (.call off) s = .next (s.takeTrap r (Trap.of .illegalField))) ∧
     (∀ a : Reg, a.isUniSrc = true → s.canReadUni r a 1 →
       (s.mayGo r (s.uniRead r a).toNat →
         (s.pendingG r 47 = false → ∃ t, exec (.callr a) s = .next t ∧
           RegsDone s t r [a] (s.uniRead r a) fun n => if n = 47 then some (s.nextPc r) else none) ∧
         (∃ t, exec (.ret a) s = .next t ∧ RegsDone s t r [a] (s.uniRead r a) fun _ => none) ∧
         (∃ t, exec (.jmpr a) s = .next t ∧ RegsDone s t r [a] (s.uniRead r a) fun _ => none)) ∧
       (¬(s.uniRead r a).toNat % 4 = 0 ∨ 262144 ≤ (s.uniRead r a).toNat →
         exec (.callr a) s = .next (s.takeTrap r (Trap.of .illegalField)) ∧
         exec (.ret a) s = .next (s.takeTrap r (Trap.of .illegalField)) ∧
         exec (.jmpr a) s = .next (s.takeTrap r (Trap.of .illegalField))))) ∧
  (∀ (s : State) (r : Ref) (i : Instr) (x : Int), s.issues r → r.isSlice = true → s.mayGo r x → BitVec.ofInt 32 x = s.pcOf r →
     ((∃ off : BitVec 24, s.branchTo r off.toInt = x ∧ i = .br off) ∨
       ∃ (a : Fin 48) (off : BitVec 16), s.branchTo r off.toInt = x ∧ s.canReadUni r (.g a) 1 ∧
         ((i = .brz a off ∧ s.greg r a.val = 0) ∨ (i = .brnz a off ∧ s.greg r a.val ≠ 0))) →
     ∃ t, exec i s = .next t ∧ (t.wgOf r).slice = { (s.wgOf r).slice with halted := true, pfx := none } ∧
       (∀ r', t.warp r' = s.warp r') ∧ (∀ pa, t.physRead pa = s.physRead pa) ∧ t.last = .retired)

/-- R269, R273, R310, R311, R313: the set instructions on inline sets of one warp `k`: union, intersection and difference
of its lanes, the copy, all lanes of the issuing warp (whose index, too, lies below 16), the empty set, the first live
member, and a uniform pair read as a set. No object is allocated or freed, and nothing but the set register and the
program counter changes.

R271, R272, R310, R311, R313: the set instructions on sets of any form, as the model's operations on the set heap give
them: the result in normal form is made first, with its object, then written with its reference, and only then the old
value's reference is dropped. A result that cannot be allocated traps with SET_HEAP. -/
def Obligations.SetInstructionResults : Prop :=
  (∀ (sd sa sb : Fin 16) (k : Nat) (ma mb : Lanes) (s : State) (r : Ref), s.warpRuns r → k < 16 → r.index < 16 →
     s.pendingS r sa.val = false → s.pendingS r sb.val = false → s.pendingS r sd.val = false →
     s.intact r (.s sa.val) → s.intact r (.s sb.val) →
     (s.warp r).sreg sa.val = inlineSet k ma → (s.warp r).sreg sb.val = inlineSet k mb → isWide ((s.warp r).sreg sd.val) = false →
     let put (x : DWord) : Warp := { s.warp r with
       sets := Tab.set 0 (s.warp r).sets sd.val x
       bad := (s.warp r).bad.filter fun b => decide (b ≠ .s sd.val)
       pc := s.nextPc r
       pfx := none }
     let live : Lanes := if ((s.wgOf r).warp k).status ≠ .absent then ma &&& ((s.wgOf r).warp k).live else 0
     (∃ t, exec (.sunion sd sa sb) s = .next t ∧ t.last = .retired ∧ WarpOnly s t r (put (inlineSet k (ma ||| mb)))) ∧
     (∃ t, exec (.sinter sd sa sb) s = .next t ∧ t.last = .retired ∧ WarpOnly s t r (put (inlineSet k (ma &&& mb)))) ∧
     (∃ t, exec (.sdiff sd sa sb) s = .next t ∧ t.last = .retired ∧ WarpOnly s t r (put (inlineSet k (ma &&& ~~~mb)))) ∧
     (∃ t, exec (.smov sd sa) s = .next t ∧ t.last = .retired ∧ WarpOnly s t r (put (inlineSet k ma))) ∧
     (∃ t, exec (.sall sd) s = .next t ∧ t.last = .retired ∧ WarpOnly s t r (put (inlineSet r.index (BitVec.allOnes 32)))) ∧
     (∃ t, exec (.snone sd) s = .next t ∧ t.last = .retired ∧ WarpOnly s t r (put 0)) ∧
     (∃ t, exec (.sfree sd) s = .next t ∧ t.last = .retired ∧ WarpOnly s t r (put 0)) ∧
     (∃ t, exec (.sfirst sd sa) s = .next t ∧ t.last = .retired ∧ WarpOnly s t r (put (inlineSet k (live &&& -live)))) ∧
     (∀ d : Fin 48, s.canReadUni r (.g d) 2 →
       pair64 (s.greg r d.val) (s.greg r (d.val + 1)) = inlineSet k ma →
       ∃ t, exec (.sfromv d sd) s = .next t ∧ t.last = .retired ∧ WarpOnly s t r (put (inlineSet k ma)))) ∧
  (∀ (sd sa sb : Fin 16) (s : State) (r : Ref) (a b : Members), s.warpRuns r →
     s.pendingS r sa.val = false → s.pendingS r sb.val = false → s.pendingS r sd.val = false →
     s.intact r (.s sa.val) → s.intact r (.s sb.val) →
     s.readSet r ((s.warp r).sreg sa.val) = .ok a → s.readSet r ((s.warp r).sreg sb.val) = .ok b →
     (∀ e ∈ [(Instr.sunion sd sa sb, membersWhere fun k j => Members.has a (k, j) || Members.has b (k, j)),
         (Instr.sinter sd sa sb, membersWhere fun k j => Members.has a (k, j) && Members.has b (k, j)),
         (Instr.sdiff sd sa sb, membersWhere fun k j => Members.has a (k, j) && !Members.has b (k, j))],
       (∀ x s1, s.makeSet r e.2 = .ok (x, s1) → exec e.1 s = .next ((s1.putSet r sd.val x).retire r)) ∧
       (s.makeSet r e.2 = .error (.trap (Trap.of .setHeap)) → exec e.1 s = .next (s.takeTrap r (Trap.of .setHeap)))) ∧
     exec (.smov sd sa) s = .next ((s.putSet r sd.val (canonSet ((s.warp r).sreg sa.val))).retire r) ∧
     exec (.sfree sd) s = .next ((s.putSet r sd.val 0).retire r) ∧
     (∀ (d : Fin 48) (m : Members), s.canReadUni r (.g d) 2 →
       s.readSet r (pair64 (s.greg r d.val) (s.greg r (d.val + 1))) = .ok m →
       exec (.sfromv d sd) s = .next ((s.putSet r sd.val (canonSet (pair64 (s.greg r d.val) (s.greg r (d.val + 1))))).retire r)))

/-- R273, R310, R312, R313: SCOUNT writes the number of live members, STOV the raw value of a set register.

R120, R273: SETV writes 1 in the lanes of S whose home position is a member and 0 in the others; a value that is no
set traps with SET_HEAP when S is not empty.

R41, R275, R315: STEST outside a gathered apply writes the members of S whose condition holds to one set register and
the rest of S to the other, both as inline sets of the issuing warp, and changes no other register.

Which registers a write under a partial set expands (log entry 34, DESIGN CHOICE) and that an empty set pushes no row
(log entry 78, DEDUCED) are the model's reading. -/
def Obligations.SetsReadIntoRegisters : Prop :=
  (∀ (st : Fin 16) (s : State) (r : Ref), s.warpRuns r → s.pendingS r st.val = false →
     s.intact r (.s st.val) →
     (∀ (d : Reg) (m : Members), d.isUniDst = true → s.canWriteUni r [] d → s.readSet r ((s.warp r).sreg st.val) = .ok m →
       ∃ t, exec (.scount d st) s = .next t ∧
         UniDone s t r [] d (BitVec.ofNat 32 ((homesOf m).filter fun p => (s.wgOf r).isLive p).length)) ∧
     (∀ d : Fin 48, s.pendingG r d.val = false → s.pendingG r (d.val + 1) = false →
       ∃ t, exec (.stov d st) s = .next t ∧ RegsDone s t r [] (s.nextPc r) fun n =>
         if n.val = d.val then some (lo32 ((s.warp r).sreg st.val))
         else if n.val = d.val + 1 then some (hi32 ((s.warp r).sreg st.val)) else none)) ∧
  (∀ (d : Reg) (st : Fin 16) (s : State) (r : Ref), s.warpRuns r → d.isLaneDst = true → s.canWrite r [] d →
     s.pendingS r st.val = false → s.intact r (.s st.val) →
     (∀ m, s.readSet r ((s.warp r).sreg st.val) = .ok m →
       ∃ t, exec (.setv d st) s = .next t ∧
         LaneDone s t r [] d fun j => if Members.has m ((s.warp r).home r.index j) then 1 else 0) ∧
     (s.applied r ≠ 0 → s.readSet r ((s.warp r).sreg st.val) = .error (.trap (Trap.of .setHeap)) →
       exec (.setv d st) s = .next (s.takeTrap r (Trap.of .setHeap)))) ∧
  (∀ (c : Cond) (st sf : Fin 16) (a : Reg) (b : Src) (s : State) (r : Ref), (Instr.stest c st sf a b).wf = true →
     s.warpRuns r → r.index < 16 → (s.warp r).gather = none → s.canRead r a → s.canReadSrc r b →
     s.pendingS r st.val = false → s.pendingS r sf.val = false →
     isWide ((s.warp r).sreg st.val) = false → isWide ((s.warp r).sreg sf.val) = false →
     let y : Nat → Word := s.srcVal r (if condFp c then .fp else .int) b
     let m : Lanes := maskOf fun j => (s.applied r).getLsbD j && condHolds c (s.laneVal r a j) (y j)
     ∃ t, exec (.stest c st sf a b) s = .next t ∧
       RegsDone ((s.rawSet r st.val (inlineSet r.index m)).rawSet r sf.val (inlineSet r.index (s.applied r &&& ~~~m))) t r
         (a :: srcRegs b) (s.nextPc r) fun _ => none)

/-- R325: NOP does nothing, and YIELD sets the warp's gate to 63 and changes no register and no memory.

R203, R204, R235: a fence retires once the earlier accesses of its warp and of its threads are performed, the direct
ones alone for a kind without acquire or release; a release writes back all lines that the warp's domain holds in the
core's L1, once no quiesced vault holds them, and an acquire discards the L1's clean ones, but at scope `core`. While
an access that it waits for is outstanding it stalls. A fence of no kind without `hv` traps with ILLEGAL_FIELD.

R49, R163, R236: WAITC retires when each counter holds at most its threshold (63 is no wait), and changes nothing; of
the classes in the order ld, st, cp, tl the first that does not pass decides: WAITC delivers that class's deferred
fault when its threshold is below the operations that fault holds up, and otherwise waits while the counter holds
more.

Rests on the model's choice of log entry 16 (DESIGN CHOICE: when within its span an acquire discards clean L1 bytes
and a release writes back dirty ones: at its completion, and once the warp's earlier accesses have all completed). -/
def Obligations.WaitsThatChangeNothing : Prop :=
  (∀ (s : State) (r : Ref), s.warpRuns r →
     (∃ t, exec .nop s = .next t ∧ t.last = .retired ∧ WarpOnly s t r { s.warp r with pc := s.nextPc r, pfx := none }) ∧
     (∃ t, exec .yield s = .next t ∧ t.last = .retired ∧ WarpOnly s t r { s.warp r with gate := 63, gatePc := s.pcOf r, pc := s.nextPc r, pfx := none })) ∧
  (∀ (sc : Scope) (kind : FenceKind) (hv : Bool) (s : State) (r : Ref), s.warpRuns r →
     let mine := s.ownOutstanding r
     let direct : Prop := ∃ f ∈ mine, ∃ l ∈ f.lanes, f.laneDirect (s.core r.core) l = true
     let out : Prop := (kind = .rel ∨ kind = .ar) ∧ sc ≠ .core
     (kind ≠ .none ∨ hv = true → (mine = [] ∨ (kind = .none ∧ ¬direct)) → (out → s.dirtyHeld r.core (s.domOf r) = false) →
       let s1 := if out then s.writeBackAll r.core (s.domOf r) else s
       let u := if (kind = .acq ∨ kind = .ar) ∧ sc ≠ .core then s1.discardClean r.core else s1
       exec (.fence sc kind hv) s = .next (u.retire r)) ∧
     ((kind ≠ .none ∧ mine ≠ []) ∨ (kind = .none ∧ hv = true ∧ direct) →
       exec (.fence sc kind hv) s = .next { s with last := .stalled }) ∧
     (exec (.fence sc .none false) s = .next (s.takeTrap r (Trap.of .illegalField)))) ∧
  (∀ (ld st cp tl : Fin 64) (s : State) (r : Ref), s.warpRuns r →
     let w := s.warp r
     let pass (c : Ctr) (n : Fin 64) : Prop := n.val = 63 ∨ (w.ctr c ≤ n.val ∧ ∀ k t, s.owed r c = some (k, t) → k ≤ n.val)
     (pass .ld ld → pass .st st → pass .cp cp → pass .tl tl → ∃ t, exec (.waitc ld st cp tl) s = .next t ∧
       t.last = .retired ∧ WarpOnly s t r { w with pc := s.nextPc r, pfx := none }) ∧
     (∀ before c n after, [(Ctr.ld, ld), (.st, st), (.cp, cp), (.tl, tl)] = before ++ (c, n) :: after → (∀ x ∈ before, pass x.1 x.2) → ¬pass c n →
       exec (.waitc ld st cp tl) s = .next (match s.owed r c with
         | some (k, t) => if n.val < k then s.takeTrap r t else { s with last := .stalled }
         | none => { s with last := .stalled })))

/-- R218 to R224, R227: a lane load, POLL or store whose lanes all pass the checks of R219 enters flight as one access,
with its address, bytes and, for a store, its data in every lane of S, and is counted; the warp goes on. Before that
its translations are used. With S empty no access is made and nothing is counted in `ld` or `st`; a POLL still retires
as a POLL over that set. An access that would read a lost byte (R366), or whose window index waits for an older access
(R193), is not of this statement.

R219, R220, R356, R357, R366: when a lane of S fails a check, the load, POLL or store traps with one record for every
failing lane in ascending order, those among them that a load would read lost bytes in, and has no other effect.

R218 to R223, R225, R272, R314: the uniform load and store, SLD and SST, once for the warp; the offset of a set access
counts 8 bytes, SLD counts in no counter, and SST adds the stored copy's reference. -/
def Obligations.AccessesIssue : Prop :=
  (∀ (d a : Reg) (i8 : BitVec 8) (m : Option Mods) (s : State) (r : Ref), s.warpRuns r → s.canReadRun r a 2 →
     let md := modsOf m
     let k := dataRegs d md.size
     let n := md.size.bytes
     let ea := s.eaOf r a i8.toInt
     (∀ e ∈ [(Instr.ld d a i8 m, FlightKind.load), (.poll d a i8 m, .poll)], e.1.wf = true → s.canAwait r d k →
       (s.applied r = 0 → e.2 = .load → ∃ t, exec e.1 s = .next t ∧ RegsDone s t r [] (s.nextPc r) fun _ => none) ∧
       (s.applied r = 0 → e.2 = .poll → s.pollFree r = true → exec e.1 s = .next ((s.pollReport r (s.pcOf r) 0 [] []).retire r)) ∧
       (∀ refs, s.applied r ≠ 0 → (s.warp r).ld < 63 → s.lanesPass r .load n ea refs →
         s.lostLanes r.core (s.flight r e.2 md (s.applied r) (.lanes d k) (s.accs r ea refs fun _ => [])) = [] →
         ∃ t, exec e.1 s = .next t ∧ Flies (s.touchAccs r false (s.accs r ea refs fun _ => [])) t r
           (s.flight r e.2 md (s.applied r) (.lanes d k) (s.accs r ea refs fun _ => [])) (some .ld) [])) ∧
     ((Instr.st d a i8 m).wf = true → s.canReadRun r d k →
       (s.applied r = 0 → ∃ t, exec (.st d a i8 m) s = .next t ∧ RegsDone s t r [] (s.nextPc r) fun _ => none) ∧
       (∀ refs, s.applied r ≠ 0 → (s.warp r).st < 63 → s.lanesPass r .store n ea refs →
         let ls := s.accs r ea refs fun j => leBytes n (s.runNat r d k j)
         ∃ t, exec (.st d a i8 m) s = .next t ∧
           Flies (s.touchAccs r true ls) t r (s.flight r .store md (s.applied r) .none ls) (some .st) [d]))) ∧
  (∀ (d a : Reg) (i8 : BitVec 8) (m : Option Mods) (s : State) (r : Ref), s.warpRuns r → s.canReadRun r a 2 →
     let md := modsOf m
     let k := dataRegs d md.size
     let ea := s.eaOf r a i8.toInt
     (∀ e ∈ [(Instr.ld d a i8 m, FlightKind.load), (.poll d a i8 m, .poll)], e.1.wf = true → s.canAwait r d k → (s.warp r).ld < 63 →
       s.lanesReach r md.size.bytes ea → s.failing r .load md.size.bytes ea ≠ [] →
       exec e.1 s = .next (s.takeTrap r (failTrap false (s.failing r .load md.size.bytes ea ++
         s.losing r (s.flight r e.2 md (s.applied r) (.lanes d k) []) md.size.bytes ea)))) ∧
     ((Instr.st d a i8 m).wf = true → s.canReadRun r d k → (s.warp r).st < 63 → s.lanesReach r md.size.bytes ea →
       s.failing r .store md.size.bytes ea ≠ [] →
       exec (.st d a i8 m) s = .next (s.takeTrap r (failTrap false (s.failing r .store md.size.bytes ea))))) ∧
  (∀ (a : Fin 48) (i8 : BitVec 8) (refs : List BRef) (s : State) (r : Ref), s.warpRuns r → s.canReadUni r (.g a) 2 →
     let at' (off : Int) : DWord := pair64 (s.greg r a.val) (s.greg r (a.val + 1)) + BitVec.ofInt 64 off
     let acc (off : Int) (data : List Byte) : LaneAcc := { lane := 0, threads := s.uniThreads r, addr := at' off, refs := refs, data := data }
     let reach (off : Int) (n : Nat) : Prop := s.mayReach r (s.uniThreads r) (at' off).toNat n = true
     (∀ (d : Reg) (m : Option Mods), (Instr.gld d (.g a) i8 m).wf = true →
       let md := modsOf m
       s.canAwait r d (dataRegs d md.size) → (s.warp r).ld < 63 → reach i8.toInt md.size.bytes →
       resolve s .load (s.actor r) (at' i8.toInt) md.size.bytes md.size.bytes = .ok refs →
       s.lostLanes r.core (s.flight r .load md 1 (.uni d (dataRegs d md.size)) [acc i8.toInt []]) = [] →
       ∃ t, exec (.gld d (.g a) i8 m) s = .next t ∧ Flies (s.touchAccs r false [acc i8.toInt []]) t r
         (s.flight r .load md 1 (.uni d (dataRegs d md.size)) [acc i8.toInt []]) (some .ld) []) ∧
     (∀ (d : Reg) (m : Option Mods), (Instr.gst d (.g a) i8 m).wf = true →
       let md := modsOf m
       let l := acc i8.toInt (leBytes md.size.bytes (s.runNat r d (dataRegs d md.size) 0))
       s.canReadUni r d (dataRegs d md.size) → (s.warp r).st < 63 → reach i8.toInt md.size.bytes →
       resolve s .store (s.actor r) (at' i8.toInt) md.size.bytes md.size.bytes = .ok refs →
       ∃ t, exec (.gst d (.g a) i8 m) s = .next t ∧
         Flies (s.touchAccs r true [l]) t r (s.flight r .store md 1 .none [l]) (some .st) [d]) ∧
     (∀ sd : Fin 16, s.pendingS r sd.val = false → reach (8 * i8.toInt) 8 →
       resolve s .load (s.actor r) (at' (8 * i8.toInt)) 8 8 = .ok refs →
       s.lostLanes r.core (s.flight r .sld setMods 1 (.setReg sd.val) [acc (8 * i8.toInt) []]) = [] →
       ∃ t, exec (.sld sd a i8) s = .next t ∧ Flies (s.touchAccs r false [acc (8 * i8.toInt) []]) t r
         (s.flight r .sld setMods 1 (.setReg sd.val) [acc (8 * i8.toInt) []]) none []) ∧
     (∀ (sd : Fin 16) (x : Members), s.pendingS r sd.val = false → s.intact r (.s sd.val) → reach (8 * i8.toInt) 8 →
       s.readSet r ((s.warp r).sreg sd.val) = .ok x →
       (s.warp r).st < 63 → resolve s .store (s.actor r) (at' (8 * i8.toInt)) 8 8 = .ok refs →
       let l := acc (8 * i8.toInt) (leBytes 8 ((s.warp r).sreg sd.val).toNat)
       ∃ t, exec (.sst sd a i8) s = .next t ∧ Flies ((s.touchAccs r true [l]).addRef r ((s.warp r).sreg sd.val)) t r
         (s.flight r .sst setMods 1 .none [l]) (some .st) []))

/-- R185, R192, R222, R224: a relaxed direct load of the quad SRAM window returns as a whole: each lane of its S that
loads takes the little-endian value of its bytes, extended, in the registers of its run, the access leaves flight and,
once the older loads have, its counter, and no byte of memory and no other register changes.

R185, R192, R221, R222: a relaxed direct store of one access to the quad SRAM window is performed as a whole: its data
stand in its bytes, every other byte is unchanged, and the access leaves flight and, once the older stores have, its
counter. The granules it writes carry the tag of its domain (one that carries another tag is zeroed first, R333).

Rests on the model's choices of log entries 34 (DESIGN CHOICE: which registers are held compressed (R24 leaves that to
the device): exactly those whose 32 lanes hold one value; the granularity of some counters: an access counts one L1
hit or miss for each line it names); 17 (DESIGN CHOICE: the bytes of one access, or its lanes where each is single-
copy atomic, may be performed one by one, as R195 admits, when the script names them; by default all that are left are
performed in one step, and so is an atomic group). -/
def Obligations.WindowAccessesComplete : Prop :=
  (∀ (core idx : Nat) (f : Flight) (d : Fin 192) (k : Nat) (s : State), (s.core core).flights[idx]? = some f →
     f.kind = .load → f.ref.core = core → f.ref.isSlice = false → f.order = .relaxed → f.rp = false → f.dest = .lanes (.v d) k →
     (∀ l ∈ f.lanes, ∀ b ∈ l.refs, b.cached = false ∧ b.stamp = 0 ∧ paSpace b.pa = 2) →
     (∀ i, i < k → (s.land f).pendingV f.ref (d.val + i) = false) → s.loadMay core f = true → f.got = [] → s.lostLanes core f = [] →
     ∃ t, exec (.loadReturn core ⟨idx, none⟩) s = .next t ∧
       (∀ n : Fin 192, ∀ j, j < 32 → rowGet ((t.warp f.ref).vreg n.val) j =
         match placeIn (.v d) k n with
         | some i => if f.mask.getLsbD j = true then word32 (((f.lanes.find? fun l => decide (l.lane = j)).map
             fun l => f.extend (ofLe (l.refs.map s.ownRead))).getD 0) i else rowGet ((s.warp f.ref).vreg n.val) j
         | none => rowGet ((s.warp f.ref).vreg n.val) j) ∧
       t.warp f.ref = { (s.leave f.ref .ld f.seqNo).warp f.ref with v := (t.warp f.ref).v, bad := (t.warp f.ref).bad } ∧
       (∀ b, b ∈ (t.warp f.ref).bad ↔ b ∈ (s.warp f.ref).bad ∧
         ∀ n : Fin 192, (placeIn (.v d) k n).isSome → ∀ j, f.mask.getLsbD j = true → b ≠ .v n.val j) ∧
       (∀ r', r' ≠ f.ref → t.warp r' = s.warp r') ∧
       (t.core core).flights = (s.core core).flights.filter (fun g => decide (g ≠ f)) ∧
       (∀ n c, (t.dom n).counter c = if n = s.domOf f.ref ∧ c = 6 ∧ (s.dom n).stop = false
         then (s.dom n).counter 6 + BitVec.ofNat 64 ((List.range k).filter fun i => expands f.mask ((s.warp f.ref).vreg (d.val + i))).length
         else (s.dom n).counter c) ∧
       (∀ pa, t.physRead pa = s.physRead pa) ∧ t = { s with cores := t.cores, domains := t.domains }) ∧
  (∀ (core idx : Nat) (f : Flight) (l : LaneAcc) (s : State), (s.core core).flights[idx]? = some f →
     f.kind = .store → f.ref.core = core → f.ref.isSlice = false → f.order = .relaxed → f.rp = false → f.lanes = [l] →
     (∀ b ∈ l.refs, b.cached = false ∧ b.stamp = 0 ∧ paSpace b.pa = 2 ∧ s.tagOf b.pa = (b.dom, b.epoch)) →
     l.data.length = l.refs.length → (l.refs.map (·.pa)).Nodup → s.storeMay core f = true → f.got = [] →
     ∃ t, exec (.storePerformed core ⟨idx, none⟩) s = .next t ∧
       (∀ i (h : i < l.refs.length), t.physRead (l.refs[i].pa) = l.data.getD i 0) ∧
       (∀ pa, (∀ b ∈ l.refs, b.pa ≠ pa) → t.physRead pa = s.physRead pa) ∧
       (∀ r', (t.warp r').v = (s.warp r').v ∧ (t.warp r').g = (s.warp r').g ∧ (t.warp r').pc = (s.warp r').pc) ∧
       (t.warp f.ref).stOps = ((s.leave f.ref .st f.seqNo).warp f.ref).stOps ∧
       (t.core core).flights = (s.core core).flights.filter (fun g => decide (g ≠ f)) ∧
       t.bad = (s.heal l.refs).bad ∧ t = { s with cores := t.cores, mem := t.mem, bad := t.bad })

/-- R195, R221, R222, R226, R229, R284, R314, R366: the events that complete accesses of every kind, as the model's
operations give them: a load, POLL or set load takes its value and leaves, an atomic whose groups are all served
returns the old values once a queue register has room for its row, and a store is performed; before that a part of a
load or store may be performed by itself, a byte, or a lane that is single-copy atomic, as a set load or store is; one
that may not be performed yet is left as it is; and a load that meets a lost byte traps with DATA_LOST.

R336, R338: a translation used is held by both TLBs, and the walker marks its table entry, in the byte behind its
first: the accessed bit, and for a store the dirty bit too, when no TLB held the entry, or at a store's first use of
it. An address that needs no walk changes nothing. The translations of several addresses are used page by page. No
other byte of memory changes, and no register, tag or domain does.

Rests on the model's choice of log entry 17 (DESIGN CHOICE: the bytes of one access, or its lanes where each is
single-copy atomic, may be performed one by one, as R195 admits, when the script names them; by default all that are
left are performed in one step, and so is an atomic group). Rests on the model's reading of log entry 115 (DEDUCED: a
load or atomic in flight whose bytes are lost after its issue: R366 has a precise trap on the instruction that needed
the value, before any effect, and R355 takes precise as before any effect of the trapping instruction; the model traps
at the access's own address as it would be performed, with no register or byte written by it, and what later
instructions of the warp did stands). -/
def Obligations.AccessesComplete : Prop :=
  (∀ (core idx : Nat) (f : Flight) (s : State), (s.core core).flights[idx]? = some f →
     let lost : Bool := f.kind.loads && s.flightReady core f && decide (s.lostLanes core f ≠ [])
     (lost = true → ∀ part, exec (.loadReturn core ⟨idx, part⟩) s = .next (s.loseFlight f (s.lostLanes core f))) ∧
     (lost = false → s.loadMay core f = true → exec (.loadReturn core ⟨idx, none⟩) s = .next (s.completeLoad core f)) ∧
     (f.kind = .atom → f.noret = false → f.left = 0 → s.destRoom f = true → exec (.loadReturn core ⟨idx, none⟩) s = .next (s.completeAtom core f)) ∧
     (lost = false → s.loadMay core f = false → f.kind ≠ .atom → exec (.loadReturn core ⟨idx, none⟩) s = .next s) ∧
     (∀ k b, lost = false → f.partAt k = some b → f.kind.loads = true → s.flightReady core f = true →
       Tab.get none f.got k = none → exec (.loadReturn core ⟨idx, some k⟩) s = .next (s.takePart core f k)) ∧
     (s.storeMay core f = true → exec (.storePerformed core ⟨idx, none⟩) s = .next (s.completeStore core f)) ∧
     (∀ k b, s.storeMay core f = true → f.partAt k = some b → Tab.get none f.got k = none →
       exec (.storePerformed core ⟨idx, some k⟩) s = .next (s.storePart core f k)) ∧
     (∀ k, (f.kind = .sld ∨ f.kind = .sst) → ∀ p ∈ f.places, p.1 / 16 = k / 16 → p ∈ f.together k) ∧
     (s.storeMay core f = false → ∀ part, exec (.storePerformed core ⟨idx, part⟩) s = .next s)) ∧
  (∀ (a : Actor) (store : Bool) (s : State),
     let mark : Byte := if store then 3#8 else 1#8
     (∀ va e, (bitsOf va 55 53 = 0 ∨ bitsOf va 55 53 = 1 ∨ bitsOf va 55 53 = 4) → s.translate a.core a.dom va = .ok e →
       let t := s.touch a store va
       let first : Prop := (e ∉ (s.core a.core).tlb ∧ e ∉ (s.quad (quadOf a.core)).tlb) ∨ (store = true ∧ e.dirty = false)
       (first → t.physRead (e.pte + 1) = s.physRead (e.pte + 1) ||| mark) ∧ (¬first → t.physRead (e.pte + 1) = s.physRead (e.pte + 1)) ∧
         (∀ pa, pa ≠ e.pte + 1 → t.physRead pa = s.physRead pa) ∧
         { e with dirty := e.dirty || store } ∈ (t.core a.core).tlb ∧ { e with dirty := e.dirty || store } ∈ (t.quad (quadOf a.core)).tlb) ∧
     (∀ va, ¬(bitsOf va 55 53 = 0 ∨ bitsOf va 55 53 = 1 ∨ bitsOf va 55 53 = 4) → s.touch a store va = s) ∧
     (∀ va c, s.translate a.core a.dom va = .error c → s.touch a store va = s) ∧
     ∀ vas : List Nat,
       let pages := distinct (vas.map (· / 65536))
       let upTo (i : Nat) : State := (pages.take i).foldl (fun t p => t.touch a store (p * 65536)) s
       let t := s.touchAll a store vas
       (∀ pa, t.physRead pa = s.physRead pa ∨ ∃ i e, i < pages.length ∧
         (upTo i).translate a.core a.dom (pages.getD i 0 * 65536) = .ok e ∧ pa = e.pte + 1 ∧ t.physRead pa = s.physRead pa ||| mark) ∧
       (∀ c, t.core c = { s.core c with tlb := (t.core c).tlb }) ∧ (∀ q, t.quad q = { s.quad q with tlb := (t.quad q).tlb }) ∧
       t = { s with mem := t.mem, cores := t.cores, quads := t.quads })

/-- R218 to R220, R228 to R231: an atomic whose lanes all pass enters flight and is counted, in `st` when it returns
nothing, and sends one request for each location to its atomic service warp, in the order of the locations' first
lanes. A relaxed floating sum of a deterministic launch adds its lanes' terms to the workgroup's partials instead, and
leaves its counter behind the older operations of the class.

R195, R229, R230, R364 to R366: MITTEN_SERVE performs the request that a Mitten has begun, or else the first of its
queue that may be performed, and none when none may: the whole of it, or its next lane alone; one whose location is
lost traps with DATA_LOST. A request repeated after a lost reply is answered from its record and only counted.

R46, R229: an atomic service warp performs the lanes of a request in order: each lane's old value is what the lanes
before it left, and memory takes what the last one leaves.

Rests on the model's choice of log entry 17 (DESIGN CHOICE: the bytes of one access, or its lanes where each is
single-copy atomic, may be performed one by one, as R195 admits, when the script names them; by default all that are
left are performed in one step, and so is an atomic group). Rests on the model's reading of log entry 115 (DEDUCED: a
load or atomic in flight whose bytes are lost after its issue: R366 has a precise trap on the instruction that needed
the value, before any effect, and R355 takes precise as before any effect of the trapping instruction; the model traps
at the access's own address as it would be performed, with no register or byte written by it, and what later
instructions of the warp did stands). -/
def Obligations.AtomicsIssueAndAreServed : Prop :=
  (∀ (op : AtomOp) (d a : Reg) (m : Option Mods) (refs : Nat → List BRef) (s : State) (r : Ref), (Instr.atom op d a m).wf = true →
     s.warpRuns r → s.applied r ≠ 0 → s.canReadRun r a 2 → s.canReadRun r d (op.regs (modsOf m).size) →
     let md := modsOf m
     let n := md.size.bytes
     let c : Ctr := if md.noret then .st else .ld
     let ea := s.eaOf r a 0
     let ls := s.accs r ea refs fun _ => []
     let val (j : Nat) : Nat := s.runNat r d (op.regs md.size) j
     (s.warp r).ctr c < 63 → s.lanesPass r .atomic n ea refs →
     (op = .fadd → (s.wgOf r).det = true → md.order = .relaxed →
       (s.wgOf r).partials.length + (newPartials (s.wgOf r) r.index ls).length ≤ Config.partialTable →
       let sum := addPartials r.index (fun j => val j % 2 ^ (8 * n)) ls (s.wgOf r).partials
       let s1 := (s.touchAccs r true ls).modWgOf r fun w => { w with partials := sum.2 }
       (md.noret = true → exec (.atom op d a m) s = .next ((s1.passThrough r .st).retire r)) ∧
       (∀ t, md.noret = false → s1.putRun r d (s.applied r) (rowsOf 1 fun j => Sys2Proof.Machine.laneVal sum.1 0 j) = .ok t →
         exec (.atom op d a m) s = .next ((t.passThrough r .ld).retire r))) ∧
     (¬(op = .fadd ∧ (s.wgOf r).det = true) → s.mittenRoom (atomGroups ls) = true →
     let f : Flight := { s.flight r .atom md (s.applied r) (if md.noret then .none else .lanes d md.size.regs) ls with left := (atomGroups ls).length }
     s.lostLanes r.core f = [] →
     exec (.atom op d a m) s = .next (((atomGroups ls).foldl
       (fun t g => t.sendAtom r op n s.nextIssue (fun j => (val j % 2 ^ (8 * n), val j / 2 ^ (8 * n))) g)
       (((s.touchAccs r true ls).enter r c).fly f)).retire r))) ∧
  (∀ (quad : Nat) (s : State), quad < 64 →
     (∀ q, s.nextServed quad = some q →
       ((s.flightOf q = none ∨ ∀ b ∈ q.refs, s.badAt b = false) →
         exec (.mittenServe quad) s = .next (s.serveAtom quad q) ∧ exec (.mittenServe (64 + quad)) s = .next (s.serveLane quad q)) ∧
       (∀ f b, s.flightOf q = some f → b ∈ q.refs → s.badAt b = true →
         exec (.mittenServe quad) s = .next (s.loseAtom f q) ∧ exec (.mittenServe (64 + quad)) s = .next (s.loseAtom f q))) ∧
     (s.nextServed quad = none → exec (.mittenServe quad) s = .next s ∧ exec (.mittenServe (64 + quad)) s = .next s) ∧
     (∀ q ∈ (s.quad quad).mitten, q.served ≠ [] → (∀ p ∈ (s.quad quad).mitten, p.served ≠ [] → p = q) → s.nextServed quad = none ∨ s.nextServed quad = some q) ∧
     (∀ idx x, (s.quad quad).results[idx]? = some x →
       ∃ t, exec (.atomicRequestRepeat quad idx) s = .next t ∧ t = { s with domains := t.domains } ∧
         (∀ d k, Tab.get 0 (t.dom d).counters k = if d = s.domOf x.ref ∧ k = 12 ∧ (s.dom d).stop = false
           then Tab.get 0 (s.dom d).counters k + 1 else Tab.get 0 (s.dom d).counters k))) ∧
  (∀ (op : AtomOp) (n mem : Nat) (xs : List (Nat × DWord × DWord)),
     let after (ys : List (Nat × DWord × DWord)) : Nat := ys.foldl (fun v y => atomNew op n v y.2.1.toNat y.2.2.toNat) mem
     serveLanes op n mem xs = ((List.range xs.length).map (fun i => ((xs.getD i (0, 0, 0)).1, BitVec.ofNat 64 (after (xs.take i)))), after xs))

/-- R36, R212, R234: CLKIV writes the earliest and the latest bound of the issuing die's interval to a uniform quadruple,
low words first, and the latest bound counts as reported. Without an order log nothing else changes.

R341, R378: TIME writes guest time to its uniform pair, low word first; a value never lies below one the domain has
seen. Nothing else changes but the domain's last guest time. (Without an order log.)

R212, R395: a beacon from the fabric that places pod time in [lo, hi] narrows the interval of its die, and never takes
the latest bound below one that the die has reported; in host mode a write of the beacon register does so on every die
and sends one report of that interval on each fabric port that is up. A KY-1S takes none from the fabric, nor does a
package with no port up.

Rests on the model's choices of log entries 71 (DESIGN CHOICE: the interval is read modulo 2^64); 110 (DESIGN CHOICE:
when a route to another package is live (R394 names routes and gives them no form): when any fabric port of the
package is up). -/
def Obligations.ClocksAndBeacons : Prop :=
  (∀ (d : Fin 12) (s : State) (r : Ref), s.warpRuns r → (s.wgOf r).log = .off → (∀ i, i < 4 → s.pendingG r (4 * d.val + i) = false) →
     let x := s.interval (dieOf r.core)
     ∃ t, exec (.clkiv d) s = .next t ∧ RegsDone (s.report (dieOf r.core)) t r [] (s.nextPc r) fun n =>
       if n.val = 4 * d.val then some (word32 x.1 0) else if n.val = 4 * d.val + 1 then some (word32 x.1 1)
       else if n.val = 4 * d.val + 2 then some (word32 x.2 0) else if n.val = 4 * d.val + 3 then some (word32 x.2 1) else none) ∧
  (∀ (d : Fin 48) (s : State) (r : Ref), s.warpRuns r → (s.wgOf r).log = .off → s.pendingG r d.val = false →
     s.pendingG r (d.val + 1) = false →
     let x := s.guest (s.domOf r)
     (s.dom (s.domOf r)).lastTime.toNat ≤ x.toNat ∧
     ∃ t, exec (.time d) s = .next t ∧ (t.dom (s.domOf r)).lastTime = x ∧
       RegsDone s t r [] (s.nextPc r) fun n => if n.val = d.val then some (lo32 x) else if n.val = d.val + 1 then some (hi32 x) else none) ∧
  (∀ (s : State),
     (s.fabricBeacons = true ↔ s.bcnsrc = false ∧ s.part ≠ .ky1s ∧ s.routed = true) ∧
     (∀ die lo hi, s.fabricBeacons = true → die < s.dieCount → lo ≤ hi → ∃ t, exec (.beaconArrival die lo hi) s = .next t ∧
       t.interval die = (max (s.interval die).1 lo, max (min (s.interval die).2 hi) (s.die die).lantern.floor_) ∧
       (∀ d, d ≠ die → t.die d = s.die d) ∧ t = { s with dies := t.dies }) ∧
     (∀ x : DWord, s.bcnsrc = true → ∃ t, exec (.hbeacon x) s = .next t ∧ t.hbeacon = x ∧
       (∀ d, d < s.dieCount → t.interval d = (max (s.interval d).1 (x.toNat - s.hbeaconu.toNat),
         max (min (s.interval d).2 (min (x.toNat + s.hbeaconu.toNat) (2 ^ 64 - 1))) (s.die d).lantern.floor_)) ∧
       (∀ d, s.dieCount ≤ d → t.die d = s.die d) ∧
       t.beaconsOut = s.beaconsOut ++ ((List.range s.dieCount).flatMap fun d => (s.die d).ports.filter fun p => p.2.up).map
         (fun _ => (x.toNat - s.hbeaconu.toNat, min (x.toNat + s.hbeaconu.toNat) (2 ^ 64 - 1))) ∧
       t = { s with dies := t.dies, hbeacon := x, beaconsOut := t.beaconsOut }) ∧
     (∀ die lo hi, s.fabricBeacons = false → exec (.beaconArrival die lo hi) s = .next s) ∧
     (∀ x : DWord, s.bcnsrc = false → exec (.hbeacon x) s = .next { s with hbeacon := x }))

/-- R214, R232: a stamped store takes the latest bound of its die as its stamp, writes it to its uniform pair and to the
warp's last stamp, and forms one version for each line its lanes hit; with S empty it forms none and enters no
counter. An interval wider than the die's bound traps with CLOCK_WIDE and has no effect. (Without an order log.)

R214: a version on its way is installed at its line when it arrives before the earliest bound of the line's die
reaches its stamp and W, and is discarded otherwise; an installed one becomes visible when that bound is reached, and
leaves. A version waits for the older accesses that go before it and for a quiesced vault.

Rests on the model's choice of log entry 71 (DESIGN CHOICE: the interval is read modulo 2^64). -/
def Obligations.StampedVersions : Prop :=
  (∀ (d a : Reg) (b : Fin 48) (m : Option Mods) (refs : Nat → List BRef) (s : State) (r : Ref),
     (Instr.sts d a (.g b) m).wf = true → s.warpRuns r → (s.wgOf r).log = .off → s.canReadRun r a 2 →
     s.canReadRun r d (dataRegs d (modsOf m).size) → s.pendingG r b.val = false → s.pendingG r (b.val + 1) = false →
     let n := (modsOf m).size.bytes
     let stamp := (s.interval (dieOf r.core)).2 % 2 ^ 64
     let took (u : State) : State := ((u.putPair r b.val (BitVec.ofNat 64 stamp)).modWarp r fun w => { w with laststamp := BitVec.ofNat 64 stamp }).retire r
     (s.clockWide (dieOf r.core) = false → s.applied r = 0 →
       exec (.sts d a (.g b) m) s = .next (took (s.report (dieOf r.core)))) ∧
     (s.clockWide (dieOf r.core) = false → s.applied r ≠ 0 → (s.warp r).st < 63 → s.lanesPass r .stampStore n (s.eaOf r a 0) refs →
       let ls := s.accs r (s.eaOf r a 0) refs fun j => leBytes n (s.runNat r d (dataRegs d (modsOf m).size) j)
       exec (.sts d a (.g b) m) s = .next (took
         (((((s.touchAccs r true ls).consume r [d]).report (dieOf r.core)).enter r .st).formVersions r stamp ls))) ∧
     (s.clockWide (dieOf r.core) = true → (s.applied r = 0 ∨ (s.warp r).st < 63) →
       exec (.sts d a (.g b) m) s = .next (s.takeTrap r (Trap.of .clockWide)))) ∧
  (∀ (idx : Nat) (p : Pending) (s : State), s.pending[idx]? = some p → p.dropped = false →
     let free : Prop := s.heldFor p.seqNo (p.line * 64) = false ∧ s.inOrder p.ref.core p.access = true
     (p.arrived = false → free → s.clockReached (dieOfLine p.line) p.stamp = false → ∃ t, exec (.stampVersionArrive idx) s = .next t ∧
       Tab.get [] t.stamped p.line = installVersion p.limit (s.versions p.lineRef) p ∧
       (∀ l, l ≠ p.line → Tab.get [] t.stamped l = Tab.get [] s.stamped l) ∧
       t.pending = setAt s.pending idx { p with arrived := true }) ∧
     (p.arrived = false → free → s.clockReached (dieOfLine p.line) p.stamp = true →
       exec (.stampVersionArrive idx) s = .next (({ s with pending := setAt s.pending idx { p with dropped := true } } : State).drainSt p.ref)) ∧
     (p.arrived = false → ¬free → exec (.stampVersionArrive idx) s = .next s) ∧
     (p.arrived = true → s.held (p.line * 64) = false → s.clockReached (dieOfLine p.line) p.stamp = true → ∃ t, exec (.stampVersionVisible idx) s = .next t ∧
       Tab.get [] t.stamped p.line = markVisible (Tab.get [] s.stamped p.line) p ∧
       (∀ l, l ≠ p.line → Tab.get [] t.stamped l = Tab.get [] s.stamped l) ∧
       t.pending = dropAt s.pending idx ∧ (∀ pa, t.physRead pa = s.physRead pa)) ∧
     (p.arrived = true → (s.held (p.line * 64) = true ∨ s.clockReached (dieOfLine p.line) p.stamp = false) → exec (.stampVersionVisible idx) s = .next s))

/-- R214, R216, R222, R233: an as-of load is counted and handed to the vault controllers with its stamp, and its warp
issues nothing until it is answered: the program counter stays at it. With S empty it retires.

R216: a lane of an as-of load is answered once the earliest bound of its line's die reaches the stamp and W, and until
then nothing happens. With the last answer the load completes: the warp goes on, its back-off level cleared, with each
lane's bytes of the newest retained version, or takes STAMP_EXPIRED when a lane's line retains none. The last answer
of a load that fills a queue register waits for room there (R113). -/
def Obligations.AsOfLoads : Prop :=
  (∀ (d a : Reg) (b : Fin 48) (m : Option Mods) (refs : Nat → List BRef) (s : State) (r : Ref),
     (Instr.ldas d a (.g b) m).wf = true → s.warpRuns r → s.canReadRun r a 2 → s.canAwait r d (dataRegs d (modsOf m).size) →
     (s.applied r = 0 → exec (.ldas d a (.g b) m) s = .next (s.retire r)) ∧
     (s.applied r ≠ 0 → s.canReadUni r (.g b) 2 → (s.warp r).ld < 63 → s.clockWide (dieOf r.core) = false →
       s.lanesPass r .stampLoad (modsOf m).size.bytes (s.eaOf r a 0) refs →
       let ls := s.accs r (s.eaOf r a 0) refs fun _ => []
       s.lostLanes r.core (Flight.bare r .load s.nextIssue (s.pcOf r) ls) = [] →
       ∃ t, exec (.ldas d a (.g b) m) s = .next t ∧ t.last = .held ∧ t.pcOf r = s.pcOf r ∧
         (t.core r.core).ldas = (s.core r.core).ldas ++ [{ ref := r, seqNo := s.nextIssue, t := (pair64 (s.greg r b.val) (s.greg r (b.val + 1))).toNat, dest := d, size := (modsOf m).size.bytes, pc := s.pcOf r, next := s.nextPc r, mask := s.applied r, lanes := ls, got := [] }] ∧
         t.nextIssue = s.nextIssue + 1 ∧
         (t.warp r).ld = (s.warp r).ld + 1 ∧ (t.warp r).v = (s.warp r).v ∧ (t.warp r).g = (s.warp r).g ∧
         (∀ r', r' ≠ r → t.warp r' = s.warp r') ∧ (∀ pa, t.physRead pa = (s.touchAccs r false ls).physRead pa))) ∧
  (∀ (core set warp lane : Nat) (o : LdasOp) (l : LaneAcc) (s : State),
     (s.core core).ldas.find? (fun o => decide (o.ref = { core := core, set := set, who := .warp warp })) = some o →
     o.open_.find? (fun l => decide (l.lane = lane)) = some l →
     let o1 : LdasOp := { o with got := o.got ++ [(lane, s.laneAsOf o.t l)] }
     let s1 : State := s.modCore core fun c => { c with ldas := c.ldas.map fun x => if x = o then o1 else x }
     (s.ldasMay o l = false → exec (.ldasAnswer core set ⟨warp, lane⟩) s = .next s) ∧
     (s.ldasMay o l = true → o1.open_ ≠ [] → exec (.ldasAnswer core set ⟨warp, lane⟩) s = .next s1) ∧
     (s.ldasMay o l = true → o1.open_ = [] → o1.expired ≠ [] → exec (.ldasAnswer core set ⟨warp, lane⟩) s = .next (s1.answerLdas o1)) ∧
     (s.ldasMay o l = true → o1.open_ = [] → o1.expired = [] → s.destRoom o1.fills = true →
       exec (.ldasAnswer core set ⟨warp, lane⟩) s = .next (s1.answerLdas o1) ∧
         ((s1.answerLdas o1).warp o.ref).level = 0 ∧ (s1.answerLdas o1).pcOf o.ref = o.next) ∧
     (s.ldasMay o l = true → o1.open_ = [] → o1.expired = [] → s.destRoom o1.fills = false → exec (.ldasAnswer core set ⟨warp, lane⟩) s = .next s) ∧
     (∀ m ∈ o.lanes, s.ldasMay o l = true → o1.open_ = [] → (m.lane, none) ∈ o1.got →
       ∃ x u, exec (.ldasAnswer core set ⟨warp, lane⟩) s = .next (State.takeTrap u o.ref x) ∧ Cause.stampExpired ∈ x.causes))

/-- R189, R190, R237: BARINIT of an object that holds none sets its expected and pending counts to `u(b)`, its bytes and
phase to 0 and its flags to 1, and tags its 16 bytes. No other byte and no register changes.

R189, R238, R239: ARRIVE posts its expected bytes and takes one from the pending count. When nothing is pending then
and no byte is outstanding, the phase moves on, the expected count is pending again, and every warp parked on the
object runs; otherwise no other warp changes. (The issuing domain holds no dirty bytes in the core's L1.)

R189, R220, R237, R238: where BARINIT and ARRIVE trap: outside the window with SPACE, unaligned with MISALIGN, outside
the allocation with QSRAM_BOUND; a count out of range, a negative post or an arrival too many with BAR_OVERFLOW; an
uninitialised object with BARRIER_CLOBBER, and a buffer's barrier with CB_MISUSE. The trap names the address and
nothing changes before it.

R207, R237: a BARINIT of an object that holds a barrier is a release, moves its phase on and wakes every waiter.

Rests on the model's choice of log entry 16 (DESIGN CHOICE: when within its span an acquire discards clean L1 bytes
and a release writes back dirty ones: at its completion, and once the warp's earlier accesses have all completed). -/
def Obligations.BarrierObjects : Prop :=
  (∀ (a : Fin 48) (b : Reg) (off : Nat) (s : State) (r : Ref), b.isUniSrc = true → s.warpRuns r → s.canReadUni r (.g a) 2 →
     s.canReadUni r b 1 → s.objOk r (s.pairOf r a) 16 off → s.quietAt r off 16 = true →
     1 ≤ (s.uniRead r b).toNat → (s.uniRead r b).toNat ≤ 65535 → (s.bar r.core r.set off).flags.testBit 0 = false →
     ∃ t, exec (.barinit a b) s = .next t ∧
       t.bar r.core r.set off = { expected := (s.uniRead r b).toNat, pending := (s.uniRead r b).toNat, bytes := 0, phase := 0, flags := 1 } ∧
       (t.wgOf r).tagged off = true ∧ ObjectOnly s t r off ∧ GoesOn s t r) ∧
  (∀ (a : Fin 48) (b : Reg) (off : Nat) (s : State) (r : Ref), b.isUniSrc = true → s.warpRuns r → s.canReadUni r (.g a) 2 →
     s.canReadUni r b 1 → s.objOk r (s.pairOf r a) 16 off → s.quiet r = true →
     (∀ l ∈ (s.core r.core).l1, l.dom = s.domOf r → l.dirty = 0) →
     let o := s.bar r.core r.set off
     let x := (s.uniRead r b).toInt
     o.flags.testBit 0 = true → o.flags.testBit 2 = false → 0 ≤ x → o.pending ≠ 0 → o.bytes + x ≤ 2 ^ 31 - 1 →
     (¬(o.pending = 1 ∧ o.bytes + x = 0) → ∃ t, exec (.arrive a b) s = .next t ∧
       t.bar r.core r.set off = { o with bytes := o.bytes + x, pending := o.pending - 1 } ∧ ObjectOnly s t r off ∧ GoesOn s t r) ∧
     (o.pending = 1 → o.bytes + x = 0 → ∃ t, exec (.arrive a b) s = .next t ∧
       t.bar r.core r.set off = { o with bytes := 0, pending := o.expected, phase := o.phase + 1, flags := clearBit o.flags 1 } ∧
       ObjectOnly s t r off ∧ t.last = .retired ∧ t.pcOf r = s.nextPc r ∧
       (∀ k p, (s.warpAt r.core r.set k).status = .parked (.waitph off p) → (s.warpAt r.core r.set k).pin = none →
         (s.warpAt r.core r.set k).swapDue = false → (t.warpAt r.core r.set k).status = .running) ∧
       ∀ r', (t.warp r').v = (s.warp r').v ∧ (t.warp r').g = (s.warp r').g)) ∧
  (∀ (a : Fin 48) (b : Reg) (s : State) (r : Ref), b.isUniSrc = true → s.warpRuns r → s.canReadUni r (.g a) 2 → s.canReadUni r b 1 →
     let x := s.pairOf r a
     let fail (c : Cause) : Out := .next (s.takeTrap r (failTrap true [{ lane := 0, cause := c, addr := x, addr2 := none, aux := 0 }]))
     (inWindow x = false → exec (.barinit a b) s = fail .space ∧ exec (.arrive a b) s = fail .space) ∧
     (inWindow x = true → winOff x % 16 ≠ 0 → exec (.barinit a b) s = fail .misalign ∧ exec (.arrive a b) s = fail .misalign) ∧
     (inWindow x = true → winOff x % 16 = 0 → (s.wgOf r).qsram < winOff x + 16 →
       exec (.barinit a b) s = fail .qsramBound ∧ exec (.arrive a b) s = fail .qsramBound) ∧
     (∀ off, s.objOk r x 16 off →
       ((s.uniRead r b).toNat = 0 ∨ 65535 < (s.uniRead r b).toNat →
         exec (.barinit a b) s = .next (s.takeTrap r (Trap.of .barOverflow))) ∧
       (s.quietAt r off 16 = true →
         let o := s.bar r.core r.set off
         (o.flags.testBit 0 = false → exec (.arrive a b) s = fail .barrierClobber) ∧
         (o.flags.testBit 0 = true → o.flags.testBit 2 = true → exec (.arrive a b) s = fail .cbMisuse) ∧
         (o.flags.testBit 0 = true → o.flags.testBit 2 = false →
           ((s.uniRead r b).toInt < 0 ∨ o.pending = 0 ∨ 2 ^ 31 - 1 < o.bytes + (s.uniRead r b).toInt) →
           exec (.arrive a b) s = fail .barOverflow)))) ∧
  (∀ (a : Fin 48) (b : Reg) (off : Nat) (s : State) (r : Ref), b.isUniSrc = true → s.warpRuns r → s.canReadUni r (.g a) 2 →
     s.canReadUni r b 1 → s.objOk r (s.pairOf r a) 16 off → s.quiet r = true →
     1 ≤ (s.uniRead r b).toNat → (s.uniRead r b).toNat ≤ 65535 → (s.bar r.core r.set off).flags.testBit 0 = true →
     s.dirtyHeld r.core (s.domOf r) = false →
     let n := (s.uniRead r b).toNat
     let new : Bar := { expected := n, pending := n, bytes := 0, phase := (s.bar r.core r.set off).phase + 1, flags := 1 }
     exec (.barinit a b) s = .next ((((((s.writeBackAll r.core (s.domOf r)).consume r [b]).setBar r.core r.set off new).tagWords
       r.core r.set off 1).wakeBar r.core r.set off).retire r))

/-- R207, R240, R268, R302, R324: WAITPH passes when the phase differs from `u(b)` and JOIN when it has reached it; then
the acquire takes its place between the older and the later accesses, the clean bytes of the core's L1 are discarded
and the warp goes on: exec answers a next state for both. Otherwise the object's waiters bit is set and the warp is
parked at the wait, to be swapped out at once with `.swap`; every warp keeps its registers, and no queue register is
read. An uninitialised object traps with BARRIER_CLOBBER.

R188, R250 to R253: exec answers a next state for CBINIT, CBACQ and CBREL. CBINIT writes the slot count, clears the
buffer's positions, makes both its barriers its members, and tags the descriptor; a count out of range, barriers that
are one, overlap the buffer or have waiters, and a copy in progress trap with CB_MISUSE, a bad field with its cause.
CBACQ passes as an acquire when enough slots are filled and parks the warp otherwise. CBREL frees slots as a release.
Both trap with CB_MISUSE on a buffer that CBINIT has not set up, CBACQ on a count outside 1 to the slots, CBREL on one
outside 1 to the filled slots.

Rests on the model's choice of log entry 16 (DESIGN CHOICE: when within its span an acquire discards clean L1 bytes
and a release writes back dirty ones: at its completion, and once the warp's earlier accesses have all completed). -/
def Obligations.PhaseAndSlotWaits : Prop :=
  (∀ (a : Fin 48) (b : Reg) (swap : Option Bool) (off : Nat) (s : State) (r : Ref), b.isUniSrc = true → s.warpRuns r →
     s.canReadUni r (.g a) 2 → s.canReadUni r b 1 → s.objOk r (s.pairOf r a) 16 off → s.quietAt r off 16 = true →
     let o := s.bar r.core r.set off
     let u := s.uniRead r b
     let parks (i : Instr) (w : Wait) : Prop := ∃ t, exec i s = .next t ∧ t.last = .held ∧
       (t.warp r).status = .parked w ∧ (t.warp r).swapDue = swap.getD false ∧ (t.warp r).pc = (s.warp r).pc ∧
       (t.warp r).v = (s.warp r).v ∧ (t.warp r).g = (s.warp r).g ∧ (t.warp r).sets = (s.warp r).sets ∧
       (∀ r', r' ≠ r → t.warp r' = { s.warp r' with hit := (t.warp r').hit }) ∧
       (∀ q : Fin 8, ((t.wgOf r).queue q.val).rows = ((s.wgOf r).queue q.val).rows) ∧
       t.bar r.core r.set off = { o with flags := raiseBit o.flags 1 } ∧ ObjectOnly s t r off
     (o.flags.testBit 0 = true →
       (o.phase ≠ u → ∃ t, exec (.waitph a b swap) s = .next t ∧ RegsDone ((s.separate r).discardClean r.core) t r [b] (s.nextPc r) fun _ => none) ∧
       (o.phase = u → parks (.waitph a b swap) (.waitph off u)) ∧
       ((o.phase - u).toNat < 2 ^ 31 → ∃ t, exec (.join a b swap) s = .next t ∧ RegsDone ((s.separate r).discardClean r.core) t r [b] (s.nextPc r) fun _ => none) ∧
       (2 ^ 31 ≤ (o.phase - u).toNat → parks (.join a b swap) (.join off u))) ∧
     (o.flags.testBit 0 = false → ∀ i ∈ [Instr.waitph a b swap, .join a b swap], exec i s =
       .next (s.takeTrap r (failTrap true [{ lane := 0, cause := .barrierClobber, addr := s.pairOf r a, addr2 := none, aux := 0 }])))) ∧
  (∀ (a : Fin 48) (b : Reg) (d : Nat) (s : State) (r : Ref), b.isUniSrc = true → s.warpRuns r → s.canReadUni r (.g a) 2 →
     s.canReadUni r b 1 → s.objOk r (s.pairOf r a) 32 d → s.quiet r = true →
     let n := (s.uniRead r b).toNat
     let x := s.cb r.core r.set d
     let zero : Bar := { expected := 0, pending := 0, bytes := 0, phase := 0, flags := 5 }
     let misuse : Out := .next (s.takeTrap r (Trap.of .cbMisuse))
     (1 ≤ n → n ≤ 65535 → s.cbFields r.core r.set x n = none → x.fill ≠ x.free →
       (∀ o ∈ [x.fill, x.free], rangesMeet o 16 x.base (n * x.slotbytes) = false ∧ rangesMeet o 16 d 32 = false ∧
         (s.bar r.core r.set o).flags.testBit 1 = false) →
       (∀ o ∈ (s.core r.core).cpops, o.ref.set = r.set → o.intoCb d = false) →
       exec (.cbinit a b) s = .next ((((((s.consume r [b]).winWrite r.core r.set (d + 8) 2 n).winWrite r.core r.set (d + 20) 8 0).setBar
         r.core r.set x.fill zero).setBar r.core r.set x.free zero).tagWords r.core r.set d 2 |>.retire r)) ∧
     (n = 0 ∨ 65535 < n → exec (.cbinit a b) s = misuse) ∧
     (∀ c, 1 ≤ n → n ≤ 65535 → s.cbFields r.core r.set x n = some c → exec (.cbinit a b) s = .next (s.takeTrap r (Trap.of c))) ∧
     (1 ≤ n → n ≤ 65535 → s.cbFields r.core r.set x n = none →
       (x.fill = x.free ∨ (∃ o ∈ [x.fill, x.free], rangesMeet o 16 x.base (n * x.slotbytes) = true ∨ rangesMeet o 16 d 32 = true ∨
         (s.bar r.core r.set o).flags.testBit 1 = true) ∨ ∃ o ∈ (s.core r.core).cpops, o.ref.set = r.set ∧ o.intoCb d = true) →
       exec (.cbinit a b) s = misuse) ∧
     (s.cbReady r.core r.set d = true → n = 0 ∨ x.slots < n → ∀ swap, exec (.cbacq a b swap) s = misuse) ∧
     (s.cbReady r.core r.set d = true → 1 ≤ n → n ≤ x.slots → ∀ swap,
       (n ≤ s.cbFilled r.core r.set d → ∃ t, exec (.cbacq a b swap) s = .next t ∧
         RegsDone ((s.separate r).discardClean r.core) t r [b] (s.nextPc r) fun _ => none) ∧
       (s.cbFilled r.core r.set d < n → exec (.cbacq a b swap) s = .next (s.park r (.cbacq d n) swap))) ∧
     (s.cbReady r.core r.set d = true → 1 ≤ n → n ≤ s.cbFilled r.core r.set d → s.dirtyHeld r.core (s.domOf r) = false →
       let s1 := s.writeBackAll r.core (s.domOf r)
       let y := s1.cb r.core r.set d
       let e := s1.bar r.core r.set y.free
       exec (.cbrel a b) s = .next ((((s1.consume r [b]).setBar r.core r.set y.free { e with phase := e.phase + s.uniRead r b }).winWrite
         r.core r.set (d + 24) 4 ((y.cons + n) % y.slots)).retire r)) ∧
     (s.cbReady r.core r.set d = false → ∀ swap, exec (.cbacq a b swap) s = misuse ∧ exec (.cbrel a b) s = misuse) ∧
     (s.cbReady r.core r.set d = true → n = 0 ∨ s.cbFilled r.core r.set d < n → exec (.cbrel a b) s = misuse))

/-- R49, R165, R180, R205, R241, R242: COPY and VCHAIN read their descriptor as a relaxed uniform load and, when it passes
their checks, hand one operation to that of the core's two copy engines that holds fewer: it stands last among the
core's, not started, and is counted in `cp`; the warp goes on and, beside that load, no other warp changes. A
descriptor that fails a check traps and hands over nothing.

R186, R248, R249: BINDW binds a window of the workgroup to what its descriptor names, and UNBINDW unbinds one; each
waits for the loads through the window. Beside the relaxed load of the descriptor nothing else changes.

Rests on the model's choices of log entries 28 (DESIGN CHOICE: which of a core's two copy engines (R17, R241) takes an
operation: the one that holds fewer; how the two share their rate is timing); 81 (DESIGN CHOICE: where a check stands
that a row of a descriptor states but that relates two fields (R145): in its row's place (colstride against the record
size of fmt, in1 against the operations), and among the last for a copy stream that must fill whole slots); 102
(DESIGN CHOICE: whether a copy, a chain or an array stream that reads through a window slot is a window load that
BINDW and UNBINDW wait for (R249, R259 do not say): the model waits for loads of warps, their POLLs and the access
slice's ALD only). -/
def Obligations.EngineOperationsIssue : Prop :=
  (∀ (a : Fin 48) (sc : Option Scope) (s s1 : State) (r : Ref) (bs : List Byte), s.warpRuns r → s.canReadUni r (.g a) 2 →
     (s.warp r).cp < 63 →
     let handed (k : CpKind) (t : State) : Prop := t.last = .retired ∧
       (t.core r.core).cpops = (s.core r.core).cpops ++ [{ id := s.nextIssue, engine := (s.core r.core).freeEngine, ref := r, dom := s.domOf r, pc := s.pcOf r, scope := sc.getD .quad, kind := k, landed := [], acked := [], started := false, slotOf := none, pieces := 0, done := 0, fault := none, complete := false }] ∧
       t.nextIssue = s.nextIssue + 1 ∧ t.warp r = { (s1.warp r).entered (some .cp) s.nextIssue with pc := s.nextPc r, pfx := none } ∧
       (∀ r', r' ≠ r → t.warp r' = s1.warp r') ∧ (∀ pa, t.physRead pa = s1.physRead pa)
     (s.readStruct r (s.pairOf r a) 64 64 = .ok (bs, s1) →
       (s.copyChecks r (copyDesc s bs) bs = .ok () → ∃ t, exec (.copy a sc) s = .next t ∧ handed (.copy (copyDesc s bs)) t) ∧
       (∀ x, s.copyChecks r (copyDesc s bs) bs = .error (.trap x) → exec (.copy a sc) s = .next (s.takeTrap r x))) ∧
     (s.readStruct r (s.pairOf r a) 128 64 = .ok (bs, s1) →
       (s.chainChecks r bs = .ok () → ∃ t, exec (.vchain a sc) s = .next t ∧ handed (.chain (chainDesc bs)) t) ∧
       (∀ x, s.chainChecks r bs = .error (.trap x) → exec (.vchain a sc) s = .next (s.takeTrap r x)))) ∧
  (∀ (a : Fin 48) (slot : Fin 16) (s s1 : State) (r : Ref) (bs : List Byte), s.warpRuns r → s.slotQuiet r slot.val = true →
     (∃ t, exec (.unbindw slot) s = .next t ∧ Tab.get none (t.wgOf r).windows slot.val = none ∧
       (∀ n, n ≠ slot.val → Tab.get none (t.wgOf r).windows n = Tab.get none (s.wgOf r).windows n) ∧
       t.warp r = { s.warp r with pc := s.nextPc r, pfx := none } ∧ (∀ r', r' ≠ r → t.warp r' = s.warp r') ∧
       t.last = .retired ∧ t = { s with cores := t.cores, last := t.last }) ∧
     (s.canReadUni r (.g a) 2 → s.readStruct r (s.pairOf r a) 32 32 = .ok (bs, s1) →
       let base := field bs 0 8
       let index := field bs 8 8
       let count := field bs 16 4
       let zlog := field bs 20 1
       let wide := decide (field bs 21 1 = 7)
       bitsOf base 55 53 ≠ 3 → (field bs 21 1 = 6 ∨ field bs 21 1 = 7) → index % (if wide then 8 else 4) = 0 → index < 2 ^ 56 →
       bitsOf index 55 53 ≤ 2 → count ≠ 0 → count * 2 ^ zlog ≤ 2 ^ 45 → zlog ≤ 12 → (∀ x ∈ bs.drop 22, x = 0) →
       ∃ t, exec (.bindw a slot) s = .next t ∧ Tab.get none (t.wgOf r).windows slot.val = some
           { base := BitVec.ofNat 64 base, index := BitVec.ofNat 64 index, count := count, zlog := zlog, wide := wide } ∧
         (∀ n, n ≠ slot.val → Tab.get none (t.wgOf r).windows n = Tab.get none (s.wgOf r).windows n) ∧
         t.warp r = { s1.warp r with pc := s.nextPc r, pfx := none } ∧ (∀ r', r' ≠ r → t.warp r' = s1.warp r') ∧
         (∀ pa, t.physRead pa = s1.physRead pa) ∧ t.last = .retired))

/-- R177, R243 to R247, R251: the events of a copy in progress. A granule that may land is moved and noted, or its fault
stops the copy; a piece of a stream takes the next slot of its buffer when one is free; a signal copy starts after its
warp's earlier operations; a remote granule is acknowledged once; a fault with the supervisor, and a copy that the
device runs again after a transient error, start again from its first granule; a copy whose granules have all landed
completes. A copy to another package holds its granules and their counts while no route is live, and on a tripped die
every engine holds in place.

R109, R166, R167, R247: a chain that may run completes when every element is read, computed, written and counted, and
otherwise stops on its first fault; an in-place one keeps the elements it wrote. Each output element folds the
operations over the first input element, with the second input, the first input or an immediate as operand.

R244: the pieces of a run of bytes, cut at 128-byte boundaries, cover it: every byte lies in exactly one piece, and no
piece crosses a boundary.

R205, R244: when an operation of a copy engine completes and its warp has no other, `cp` falls by one and the
operation is gone.

Rests on the model's choices of log entries 31 (DESIGN CHOICE: a chain runs all its elements in one step, in order;
the operand constants of ops that take none are ignored); 110 (DESIGN CHOICE: when a route to another package is live
(R394 names routes and gives them no form): when any fabric port of the package is up). Rests on the model's reading
of log entry 29 (DEDUCED: a landing that would overflow its barrier object (BAR_OVERFLOW) writes none of its bytes). -/
def Obligations.EngineEvents : Prop :=
  (∀ (core op : Nat) (o : CpOp) (d : CopyDesc) (s : State), s.cpGoing core op = some o → o.kind = .copy d →
     (∀ row piece, d.pkg.isSome = true → d.toCb = false → s.routed = false →
       exec (.copyGranuleLand core op row piece) s = .next s ∧ exec (.remoteLandingAck core op row piece) s = .next s) ∧
     (∀ row piece, s.granuleMay o d row piece = true →
       (∀ s1, s.landGranule o d row piece = .ok s1 → exec (.copyGranuleLand core op row piece) s = .next (s1.noteLanded o d row piece)) ∧
       (∀ f, s.landGranule o d row piece = .error f →
         exec (.copyGranuleLand core op row piece) s = .next s ∧
         exec (.copyFault core op row piece) s = .next (s.putCp core { o with fault := some (s.recordFault o.dom f) }))) ∧
     (d.signal = true → s.firstCp core o = true → o.complete = false →
       exec (.signalCopyStart core op) s = .next (s.putCp core { o with started := true })) ∧
     (o.fault = none → o.complete = false → s.copyDone o d = true → exec (.copyComplete core op) s = .next (s.finishCp o)) ∧
     (∀ f, o.fault = some f → f.superv = true → exec (.copyRestart core ⟨op, false⟩) s =
       .next ((s.resolveFault o.dom f).putCp core { o with fault := none, landed := [] })) ∧
     (o.fault = none → o.complete = false → exec (.copyRestart core ⟨op, true⟩) s =
       .next ((s.putCp core { o with fault := none, landed := [] }).count o.dom 12 1)) ∧
     (∀ row piece, d.pkg.isSome = true → d.toCb = false → d.bar = 0 → s.routed = true → o.landed.contains (row, piece) = true →
       o.acked.contains (row, piece) = false → o.fault = none →
       exec (.remoteLandingAck core op row piece) s = .next (s.putCp core { o with acked := (row, piece) :: o.acked })) ∧
     (let k := o.ref.set
      let at' := winOff d.dstA
      let x := s.cb core k at'
      o.fault = none → o.complete = false → d.toCb = true → o.slotOf = none → s.cbBusy core o d = false → d.signal = false →
       s.cbReady core k at' = true → o.pieces * x.slotbytes < d.rowbytes * d.rows → s.cbFilled core k at' + 1 ≤ x.slots →
       let s1 := s.winWrite core k (at' + 20) 4 ((x.prod + 1) % x.slots)
       let b := s1.bar core k x.fill
       exec (.cbPieceStart core op) s = .next ((s1.setBar core k x.fill { b with bytes := b.bytes + x.slotbytes }).putCp core
         { o with slotOf := some x.prod })) ∧
     (∀ (u : State) (row piece : Nat) (again : Bool), (u.die (dieOf core)).tripped = true →
       ∀ i ∈ [Instr.copyGranuleLand core op row piece, .copyFault core op row piece, .copyRestart core ⟨op, again⟩, .copyComplete core op,
         .cbPieceStart core op, .signalCopyStart core op, .remoteLandingAck core op row piece, .chainComplete core op, .chainFault core op],
         exec i u = .next u)) ∧
  (∀ (core op : Nat) (o : CpOp) (d : ChainDesc) (s : State), s.cpGoing core op = some o → o.kind = .chain d → s.chainMay o d = true →
     (∀ i s1, s.chainAll o d = (i, none, s1) →
       exec (.chainComplete core op) s = .next (s1.finishCp o) ∧ exec (.chainFault core op) s = .next s) ∧
     (∀ i f s1, s.chainAll o d = (i, some f, s1) → exec (.chainComplete core op) s = .next s ∧
       exec (.chainFault core op) s = .next (s1.putCp core { o with fault := some (s1.recordFault o.dom f), done := i })) ∧
     (∀ x y, d.element x y = chainStore d.ofmt (d.ops.foldl (fun v o => chainOp o.1 v
       (if o.2.1 = 0 then o.2.2 else if o.2.1 = 1 then chainLoad d.fmt1 y else chainLoad d.fmt0 x)) (chainLoad d.fmt0 x)))) ∧
  (∀ (start n c : Nat), c < n →
     (∃ p, p < pieceCount start n ∧ (pieceOf start n p).1 ≤ c ∧ c < (pieceOf start n p).2 ∧
       ∀ q, q < pieceCount start n → (pieceOf start n q).1 ≤ c → c < (pieceOf start n q).2 → q = p) ∧
     (∀ p, p < pieceCount start n → (start + (pieceOf start n p).1) / 128 = start / 128 + p ∧
       (start + (pieceOf start n p).2 - 1) / 128 = start / 128 + p)) ∧
  (∀ (core op : Nat) (o : CpOp) (d : CopyDesc) (s : State), s.cpGoing core op = some o → o.kind = .copy d → o.ref.core = core →
     o.ref.isSlice = false → o.fault = none → o.complete = false → s.copyDone o d = true →
     (∀ x ∈ (s.core core).cpops, x.ref = o.ref → x = o) →
     ∃ t, exec (.copyComplete core op) s = .next t ∧ t.warp o.ref = { s.warp o.ref with cp := (s.warp o.ref).cp - 1 } ∧
       (∀ x ∈ (t.core core).cpops, x.ref ≠ o.ref) ∧ (∀ r', r' ≠ o.ref → t.warp r' = s.warp r') ∧
       (∀ pa, t.physRead pa = s.physRead pa))

/-- R142, R146, R147, R150: TCFG, TREL and TZERO by the workgroup that holds the array state. TCFG sets the configuration
when no array operation is outstanding and no tile is live, and traps with TILE_LIVE if one is; with `.discard` every
operation is cancelled and every tile freed first. TREL frees a tile; TZERO makes it live and queues its clearing,
counted in `tl`. A tile outside the configuration traps with TILE_CFG.

R48, R147 to R150, R287, R366: TRD reads a row or column slice of a tile into a quadruple of lane registers, four
elements to a lane; TWR writes one from the lanes of S and TACC adds one in binary32, and both make the tile live.
Elements of lanes outside S and all other elements keep their values. The index is `g + imm6` as a 32-bit number; a
tile or index outside the configuration traps with TILE_CFG. With an empty S the three retire and nothing else
changes.

Rests on the model's choice of log entry 101 (DESIGN CHOICE: what the tiles read after a TCFG that changes the
configuration without `.discard` (R146 does not say): the words of the one store, which the new shape finds at other
places). Which registers a write under a partial set expands (log entry 34, DESIGN CHOICE) and that an empty set
pushes no row (log entry 78, DEDUCED) are the model's reading. -/
def Obligations.TileInstructions : Prop :=
  (∀ (s : State) (r : Ref), s.warpRuns r → (s.array r.core).holder = some r.set →
     let a := s.array r.core
     (∀ cfg discard, discard.getD false = false → a.queued = [] →
       (a.live = 0 → exec (.tcfg cfg discard) s = .next ((s.modArray r.core fun x => { x with cfg := cfg.val }).retire r)) ∧
       (a.live ≠ 0 → exec (.tcfg cfg discard) s = .next (s.takeTrap r (Trap.of .tileLive)))) ∧
     (∀ cfg, exec (.tcfg cfg (some true)) s =
       .next (((s.discardArr r.core).modArray r.core fun x => { x with cfg := cfg.val }).retire r)) ∧
     (∀ tile : Fin 16, tile.val < tileCount a.cfg →
       (a.tileQuiet tile.val = true → ∃ t, exec (.trel tile) s = .next t ∧ t.last = .retired ∧
         (∀ n, n < 16 → (t.array r.core).live.getLsbD n = (a.live.getLsbD n && decide (n ≠ tile.val))) ∧
         t.array r.core = { a with live := (t.array r.core).live } ∧ t.warp r = { s.warp r with pc := s.nextPc r, pfx := none } ∧
         ∀ r', r' ≠ r → t.warp r' = s.warp r') ∧
       (s.arrRoom r = .ok () → ∃ t, exec (.tzero tile) s = .next t ∧ t.last = .retired ∧
         (t.array r.core).live.getLsbD tile.val = true ∧ (t.warp r).tl = (s.warp r).tl + 1 ∧
         (t.array r.core).ops = (settleMasks a.mask (a.ops ++ [{ ref := r, pc := s.pcOf r, seqNo := s.nextIssue, kind := .tzero tile.val, raw := [], fault := none, loaded := false }])).2 ∧
         (t.warp r).v = (s.warp r).v ∧ (t.warp r).g = (s.warp r).g ∧ ∀ r', r' ≠ r → t.warp r' = s.warp r')) ∧
     (∀ tile : Fin 16, tileCount a.cfg ≤ tile.val →
       exec (.trel tile) s = .next (s.takeTrap r (Trap.of .tileCfg)) ∧ exec (.tzero tile) s = .next (s.takeTrap r (Trap.of .tileCfg)))) ∧
  (∀ (d : Fin 192) (tile : Fin 8) (col : Bool) (gx : Fin 48) (imm6 : Fin 64) (hi : Option Bool) (s : State) (r : Ref),
     d.val % 4 = 0 → s.warpRuns r → s.canWriteRun r [] (.v d) 4 →
     (s.applied r = 0 → ∀ i ∈ [Instr.trd (.v d) tile col gx imm6 hi, .twr (.v d) tile col gx imm6 hi, .tacc (.v d) tile col gx imm6 hi],
       ∃ t, exec i s = .next t ∧ RegsDone s t r [] (s.nextPc r) fun _ => none) ∧
     (s.applied r ≠ 0 → (s.array r.core).holder = some r.set → s.canReadUni r (.g gx) 1 →
     let a := s.array r.core
     let tl := sliceTile tile hi
     let idx := ((s.greg r gx.val).toNat + imm6.val) % 2 ^ 32
     (¬(tl < tileCount a.cfg ∧ idx < (if col then 128 else tileRows a.cfg)) →
       ∀ i ∈ [Instr.trd (.v d) tile col gx imm6 hi, .twr (.v d) tile col gx imm6 hi, .tacc (.v d) tile col gx imm6 hi],
         exec i s = .next (s.takeTrap r (Trap.of .tileCfg))) ∧
     (tl < tileCount a.cfg → idx < (if col then 128 else tileRows a.cfg) → a.tileQuiet tl = true →
     let old (x y : Nat) : Word := a.elem tl x y
     let wrote (t : State) (f : Word → Word → Word) : Prop := t.last = .retired ∧ (t.array r.core).live.getLsbD tl = true ∧
       (∀ k x y, x < tileRows a.cfg → y < 128 → (t.array r.core).elem k x y =
         let e := if col then x else y
         if k = tl ∧ (if col then y else x) = idx ∧ (s.applied r).getLsbD (e / 4) = true
         then f (old x y) (s.runWord r (.v d) (e % 4) (e / 4)) else a.elem k x y) ∧
       t.warp r = { s.warp r with pc := s.nextPc r, pfx := none } ∧ (∀ r', r' ≠ r → t.warp r' = s.warp r') ∧
       ∀ pa, t.physRead pa = s.physRead pa
     (s.soundTile r tl col idx = .ok () → ∃ t, exec (.trd (.v d) tile col gx imm6 hi) s = .next t ∧ RunDone s t r [] (.v d) 4 fun i j =>
       if col then (if 4 * j + i < tileRows a.cfg then old (4 * j + i) idx else 0) else old idx (4 * j + i)) ∧
     (s.canReadRun r (.v d) 4 → ∃ t, exec (.twr (.v d) tile col gx imm6 hi) s = .next t ∧ wrote t fun _ x => x) ∧
     (s.canReadRun r (.v d) 4 → s.soundTile r tl col idx = .ok () →
       ∃ t, exec (.tacc (.v d) tile col gx imm6 hi) s = .next t ∧ wrote t fun x y => fadd .rne x y))))

/-- R144, R145, R151, R154, R157, R163: LOADW, MLOOP and MMASK by the workgroup that holds the array state read their
descriptor and, when its fields are legal, take the next place in the array's order; the first two are counted in
`tl`, and MLOOP makes its tile live. -/
def Obligations.ArrayOperationsIssue : Prop :=
  ∀ (a : Fin 48) (s s1 : State) (r : Ref) (bs : List Byte), s.warpRuns r → (s.array r.core).holder = some r.set →
    s.canReadUni r (.g a) 2 →
    let f (i n : Nat) : Nat := field bs i n
    let scaleOk (addr bytes limit : Nat) (scaled : Bool) : Prop := addr % 4 = 0 ∧
      (scaled = false → addr = 0 ∧ bytes = 0) ∧ (scaled = true → 4 ≤ bytes ∧ bytes ≤ limit ∧ bytes % 4 = 0)
    (∀ latch : Fin 2, s.arrRoom r = .ok () → s.readStruct r (s.pairOf r a) 32 32 = .ok (bs, s1) →
      f 0 8 % 16 = 0 → f 8 4 % 16 = 0 → recordBytes (f 12 1) ≤ f 8 4 → 9 ≤ f 12 1 → f 12 1 ≤ 13 → f 13 1 < 2 →
      scaledOk (f 12 1) ((f 13 1).testBit 0) = true → f 14 2 = 0 → scaleOk (f 16 8) (f 24 4) 4096 ((f 13 1).testBit 0) → f 28 4 = 0 →
      exec (.loadw a latch) s = .next (((s1.enter r .tl).pushArr r (.loadw
        { src := BitVec.ofNat 64 (f 0 8), colstride := f 8 4, fmt := f 12 1, scaled := (f 13 1).testBit 0, scales := BitVec.ofNat 64 (f 16 8), scalebytes := f 24 4 }
        latch.val) bs).retire r)) ∧
    (s.arrRoom r = .ok () → s.readStruct r (s.pairOf r a) 64 64 = .ok (bs, s1) →
      f 0 8 % 16 = 0 → f 8 4 % 16 = 0 → f 12 4 % 16 = 0 → 9 ≤ f 16 1 → f 16 1 ≤ 13 → f 17 1 < 4 →
      scaledOk (f 16 1) ((f 17 1).testBit 0) = true → 1 ≤ f 18 1 → f 18 1 ≤ 128 → f 18 1 ≤ tileRows (s.array r.core).cfg → 1 ≤ f 19 1 →
      f 19 1 ≤ 16 → f 20 2 ≠ 0 → f 22 1 < tileCount (s.array r.core).cfg → f 22 1 ≤ 15 → f 23 1 ≤ 3 →
      scaleOk (f 24 8) (f 32 4) 65536 ((f 17 1).testBit 0) → f 36 28 = 0 →
      exec (.mloop a) s = .next ((((s1.modArray r.core fun x => x.liven (f 22 1)).enter r .tl).pushArr r (.mloop
        { act := BitVec.ofNat 64 (f 0 8), rowstride := f 8 4, kstride := f 12 4, afmt := f 16 1, scaled := (f 17 1).testBit 0, masked := (f 17 1).testBit 1, rows := f 18 1, period := f 19 1, steps := f 20 2, tile := f 22 1, latch := f 23 1, ascales := BitVec.ofNat 64 (f 24 8), ascalebytes := f 32 4 })
        bs).retire r)) ∧
    (s.readStruct r (s.pairOf r a) 160 32 = .ok (bs, s1) → f 12 1 ≤ 32 → f 13 1 < 2 → f 14 18 = 0 →
      exec (.mmask a) s = .next ((s1.pushArr r (.mmask bs) []).retire r))

/-- R144, R152, R155 to R158, R161, R162, R164, R364: the events of the array. A load at the head fills its latch and
leaves; one behind the running loop, which uses the other latch, fills its latch and waits its turn. A loop runs its
next kept K-step, or completes when none is left. A stream fault of the head operation is recorded: a loop falls back
to its last promotion with the row in progress noted, a load leaves its latch holding `e4m3` zeros. A fault with the
supervisor is resolved and its operation, which no other one's fault goes with, is set going again; a transient error
starts the head operation again from its recorded point, and is counted.

R142, R143: a free array state goes to the oldest workgroup that waits for it, and a holder without live tile,
outstanding operation or unused claim gives way to one that waits; the new holder's state is fresh unless it was
saved.

R147, R366: the clearing of a tile makes every element of it +0 and its bad rows good, changes no other tile and
leaves `tl`.

Rests on the model's choice of log entry 32 (DESIGN CHOICE: what the array streams read and when: an MLOOP step reads
one K-step of all rows at once, after the dirty bytes of the core are performed; LOADW loads whole; a load whose
weight bank is in its refresh window waits). -/
def Obligations.ArrayEvents : Prop :=
  (∀ (core : Nat) (o : ArrOp) (s : State), s.arrHead core = some o → o.fault = none →
     let s1 := s.forStreams core o
     let act := engineActor o.ref (s.domOf o.ref)
     (∀ d i l, o.kind = .loadw d i → o.loaded = false → s1.fillLatch act d o.raw = .ok l → exec (.loadwComplete ⟨core, 0⟩) s =
       .next (((s1.touchArr o).modArray core fun a => a.putLatch i l).popArr core o)) ∧
     (∀ m x d i l, o.kind = .mloop m → (s.array core).ops[1]? = some x → x.kind = .loadw d i → x.loaded = false → x.fault = none →
       m.names i = false → (s.forStreams core x).fillLatch (engineActor x.ref (s.domOf x.ref)) d x.raw = .ok l →
       exec (.loadwComplete ⟨core, 1⟩) s = .next ((((s.forStreams core x).touchArr x).modArray core fun a => a.putLatch i l).modArray core
         fun a => { a with ops := setAt a.ops 1 { x with loaded := true } })) ∧
     (∀ d j a, o.kind = .mloop d → (s.array core).refresh = false → (s.array core).nextStep d = some j → s1.loopStep core o d = .ok a →
       exec (.mloopStep core) s = .next ((s1.touchArr o).modArray core fun _ => a) ∧ exec (.mloopComplete core) s = .next s) ∧
     (∀ d a, o.kind = .mloop d → (s.array core).refresh = false → (s.array core).nextStep d = none → s1.loopStep core o d = .ok a →
       exec (.mloopStep core) s = .next s ∧ exec (.mloopComplete core) s =
         .next ((s1.modArray core fun a => { a with progress := ArrayState.init.progress, ias := [], badIas := [] }).popArr core o)) ∧
     (∀ row f, s.arrFault core 0 row o = some f → ∃ t, exec (.arrayStreamFault ⟨core, 0, row⟩) s = .next t ∧
       (t.array core).ops = { o with fault := some (s.recordFault (s.domOf o.ref) f) } :: (s.array core).ops.drop 1 ∧
       (∀ d, o.kind = .mloop d → (t.array core).tiles = (s.array core).tiles ∧ (t.array core).ias = [] ∧
         (t.array core).progress = { valid := true, promoted := (s.array core).progress.promoted, done := (s.array core).progress.promoted, row := BitVec.ofNat 8 row }) ∧
       (∀ d i, o.kind = .loadw d i → (t.array core).latch i = Latch.init)) ∧
     (o.kind.runs = true → exec (.arrayOpRestart ⟨core, true⟩) s =
       .next ((s.modArray core fun a => a.stopOp o.kind 0).count (s.domOf o.ref) 12 1)) ∧
     (∀ (u : State) (x : ArrOp) (f : OpFault), (u.die (dieOf core)).tripped = false → x.fault = some f → f.superv = true →
       (u.array core).ops.find? (fun y => (y.fault.map (·.superv)).getD false) = some x → exec (.arrayOpRestart ⟨core, false⟩) u =
         .next ((u.resolveFault (u.domOf x.ref) f).modArray core
           fun a => { a with ops := a.ops.map fun y => if y.seqNo = x.seqNo then { y with fault := none } else y })) ∧
     (∀ (u : State) (again : Bool), (u.die (dieOf core)).tripped = true → exec (.arrayOpRestart ⟨core, again⟩) u = .next u)) ∧
  (∀ (core : Nat) (s : State),
     (∀ k, (s.array core).holder = none → s.oldestClaim core = some k → (s.wg core k).savedArray = none →
       ∃ t, exec (.arrayClaimGrant core) s = .next t ∧ (t.core core).tileTag.1 = (s.wg core k).dom ∧
         t.array core = { ArrayState.init with holder := some k, claims := (s.array core).claims } ∧ (∀ c, c ≠ core → t.core c = s.core c) ∧
         t = { s with cores := t.cores }) ∧
     (∀ k, (s.array core).holder = some k → (s.array core).live = 0 → (s.array core).queued = [] →
       (s.array core).claims.contains k = false → (s.array core).claims ≠ [] →
       ∃ t, exec (.arrayStateGiveUp core) s = .next t ∧ (t.array core).holder = none ∧ (t.array core).claims = (s.array core).claims ∧
         (∀ c, c ≠ core → t.core c = s.core c) ∧ t = { s with cores := t.cores }) ∧
     (∀ k, (s.array core).holder = some k → exec (.arrayClaimGrant core) s = .next s)) ∧
  (∀ (core tile : Nat) (o : ArrOp) (s : State), s.arrHead core = some o → o.kind = .tzero tile → o.fault = none →
     o.ref.core = core → o.ref.isSlice = false → (∀ x ∈ (s.array core).ops, x.loaded = false) →
     ∃ t, exec (.tzeroComplete core) s = .next t ∧
       (∀ k x y, x < tileRows (s.array core).cfg → y < 128 →
         (t.array core).elem k x y = if k = tile then 0 else (s.array core).elem k x y) ∧
       (t.array core).badRows = (s.array core).badRows.filter (fun p => decide (p.1 ≠ tile)) ∧
       (t.warp o.ref).tl = (s.warp o.ref).tl - 1 ∧ (t.array core).ops = (settleMasks (s.array core).mask ((s.array core).ops.drop 1)).2 ∧
       (∀ pa, t.physRead pa = s.physRead pa))

/-- R254, R255, R257: FOPEN of a legal descriptor opens a fibre of `u(b)` elements at position 0; FCLOSE closes one; FTEND
writes the inline set of the issuing warp's lanes below the number of elements in the window (a warp's index lies
below 16; the fibre register passes its error check).

R257: FGETC of a merged fibre writes the coordinate of match j, or 0xFFFFFFFF, in each lane of S at once, and leaves
`ld` behind the older loads; FGETC of any other fibre and FGETV load the window's coordinates or values as one counted
access (of a plain fibre without values, of no lane), and lanes past the window receive 0xFFFFFFFF and 0; FGETV of a
merged fibre loads the values of both sources into a pair. With S empty neither does anything. The fibre register
passes its error check and the loads meet no lost byte.

R254, R256, R258: FADV and FSEEK empty the window of a merged fibre and leave a closed or exhausted one as it is;
otherwise they, and FMERGE, walk as far as the coordinates ascend, and keep what they did when they trap with
FIBRE_ORDER. The fibre registers they read pass their error check.

Which registers a write under a partial set expands (log entry 34, DESIGN CHOICE) and that an empty set pushes no row
(log entry 78, DEDUCED) are the model's reading. -/
def Obligations.Fibres : Prop :=
  (∀ (f : Fin 8) (s : State) (r : Ref), s.warpRuns r →
     (∀ (a : Fin 48) (b : Reg) (bs : List Byte) (s1 : State), b.isUniSrc = true → s.canReadUni r (.g a) 2 → s.canReadUni r b 1 →
       s.readStruct r (s.pairOf r a) 32 32 = .ok (bs, s1) → field bs 0 8 % 4 = 0 → field bs 16 1 ≤ 2 →
       field bs 8 8 % 2 ^ field bs 16 1 = 0 → (∀ x ∈ bs.drop 17, x = 0) →
       exec (.fopen f a b) s = .next (((s1.consume r [b]).setFibre r f.val
         { kind := .plain, coord := BitVec.ofNat 64 (field bs 0 8), value := BitVec.ofNat 64 (field bs 8 8), vlog := field bs 16 1, len := (s.uniRead r b).toNat, pos := 0, valueB := 0, vlogB := 0, matched := [] }).retire r)) ∧
     (∃ t, exec (.fclose f) s = .next t ∧ t.last = .retired ∧ WarpOnly s t r
       { s.warp r with fibres := Tab.set Fibre.init (s.warp r).fibres f.val Fibre.init, bad := (s.warp r).bad.filter (fun b => decide (b ≠ .f f.val)), pc := s.nextPc r, pfx := none }) ∧
     (∀ st : Fin 16, r.index < 16 → s.intact r (.f f.val) → s.pendingS r st.val = false → isWide ((s.warp r).sreg st.val) = false →
       ∃ t, exec (.ftend f st) s = .next t ∧ t.last = .retired ∧ WarpOnly s t r
         { s.warp r with sets := Tab.set 0 (s.warp r).sets st.val (inlineSet r.index (maskOf fun j => decide (j < (s.fibre r f.val).window))), bad := (s.warp r).bad.filter (fun b => decide (b ≠ .s st.val)), pc := s.nextPc r, pfx := none })) ∧
  (∀ (f : Fin 8) (d : Reg) (s : State) (r : Ref), s.warpRuns r → d.isLaneDst = true →
     let x := s.fibre r f.val
     let lanes := s.windowLanes r x.window
     (s.applied r = 0 → s.canAwait r d 2 → ∀ i ∈ [Instr.fgetc f d, .fgetv f d],
       ∃ t, exec i s = .next t ∧ RegsDone s t r [] (s.nextPc r) fun _ => none) ∧
     (s.applied r ≠ 0 → s.intact r (.f f.val) → x.kind = .merged → (s.warp r).ld < 63 → s.canWrite r [] d →
       ∃ t, exec (.fgetc f d) s = .next t ∧ LaneDone (s.passThrough r .ld) t r [] d fun j => ((x.matched[j]?).map (·.1)).getD 0xFFFFFFFF) ∧
     (∀ ls lost, s.applied r ≠ 0 → s.intact r (.f f.val) → (s.warp r).ld < 63 →
       let flies (i : Instr) (n left : Nat) : Prop :=
         s.lostLanes r.core (s.flight r .fget Mods.dflt (s.applied r) (.lanes d n) ls) = [] →
         ∃ t, exec i s = .next t ∧ Flies (s.touchAccs r false ls) t r
           { s.flight r .fget Mods.dflt (s.applied r) (.lanes d n) ls with left := left } (some .ld) []
       let values (v : DWord) (vlog base : Nat) (idx : Nat → Nat) : List (Nat × Nat × DWord × Nat) :=
         if v = 0 then [] else lanes.map fun j => (base + j, j, v + BitVec.ofNat 64 (2 ^ vlog * idx j), 2 ^ vlog)
       (x.kind ≠ .merged → s.canAwait r d 1 →
         s.fibreAccs r (lanes.map fun j => (j, j, x.coord + BitVec.ofNat 64 (4 * (x.pos + j)), 4)) lost = .ok ls →
         flies (.fgetc f d) 1 0xFFFFFFFF) ∧
       (x.kind ≠ .merged → s.canAwait r d 1 → s.fibreAccs r (values x.value x.vlog 0 fun j => x.pos + j) lost = .ok ls →
         flies (.fgetv f d) 1 0) ∧
       (x.kind = .merged → s.canAwait r d 2 →
         s.fibreAccs r (values x.value x.vlog 0 (fun j => ((x.matched[j]?).map (·.2.1)).getD 0) ++
           values x.valueB x.vlogB 32 (fun j => ((x.matched[j]?).map (·.2.2)).getD 0)) lost = .ok ls →
         flies (.fgetv f d) 2 0))) ∧
  (∀ (f : Fin 8) (a : Reg) (s : State) (r : Ref), s.warpRuns r → a.isUniSrc = true → s.canReadUni r a 1 → s.quiet r = true →
     s.intact r (.f f.val) →
     let x := s.fibre r f.val
     let ends (s1 : State) (ok : Bool) (u : State) : Out := if ok then .next (u.retire r) else .next (s1.takeTrap r (Trap.of .fibreOrder))
     (x.kind = .merged → ∀ i ∈ [Instr.fadv f a, .fseek f a],
       exec i s = .next (((s.consume r [a]).setFibre r f.val { x with matched := [] }).retire r)) ∧
     (x.kind ≠ .merged → x.leftOver = 0 → ∀ i ∈ [Instr.fadv f a, .fseek f a],
       exec i s = .next (((s.consume r [a]).setFibre r f.val x).retire r)) ∧
     (∀ y s1 ok, x.kind ≠ .merged → s.consumeMany r x (min (s.uniRead r a).toNat x.leftOver) = .ok (y, s1, ok) →
       exec (.fadv f a) s = ends (s1.setFibre r f.val y) ok ((s1.consume r [a]).setFibre r f.val y)) ∧
     (∀ y s1 ok, x.kind ≠ .merged → s.consumeBelow r (s.uniRead r a) x x.leftOver = .ok (y, s1, ok) →
       exec (.fseek f a) s = ends (s1.setFibre r f.val y) ok ((s1.consume r [a]).setFibre r f.val y)) ∧
     (∀ (g h : Fin 8) ms y z s1 ok, f ≠ g → f ≠ h → g ≠ h → s.intact r (.f g.val) → s.intact r (.f h.val) →
       s.mergeWalk r (s.fibre r g.val) (s.fibre r h.val) [] ((s.fibre r g.val).leftOver + (s.fibre r h.val).leftOver) = .ok (ms, y, z, s1, ok) →
       let s2 := (s1.setFibre r g.val y).setFibre r h.val z
       exec (.fmerge f g h) s = ends s2 ok (s2.setFibre r f.val
         { kind := .merged, coord := 0, value := (s.fibre r g.val).value, vlog := (s.fibre r g.val).vlog, len := 0, pos := 0, valueB := (s.fibre r h.val).value, vlogB := (s.fibre r h.val).vlog, matched := ms })))

/-- R277, R278, R316: APPLY over a set none of whose live members the block would run branches to `ret` and pushes
nothing; one whose live members are all carried by the running warp's own lanes (at depth 0) or packed lanes pushes
the enclosing mask with `ret` and runs the block in their lanes. A nested apply never widens the mask. An apply that
would push a 65th entry traps with SET_NEST. -/
def Obligations.ApplyBlocks : Prop :=
  ∀ (st : Fin 16) (off : BitVec 20) (fp : Option Footprint) (s : State) (r : Ref) (m : Members), s.warpRuns r →
    s.setOf r st = .ok m → 1 ≤ off.toInt → s.mayGo r (s.branchTo r off.toInt) →
    let ret := BitVec.ofInt 32 (s.branchTo r off.toInt)
    let w := s.warp r
    let x := w.sreg st.val
    let ms := s.liveOf r m
    let lanes := s.lanesFor r ms
    let skips : Prop := ∃ t, exec (.apply st off fp) s = .next t ∧ t.last = .retired ∧ WarpOnly s t r { w with pc := ret, pfx := none }
    let enters (c : Lanes) : Prop := ∃ t, exec (.apply st off fp) s = .next t ∧ t.last = .retired ∧ t.pcOf r = s.nextPc r ∧
      (t.warp r).cur = c ∧ (t.warp r).v = w.v ∧ (t.warp r).g = w.g ∧ (t.warp r).sets = w.sets ∧
      (t.warp r).stack = { encl := w.cur, ret := ret, gathered := false, chunk := 0, base := 0, nin := 0, nout := 0, setv := x } :: w.stack ∧
      (isWide x = false → WarpOnly s t r { w with pc := s.nextPc r, pfx := none, cur := c, stack := { encl := w.cur, ret := ret, gathered := false, chunk := 0, base := 0, nin := 0, nout := 0, setv := x } :: w.stack })
    (w.stack = [] → ms = [] → skips) ∧
    (w.stack ≠ [] → s.carried r ms = true → lanes &&& w.cur = 0 → skips) ∧
    (w.stack = [] → ms ≠ [] → s.carried r ms = true → enters lanes) ∧
    (w.stack ≠ [] → s.carried r ms = true → lanes &&& w.cur ≠ 0 → w.stack.length < Config.applyDepth → enters (lanes &&& w.cur)) ∧
    (s.carried r ms = true → lanes &&& w.cur ≠ 0 → Config.applyDepth ≤ w.stack.length →
      exec (.apply st off fp) s = .next (s.takeTrap r (Trap.of .setNest)))

/-- R268, R279, R281, R327: a gathered apply. The checks in their order: no footprint traps with SET_FOREIGN, an open
apply with SET_NEST, a range above the allocation of the issuing warp or a home warp with REG_BOUND; a home warp that
is about to be swapped out is waited for; a home warp that cannot be pinned traps with SET_BUSY, and a home register
that fails its error check with REG_ECC, before any effect. Then every other home warp is pinned, the live-in
registers hold the members' home values in the packed lanes of chunk 0 (those of a swapped home warp from its save
area) and the issuing warp's own in the others, and the block runs in those lanes.

Rests on the model's choice of log entry 64 (DESIGN CHOICE: a Parked warp of a gathered apply and its pin, a warp that
waits to grow, and an L1 refill are each changed in one step). -/
def Obligations.GatheredApply : Prop :=
  ∀ (st : Fin 16) (off : BitVec 20) (f : Footprint) (s : State) (r : Ref) (m : Members), s.warpRuns r →
    s.setOf r st = .ok m → 1 ≤ off.toInt → s.mayGo r (s.branchTo r off.toInt) →
    let w := s.warp r
    let ms := s.liveOf r m
    let b := f.base.toNat
    let n := f.nin.toNat
    let others := otherHomes r.index ms
    let trap (fp : Option Footprint) (c : Cause) : Prop := exec (.apply st off fp) s = .next (s.takeTrap r (Trap.of c))
    let fit : Prop := b + n ≤ 8 * w.gran ∧ ∀ k ∈ others, b + n ≤ 8 * (s.warpAt r.core r.set k).gran
    s.carried r ms = false →
    trap none .setForeign ∧
    (w.stack ≠ [] → trap (some f) .setNest) ∧
    (w.stack = [] → ¬fit → trap (some f) .regBound) ∧
    (w.stack = [] → fit → (∃ k ∈ others, (s.warpAt r.core r.set k).swapDue = true) →
      exec (.apply st off (some f)) s = .next { s with last := .stalled }) ∧
    (w.stack = [] → fit → (∀ k ∈ others, (s.warpAt r.core r.set k).swapDue = false) →
      (∃ k ∈ others, (s.warpAt r.core r.set k).mayPin = false) → trap (some f) .setBusy) ∧
    (w.stack = [] → fit → (∀ k ∈ others, (s.warpAt r.core r.set k).mayPin = true ∧ (s.warpAt r.core r.set k).swapDue = false ∧
        s.homeQuiet r k b (max n f.nout.toNat) = true) → (∀ i, i < n → s.pendingV r (b + i) = false) → s.soundOwn r b n = .ok () →
      (∀ x, s.soundHomes r ms b n 0 = .error (.trap x) → exec (.apply st off (some f)) s = .next (s.takeTrap r x)) ∧
      (s.soundHomes r ms b n 0 = .ok () → ∃ t, exec (.apply st off (some f)) s = .next t ∧ t.last = .retired ∧ t.pcOf r = s.nextPc r ∧
        (t.warp r).cur = chunkLanes ms.length 0 ∧
        (t.warp r).stack = [{ encl := w.cur, ret := BitVec.ofInt 32 (s.branchTo r off.toInt), gathered := true, chunk := 0, base := b, nin := n, nout := f.nout.toNat, setv := w.sreg st.val }] ∧
        (∀ k ∈ others, (t.warpAt r.core r.set k).pin = some r.index ∧ (t.warpAt r.core r.set k).v = (s.warpAt r.core r.set k).v) ∧
        (∀ i, i < n → ∀ p, p < 32 → match ms[p]? with
          | some h =>
            (h.1 = r.index → rowGet ((t.warp r).vreg (b + i)) p = rowGet (w.vreg (b + i)) h.2) ∧
            (h.1 ≠ r.index → match (s.warpAt r.core r.set h.1).area with
              | none => rowGet ((t.warp r).vreg (b + i)) p = rowGet ((s.warpAt r.core r.set h.1).vreg (b + i)) h.2
              | some a => isWide (w.sreg st.val) = false →
                rowGet ((t.warp r).vreg (b + i)) p = BitVec.ofNat 32 (s.physNum (areaReg a (b + i) h.2) 4))
          | none => rowGet ((t.warp r).vreg (b + i)) p = rowGet (w.vreg (b + i)) p) ∧
        (∀ k, k < b ∨ b + n ≤ k → (t.warp r).vreg k = w.vreg k) ∧ (t.warp r).g = w.g ∧ (t.warp r).sets = w.sets))

/-- R277, R279, R358: AEND of a block that runs in place pops its entry: the mask takes its enclosing value and execution
goes on at the entry's return address. At the end of a gathered block's chunk the model's `endChunk` scatters, and
goes on with the next chunk or ends the apply. The stack and the registers moved pass their error check. An empty
stack traps with ILLEGAL_OP, a block that a user handler did not open with SET_NEST.

R266, R276, R321, R322: END ends the warp once its accesses are done: it gives up its slot and its apply stack and
keeps its registers; it traps in a gathered block, delivers an owed deferred fault, and waits otherwise. EXIT removes
the lanes of S from the live set and goes on while one is left, with every register as before; an EXIT that empties
the live set ends the warp as END does. (The home positions of a warp outside a gathered block are its own lanes; a
stack that is not empty passes its error check.) No record of the core resumes a warp that has ended.

Rests on the model's choices of log entries 80 (DESIGN CHOICE: which fault END delivers when several classes owe one
(R321 says the first unresolved): that of `st`, then of `cp`, then of `tl`); 64 (DESIGN CHOICE: a Parked warp of a
gathered apply and its pin, a warp that waits to grow, and an L1 refill are each changed in one step); 107 (DESIGN
CHOICE: how a home warp whose live set a gathered block has emptied ends at the apply's end: R322 does not say whether
the steps of END apply (an owed fault, the wait for `ld` and `st`, the references of its apply stack); the model ends
it at once and keeps those references). Rests on the model's reading of log entry 19 (DEDUCED: EXIT inside a gathered
block removes home positions of other warps; a member warp whose live set becomes empty ends when the block has
scattered). -/
def Obligations.BlocksAndWarpsEnd : Prop :=
  (∀ (s : State) (r : Ref), s.issues r → r.isSlice = false →
     let w := s.warp r
     let outer : Prop := w.active = true ∧ w.stack.length = w.tbase
     (∀ e es, w.stack = e :: es → e.gathered = false → ¬outer → s.intact r .stack → s.mayGo r e.ret.toNat →
       ∃ t, exec .aend s = .next t ∧ t.last = .retired ∧ t.pcOf r = e.ret ∧ (t.warp r).cur = e.encl ∧ (t.warp r).stack = es ∧
         (t.warp r).v = w.v ∧ (t.warp r).g = w.g ∧ (t.warp r).sets = w.sets ∧
         (isWide e.setv = false → WarpOnly s t r { w with stack := es, cur := e.encl, pc := e.ret, pfx := none })) ∧
     (∀ e es g, w.stack = e :: es → e.gathered = true → w.gather = some g → ¬outer → s.intact r .stack →
       (∀ t, s.endChunk r g e = .ok t → exec .aend s = .next t) ∧
       (32 * (e.chunk + 1) < g.members.length → (∀ i, i < max e.nin e.nout → s.pendingV r (e.base + i) = false) →
         (∀ k ∈ otherHomes r.index g.members, s.homeQuiet r k e.base (max e.nin e.nout) = true) →
         s.soundRun r e.base e.nout = .ok () → s.soundHomes r g.members e.base e.nin (e.chunk + 1) = .ok () →
         ∃ t, exec .aend s = .next t ∧ t.last = .retired ∧ t.pcOf r = g.start ∧ (t.warp r).stack = { e with chunk := e.chunk + 1 } :: es ∧
           (t.warp r).cur = chunkLanes g.members.length (e.chunk + 1))) ∧
     (w.stack = [] → ¬outer → exec .aend s = .next (s.takeTrap r (Trap.of .illegalOp))) ∧
     (outer → exec .aend s = .next (s.takeTrap r (Trap.of .setNest)))) ∧
  (∀ (s : State) (r : Ref), s.issues r → r.isSlice = false →
     let w := s.warp r
     (w.stack = [] ∨ s.intact r .stack) →
     let ends (i : Instr) : Prop := ∃ t, exec i s = .next t ∧ t.last = .retired ∧ (t.warp r).status = .ended ∧ (t.warp r).slot = none ∧
       (t.warp r).stack = [] ∧ (∀ q, ∀ x ∈ Tab.get [] (t.core r.core).queues q, ¬(x.set = r.set ∧ x.warp = r.index ∧ x.kind = .resume)) ∧
       (t.warp r).v = w.v ∧ (t.warp r).g = w.g ∧ (t.warp r).sets = w.sets
     (w.inGathered = false → s.owedAny r = none → s.drained r = true → ends .endWarp) ∧
     (w.inGathered = true → exec .endWarp s = .next (s.takeTrap r (Trap.of .setNest))) ∧
     (∀ x, w.inGathered = false → s.owedAny r = some x → exec .endWarp s = .next (s.takeTrap r x)) ∧
     (w.inGathered = false → s.owedAny r = none → s.drained r = false → exec .endWarp s = .next { s with last := .stalled }) ∧
     (w.gather = none → w.inGathered = false → w.area = none →
       (s.fallsThrough r → (s.applied r = 0 ∨ w.live &&& ~~~s.applied r ≠ 0) → ∃ t, exec .exit s = .next t ∧ t.last = .retired ∧
         WarpOnly s t r { w with live := w.live &&& ~~~s.applied r, pc := s.nextPc r, pfx := none }) ∧
       (s.applied r ≠ 0 → w.live &&& ~~~s.applied r = 0 → s.owedAny r = none → s.drained r = true → ends .exit)) ∧
     (w.inGathered = true → s.fallsThrough r → exec .exit s = .next ((s.removeLive r).retire r)))

/-- R268, R282, R303, R323, R333: GROW adds granules at the top, whose registers read 0 and which carry the tag of the
workgroup's domain with a new epoch of the core, when they are free and no older warp waits for some; otherwise the
warp waits in Growing, its registers unchanged. SHRINK returns the top granules. A total above 24 or below 1 traps
with REG_BOUND, and either traps with SET_NEST in a gathered block.

R282, R303: after 1,024 cycles of a core on which every warp waits and one grows, one warp is to be swapped out: the
youngest Growing one but the oldest, or else the youngest unpinned Parked one. The oldest Growing warp takes its
granules once they are free, and its GROW retires.

Rests on the model's reading of log entry 49 (DEDUCED: the victim that makes room for a GROW is marked and swapped out
by its own SWAP_OUT event). -/
def Obligations.RegisterFileGrowth : Prop :=
  (∀ (n : BitVec 8) (s : State) (r : Ref), s.warpRuns r →
     let w := s.warp r
     let top := 8 * (w.gran - n.toNat)
     let free : Prop := n.toNat ≤ (s.core r.core).freeGranules ∧ ∀ x ∈ (s.core r.core).growers, older x ((s.wgOf r).seq, r.index, r.set) = false
     let kept (t : State) (top : Nat) : Prop := ∀ b, b ∈ (t.warp r).bad ↔ b ∈ w.bad ∧ ∀ k j, b = .v k j → k < top
     (w.inGathered = true → exec (.grow n) s = .next (s.takeTrap r (Trap.of .setNest)) ∧
       exec (.shrink n) s = .next (s.takeTrap r (Trap.of .setNest))) ∧
     (w.inGathered = false →
       (24 < w.gran + n.toNat → exec (.grow n) s = .next (s.takeTrap r (Trap.of .regBound))) ∧
       (w.gran < n.toNat + 1 → exec (.shrink n) s = .next (s.takeTrap r (Trap.of .regBound))) ∧
       (w.gran + n.toNat ≤ 24 → free → ∃ t, exec (.grow n) s = .next t ∧ t.last = .retired ∧
         (∀ k, (t.warp r).vreg k = if k < 8 * w.gran then w.vreg k else rowZero) ∧ kept t (8 * w.gran) ∧
         t.warp r = { w with v := (t.warp r).v, bad := (t.warp r).bad, gran := w.gran + n.toNat, pc := s.nextPc r, pfx := none } ∧
         (∀ i, i < n.toNat → Tab.get (0, 0) (t.core r.core).regTags (24 * (16 * r.set + r.index) + w.gran + i) =
           ((s.wgOf r).dom, nextEpoch (s.core r.core).epochs)) ∧
         (∀ r', r' ≠ r → t.warp r' = s.warp r') ∧ t = { s with cores := t.cores, last := t.last } ∧
         ∀ c, t.core c = { s.core c with wgs := (t.core c).wgs, epochs := (t.core c).epochs, regTags := (t.core c).regTags }) ∧
       (w.gran + n.toNat ≤ 24 → ¬free → ∃ t, exec (.grow n) s = .next t ∧ t.last = .held ∧
         WarpOnly s t r { w with status := .growing n.toNat, boost := 0, passed := 0, pfx := none }) ∧
       (n.toNat + 1 ≤ w.gran → (∀ i, i < 8 * n.toNat → s.pendingV r (top + i) = false) → ∃ t, exec (.shrink n) s = .next t ∧
         t.last = .retired ∧ (∀ k, k < top → (t.warp r).vreg k = w.vreg k) ∧ kept t top ∧
         WarpOnly s t r { w with v := (t.warp r).v, bad := (t.warp r).bad, gran := w.gran - n.toNat, pc := s.nextPc r, pfx := none }))) ∧
  (∀ (core : Nat) (s : State),
     (∀ q w k, (s.core core).stuck = true → 1024 ≤ (s.core core).growStall → (s.core core).growVictim = some (q, w, k) →
       ∃ t, exec (.growStallCheck core) s = .next t ∧ (t.core core).growStall = 0 ∧
         t.warpAt core k w = { s.warpAt core k w with swapDue := true } ∧
         (∀ k' w', (k', w') ≠ (k, w) → t.warpAt core k' w' = s.warpAt core k' w')) ∧
     ((s.core core).growStall < 1024 ∨ (s.core core).stuck = false → exec (.growStallCheck core) s = .next s) ∧
     (∀ k w n, (s.core core).growNext = some (k, w, n) → ∃ t, exec (.growGrant core) s = .next t ∧
       (t.warpAt core k w).status = .running ∧ (t.warpAt core k w).gran = (s.warpAt core k w).gran + n ∧
       (t.warpAt core k w).pc = (s.warpAt core k w).pc + 4 ∧
       (∀ i, (t.warpAt core k w).vreg i = if i < 8 * (s.warpAt core k w).gran then (s.warpAt core k w).vreg i else rowZero) ∧
       (∀ k' w', (k', w') ≠ (k, w) → t.warpAt core k' w' = s.warpAt core k' w')) ∧
     ((s.core core).growNext = none → exec (.growGrant core) s = .next s))

/-- R36, R209, R218, R262, R265, R267, R288, R294, R319, R320: SPAWN and LAUNCH read their record as a relaxed uniform
load at issue. With room on the core the record is queued, on chip (0) or behind it in the backing area (1), once the
release that goes with it can be made (the warp's accesses are done and no vault holds its core's dirty bytes); with
none, 2 is written and nothing is queued. A record field out of range traps with ILLEGAL_FIELD and a completion target
that fails its check with its cause; both queue nothing.

R168 to R170: RFLUSH outside a deterministic launch only retires. In one it moves the workgroup's partials, tagged
with its epoch, to the launch's reduction area, empties its table and starts its next epoch, and waits while the area
has no room for them; no register and no byte of memory changes.

Rests on the model's choices of log entries 33 (DESIGN CHOICE: records that overflow to the backing area of a core
stay in the state as records, not as bytes in memory); 35 (DESIGN CHOICE: the size of the area that deterministic sums
are flushed to (R170 lets the supervisor choose it, at least one full table for each workgroup of an epoch): that
least size). -/
def Obligations.NewWorkIsQueued : Prop :=
  (∀ (d : Fin 48) (a : Fin 48) (s s1 : State) (r : Ref) (bs : List Byte), s.warpRuns r → s.canReadUni r (.g a) 2 →
     s.pendingG r d.val = false →
     let rel : Prop := s1.quiet r = true ∧ s1.dirtyHeld r.core (s1.domOf r) = false
     let co (t : State) : Core := t.core r.core
     let wrote (t : State) (x : Word) : Prop := t.last = .retired ∧ t.pcOf r = s.nextPc r ∧ (t.warp r).v = (s.warp r).v ∧
       (∀ n : Fin 48, t.greg r n.val = if n = d then x else s.greg r n.val)
     (s.readStruct r (s.pairOf r a) 32 32 = .ok (bs, s1) →
       let bad : Prop := codeOk (field bs 0 4) = false ∨ field bs 30 2 ≠ 0
       let p := field bs 28 1 % 4
       let g := s.wgOf r
       let new : Rec := { kind := .spawned, code := BitVec.ofNat 32 (field bs 0 4), join := BitVec.ofNat 32 (field bs 4 4), frame := BitVec.ofNat 64 (field bs 8 8), launch := g.launch, index := g.index, seq := s.nextSeq, prio := p, det := g.det, warp := 0, set := r.set, dom := g.dom, log := g.log, lrec := none }
       (bad → exec (.spawn (.g d) a) s = .next (s.takeTrap r (Trap.of .illegalField))) ∧
       (¬bad → rel → ((co s).onchip p).length < Config.contQueue → ∃ t, exec (.spawn (.g d) a) s = .next t ∧ wrote t 0 ∧
         (co t).onchip p = (co s).onchip p ++ [new] ∧ (co t).backing = (co s).backing ∧ t.nextSeq = s.nextSeq + 1 ∧
         (t.wgOf r).spawned = g.spawned + 1) ∧
       (¬bad → rel → Config.contQueue ≤ ((co s).onchip p).length → (co s).backRoom 32 = true → ∃ t, exec (.spawn (.g d) a) s = .next t ∧
         wrote t 1 ∧ (co t).inBacking p = (co s).inBacking p ++ [new] ∧ (co t).queues = (co s).queues ∧ t.nextSeq = s.nextSeq + 1 ∧
         (t.wgOf r).spawned = g.spawned + 1) ∧
       (¬bad → Config.contQueue ≤ ((co s).onchip p).length → (co s).backRoom 32 = false → ∃ t, exec (.spawn (.g d) a) s = .next t ∧
         wrote t 2 ∧ (co t).queues = (co s).queues ∧ (co t).backing = (co s).backing ∧ t.nextSeq = s.nextSeq ∧
         (t.wgOf r).spawned = g.spawned)) ∧
     (s.readStruct r (s.pairOf r a) 64 64 = .ok (bs, s1) →
       (launchHead bs = false → exec (.launch (.g d) a) s = .next (s.takeTrap r (Trap.of .illegalField))) ∧
       (∀ x, launchHead bs = true → s.doneTarget r (launchRec bs).done = .error (.trap x) → exec (.launch (.g d) a) s = .next (s.takeTrap r x)) ∧
       (∀ tgt, launchHead bs = true → s.doneTarget r (launchRec bs).done = .ok tgt → launchTail bs = false →
         exec (.launch (.g d) a) s = .next (s.takeTrap r (Trap.of .illegalField))) ∧
       (∀ tgt, launchHead bs = true → s.doneTarget r (launchRec bs).done = .ok tgt → launchTail bs = true →
         let req : LaunchReq := { lrec := launchRec bs, tgt := tgt, srcCore := some r.core }
         (rel → (co s).pendingL.length < Config.pendingQueue → ∃ t, exec (.launch (.g d) a) s = .next t ∧ wrote t 0 ∧
           (co t).pendingL = (co s).pendingL ++ [req] ∧ (co t).backL = (co s).backL) ∧
         (rel → Config.pendingQueue ≤ (co s).pendingL.length → (co s).backRoom 64 = true → ∃ t, exec (.launch (.g d) a) s = .next t ∧
           wrote t 1 ∧ (co t).backL = (co s).backL ++ [req] ∧ (co t).pendingL = (co s).pendingL) ∧
         (Config.pendingQueue ≤ (co s).pendingL.length → (co s).backRoom 64 = false → ∃ t, exec (.launch (.g d) a) s = .next t ∧
           wrote t 2 ∧ (co t).pendingL = (co s).pendingL ∧ (co t).backL = (co s).backL)))) ∧
  (∀ (s : State) (r : Ref), s.warpRuns r →
     let g := s.wgOf r
     let w : Warp := { s.warp r with pc := s.nextPc r, pfx := none }
     (g.det = false → ∃ t, exec .rflush s = .next t ∧ t.last = .retired ∧ WarpOnly s t r w) ∧
     (g.det = true → s.flushWaits r.core r.set = true → exec .rflush s = .next { s with last := .stalled }) ∧
     (g.det = true → s.flushWaits r.core r.set = false → ∃ t, exec .rflush s = .next t ∧ t.last = .retired ∧ t.warp r = w ∧ (∀ r', r' ≠ r → t.warp r' = s.warp r') ∧
       (t.wgOf r).partials = [] ∧ (t.wgOf r).redEpoch = g.redEpoch + 1 ∧ (∀ pa, t.physRead pa = s.physRead pa) ∧
       t.launches = s.launches.map fun l => if l.number = g.launch then { l with
         area := l.area ++ g.partials.map fun p => (g.redEpoch, g.index.toNat, p)
         flushed := (g.index.toNat, l.flushedBy g.index.toNat + 1) :: l.flushed.filter fun x => decide (x.1 ≠ g.index.toNat) } else l))

/-- R261, R262, R288, R289, R291, R292, R294: the launch sequencers and the refills. A die's sequencer takes the next
source of its rotation: a launch of a core leaves its pending queue and is accepted, an admitted push is accepted (the
walk to its record marks the tables) or refused to the host. It then pushes the record of the launch's next workgroup
to its core: that of its index in a deterministic launch, the least loaded one with room otherwise. The refills move
the oldest record of the backing area to a queue with room. None of them acts on a tripped die, and no sequencer
before the package has booted.

Rests on the model's choice of log entry 22 (DESIGN CHOICE: counters that number launches, records, epochs and
rotations start at 0, launch numbers at 1). Rests on the model's reading of log entry 45 (DEDUCED: the cores a grid's
workgroups go to are those of its domain's quads at the time each record is pushed). -/
def Obligations.LaunchSequencing : Prop :=
  ∀ (s : State),
    (∀ die, (s.nextSource die = none → exec (.launchAccept die) s = .next s) ∧
      (∀ p q qs, s.nextSource die = some (p + 1) → (s.core (64 * die + p)).pendingL = q :: qs →
        exec (.launchAccept die) s = .next (((s.modDie die fun x => { x with rotation := (p + 2) % 65 }).modCore (64 * die + p)
          fun c => { c with pendingL := qs }).accept die q)) ∧
      (∀ p ps, s.nextSource die = some 0 → s.admission = p :: ps →
        let u : State := { s.modDie die fun x => { x with rotation := 1 } with admission := ps }
        (∀ x, s.takePush p = .ok x → exec (.launchAccept die) s = .next ((u.walked p.dom p.recVa.toNat false).accept die
          { lrec := x, tgt := { dom := p.dom, ref := none, vector := p.vector, link := p.link }, srcCore := none })) ∧
        (∀ reason, s.takePush p = .error reason → exec (.launchAccept die) s = .next (u.refusePush p.tag reason)))) ∧
    (∀ die l c, s.nextPush die = some (l, c) → ∃ t, exec (.workgroupRecordPush die) s = .next t ∧
      (t.core c).onchip l.lrec.prio = (s.core c).onchip l.lrec.prio ++ [l.nextRec s.nextSeq] ∧ t.nextSeq = s.nextSeq + 1 ∧
      (∀ c', c' ≠ c → t.core c' = s.core c') ∧ (l.det = true → (s.partition l.dom)[l.pushed % (s.partition l.dom).length]? = some c) ∧
      t.launches = s.launches.map fun x => if x.number = l.number then { x with pushed := x.pushed + 1 } else x) ∧
    (∀ core q qs, (s.core core).backL = q :: qs → (s.core core).pendingL.length < Config.pendingQueue → (s.die (dieOf core)).tripped = false →
      exec (.pendingLaunchRefill core) s = .next (s.modCore core fun c => { c with pendingL := c.pendingL ++ [q], backL := qs })) ∧
    (∀ core prio x xs, (s.core core).inBacking prio = x :: xs → ((s.core core).onchip prio).length < Config.contQueue →
      (s.die (dieOf core)).tripped = false →
      ∃ t, exec (.continuationRefill core prio) s = .next t ∧ (t.core core).onchip prio = (s.core core).onchip prio ++ [x] ∧
        (t.core core).inBacking prio = xs ∧ ∀ p, p ≠ prio → (t.core core).onchip p = (s.core core).onchip p ∧
          (t.core core).inBacking p = (s.core core).inBacking p) ∧
    (∀ core prio, (s.die (dieOf core)).tripped = true → exec (.pendingLaunchRefill core) s = .next s ∧ exec (.continuationRefill core prio) s = .next s) ∧
    (∀ die, (s.die die).tripped = true ∨ s.boot ≠ .ready → exec (.launchAccept die) s = .next s ∧ exec (.workgroupRecordPush die) s = .next s)

/-- R209, R263, R264, R265, R283, R295, R296, R302, R361: a core takes its next record, its own or a stolen one: it leaves
its queue, the start is an acquire, and the workgroup, spawned warp, swapped warp or pre-empted workgroup starts. A
spawned warp starts at its code address with the workgroup's id, its frame and join word in `g0` to `g4`, all lanes
live and `s0` naming them. A pre-empted workgroup whose save areas hold a lost byte ends instead. (Without an order
log.) -/
def Obligations.RecordsStart : Prop :=
  ∀ (core owner : Nat) (x : Rec) (s : State), s.nextRecord core = some (owner, x) → x.log = .off →
    let u := (s.modCore owner fun c => { c with queues := Tab.set [] c.queues x.prio ((c.onchip x.prio).erase x) }).discardClean core
    (∀ l, x.kind = .start → x.lrec = some l → exec (.recordPop core) s = .next (u.startGroup core x l)) ∧
    (x.kind = .resume → exec (.recordPop core) s = .next (u.resumeWarp core x)) ∧
    (∀ ps, x.kind = .preempted → u.areaPages core x.dom x.frame.toNat (u.wg core x.set).areaBytes = some ps →
      let lost : Bool := (u.wg core x.set).warps.any (fun w => !w.2.isSwapped && u.areaLost w.2) || ps.any (fun b => u.badRange b.pa 65536)
      exec (.recordPop core) s = .next (if lost then u.saveLost core x.set else u.resumeGroup core x ps)) ∧
    (∀ i n, x.kind = .spawned → (s.wg core x.set).freeIndex = some i → (s.core core).freeSlots.head? = some n →
      ∃ t, exec (.recordPop core) s = .next t ∧
        let w := t.warpAt core x.set i
        let g (k : Nat) : Word := Tab.get 0 w.g k
        w.status = .running ∧ w.slot = some n ∧ w.gran = (s.wg core x.set).gran ∧ w.bad = [] ∧ w.pc = x.code ∧ w.live = BitVec.allOnes 32 ∧ w.cur = BitVec.allOnes 32 ∧ w.stack = [] ∧
        w.sreg 0 = inlineSet i (BitVec.allOnes 32) ∧ (∀ k, 0 < k → w.sreg k = 0) ∧ (∀ k, w.vreg k = rowZero) ∧ w.round = 0 ∧
        g 0 = (s.wg core x.set).index ∧ g 1 = BitVec.ofNat 32 (s.wg core x.set).launch ∧ g 2 = lo32 x.frame ∧ g 3 = hi32 x.frame ∧
        g 4 = x.join ∧ (∀ k, 4 < k → g k = 0) ∧ (t.wg core x.set).spawned = (s.wg core x.set).spawned - 1 ∧
        (∀ k, k ≠ i → t.warpAt core x.set k = s.warpAt core x.set k))

/-- R169, R179, R266, R267, R320, R366: ends. A workgroup all of whose warps and operations are done flushes its epoch,
releases its writes and frees what it holds: its queue set with the windows, the sets, the queue registers and the
slice in it, its array state and claim, its quad SRAM granules and its queued records; an inheritance chain keeps its
registers. A grid all of whose workgroups have ended is completed at its target and leaves the sequencer; an epoch
that all have ended closes: each address takes its old value and the sum of its partials in ascending order of
workgroup and warp, found through the tables as they stand, and one that is no longer mapped is logged. A target with
no valid object, at an address that does not translate (a page fault that the supervisor resolves is tried again), or
that is lost, is refused in the error log.

Rests on the model's choices of log entries 103 (DESIGN CHOICE: a copy or chain fault that is met after the END of its
warp has retired: R259 has END take the fault and does not say what becomes of a later one; the model keeps the
operation, and the workgroup does not end); 104 (DESIGN CHOICE: a warp that ends while Swapped, as the EXIT of a
gathered block empties its live set: R268 has the registers of Ended warps in the file and does not say how they come
there; the model leaves them in the save area, and the warp holds no granules); 111 (DESIGN CHOICE: where a
deterministic sum goes when its epoch closes: its target is translated anew, a mapping the supervisor holds is
completed first, and a target that the domain no longer maps is logged and dropped). Rests on the model's readings of
log entries 47 (DEDUCED: a queued SPAWN record keeps its workgroup from ending; a completion that cannot be delivered
is logged at the launch's home die with unit 0); 50 (DEDUCED: the completion of a grid waits while the workgroup that
is to be notified is pre-empted). -/
def Obligations.WorkEnds : Prop :=
  ∀ (s : State),
    (∀ core set, s.wgDone core set = true →
      let g := s.wg core set
      let index := g.index.toNat
      ∃ t, exec (.workgroupEnd core set) s = .next t ∧ t.wg core set = Workgroup.init ∧
        (∀ k, k ≠ set → t.wg core k = { s.wg core k with warps := (t.wg core k).warps }) ∧
        (∀ pa, t.physRead pa = (s.writeBackAll core g.dom).physRead pa) ∧ (∀ l ∈ (t.core core).l1, l.dom = g.dom → l.dirty = 0) ∧
        (t.array core).holder = (if (s.array core).holder = some set then none else (s.array core).holder) ∧
        (∀ n, n ∈ (t.array core).claims ↔ n ∈ (s.array core).claims ∧ n ≠ set) ∧
        (∀ i, Tab.get false (t.quad (quadOf core)).used i = if i ∈ g.granules then false else Tab.get false (s.quad (quadOf core)).used i) ∧
        (∀ p, ∀ x ∈ (t.core core).onchip p ++ (t.core core).inBacking p, ¬(x.set = set ∧ (x.kind = .spawned ∨ x.kind = .resume))) ∧
        (t.core core).keptRegs = (s.core core).keptRegs ++
          (if g.inhn = 0 then [] else [s.kept core set (Tab.get (0, 0) (s.core core).regTags (24 * 16 * set + g.inhlo / 8)).2]) ∧
        (∀ p ∈ t.pending, ¬(p.ref.core = core ∧ p.ref.set = set)) ∧
        t.launches = s.launches.map fun l => if l.number = g.launch then { l with
          ended := l.ended + 1, area := l.area ++ (if g.det then g.partials.map fun p => (g.redEpoch, index, p) else [])
          flushed := l.flushed.filter fun x => decide (x.1 ≠ index) } else l) ∧
    (∀ core set, s.wgDone core set = false → exec (.workgroupEnd core set) s = .next s) ∧
    (∀ n l, s.launches.find? (fun l => decide (l.number = n)) = some l →
      let may : Bool := l.complete && l.reachable && !(s.die l.home).tripped
      (may = false → exec (.gridComplete n) s = .next s) ∧ (∀ u : State, ∀ x ∈ (u.retireLaunch l).launches, x.number ≠ n) ∧
      (may = true → l.tgt.ref = none → l.lrec.done = 0 → exec (.gridComplete n) s = .next (s.retireLaunch l)) ∧
      (∀ r s1, may = true → l.tgt.ref = some r → s.arriveAt r.core r.set (winOff l.lrec.done) 0 = .ok s1 →
        exec (.gridComplete n) s = .next (s1.retireLaunch l)) ∧
      (∀ r c, may = true → l.tgt.ref = some r → s.arriveAt r.core r.set (winOff l.lrec.done) 0 = .error c →
        exec (.gridComplete n) s = .next ((s.refuseDone l c).retireLaunch l)) ∧
      (∀ refs, may = true → l.tgt.ref = none → l.lrec.done ≠ 0 → resolve s .atomic (sequencer l.dom) l.lrec.done 4 4 = .ok refs →
        (∀ b ∈ refs, s.held b.pa = false) → exec (.gridComplete n) s = .next (if refs.any s.badAt then (s.refuseDone l .dataLost).retireLaunch l else
          ((s.walked l.dom l.lrec.done.toNat true).writeRefs refs (leBytes 4 ((ofLe (refs.map s.readRef) + 1) % 2 ^ 32))).retireLaunch l)) ∧
      (∀ c a2, may = true → l.tgt.ref = none → l.lrec.done ≠ 0 → resolve s .atomic (sequencer l.dom) l.lrec.done 4 4 = .error (c, a2) →
        let pageFault : Prop := c = .pageNotPresent ∨ c = .pageProt
        (∀ m, pageFault → s.resolves l.dom l.lrec.done none = some m → exec (.gridComplete n) s = .next (s.completeTable l.dom m)) ∧
        (¬pageFault ∨ s.resolves l.dom l.lrec.done none = none → exec (.gridComplete n) s = .next ((s.refuseDone l c).retireLaunch l))) ∧
      (let ps := l.area.filter fun p => decide (p.1 = l.closed)
       let may : Bool := l.mayClose && s.sumsMay l.dom ps && !(s.die l.home).tripped
       (may = false → exec (.epochClose n) s = .next s) ∧
       (∀ m, may = true → s.sumsMap l.dom ps = some m → exec (.epochClose n) s = .next (s.completeTable l.dom m)) ∧
       (may = true → s.sumsMap l.dom ps = none → exec (.epochClose n) s =
         .next (((firstPartials ps).foldl (fun t p => t.sumAt l.home l.dom ps p) s).modLaunch n fun x =>
           { x with closed := x.closed + 1, area := x.area.filter fun p => decide (p.1 ≠ l.closed) })) ∧
       (∀ p ∈ ps, ∃ x ∈ firstPartials ps, x.addr = p.2.2.addr) ∧ (firstPartials ps).Pairwise (fun x y => x.addr ≠ y.addr) ∧
       (∀ (u : State) (p : Partial),
         (∀ c, u.sumHome l.dom p = .error c → u.sumAt l.home l.dom ps p =
           u.logError l.home { time := u.time, addr := BitVec.ofNat 64 p.va, cause := c.code, kind := 2, dom := l.dom, unit := 0 }) ∧
         (∀ b, u.sumHome l.dom p = .ok b →
           let refs := (List.range 4).map fun i => { b with pa := b.pa + i }
           refs.any u.badAt = false → ∃ mine : List (Nat × Nat × Partial), mine.Perm (ps.filter fun x => decide (x.2.2.addr = p.addr)) ∧
             mine.Pairwise (fun x y => x.2.1 < y.2.1 ∨ (x.2.1 = y.2.1 ∧ x.2.2.warp ≤ y.2.2.warp)) ∧
             u.sumAt l.home l.dom ps p = (u.walked l.dom p.va true).writeRefs refs
               (leBytes 4 (fadd .rne (BitVec.ofNat 32 (ofLe (refs.map u.readRef))) (treeAll (fadd .rne) (mine.map fun x => x.2.2.val))).toNat)))))

/-- R284, R286, R326: ALD waits for room in its queue and then for its row, 128 bytes of an aligned address. When the load
is done, and the loads to that queue issued before it are, its row stands last in the queue and the slice goes on
behind the ALD; a cause that reaches the program, a lost byte among them, marks the row and halts the slice at its
ALD; a page fault that the supervisor resolves only delays the row. (For a slice that no marked row has halted.)

Rests on the model's reading of log entry 54 (DEDUCED: an access slice executes nothing while its ALD is in flight;
when a handler at either privilege returns from ACCESS_FAULT the slice is restarted, and a marked row that no load of
an ALD made is removed). -/
def Obligations.SliceLoads : Prop :=
  ∀ (s : State),
    (∀ (q : Fin 8) (a : Fin 48) (i8 : BitVec 8) (r : Ref), s.issues r → r.isSlice = true → s.fallsThrough r → s.canReadUni r (.g a) 2 →
      ((s.wgOf r).slice.faulted = none →
        (((s.wgOf r).queue q.val).rows.length < Config.queueRows → ∃ t, exec (.ald q a i8) s = .next t ∧ t.last = .held ∧
          t.wgOf r = { s.wgOf r with slice := { (s.wgOf r).slice with pending := some { q := q.val, seqNo := s.nextIssue, addr := s.pairOf r a + BitVec.ofInt 64 (i8.toInt * 128), pc := s.pcOf r } } } ∧
          (∀ r', t.warp r' = s.warp r') ∧ t = { s with cores := t.cores, nextIssue := s.nextIssue + 1, last := t.last }) ∧
        (Config.queueRows ≤ ((s.wgOf r).queue q.val).rows.length → exec (.ald q a i8) s = .next { s with last := .stalled }))) ∧
    (∀ (q : Fin 8) (a : Fin 48) (i8 : BitVec 8) (r : Ref), s.issues r → r.isSlice = false →
      exec (.ald q a i8) s = .next (s.takeTrap r (Trap.of .queueMisuse))) ∧
    (∀ core set op, (s.wg core set).slice.pending = some op → (s.wg core set).slice.faulted = none → (s.wg core set).slice.halted = false →
      ((s.wg core set).queue op.q).rows.length < Config.queueRows →
      let a : Actor := { core := core, set := set, dom := (s.wg core set).dom, superv := false }
      let marked (c : Cause) (addr : DWord) : Prop :=
        let m : Mark := { cause := c, addr := addr, pc := op.pc }
        ∃ t, exec (.aldRowReturn core set) s = .next t ∧
          ((t.wg core set).queue op.q).rows = ((s.wg core set).queue op.q).rows ++ [{ row := rowZero, mark := some m, bad := false }] ∧
          (t.wg core set).slice = { (s.wg core set).slice with pending := none, faulted := some m, halted := true, pc := op.pc, waiting := false }
      (s.engineHeld a .load op.addr.toNat 128 = true ∨ s.pushesBefore core set op.seqNo op.q = true → exec (.aldRowReturn core set) s = .next s) ∧
      (s.engineHeld a .load op.addr.toNat 128 = false → s.pushesBefore core set op.seqNo op.q = false →
        (∀ refs, resolve s .load a op.addr 128 128 = .ok refs →
          ((∃ b ∈ refs, s.lostAt core false b = true) → marked .dataLost op.addr) ∧
          ((∀ b ∈ refs, s.lostAt core false b = false) →
            ∃ t bs u, exec (.aldRowReturn core set) s = .next t ∧ (s.touchAll a false [op.addr.toNat]).readNow core a.dom refs = (bs, u) ∧
              ((t.wg core set).queue op.q).rows = ((s.wg core set).queue op.q).rows ++ [{ row := rowOf fun j => BitVec.ofNat 32 (field bs (4 * j) 4), mark := none, bad := false }] ∧
              (t.wg core set).slice = { (s.wg core set).slice with pending := none, pc := op.pc + 4, waiting := false } ∧
              ∀ p, t.physRead p = u.physRead p)) ∧
        (∀ c a2, resolve s .load a op.addr 128 128 = .error (c, a2) →
          let pageFault : Prop := c = .pageNotPresent ∨ c = .pageProt
          (∀ m, pageFault → s.resolves a.dom op.addr a2 = some m → exec (.aldRowReturn core set) s = .next (s.completeTable a.dom m)) ∧
          (¬pageFault ∨ s.resolves a.dom op.addr a2 = none → marked c (a2.getD op.addr)))))

/-- R375, R376, R377, R380: ENTER pushes its id, entry 15 of a full stack is dropped; LEAVE pops down to and including the
topmost copy of its id, or nothing; MARK and BKPT leave the stack. An ENTER or LEAVE whose edge is armed and a BKPT
that is enabled stop for the supervisor after their whole effect, with the site and the code in `cr.scause` and the
next word in `cr.sepc`, and the stop is reported to the host (no write of `g40` to `g47`, which the trap area saves,
is pending); otherwise the warp goes on. No register changes, and without trace records no memory. -/
def Obligations.RegionInstructions : Prop :=
  ∀ (x : BitVec 16) (s : State) (r : Ref), s.warpRuns r →
    let w := s.warp r
    let d := s.dom (s.domOf r)
    let keeps (t : State) (rs : List (BitVec 16)) : Prop := t.last = .retired ∧ (t.warp r).regions = rs ∧ (t.warp r).v = w.v ∧
      (t.warp r).g = w.g ∧ (t.warp r).sets = w.sets
    let goes (i : Instr) (rs : List (BitVec 16)) : Prop := ∃ t, exec i s = .next t ∧ keeps t rs ∧ t.pcOf r = s.nextPc r ∧
      (d.octl.getLsbD 1 = false → d.octl.getLsbD 2 = false → ∀ pa, t.physRead pa = s.physRead pa)
    let stops (i : Instr) (rs : List (BitVec 16)) (site : Nat) : Prop := s.savable r = true → ∃ t, exec i s = .next t ∧ keeps t rs ∧
      t.pcOf r = (s.core r.core).svec ∧ (t.warp r).sepc = s.nextPc r ∧ (t.warp r).priv = true ∧ (t.warp r).spriv = w.priv ∧
      (t.warp r).scause = BitVec.ofNat 32 (0x22 + 256 * site + 65536 * x.toNat) ∧
      (t.dom (s.domOf r)).stops = d.stops ++ [((s.wgOf r).launch, (s.wgOf r).index, r.index, (t.warp r).scause, s.nextPc r)]
    let pushed := (x :: w.regions).take 16
    let popped := if x ∈ w.regions then w.regions.drop (w.regions.idxOf x + 1) else w.regions
    (d.armed x false = false → goes (.enter x) pushed) ∧ (d.armed x false = true → stops (.enter x) pushed 1) ∧
    (d.armed x true = false → goes (.leave x) popped) ∧ (d.armed x true = true → stops (.leave x) popped 2) ∧
    goes (.mark x) w.regions ∧
    (d.octl.getLsbD 3 = false → goes (.bkpt x) w.regions) ∧ (d.octl.getLsbD 3 = true → stops (.bkpt x) w.regions 0)

/-- R346, R348: CSRR writes a control register's value to its destination and changes nothing else; a register from 0x100
on traps with PRIV at user privilege.

R8, R94, R184, R213, R293, R301, R346, R348: CSRW stores what its register takes of the value, and the register reads
back so; reserved bits read 0. In `cr.events` the written ones clear the doorbell, and at supervisor privilege the
die's events. A register that the privilege may not write traps with PRIV, one read-only at every privilege and a bad
value with ILLEGAL_FIELD; a supervisor entry outside the supervisor's granules is bad too.

Rests on the model's reading of log entry 53 (DEDUCED: a CSRW of `cr.tvec` checks that the address is aligned and
inside instruction memory, not who owns its granule (R348); that of `cr.svec` also that the granule is the
supervisor's (R346)). -/
def Obligations.ControlRegisters : Prop :=
  (∀ (x : Reg) (c : Csr) (s : State) (r : Ref), s.warpRuns r → x.isUniDst = true →
     ((csrSuper c = false ∨ s.isSuper r = true) → s.canWriteUni r [] x →
       ∃ t, exec (.csrr x c) s = .next t ∧ UniDone s t r [] x (s.csrRead r c)) ∧
     (csrSuper c = true → s.isSuper r = false → exec (.csrr x c) s = .next (s.takeTrap r (Trap.of .priv)))) ∧
  (∀ (x : Reg) (c : Csr) (s : State) (r : Ref), s.warpRuns r → x.isUniSrc = true → s.canReadUni r x 1 →
     let v := s.uniRead r x
     let may : Prop := s.isSuper r = true ∨ (csrSuper c = false ∧ csrUserWrites c = true)
     let takes : Option Word := match c with
       | .round => some (v &&& 3#32)
       | .cause => some (v &&& 0xFFFF00FF#32)
       | .scause => some (v &&& 0xFFFF03FF#32)
       | .tvec | .epc | .ftab | .ftabhi | .tcmp | .tcmphi | .svec | .sepc | .ptbase | .ptbasehi | .hptbase | .hptbasehi
       | .vwbase | .vwbasehi | .toffset | .toffsethi => some v
       | .dmode => some (if v.toNat / 4 % 4 = 3 then s.csrRead r .dmode else v &&& 0xD#32)
       | .clkw => some (BitVec.ofNat 32 (min 1000 (max 20 (v.toNat % 1024))))
       | .wrefresh => some (BitVec.ofNat 32 (v.toNat % 32768 % 32000))
       | .swapwait => some (v &&& 0xFFFFFF#32)
       | .tmode => some (v &&& 1#32)
       | .tscale => some (if v = 0 then 0x10000#32 else v)
       | .sdom => some (v &&& 0x3FF#32)
       | _ => none
     (may → csrReadOnly c = false → s.csrRefuses r.core c v = false → ∃ t, exec (.csrw x c) s = .next t ∧ t.last = .retired ∧
       t.pcOf r = s.nextPc r ∧ (∀ y, takes = some y → t.csrRead r c = y) ∧
       (c = .events → (t.dom (s.csrDom r)).doorbell = ((s.dom (s.csrDom r)).doorbell && !v.getLsbD 0) ∧
         (t.die (dieOf r.core)).events = (s.die (dieOf r.core)).events &&& ~~~(if s.isSuper r then v &&& 0xF00#32 else 0)) ∧ (t.warp r).v = (s.warp r).v ∧ (t.warp r).g = (s.warp r).g ∧
       (t.warp r).sets = (s.warp r).sets ∧ (∀ r', r' ≠ r → t.warp r' = s.warp r') ∧ ∀ pa, t.physRead pa = s.physRead pa) ∧
     (¬may → exec (.csrw x c) s = .next (s.takeTrap r (Trap.of .priv))) ∧
     (may → csrReadOnly c = true ∨ s.csrRefuses r.core c v = true → exec (.csrw x c) s = .next (s.takeTrap r (Trap.of .illegalField))))

/-- R308, R328, R355 to R358, R373: taking an exception. While a write of a register that the trap area saves is pending,
or the user's trap area cannot be stored to yet, the stream waits. A cause that goes first to the supervisor, a warp
without a handler, with an active one or at supervisor privilege enters at `cr.svec` with the cause, address and
privilege saved; so does a handler in a foreign granule, with PRIV, and a trap area that cannot be written. Otherwise
the user handler is entered at `cr.tvec` with the cause, the address and the apply depth saved. No register, set,
apply entry or live lane of any warp changes.

Rests on the model's choice of log entry 9 (DESIGN CHOICE: what delivery to the supervisor stores when the core's
STRAP has never been set: nothing). Rests on the model's reading of log entry 96 (DEDUCED: an exception entry waits
until no write of `g40` to `g47` is pending and its trap area can be stored to (R29, R177, R357); an instruction that
takes its trap after its effect waits with it). -/
def Obligations.ExceptionEntry : Prop :=
  ∀ (x : Trap) (s : State) (r : Ref), r.isSlice = false →
    let w := s.warp r
    let t := s.takeTrap r x
    let epc := if x.after then s.nextPc r else s.pcOf r
    let code (c : Cause) : Word := BitVec.ofNat 32 (c.code.toNat + 256 * x.site.toNat + 65536 * x.code.toNat)
    let toSupervisor (pc : Word) : Prop := t.last = .trapped ∧ (t.warp r).pc = (s.core r.core).svec ∧ (t.warp r).sepc = pc ∧
      (t.warp r).priv = true ∧ (t.warp r).spriv = w.priv ∧ (t.warp r).sactive = true
    let goesUp : Prop := x.supervisorFirst = true ∨ w.tvec = 0 ∨ w.active = true ∨ w.priv = true
    (∀ r', (t.warp r').v = (s.warp r').v ∧ (t.warp r').g = (s.warp r').g ∧ (t.warp r').sets = (s.warp r').sets ∧
      (t.warp r').stack = (s.warp r').stack ∧ (t.warp r').cur = (s.warp r').cur ∧ (t.warp r').live = (s.warp r').live) ∧
    (s.savable r = false → t = { s with last := .stalled }) ∧
    (s.savable r = true → goesUp → toSupervisor epc ∧ (x.causes = [x.cause] → (t.warp r).scause = code x.cause)) ∧
    (s.savable r = true → ¬goesUp → s.foreign r w.tvec = true →
      toSupervisor (s.pcOf r) ∧ (t.warp r).scause = BitVec.ofNat 32 Cause.priv.code.toNat) ∧
    (s.savable r = true → ¬goesUp → s.foreign r w.tvec = false →
      (s.saveBad r = true → toSupervisor epc) ∧
      (s.saveBad r = false → (∀ e, areaRefs s r .store = .error e → toSupervisor epc) ∧
        ∀ refs, areaRefs s r .store = .ok refs →
          (s.areaFree r refs = false → t = { s with last := .stalled }) ∧
          (s.areaFree r refs = true → t.last = .trapped ∧ (t.warp r).pc = w.tvec ∧ (t.warp r).epc = epc ∧
            (t.warp r).tbase = w.stack.length ∧ (t.warp r).active = true ∧ (t.warp r).priv = false ∧ (t.warp r).deferred = x.deferred ∧
            (x.causes = [x.cause] → (t.warp r).cause = code x.cause))))

/-- R349: TRAP and SYSCALL, from their words to their effect, whatever S holds. OP 0x72 and 0x73 with d = 0 carry a 16-bit
code; a nonzero d is ILLEGAL_FIELD. SYSCALL goes to `cr.svec` at supervisor privilege with cause 0x21, its code in
bits 31:16 of `cr.scause` and PC + 4 in `cr.sepc`. TRAP goes to `cr.tvec` with cause 0x20, its code in `cr.cause` and
PC + 4 in `cr.epc`, and to the supervisor if `cr.tvec` is 0. (No write of a register that the trap area saves pending;
a next word that the warp may execute; a user handler in a granule the warp may execute, no handler active, and a trap
area that can be written.) Where the next word lies in a foreign granule both trap with PRIV instead. -/
def Obligations.TrapAndSyscall : Prop :=
  (∀ w : Word, (fop w = 0xF2#8 → fd w = 0 → decode none w = .ok (.trap (f16 w))) ∧
    (fop w = 0xF3#8 → fd w = 0 → decode none w = .ok (.syscall (f16 w))) ∧
    ((fop w = 0xF2#8 ∨ fop w = 0xF3#8) → fd w ≠ 0 → decode none w = .error .illegalField)) ∧
  decode none 0xF2000007 = .ok (.trap 7) ∧ decode none 0xF3000007 = .ok (.syscall 7) ∧
  ∀ (i16 : BitVec 16) (s : State) (r : Ref), s.issues r → r.isSlice = false → (s.warp r).pfx = none →
    let w := s.warp r
    let toSupervisor (i : Instr) (c : Word) : Prop := s.savable r = true → ∃ t, exec i s = .next t ∧ t.last = .retired ∧ (t.warp r).pc = (s.core r.core).svec ∧
      (t.warp r).priv = true ∧ (t.warp r).sepc = w.pc + 4 ∧ (t.warp r).scause = c ||| (i16.setWidth 32 <<< 16)
    (s.foreign r (w.pc + 4) = false → toSupervisor (.syscall i16) 0x21#32 ∧ (w.tvec = 0 → toSupervisor (.trap i16) 0x20#32)) ∧
    (s.foreign r (w.pc + 4) = true → ∀ i ∈ [Instr.syscall i16, .trap i16], exec i s = .next (s.takeTrap r (Trap.of .priv))) ∧
    (∀ refs, s.foreign r (w.pc + 4) = false → w.tvec ≠ 0 → w.active = false → w.priv = false → s.foreign r w.tvec = false → s.savable r = true → s.saveBad r = false →
      areaRefs s r .store = .ok refs → s.areaFree r refs = true → ∃ t, exec (.trap i16) s = .next t ∧ t.last = .retired ∧ (t.warp r).pc = w.tvec ∧ (t.warp r).priv = false ∧
        (t.warp r).epc = w.pc + 4 ∧ (t.warp r).cause = 0x20#32 ||| (i16.setWidth 32 <<< 16))

/-- R38, R40, R52, R366: a word that is no instruction takes its trap at its own address, a lost one as DATA_LOST with the
PC recorded. A prefix word whose pair is an instruction is latched for the next word; the trap of a bad pair is taken
at the prefix word, and one in the last word of instruction memory is ILLEGAL_PREFIX.

R22, R52, R308: where lane and uniform instructions trap. A next word in a foreign granule traps with PRIV, a lane
register at or above the allocation with REG_BOUND, each before any effect.

Rests on the model's choice of log entry 76 (DESIGN CHOICE: whether the PRIV of a next word in a foreign granule
(R308) comes before REG_BOUND (order 6 of R52) and the execution checks of the same instruction: the model checks it
before them). Rests on the model's readings of log entries 15 (DEDUCED: a PFX word and the word it modifies are one
instruction (R38); the model takes two steps for them, with the payload latched between and nothing else done); 40
(DEDUCED: REG_BOUND of a register number in the word is checked whether or not S is empty, since R52 lists it among
the decode checks; that of a register index read at execution (MOVXR, MOVXW) is not (R110, R287)). -/
def Obligations.BadWordsAndForeignCode : Prop :=
  (∀ (s : State) (r : Ref), s.issues r →
     let lost : Trap := { Trap.of .dataLost with
       recs := [{ lane := 0, cause := .dataLost, addr := (s.pcOf r).setWidth 64, addr2 := none, aux := 0 }], unif := true }
     (∀ c, c ≠ .dataLost → exec (.illegalWord c) s = .next (s.takeTrap r (Trap.of c))) ∧
     exec (.illegalWord .dataLost) s = .next (s.takeTrap r lost) ∧
     (∀ (p : BitVec 24) (w : Word), s.secondWord r = some w → s.codeBad r (s.pcOf r + 4) = true →
       exec (.pfx p) s = .next (s.takeTrap r lost)) ∧
     (∀ (p : BitVec 24) (w : Word), s.secondWord r = some w → s.codeBad r (s.pcOf r + 4) = false → s.foreign r (s.pcOf r + 4) = false →
       (∀ i, decodeAt ((s.pcOf r).toNat + 4) (some p) w = .ok i → ∃ t, exec (.pfx p) s = .next t ∧ t.last = .retired ∧
         t.pfxOf r = some p ∧ t.pcOf r = s.pcOf r ∧ (r.isSlice = false → WarpOnly s t r { s.warp r with pfx := some p })) ∧
       (∀ c, decodeAt ((s.pcOf r).toNat + 4) (some p) w = .error c → exec (.pfx p) s = .next (s.takeTrap r (Trap.of c)))) ∧
     (∀ p, s.secondWord r = none → exec (.pfx p) s = .next (s.takeTrap r (Trap.of .illegalPfx)))) ∧
  (∀ (s : State) (r : Ref), s.issues r → r.isSlice = false →
     let trap (i : Instr) (c : Cause) : Prop := exec i s = .next (s.takeTrap r (Trap.of c))
     (s.foreign r (s.nextPc r) = true →
       trap .nop .priv ∧ trap .yield .priv ∧ (∀ l st c t, trap (.waitc l st c t) .priv) ∧
       (∀ (d a : Reg) (b : Src), (∀ e ∈ intTable, trap (e.1 d a b) .priv) ∧ (∀ e ∈ floatTable, trap (e.1 d a b) .priv) ∧
         (∀ e ∈ uniTable, trap (e.1 d a b) .priv) ∧ (∀ e ∈ unaryTable, trap (e.1 d a) .priv) ∧ trap (.gmov d a) .priv) ∧
       (∀ (a : Fin 48) (b : Reg), trap (.barinit a b) .priv ∧ trap (.arrive a b) .priv) ∧ (∀ n, trap (.grow n) .priv)) ∧
     (s.fallsThrough r → ∀ (n : Fin 192) (x : Reg) (b : Src), 8 * (s.warp r).gran ≤ n.val →
       (∀ e ∈ intTable, trap (e.1 x (.v n) b) .regBound ∧ trap (e.1 (.v n) x b) .regBound) ∧
       (∀ e ∈ floatTable, trap (e.1 x (.v n) b) .regBound ∧ trap (e.1 (.v n) x b) .regBound) ∧
       (∀ e ∈ unaryTable, trap (e.1 x (.v n)) .regBound ∧ trap (e.1 (.v n) x) .regBound)))

/-- R350, R358, R359: RTE. At supervisor privilege the privilege and the program counter come back from the supervisor
trap state. At user privilege the warp continues at `cr.epc` with `g40` to `g47` from the trap area and no handler
active; the deferred operation is restarted or cancelled first; the supervisor's return from an ACCESS_FAULT restarts
a slice that a marked row halted, and one to a granule that the warp may not execute traps with PRIV. With no handler
running it traps with PRIV, at another apply depth with SET_NEST.

Rests on the model's readings of log entries 37 (DEDUCED: RTE at supervisor privilege restores the privilege and the
program counter (R350), nothing else; a stop waits for the host's word, which comes through REGISTER_WRITE); 52
(DEDUCED: the saved PC that an RTE at supervisor privilege returns to is the target of a transfer (R308), though R350
lists no such case: where the warp may not run the granule, the RTE traps with PRIV, and the firmware reflects it); 54
(DEDUCED: an access slice executes nothing while its ALD is in flight; when a handler at either privilege returns from
ACCESS_FAULT the slice is restarted, and a marked row that no load of an ALD made is removed). -/
def Obligations.ExceptionReturn : Prop :=
  ∀ (s : State) (r : Ref), s.issues r → r.isSlice = false →
    let w := s.warp r
    (w.priv = true → w.sactive = true →
      let u := if w.scause.extractLsb' 0 8 = Cause.accessFault.code then s.restartSlice r else s
      let back : Warp := { w with priv := w.spriv, sactive := false, service := none, pc := w.sepc, pfx := none }
      ((u.modWarp r fun _ => back).foreign r w.sepc = false → ∃ t, exec .rte s = .next t ∧ t.last = .retired ∧ WarpOnly u t r back) ∧
      ((u.modWarp r fun _ => back).foreign r w.sepc = true → exec .rte s = .next (s.takeTrap r (Trap.of .priv)))) ∧
    (w.priv = true → w.sactive = false → exec .rte s = .next (s.takeTrap r (Trap.of .priv))) ∧
    (w.priv = false → w.active = false → exec .rte s = .next (s.takeTrap r (Trap.of .priv))) ∧
    (w.priv = false → w.active = true → w.stack.length ≠ w.tbase → exec .rte s = .next (s.takeTrap r (Trap.of .setNest))) ∧
    (∀ bs s1, w.priv = false → w.active = true → w.stack.length = w.tbase → (∀ i, i < 8 → s.pendingG r (40 + i) = false) →
      s.readStruct r w.ftab 64 16 = .ok (bs, s1) →
      let abandon := (field bs 14 1).testBit 0
      let u := if w.cause.extractLsb' 0 8 = Cause.accessFault.code then s1.restartSlice r else s1
      ¬(abandon = true ∧ w.deferred = .none ∧ w.inGathered = true) → s.mayGo r w.epc.toNat →
      exec .rte s = .next (((u.settleDeferred r w.deferred abandon).leaveHandler r bs).goto r w.epc) ∧
      (w.deferred = .none → ∃ t, exec .rte s = .next t ∧ t.last = .retired ∧ t.pcOf r = w.epc ∧ (t.warp r).active = false ∧
        (t.warp r).v = w.v ∧ (t.warp r).sets = w.sets ∧ (t.warp r).stack = w.stack ∧ (t.warp r).cur = w.cur ∧
        ∀ n : Fin 48, t.greg r n.val = if 40 ≤ n.val then BitVec.ofNat 32 (field bs (32 + 4 * (n.val - 40)) 4) else s.greg r n.val))

/-- R203, R329, R351, R352: TLBINV, for the supervisor alone, performs the dirty bytes of its target domain and drops its
translations, all of them or those that cover an address, in every core and quad; while an access of that domain is
outstanding it stalls. CFLUSH performs the dirty bytes of its own domain's lines and drops them, those a range covers
or all of them for a count of 0; a range outside one space traps with SPACE. No register changes. (No access of the
target is under way, and no vault that takes no access holds up a write-back.)

Rests on the model's reading of log entry 55 (DEDUCED: CFLUSH waits for the accesses in flight of its own warp, TLBINV
for those of the whole domain). -/
def Obligations.CachesAreFlushed : Prop :=
  ∀ (s : State) (r : Ref), s.warpRuns r →
    (∀ a : Fin 48, s.canReadUni r (.g a) 2 →
      let x := s.pairOf r a
      let va : Option Nat := if x.getLsbD 63 then none else some (x.toNat % 2 ^ 56)
      (s.isSuper r = false → exec (.tlbinv a) s = .next (s.takeTrap r (Trap.of .priv))) ∧
      (s.isSuper r = true → bitsOf x.toNat 62 56 ≠ 0 → exec (.tlbinv a) s = .next (s.takeTrap r (Trap.of .illegalField))) ∧
      (s.isSuper r = true → bitsOf x.toNat 62 56 = 0 → s.domQuiet (s.warp r).sdom = true → ∃ t, exec (.tlbinv a) s = .next t ∧
        GoesOn s t r ∧ t.last = .retired ∧ (∀ pa, t.physRead pa = (s.flushDomain (s.warp r).sdom).physRead pa) ∧
        (∀ c, (t.core c).tlb = dropTlb (s.warp r).sdom va (s.core c).tlb) ∧
        (∀ q, (t.quad q).tlb = dropTlb (s.warp r).sdom va (s.quad q).tlb)) ∧
      (s.isSuper r = true → bitsOf x.toNat 62 56 = 0 → s.domQuiet (s.warp r).sdom = false → exec (.tlbinv a) s = .next { s with last := .stalled })) ∧
    (∀ a b : Reg, b.isUniSrc = true → s.canReadUni r b 1 → s.quiet r = true →
      let n := s.uniRead r b
      let mine := (s.core r.core).l1.filter fun l => decide (l.dom = s.domOf r)
      let performed (t : State) (ls : List L1Line) : Prop := ∀ l ∈ ls, (∀ x ∈ ls, x.line = l.line → x = l) →
        ∀ i, i < 128 → l.dirty.getLsbD i = true → t.physRead (l.line * 128 + i) = l.data.getD i 0
      let kept (t : State) : Prop := t.last = .retired ∧ t.pcOf r = s.nextPc r ∧ (t.warp r).v = (s.warp r).v ∧ (t.warp r).g = (s.warp r).g
      (n = 0 → s.linesFree mine = true → ∃ t, exec (.cflush a b) s = .next t ∧ kept t ∧ performed t mine ∧ ∀ l ∈ (t.core r.core).l1, l.dom ≠ s.domOf r) ∧
      (∀ g, n ≠ 0 → a = .g g → s.canReadUni r a 2 →
        let x := s.pairOf r g
        let last := x.toNat + n.toNat - 1
        let inOne : Prop := last < 2 ^ 56 ∧ bitsOf x.toNat 55 53 = bitsOf last 55 53 ∧ bitsOf last 55 53 ≤ 4
        let ps := s.spans r.core (s.domOf r) x.toNat n.toNat
        (inOne → s.linesFree (mine.filter fun l => ps.any fun p => l.meets p) = true → ∃ t, exec (.cflush a b) s = .next t ∧ kept t ∧ performed t (mine.filter fun l => ps.any fun p => l.meets p) ∧
          ∀ l ∈ (t.core r.core).l1, l.dom = s.domOf r → ∀ p ∈ ps, l.meets p = false) ∧
        (¬inOne → ∃ y, exec (.cflush a b) s = .next (s.takeTrap r y) ∧ y.cause = .space ∧ y.causes = [.space])))

/-- R284, R293, R346, R353, R371: WAITEV retires when an event of its mask has happened, at once for a mask of 0, and
otherwise waits; a mask with undefined bits traps with ILLEGAL_FIELD. LOGCTL sets its domain's log mode and where
entries are written or read, or reads the log position; no other register and no memory changes.

Rests on the model's reading of log entry 42 (DEDUCED: LOGCTL record and replay set the position and clear the
overflow or divergence flag; LOGCTL off does not read g(a)). -/
def Obligations.EventsAndLogControl : Prop :=
  ∀ (a : Reg) (s : State) (r : Ref), s.warpRuns r →
    let d := s.dom (s.domOf r)
    let x := s.uniRead r a
    let sets (i : Instr) (srcs : List Reg) (f : Domain → Domain) : Prop := ∃ t, exec i s = .next t ∧ t.last = .retired ∧
      t.pcOf r = s.nextPc r ∧ (t.warp r).v = (s.warp r).v ∧ (t.warp r).g = (s.warp r).g ∧ (∀ r', r' ≠ r → t.warp r' = s.warp r') ∧
      t.dom (s.domOf r) = { f d with lastTime := (t.dom (s.domOf r)).lastTime } ∧ (∀ e, e ≠ s.domOf r → t.dom e = s.dom e) ∧
      (∀ q : Fin 8, ((t.wgOf r).queue q.val).rows = s.rowsAfter r srcs .zero [] q) ∧ ∀ pa, t.physRead pa = s.physRead pa
    sets (.logctlOff a) [] (fun d => { d with log := .off }) ∧
    (a.isUniSrc = true → s.canReadUni r a 1 →
      sets (.logctlRecord a) [a] (fun d => { d with log := .record, logNext := x.toNat, overflow := false }) ∧
      sets (.logctlReplay a) [a] (fun d => { d with log := .replay, logFrom := x.toNat, logNext := x.toNat, cursors := [], diverged := false }) ∧
      (x &&& ~~~(0xF03#32) ≠ 0 → exec (.waitev a) s = .next (s.takeTrap r (Trap.of .illegalField))) ∧
      (x &&& ~~~(0xF03#32) = 0 → (x = 0 ∨ s.eventsOf r &&& x ≠ 0) →
        ∃ t, exec (.waitev a) s = .next t ∧ RegsDone s t r [a] (s.nextPc r) fun _ => none) ∧
      (x &&& ~~~(0xF03#32) = 0 → x ≠ 0 → s.eventsOf r &&& x = 0 → exec (.waitev a) s = .next { s with last := .stalled })) ∧
    (a.isUniDst = true → s.canWriteUni r [] a → ∃ t, exec (.logctlReadPosition a) s = .next t ∧
      UniDone s t r [] a (BitVec.ofNat 32 ((if d.diverged then 2 ^ 31 else 0) + (if d.overflow then 2 ^ 30 else 0) + d.logNext % 2 ^ 30)))

/-- R27, R297 to R299, R304, R382: a pipe of a core that runs adds every domain's share to its credits, which stay at or
below 512, and selects one candidate, or nothing when there is none; pipe 0 begins a cycle of the core. The selected
one is chosen before every other candidate: a domain with a share first, then the greater credit, the lower domain,
the greater effective priority, a slice, the lower sequence number, the lower warp index. After the first issue of the
uniform pipe's cycle a second pick follows, among the candidates that are still ready and, at back-off level 0, the
first pick's own warp when its next instruction is independent, but a domain without a share only where no other
domain has a candidate in the cycle; the other pipes, and a second pick, end the choice.

Rests on the model's choices of log entries 44 (DESIGN CHOICE: which instructions of one warp the uniform pipe takes
as independent (R27, R299): neither reads what the other writes, they write nothing in common, and the first does not
steer; memory counts as one thing that loads read and stores write); 106 (DESIGN CHOICE: the share of a domain on a
core that a SHARE write does not name (R297 does not say): 0). -/
def Obligations.IssueSelection : Prop :=
  ∀ (core pipe : Nat) (s : State), s.coreRuns core = true → pipe ≤ 4 →
    (s.turn = [] →
      let u := (if pipe = 0 then s.cycle core else s).addCredits core pipe
      let cs := u.cands core pipe
      ∃ t, exec (.issueSelect core pipe) s = .next t ∧ t = { u with turn := t.turn } ∧ (t.turn = [] ↔ cs = []) ∧ t.turn.length ≤ 1 ∧
        (∀ x ∈ t.turn, x.pipe = pipe ∧ x.second = false ∧ (∃ a ∈ cs, a.ref = x.ref ∧ ∀ b ∈ cs, candBefore (u.core core) pipe a b = true) ∧
          ∀ r, r ∈ x.passed ↔ r ≠ x.ref ∧ ∃ b ∈ cs, b.ref = r) ∧
        (∀ d ∈ s.domsOn core, (u.core core).credit pipe d ≤ 512)) ∧
    (∀ (x : Turn) (i : Instr), x.ref.core = core → x.pipe = pipe →
      let lets (y : Cand) : Bool := decide ((s.core core).shareOf y.dom ≠ 0) || (x.ref :: x.passed).all fun p => decide (s.domOf p = y.dom)
      let again := (s.cands core pipe).filter fun y => (x.passed.contains y.ref ||
        (decide (y.ref = x.ref) && decide ((s.warp x.ref).level = 0) && independent i (s.comingUp x.ref))) && lets y
      (pipe < 4 ∨ x.second = true → (s.afterIssue x i).turn = []) ∧
      (pipe = 4 → x.second = false → ((s.afterIssue x i).turn = [] ↔ again = []) ∧
        ∀ y ∈ (s.afterIssue x i).turn, y.pipe = 4 ∧ y.second = true ∧ ∃ a ∈ again, a.ref = y.ref ∧ ∀ b ∈ again, candBefore (s.core core) 4 a b = true))

/-- R268, R300, R301, R302, R304, R373: a write to a line that a warp's last POLL read resets its level; a warp parked for
`cr.swapwait` cycles and not pinned is to be swapped out; one that may be is saved, gives up its slot and holds no
register any more, and one with a register that fails its error check ends with its workgroup. An event that cannot
happen changes nothing.

R262, R302, R360, R373, R387: pre-emption. A request with a misaligned area or for a workgroup that is not there is
refused with status 3, one for a resident workgroup marks it, and one on an absent die is discarded; once everything
it waits for has happened it is saved and everything it holds is free: the queue set is empty, the core has no request
and status 2; a register or quad SRAM byte that fails its error check ends the workgroup with status 3 instead. A held
kind 3 record is pushed later.

R360 to R363: the bytes that a save writes give back what was saved. A warp's registers, sets, live set, apply stack
and trap state read back from its area as they were, and so do the queues, windows, slice registers and maps of a
workgroup, with its quad SRAM. (What they hold fits the layouts; the pages of the workgroup's area are pages of their
own. The device keeps what the layouts do not carry.)

Rests on the model's readings of log entries 48 (DEDUCED: details of pre-emption that R360 leaves open: no stream of
the workgroup issues once the request is taken; stamped stores that missed their install are saved as deferred faults,
though they still count in `st`; the saved workgroup keeps a number of queue set in the device until it resumes; areas
of its already Swapped warps stay where they were placed); 92 (DEDUCED: a pre-emption or swap-out that finds a bad
register or window byte ends the workgroup with DATA_LOST, and a pre-emption then reports status 3); 20 (DEDUCED: the
save layouts of R362 and R363 carry what the spec lists; the rest of a warp's or workgroup's state stays with the
device). -/
def Obligations.WarpsWaitAndArePreempted : Prop :=
  (∀ (core set warp : Nat) (s : State),
     let w := s.warpAt core set warp
     let only (i : Instr) (x : Warp) : Prop := ∃ t, exec i s = .next t ∧ t.warpAt core set warp = x ∧
       (∀ k j, (k, j) ≠ (set, warp) → t.warpAt core k j = s.warpAt core k j) ∧ (∀ pa, t.physRead pa = s.physRead pa) ∧
       t = { s with cores := t.cores }
     let due : Prop := (∃ p, w.status = .parked p) ∧ w.pin = none ∧ w.swapDue = false ∧ (s.core core).swapwait ≠ 0xFFFFFF ∧
       (s.core core).swapwait ≤ w.parked
     (w.hit = true → only (.watchedLineWrite core set warp) { w with level := 0, hit := false }) ∧
     (w.hit = false → exec (.watchedLineWrite core set warp) s = .next s) ∧
     (due → only (.swapwaitExpiry core set warp) { w with swapDue := true }) ∧
     (¬due → exec (.swapwaitExpiry core set warp) s = .next s) ∧
     (s.swapMay core set warp = true → w.bad = [] → ∃ t, exec (.swapOut core set warp) s = .next t ∧
       (t.warpAt core set warp).status = .swapped (match w.status with
         | .parked p => some p
         | _ => none) ∧ (t.warpAt core set warp).slot = none ∧ (t.warpAt core set warp).v = [] ∧ (t.warpAt core set warp).g = [] ∧
       (t.warpAt core set warp).sets = [] ∧ (t.warpAt core set warp).area = some (s.areaOf core set warp)) ∧
     (s.swapMay core set warp = true → w.bad ≠ [] → ∃ t, exec (.swapOut core set warp) s = .next t ∧
       (t.warpAt core set warp).status = .ended ∧ (t.warpAt core set warp).slot = none) ∧
     (s.swapMay core set warp = false → exec (.swapOut core set warp) s = .next s)) ∧
  (∀ (core : Nat) (hold : Bool) (s : State),
     let c := s.core core
     let named := c.resident.find? fun k => decide (pair64 (s.wg core k).index (BitVec.ofNat 32 (s.wg core k).launch) = c.prwg)
     (c.preempt.isSome = true → exec (.preemptRequest core hold) s = .next s) ∧
     (s.hasDie (dieOf core) = false → exec (.preemptRequest core hold) s = .next s) ∧
     (s.hasDie (dieOf core) = true → c.preempt = none → c.praddr.toNat % 65536 ≠ 0 ∨ named = none →
       exec (.preemptRequest core hold) s = .next (s.modCore core fun x => { x with prstatus := 3 })) ∧
     (∀ k, s.hasDie (dieOf core) = true → c.preempt = none → c.praddr.toNat % 65536 = 0 → named = some k →
       exec (.preemptRequest core hold) s = .next (s.modCore core fun x => { x with preempt := some k, prhold := hold, prstatus := 1 })) ∧
     (s.preemptMay core = none → exec (.preemptSave core) s = .next s) ∧
     (∀ k ps, s.preemptMay core = some (k, ps) → k < 16 →
       let a := if c.array.holder = some k then some c.array else (s.wg core k).savedArray
       let bad : Bool := (s.wg core k).warps.any (fun w => w.2.exists_ && !w.2.away && decide (w.2.bad ≠ [])) || s.groupBad core k a
       (bad = false → ∃ t, exec (.preemptSave core) s = .next t ∧ t.wg core k = Workgroup.init ∧
         (t.core core).preempt = none ∧ (t.core core).prstatus = 2 ∧
         (c.prhold = true → ∃ x, (t.core core).heldBack.getLast? = some x ∧ x.kind = .preempted ∧ x.frame = c.praddr ∧
           x.seq = (s.wg core k).seq ∧ x.code = 0 ∧ x.join = 0)) ∧
       (bad = true → ∃ t, exec (.preemptSave core) s = .next t ∧ (t.core core).preempt = none ∧ (t.core core).prstatus = 3 ∧
         ∀ j, (s.warpAt core k j).exists_ = true → (t.warpAt core k j).status = .ended)) ∧
     (∀ x xs, c.heldBack = x :: xs → exec (.preemptedRecordPush core) s = .next (s.modCore core fun y => ({ y with heldBack := xs } : Core).pushRec x)) ∧
     (c.heldBack = [] → exec (.preemptedRecordPush core) s = .next s)) ∧
  ((∀ (core set warp : Nat) (s : State),
     let w := s.warpAt core set warp
     let back := (s.saveWarp core set warp).restored (w.emptied (s.areaOf core set warp))
     w.fits → back.area = none ∧ back.gran = w.gran ∧ back.pc = w.pc ∧ back.live = w.live ∧ back.cur = w.cur ∧ back.stack = w.stack ∧
       back.active = w.active ∧ back.tbase = w.tbase ∧ back.tvec = w.tvec ∧ back.epc = w.epc ∧ back.ftab = w.ftab ∧
       back.laststamp = w.laststamp ∧ back.sepc = w.sepc ∧ back.round = w.round ∧ back.regions = w.regions ∧
       (∀ i, i < 48 → Tab.get 0 back.g i = Tab.get 0 w.g i) ∧ (∀ i, i < 16 → back.sreg i = w.sreg i) ∧
       ∀ n j, n < 8 * w.gran → j < 32 → rowGet (back.vreg n) j = rowGet (w.vreg n) j) ∧
   ∀ (core set : Nat) (ps : List BRef) (a : Option ArrayState) (s : State),
     let g := s.wg core set
     let rd := (s.saveGroup core set ps a).areaRead ps
     let back := readGroup rd g
     g.fits a → areaFits ps (groupAreaBytes + g.qsram) →
       (∀ i, i < 8 → back.queue i = g.queue i) ∧ (∀ i, i < 16 → Tab.get none back.windows i = Tab.get none g.windows i) ∧
       back.slice.pc = g.slice.pc ∧ (∀ i, i < 48 → Tab.get 0 back.slice.g i = Tab.get 0 g.slice.g i) ∧
       (∀ i, i < g.setheap / 64 → Tab.get false back.heapUsed i = Tab.get false g.heapUsed i) ∧
       (∀ i, i < g.qsram / 16 → Tab.get false back.tags i = Tab.get false g.tags i) ∧
       ∀ i, i < g.qsram → rd (groupAreaBytes + i) = s.ownRead (g.qsramRef core i))

/-- R184, R341, R353, R364, R366, R382, R394: exec answers a next state for TCMP_REACHED, ECC_CORRECTION,
WEIGHT_BANK_REFRESH, FLIT_RESEND and READ_REISSUE. When guest time has reached the compare value the domain's waiting
warps test again, and its last time stays. A correction is counted, and may put a live bank at risk, which raises
event bit 9. A bank whose window is open is refreshed, which only its die notes. A flit sent again is counted for its
domain and its port. A replay counts its attempts; the third that fails makes the error permanent: the byte or
register, of a warp or of an access slice, fails its check from then on.

R185, R203, R336, R338, R367, R381, R389: exec answers a next state for L1_LINE_WRITEBACK, PAGE_WALK_COMPLETE,
ASYNC_DATA_LOST and STALL_SAMPLE. An evicted line has its dirty bytes performed and is gone, the core's other lines
stay. A walk fills the TLBs and marks its entry once no vault holds a table of it. Lost data is logged with the domain
of its tag and goes to the die's supervisor core; a lost dirty line is gone and its place keeps its bytes. A due stall
sample restarts its period and changes no register. What cannot happen changes nothing.

Rests on the model's choice of log entry 34 (DESIGN CHOICE: which registers are held compressed (R24 leaves that to
the device): exactly those whose 32 lanes hold one value; the granularity of some counters: an access counts one L1
hit or miss for each line it names). -/
def Obligations.SilentEvents : Prop :=
  (∀ (s : State),
     let counts (t : State) (dom k n : Nat) : Prop := (t.dom dom).counter k = (s.dom dom).counter k + (if (s.dom dom).stop then 0 else BitVec.ofNat 64 n)
     (∀ dom, ∃ t, exec (.tcmpReached dom) s = .next t ∧ t = { s with cores := t.cores } ∧
       ∀ r, t.warp r = if (s.dom dom).tcmp.toNat ≤ (s.guest dom).toNat ∧ s.domOf r = dom then { s.warp r with waiting := false } else s.warp r) ∧
     (∀ dom, ∃ t, exec (.eccCorrection ⟨dom, none⟩) s = .next t ∧ t = { s with domains := t.domains } ∧ counts t dom 13 1) ∧
     (∀ dom v b, ∃ t, exec (.eccCorrection ⟨dom, some (v, b)⟩) s = .next t ∧ counts t dom 13 1 ∧ (∀ x, x ≠ v → t.vault x = s.vault x) ∧
       (s.hasDie (dieOf v) = true → (s.vault v).vbmap.getLsbD b = true → (t.vault v).risk = (s.vault v).risk ||| BitVec.ofNat 64 (2 ^ b)) ∧
       (s.hasDie (dieOf v) = true → (s.vault v).vbmap.getLsbD b = true → (s.vault v).risk.getLsbD b = false →
         (t.die (dieOf v)).events.getLsbD 9 = true)) ∧
     (∀ die bank, ∃ t, exec (.weightBankRefresh die bank) s = .next t ∧ t = { s with dies := t.dies } ∧
       (s.refreshDue die bank = true → Tab.get 0 (t.die die).refreshed bank = s.time) ∧ (s.refreshDue die bank = false → t = s)) ∧
     (∀ die port dom, ∃ t, exec (.flitResend die ⟨port, dom⟩) s = .next t ∧ t = { s with dies := t.dies, domains := t.domains } ∧ counts t dom 12 1 ∧
       (t.port die port).replays = (s.port die port).replays + (if s.hasPort die port then 1 else 0)) ∧
     (∀ what failed, ∃ t, exec (.readReissue what failed) s = .next t ∧ counts t (s.replayDom what) 12 (min (failed + 1) 3)) ∧
     (∀ core idx f failed, failed < 3 → (s.core core).flights[idx]? = some f →
       exec (.readReissue (.flight core idx) failed) s = .next (s.count (s.domOf f.ref) 12 (failed + 1))) ∧
     (∀ pa, ∃ t, exec (.readReissue (.byte pa) 3) s = .next t ∧ t = { s with domains := t.domains, bad := t.bad } ∧
       ∀ x, x ∈ t.bad ↔ x = pa ∨ x ∈ s.bad) ∧
     (∀ core set warp n j, warp < 16 → (s.warpAt core set warp).exists_ = true → (s.warpAt core set warp).away = false → n < 8 * (s.warpAt core set warp).gran →
       j < 32 → ∃ t, exec (.readReissue (.reg core set warp (.v n j)) 3) s = .next t ∧
         (t.warpAt core set warp).bad = (s.warpAt core set warp).bad ++ [.v n j]) ∧
     (∀ core set n, (s.wg core set).slice.present = true → n < 48 → ∃ t, exec (.readReissue (.reg core set 16 (.g n)) 3) s = .next t ∧
       (t.wg core set).slice = { (s.wg core set).slice with bad := (s.wg core set).slice.bad ++ [.g n] })) ∧
  (∀ (s : State),
     (∀ core idx l, (s.core core).l1[idx]? = some l → s.held (l.line * 128) = false → ∃ t,
       exec (.l1LineWriteback core idx) s = .next t ∧
       (∀ x, x ∈ (t.core core).l1 ↔ x ∈ (s.core core).l1 ∧ ¬(x.line = l.line ∧ x.dom = l.dom)) ∧
       (∀ i, i < 128 → l.dirty.getLsbD i = true → t.physRead (l.line * 128 + i) = l.data.getD i 0) ∧
       ∀ pa, pa / 128 ≠ l.line → t.physRead pa = s.physRead pa) ∧
     (∀ core idx l, (s.core core).l1[idx]? = some l → s.held (l.line * 128) = true → exec (.l1LineWriteback core idx) s = .next s) ∧
     (∀ core idx, (s.core core).l1[idx]? = none → exec (.l1LineWriteback core idx) s = .next s) ∧
     (∀ core dom va store, (∀ pa ∈ walkReads s dom (va.toNat % 2 ^ 56), s.held pa = false) →
       (∀ e, walkOf s dom (va.toNat % 2 ^ 56) = .ok e → va.toNat < 2 ^ 56 →
         (bitsOf va.toNat 55 53 = 0 ∨ bitsOf va.toNat 55 53 = 1 ∨ bitsOf va.toNat 55 53 = 4) →
         exec (.pageWalkComplete core dom va store) s = .next (s.useEntry core e (store && e.w))) ∧
       (∀ c, walkOf s dom (va.toNat % 2 ^ 56) = .error c → exec (.pageWalkComplete core dom va store) s = .next s)) ∧
     (∀ core dom va store, (∃ pa ∈ walkReads s dom (va.toNat % 2 ^ 56), s.held pa = true) → exec (.pageWalkComplete core dom va store) s = .next s) ∧
     (let reported (t : State) (die pa unit : Nat) : Prop :=
        (t.die die).errcount = (s.die die).errcount + 1 ∧
        (t.die die).errlog.getLast? = some { time := s.time, addr := BitVec.ofNat 64 pa, cause := Cause.dataLost.code, kind := 2, dom := (s.tagOf pa).1, unit := unit } ∧
        (t.die die).superv = (s.die die).superv ++ [{ cause := .dataLost, addr := BitVec.ofNat 64 pa, dom := (s.tagOf pa).1 }] ∧ t.mem = s.mem
      (∀ core idx l, (s.core core).l1[idx]? = some l → l.dirty ≠ 0 → ∃ t, exec (.asyncDataLost (dieOf core) core .l1 idx) s = .next t ∧
        reported t (dieOf core) (l.line * 128) core ∧ ∀ x ∈ (t.core core).l1, ¬(x.line = l.line ∧ x.dom = l.dom)) ∧
      (∀ die unit pa, paSpace pa = 0 → s.hasDie (dieOf (paVaultOf pa)) = true → ∃ t, exec (.asyncDataLost die unit .scrub pa) s = .next t ∧
        reported t (dieOfPa pa) pa (paVaultOf pa) ∧ pa ∈ t.bad) ∧
      (∀ die core idx, (∀ l, (s.core core).l1[idx]? = some l → l.dirty = 0 ∨ dieOf core ≠ die) → exec (.asyncDataLost die core .l1 idx) s = .next s) ∧
      (∀ die unit v, (s.vault v).busy = false → exec (.asyncDataLost die unit .move v) s = .next s) ∧
      (∀ die unit idx, s.pending[idx]? = none → exec (.asyncDataLost die unit .version idx) s = .next s)) ∧
     (∀ core, (s.sampleDue core = none → exec (.stallSample core) s = .next s) ∧
       (∀ d, s.sampleDue core = some d → ∃ t, exec (.stallSample core) s = .next t ∧ Tab.get 0 (t.core core).sampleAt d = 0 ∧
         ∀ r, (t.warp r).v = (s.warp r).v ∧ (t.warp r).g = (s.warp r).g ∧ (t.warp r).pc = (s.warp r).pc)))

/-- R344, R388: reset and boot. Power-on, or the magic value in HRESET, leaves every die in Boot with all state of the
package lost; host memory keeps its bytes, and PCAP starts at the part's nominal power (the model's choice, log entry
24). FWGO starts a load only while an image is awaited, and a bad length fails with reason 1; the load ends with
reason 2, reason 3 or a verified image with its digest, and the firmware then makes the package ready with every bank
live. Any other write or event changes nothing.

R184, R212, R213, R261, R301, R329, R331, R388, R392, R395: the state after reset, as the rules give it: every die in
Boot, no domain, no quad assigned, no work, the interval clocks at 0 and 2^64 - 1 with W = 100 ns, the refresh phase
0, the thresholds 95 °C and 60 s, `cr.swapwait` 100,000, beacons from the fabric, launch numbers from 1.

Rests on the model's choices of log entries 21 (DESIGN CHOICE: queues, lists of operations and tables for which the
spec states no reset value are empty after reset); 24 (DESIGN CHOICE: host-side registers for which the spec states no
reset value are 0 after reset, but PCAP, which starts at the nominal power of R21: 1,500 W, and 375 W on a KY-1S after
a power-on or HRESET); 27 (PRESUMED: the bank map of a vault before the firmware builds it: every bank live); 2
(DESIGN CHOICE: what a byte of physical memory that nothing has written reads as: the spec gives no power-on contents;
it reads 0); 6 (PRESUMED: SHA3-512 as its own standard prints it). -/
def Obligations.ResetAndBoot : Prop :=
  (∀ (s : State),
     (∀ i ∈ [Instr.powerOnReset, .hreset 0x52455345], ∃ t, exec i s = .next t ∧
       t = { State.reset with part := s.part, pcap := (if s.part = .ky1s then 375 else 1500), mem := t.mem, msix := s.msix, hostRead := s.hostRead, attested := s.attested, fabric := s.fabric, beaconsOut := s.beaconsOut, pace := s.pace, script := s.script } ∧
       ∀ pa, t.physRead pa = if paSpace pa = 3 then s.physRead pa else Memory.blank) ∧
     (∀ v, v ≠ 0x52455345 → exec (.hreset v) s = .next s) ∧
     (let good : Prop := s.fwlen.toNat % 4096 = 0 ∧ s.fwlen.toNat ≤ 64 * 2 ^ 20
      (s.boot = .awaiting → good → exec .fwgo s = .next { s with boot := .loading }) ∧
      (s.boot = .awaiting → ¬good → exec .fwgo s = .next { s with boot := .failed, bootReason := 1 }) ∧
      (s.boot ≠ .awaiting → exec .fwgo s = .next s)) ∧
     (s.boot = .loading → (∀ ok, exec (.firmwareVerified ok true) s = .next { s with boot := .failed, bootReason := 2 }) ∧
       exec (.firmwareVerified false false) s = .next { s with boot := .failed, bootReason := 3 } ∧
       exec (.firmwareVerified true false) s = .next { s with boot := .verified, fwDigest := s.imageDigest }) ∧
     (s.boot ≠ .loading → ∀ ok re, exec (.firmwareVerified ok re) s = .next s) ∧
     (s.boot = .verified → ∃ t, exec .bootReady s = .next t ∧ t.boot = .ready ∧ (∀ v, t.vault v = Vault.init) ∧ t = { s with boot := .ready, vaults := t.vaults }) ∧
     (s.boot ≠ .verified → exec .bootReady s = .next s)) ∧
  (let s := State.reset
   s.boot = .awaiting ∧ s.turn = [] ∧ s.launches = [] ∧ s.admission = [] ∧ s.nextLaunch = 1 ∧ s.bcnsrc = false ∧
     (∀ d, (s.dom d).exists_ = false ∧ (s.dom d).keyValid = false) ∧ (∀ q, (s.quad q).slots = []) ∧
     (∀ d, (s.die d).clkw = 100 ∧ (s.die d).phase = 0 ∧ (s.die d).talert = 95 ∧ (s.die d).tretainC = 95 ∧ (s.die d).tretainS = 60 ∧
       (s.die d).tripped = false ∧ s.interval d = (0, 2 ^ 64 - 1)) ∧
     (∀ c, (s.core c).swapwait = 100000 ∧ (s.core c).queues = [] ∧ ∀ k, (s.wg c k).present = false) ∧ s.mem = [])

/-- R175 to R178, R183, R211, R366 to R368, R396: vaults and weight windows. A quiesce holds a vault until its release,
and is done once the accesses before it are performed; a remap starts for a proper part of the live banks, from
granule 0 unless a stopped move goes on to the same map, and is refused with status 3 otherwise; each granule advances
it, and the last puts the map in force and cuts what lies above the new capacity. A granule that cannot be read stops
it with status 2 and is reported. The weight window names one domain or none: it opens with no kernel of the domain on
the die, and closes, or opens for another, when the copies it was opened for have completed.

Rests on the model's choices of log entries 51 (DESIGN CHOICE: a host window waits for a held vault); 2 (DESIGN
CHOICE: what a byte of physical memory that nothing has written reads as: the spec gives no power-on contents; it
reads 0). Rests on the model's reading of log entry 68 (DEDUCED: a weight-store page and its open window are checked
at the landing of each granule, and the window counts only while no kernel of the domain runs on the die (R183)). -/
def Obligations.VaultsAndWindows : Prop :=
  ∀ (k : Nat) (s : State),
    let v := s.vault k
    let die := dieOf k
    let puts (i : Instr) (x : Vault) : Prop := ∃ t, exec i s = .next t ∧ t.vault k = x ∧ (∀ j, j ≠ k → t.vault j = s.vault j) ∧ t = { s with vaults := t.vaults }
    let subset : Prop := v.vbnext ≠ 0 ∧ v.vbnext &&& ~~~v.vbmap = 0
    let total := capacityOf v.moveTo / 256
    (s.hasDie die = true →
      puts (.vaultQuiesce k) (if v.quiesce then v else { v with quiesce := true, qseq := s.nextIssue }) ∧
      (s.vaultBusy k = false → puts (.vaultQuiesceDone k) { v with qdone := v.quiesce }) ∧
      (s.vaultBusy k = true → exec (.vaultQuiesceDone k) s = .next s) ∧
      (∃ t, exec (.vaultQuiesceRelease k) s = .next t ∧ t.vault k = { v with quiesce := false, qdone := false } ∧
        (∀ j, j ≠ k → t.vault j = s.vault j) ∧ (s.delayed = [] → t = { s with vaults := t.vaults }) ∧
        ∀ d ∈ t.delayed, d ∈ s.delayed ∧ ∃ x ∈ t.delayed, (x = d ∨ (d.trace ≠ none ∧ x.trace = d.trace)) ∧ ∃ b ∈ x.refs, t.held b.pa = true) ∧
      (v.busy = false → subset → puts (.remapGo k) { v with
        busy := true, status := 0, moved := if v.moveTo = v.vbnext ∧ v.moved < total then v.moved else 0, moveTo := v.vbnext }) ∧
      (v.busy = false → ¬subset → puts (.remapGo k) { v with status := 3 }) ∧
      (v.busy = true → puts (.remapGo k) v) ∧
      (∀ b, v.busy = false ∨ (s.die die).tripped = true → exec (.remapGranuleMove k b) s = .next s) ∧
      (v.busy = true → (s.die die).tripped = false →
        (∀ b, b = false ∨ s.moveBad k = true → ∃ t pa, exec (.remapGranuleMove k b) s = .next t ∧ t.vault k = { v with busy := false, status := 2 } ∧
          paVault k (256 * v.moved) ≤ pa ∧ pa < paVault k (256 * v.moved) + 256 ∧ pa ∈ t.bad ∧
          (t.die die).superv = (s.die die).superv ++ [{ cause := .dataLost, addr := BitVec.ofNat 64 pa, dom := (s.tagOf pa).1 }] ∧
          (t.die die).errcount = (s.die die).errcount + 1 ∧ ∀ x, t.physRead x = s.physRead x) ∧
        (v.moved + 1 < total → s.moveBad k = false → puts (.remapGranuleMove k true) { v with moved := v.moved + 1 }) ∧
        (total ≤ v.moved + 1 → s.moveBad k = false → ∃ t, exec (.remapGranuleMove k true) s = .next t ∧
          t.vault k = { v with moved := total, vbmap := v.moveTo, risk := v.risk &&& v.moveTo, busy := false, status := 1 } ∧
          ∀ pa, t.physRead pa = if paVault k (capacityOf v.moveTo) ≤ pa ∧ pa < paVault k (2 ^ 36) then Memory.blank else s.physRead pa))) ∧
    (s.hasDie die = false → ∀ i ∈ [Instr.vaultQuiesce k, .remapGo k, .remapGranuleMove k true, .remapGranuleMove k false], exec i s = .next s) ∧
    (s.windowBusy k = true ↔ ∃ dom, (s.die k).weightDom = some dom ∧ s.weightCopies k dom = true) ∧
    (∀ dom, (s.hasDie k = true → s.kernelOn k dom = false → s.windowBusy k = false → ∃ t, exec (.weightWindowOpen k dom) s = .next t ∧
        (t.die k).weightDom = some dom ∧ t = { s with dies := t.dies }) ∧
      (s.kernelOn k dom = true ∨ s.windowBusy k = true → exec (.weightWindowOpen k dom) s = .next s)) ∧
    (s.windowBusy k = true → exec (.weightWindowClose k) s = .next s) ∧
    (s.windowBusy k = false → s.hasDie k = true ∨ (s.die k).weightDom = none → ∃ t, exec (.weightWindowClose k) s = .next t ∧
      t.die k = { s.die k with weightDom := none } ∧ (∀ j, j ≠ k → t.die j = s.die j) ∧ t = { s with dies := t.dies })

/-- R384, R391, R396: clocks, parked quads and the power cap. A pair of the table becomes the target and is in force when
the change is done, any other is refused; QPARK parks and wakes quads, or is refused whole when it parks one that
lists a domain; a woken quad runs once it is awake; above the cap every die withholds an issue cycle. A die that the
part lacks takes no write.

R15, R175, R353, R384, R392, R393, R394, R396: heat, coolant and links. A zone that rises through the alert threshold
raises event bit 8 and vector 2 once; one at 105 °C trips its die, which raises vector 2 too, whichever event brings
the temperature; the trip is cleared only below the alert threshold; a zone at its retention limit puts every live
bank of its quad's vaults at risk once a span. Valves and link states follow their events. A die, zone or port that
the part lacks changes nothing.

Rests on the model's choice of log entry 25 (DESIGN CHOICE: the clock states a part offers are not listed; after reset
the table holds the nominal one (1,900 MHz, 500 mV) of R4, which is also in force). -/
def Obligations.PowerAndHeat : Prop :=
  (∀ (k : Nat) (s : State),
     let d := s.die k
     let puts (i : Instr) (x : Die) : Prop := ∃ t, exec i s = .next t ∧ t.die k = x ∧ (∀ j, j ≠ k → t.die j = s.die j) ∧ t = { s with dies := t.dies }
     (s.hasDie k = true → (∀ v : Word, let p := (bitsOf v.toNat 11 0, bitsOf v.toNat 27 16)
         (p ∈ s.ptable → puts (.pstate k v) { d with target := p, refused := false, clkBusy := !d.tripped }) ∧
         (p ∉ s.ptable → puts (.pstate k v) { d with refused := true })) ∧
       puts (.pthrotClear k) { d with pthrot := 0 } ∧
       ∀ v : BitVec 16,
         let barred : Prop := ∃ q, q < 16 ∧ v.getLsbD q = true ∧ ∃ x ∈ (s.quad (16 * k + q)).slots, x.isSome = true
         (barred → exec (.qpark k v) s = .next s) ∧
         (¬barred → ∃ t, exec (.qpark k v) s = .next t ∧ (∀ q, q < 16 → t.quad (16 * k + q) = (s.quad (16 * k + q)).park (v.getLsbD q)) ∧
           (∀ j, j < 16 * k ∨ 16 * k + 16 ≤ j → t.quad j = s.quad j) ∧ t = { s with quads := t.quads })) ∧
     (d.clkBusy = true → d.tripped = false → puts (.clockChangeDone k) { d with inForce := d.target, clkBusy := false }) ∧
     (d.clkBusy = false ∨ d.tripped = true → puts (.clockChangeDone k) d) ∧
     (s.hasDie k = false → exec (.pthrotClear k) s = .next s ∧ (∀ v, exec (.pstate k v) s = .next s) ∧ (∀ v, exec (.qpark k v) s = .next s) ∧
       ∀ q, exec (.quadWakeDone k q) s = .next s) ∧
     (s.hasDie k = true → ∀ q, q < 16 → ∃ t, exec (.quadWakeDone k q) s = .next t ∧ t = { s with quads := t.quads } ∧
       t.quad (16 * k + q) = if (s.quad (16 * k + q)).parked then s.quad (16 * k + q) else { s.quad (16 * k + q) with awake := true }) ∧
     (∀ watts, ∃ t, exec (.powerCapThrottle watts) s = .next t ∧ t.pmeas = watts ∧ t = { s with pmeas := watts, dies := t.dies } ∧
       ∀ j, j < s.dieCount → (t.die j).pthrot = (s.die j).pthrot + (if s.pcap < watts then 1 else 0))) ∧
  (∀ (k z : Nat) (s : State),
     let d := s.die k
     let rung (u t : State) : Prop := t.msix = u.msix ∧ t.msixPending = u.msixPending
     (s.hasDie k = true → z < 16 → (∀ temp, ∀ i ∈ [Instr.thermalAlert k z temp, .thermalTrip k z temp],
         let crosses : Bool := decide (8 * d.talert ≤ temp) && !d.alerted.getLsbD z
         let trips : Bool := decide (8 * 105 ≤ temp) && !d.tripped
         let once := if crosses then s.raiseAll 2 else s
         ∃ t, exec i s = .next t ∧ Tab.get 0 (t.die k).zones z = temp ∧ (t.die k).alerted.getLsbD z = decide (8 * d.talert ≤ temp) ∧
           (t.die k).events = d.events ||| (if crosses then 0x100#32 else 0) ∧ (t.die k).tripped = (d.tripped || decide (8 * 105 ≤ temp)) ∧
           rung (if trips then once.raiseAll 2 else once) t) ∧
       (8 * d.tretainC ≤ Tab.get 0 d.zones z → d.retained.getLsbD z = false → ∃ t, exec (.retentionLimit k z) s = .next t ∧
         (∀ c ∈ coresOf (16 * k + z), (t.vault c).risk = (s.vault c).risk ||| (s.vault c).vbmap) ∧ (t.die k).events.getLsbD 9 = true ∧
         (t.die k).retained.getLsbD z = true ∧ rung (s.raiseAll 0) t) ∧
       (Tab.get 0 d.zones z < 8 * d.tretainC ∨ d.retained.getLsbD z = true → exec (.retentionLimit k z) s = .next s) ∧
       (∀ a b c, ∃ t, exec (.valveAdjust k z a b c) s = .next t ∧ Tab.get (0, 0, 0) (t.die k).valves z = (a, b, c) ∧ t = { s with dies := t.dies })) ∧
     (s.hasDie k = true → ((∃ x ∈ d.zones, 8 * d.talert ≤ x.2) → ∃ t, exec (.tripClear k) s = .next t ∧ t.die k = d) ∧
       ((∀ x ∈ d.zones, x.2 < 8 * d.talert) → ∃ t, exec (.tripClear k) s = .next t ∧ (t.die k).tripped = false ∧
         (s.delayed = [] → t = { s with dies := t.dies }))) ∧
     (s.hasDie k = false ∨ 16 ≤ z → (∀ temp, exec (.thermalAlert k z temp) s = .next s ∧ exec (.thermalTrip k z temp) s = .next s) ∧
       exec (.retentionLimit k z) s = .next s ∧ ∀ a b c, exec (.valveAdjust k z a b c) s = .next s) ∧
     (∀ port peer, (s.hasDie k = true → port < 4 →
         (∃ t, exec (.fabricLinkUp k port peer) s = .next t ∧ (t.port k port).up = true ∧ (t.port k port).peer = peer % 2 ^ 18 ∧ t = { s with dies := t.dies }) ∧
         ∃ t, exec (.fabricLinkDown k port) s = .next t ∧ (t.port k port).up = false ∧ t = { s with dies := t.dies }) ∧
       (s.hasDie k = false ∨ 4 ≤ port → exec (.fabricLinkUp k port peer) s = .next s ∧ exec (.fabricLinkDown k port) s = .next s)))

/-- R353, R389, R390: what the host sends. A push of another size is counted and discarded; one that fails a check is
refused with the first reason found, its tag in ADMREF and vector 1 raised; one that passes takes an entry, none
before the package has booted. A doorbell sets event bit 0 of its domain, a mailbox write event bit 10 of its die.
What names a unit that is not there changes nothing.

R336, R356, R362, R366, R380, R385, R387, R389, R413: the host's windows. A memory window reads and writes through its
domain's tables, whose entries its walker marks, waits for a vault that takes no access, or reads all ones and logs
the refusal; lost bytes end a read as a refusal does. The state window changes a warp only while its domain is
stopped. A workgroup that the supervisor ends has its warps ended and is reported. The trace buffer restarts at an
aligned base.

R3, R84, R174, R212, R308, R345, R380, R384, R386, R387, R391, R392: REGISTER_WRITE answers a next state for every
register. A register takes its value within the bounds of its table, on a unit that is there; the region of an absent
die takes no write and reads all ones; a read of the interval raises the floor of its die. The supervisor does nothing
that the host asks of it before its firmware is verified; after that it writes a word of code with its granule's
owner, and reads physical bytes back. An image that its check refuses, or that finds no room, is answered so; one that
it loads stands at its base on every core of the domain, extends the domain's measurement and is answered with its
handle; an unloaded one's code is zero.

Rests on the model's choices of log entries 58, 65, 88, 89, 112, 51, 71, 114 (DESIGN CHOICE: registers with no event
of their own, and the supervisor, are reached by name; refused accesses are logged on die 0; a read of lost bytes
answers all ones; registers without an offset are reached by name, and the codes of a controller; the load of an image
is one step; a host window waits for a held vault; the interval is read modulo 2^64; a state-window write of derived
fields); 6 (PRESUMED: SHA3-512 as its own standard prints it). -/
def Obligations.HostReachesThePackage : Prop :=
  (∀ (s : State),
     (∀ (bs : List Byte) (link : Nat),
       let d := field bs 8 2
       let v := field bs 10 1
       let tag := BitVec.ofNat 64 (field bs 16 8)
       let refused (reason : Nat) : Prop := exec (.hostPush bs link) s = .next (State.raiseAll { s with admref := tag, admreason := reason } 1)
       let shape : Prop := field bs 11 5 = 0 ∧ field bs 24 8 = 0 ∧ (v = 0 ∨ (4 ≤ v ∧ v ≤ 63)) ∧ field bs 0 8 % 64 = 0
       let holds : Prop := (s.dom d).exists_ = true ∧ s.partition d ≠ []
       (link ∉ s.links ∨ s.boot ≠ .ready → exec (.hostPush bs link) s = .next s) ∧
       (link ∈ s.links → s.boot = .ready → bs.length ≠ 32 → exec (.hostPush bs link) s = .next { s with admbad := s.admbad + 1 }) ∧
       (link ∈ s.links → s.boot = .ready → bs.length = 32 → (¬shape → refused 3) ∧ (shape → ¬holds → refused 4) ∧
         (shape → holds → 256 ≤ s.admission.length → refused 1) ∧
         (shape → holds → s.admission.length < 256 → exec (.hostPush bs link) s = .next { s with
           admission := s.admission ++ [{ recVa := BitVec.ofNat 64 (field bs 0 8), dom := d, vector := v, tag := tag, link := link }] }))) ∧
     (∀ dom, (dom < 1024 → ∃ t, exec (.doorbell dom) s = .next t ∧ t.dom dom = { s.dom dom with doorbell := true } ∧
       (∀ e, e ≠ dom → t.dom e = s.dom e) ∧ t = { s with domains := t.domains }) ∧ (1024 ≤ dom → exec (.doorbell dom) s = .next s)) ∧
     (∀ die v, (s.hasDie die = false → exec (.mailbox die v) s = .next s) ∧ (s.hasDie die = true → ∃ t, exec (.mailbox die v) s = .next t ∧ (t.die die).mailbox = v ∧ (t.die die).events = (s.die die).events ||| 0x400#32 ∧
       (∀ e, e ≠ die → t.die e = s.die e) ∧ t = { s with dies := t.dies }))) ∧
  (∀ (s : State),
     (∀ slot off n, (∀ refs, s.windowRefs .load slot off n = .ok refs →
         (s.windowHeld slot off n refs = true → exec (.hostWindowRead slot off n) s = .next s) ∧
         (s.windowHeld slot off n refs = false → (∀ b ∈ refs, b.pa ∉ s.bad) →
           exec (.hostWindowRead slot off n) s = .next { s.windowMarks slot off n false with hostRead := refs.map s.readRef }) ∧
         (s.windowHeld slot off n refs = false → (∃ b ∈ refs, b.pa ∈ s.bad) → ∃ t, exec (.hostWindowRead slot off n) s = .next t ∧
           t.hostRead = List.replicate n 0xFF ∧ (t.die 0).errcount = (s.die 0).errcount + 1)) ∧
       (∀ c va d, s.windowRefs .load slot off n = .error (c, va, d) →
         exec (.hostWindowRead slot off n) s = .next { s.refuseWindow c va d with hostRead := List.replicate n 0xFF })) ∧
     (∀ slot off bs, (∀ refs, s.windowRefs .store slot off bs.length = .ok refs →
         (s.windowHeld slot off bs.length refs = true → exec (.hostWindowWrite slot off bs) s = .next s) ∧
         (s.windowHeld slot off bs.length refs = false →
           exec (.hostWindowWrite slot off bs) s = .next (((s.windowMarks slot off bs.length true).writeRefs refs bs).heal refs))) ∧
       (∀ c va d, s.windowRefs .store slot off bs.length = .error (c, va, d) → ∃ t, exec (.hostWindowWrite slot off bs) s = .next t ∧
         (∀ pa, t.physRead pa = s.physRead pa) ∧ (t.die 0).errcount = (s.die 0).errcount + 1)) ∧
     (∀ slot off n, 16 ≤ slot ∨ 2 ^ 30 < off + n → s.windowRefs .load slot off n = .error (.space, off, 0xFFFF)) ∧
     (∀ core off bs k w, (s.core core).inSlot (s.core core).wsel = some (k, w) →
       ((s.dom (s.wg core k).dom).stop = false → exec (.stateWindowWrite core off bs) s = .next s) ∧
       ((s.dom (s.wg core k).dom).stop = true → off + bs.length ≤ warpAreaBytes → exec (.stateWindowWrite core off bs) s =
         .next (s.modWarpAt core k w fun x => s.patchWarp x (s.wg core k).opener w (s.wg core k).seq off bs))) ∧
     (∀ core off bs, (s.core core).inSlot (s.core core).wsel = none → exec (.stateWindowWrite core off bs) s = .next s) ∧
     (∀ core set c a, (s.wg core set).present = true → ∃ t, exec (.supervisorEndsWorkgroup core set c a) s = .next t ∧
       (∀ k, (s.warpAt core set k).status ≠ .absent → (t.warpAt core set k).status = .ended ∧ (t.warpAt core set k).slot = none) ∧
       (t.dom (s.wg core set).dom).ended = (s.dom (s.wg core set).dom).ended ++ [((s.wg core set).launch, (s.wg core set).index, c, a)] ∧
       t.msix = (s.raiseAll 3).msix ∧ t.msixPending = (s.raiseAll 3).msixPending) ∧
     (∀ core set c a, (s.wg core set).present = false → exec (.supervisorEndsWorkgroup core set c a) s = .next s) ∧
     (∀ dom v, (v.toNat % 4096 = 0 → ∃ t, exec (.tbase dom v) s = .next t ∧ t = { s with domains := t.domains, delayed := t.delayed } ∧
         t.dom dom = { s.dom dom with tbuf := BitVec.ofNat 64 (v.toNat % 2 ^ 56), tnext := 0, twptr := 0 } ∧ ∀ x ∈ t.delayed, x.trace ≠ some dom) ∧
       (v.toNat % 4096 ≠ 0 → exec (.tbase dom v) s = .next s)) ∧
     (∀ dom, ∃ t, exec (.tlostClear dom) s = .next t ∧ t.dom dom = { s.dom dom with tlost := 0 } ∧ t = { s with domains := t.domains })) ∧
  (∀ (s : State) (v : DWord),
     let asked : Prop := s.boot = .verified ∨ s.boot = .ready
     (∀ reg, ∃ t, exec (.registerWrite reg v) s = .next t) ∧ (∀ reg, askedOf reg = true → ¬asked → exec (.registerWrite reg v) s = .next s) ∧
     exec (.registerWrite .pcap v) s = .next { s with
       pcap := if s.part = .ky1s then min 450 (max 225 (v.toNat % 2048)) else min 1800 (max 900 (v.toNat % 2048)) } ∧
     exec (.registerWrite .podix v) s = .next { s with podix := v.toNat % 2 ^ 18 } ∧ exec (.registerWrite .readOnly v) s = .next s ∧
     (∀ k, s.hasDie k = true → exec (.registerWrite (.talert k) v) s = .next (s.modDie k fun x => { x with talert := min 104 (max 60 (v.toNat % 256)) })) ∧
     (∀ k, k < 1024 → ∃ t, exec (.registerWrite (.octl k) v) s = .next t ∧ t.dom k = { s.dom k with octl := lo32 v &&& 0xFFFF001F#32 } ∧
       t = { s with domains := t.domains }) ∧
     (∀ k, s.hasDie (dieOf k) = true → exec (.registerWrite (.vbnext k) v) s = .next (s.modVault k fun x => { x with vbnext := v })) ∧
     (∀ c, s.hasDie (dieOf c) = true → exec (.registerWrite (.backsize c) v) s = .next (s.modCore c fun x => { x with backsize := max 1536 v.toNat })) ∧
     (∀ off n, s.hasDie (off / 2 ^ 28) = false → exec (.registerWrite (.bar0 off) v) s = .next s ∧
       exec (.registerWrite (.read off n) v) s = .next { s with hostRead := List.replicate n 0xFF }) ∧
     (∀ c, s.hasDie (dieOf c) = true → exec (.registerWrite (.bar0 (dieOf c * 2 ^ 28 + 0x400000 + (c % 64) * 65536 + 0x20)) v) s =
       .next (s.modCore c fun x => { x with savebase := v })) ∧
     (∀ k, s.hasDie k = true → (s.die k).lantern.beaconed = true → ∃ t, exec (.registerWrite (.interval k) v) s = .next t ∧
       (t.die k).lantern = { (s.die k).lantern with floor_ := max (s.die k).lantern.floor_ (s.interval k).2 } ∧
       t.hostRead = leBytes 8 ((s.interval k).1 % 2 ^ 64) ++ leBytes 8 ((s.interval k).2 % 2 ^ 64)) ∧
     (∀ c w o, asked → s.hasDie (dieOf c) = true → w < 65536 → ∃ t, exec (.registerWrite (.code c w o) v) s = .next t ∧
       Tab.get 0 (t.core c).imem w = lo32 v ∧ Tab.get .none (t.core c).owners (w / 64) = o ∧ w ∉ (t.core c).badWords ∧
       (∀ j, j ≠ w → Tab.get 0 (t.core c).imem j = Tab.get 0 (s.core c).imem j) ∧ t = { s with cores := t.cores }) ∧
     (∀ pa n, asked → s.heldRange pa n = false → s.badRange pa n = false →
       exec (.registerWrite (.physicalRead pa n) v) s = .next { s with hostRead := s.physBytes pa n }) ∧
     (∀ d base f places, asked → (s.dom d).exists_ = true →
       let go : Out := exec (.registerWrite (.load d base f places) v) s
       let u := s.writeEntries (places.flatMap Prod.snd)
       (imageOk f = false → go = .next { s with reply := .format }) ∧
       (imageOk f = true → s.anyBase d (codeSize f) = false → go = .next { s with reply := .imem }) ∧
       (imageOk f = true → s.baseFree d (codeSize f) base = true → u.choiceSuits d (dataSects (sectsOf f)) (places.map Prod.fst) = true →
         ∃ t, go = .next t ∧ t.reply = .loaded s.nextImage ∧ t.dom d = (s.dom d).measured (digestOf f) ∧ (∀ e, e ≠ d → t.dom e = s.dom e) ∧
           ∀ c ∈ s.partition d, ∀ i, 4 * i < codeSize f → Tab.get 0 (t.core c).imem (base / 4 + i) = imageWord f (4 * i) ∧
             Tab.get .none (t.core c).owners ((base / 4 + i) / 64) = .dom d)) ∧
     (∀ h x c, asked → s.images.find? (fun y => decide (y.handle = h)) = some x → c ∈ s.cores.map Prod.fst → s.hasDie (dieOf c) = true →
       x.base % 256 = 0 → x.base + x.size ≤ Config.imemBytes → (∀ g ∈ codeGrans x.base x.size, Tab.get .none (s.core c).owners g = .dom x.dom) →
       ∃ t, exec (.registerWrite (.unload h) v) s = .next t ∧ ∀ i, 4 * i < x.size → Tab.get 0 (t.core c).imem (x.base / 4 + i) = 0))

/-- R297, R329, R331, R340, R342, R347, R387: domains. A created domain starts as R347 says, with guest time 0 (the
package's own below 2^64); one without work is destroyed whole, which leaves a domain then alone on a core with share
256; a stop and start leave the stopped span in its offset in hide mode; a key is taken once; an assignment is
accepted or refused whole, and sets equal shares when its domains change; shares above 256 are ignored, and so is what
names an absent die. No domain is created or assigned before the package has booted.

Rests on the model's choice of log entry 108 (DESIGN CHOICE: which reason ASTAT carries when several hold of a refused
assignment (R331 does not say): 1 before 3 before 2). Rests on the model's readings of log entries 57 (DEDUCED:
DOMAIN_DESTROY is ignored while work of the domain remains; it frees the slots of its quads and its cached state); 113
(DEDUCED: the shares of a core as a domain is destroyed (R297 has a domain that is alone hold 256 and speaks of
assignment writes): the domain left alone takes 256, several keep theirs, and the destroyed one's credits go). -/
def Obligations.DomainControl : Prop :=
  ∀ (d : Nat) (s : State),
    let x := s.dom d
    let puts (i : Instr) (y : Domain) : Prop := ∃ t, exec i s = .next t ∧ t.dom d = y ∧ (∀ e, e ≠ d → t.dom e = s.dom e) ∧ t = { s with domains := t.domains }
    (s.boot = .ready → d < 1024 → x.exists_ = false → puts (.domainCreate d) { Domain.init with exists_ := true, toffset := BitVec.ofNat 64 s.time } ∧
      ∀ t, exec (.domainCreate d) s = .next t → s.time < 2 ^ 64 → t.guest d = 0) ∧
    (s.boot ≠ .ready ∨ 1024 ≤ d ∨ x.exists_ = true → exec (.domainCreate d) s = .next s) ∧
    (let free : Prop := x.exists_ = true ∧ (∀ c ∈ s.cores, c.2.uses d = false) ∧ ∀ l ∈ s.launches, l.dom ≠ d
     (free → ∃ t, exec (.domainDestroy d) s = .next t ∧ t.dom d = Domain.init ∧ (∀ q, (t.quad q).lists d = false) ∧
       (∀ e, e ≠ d → t.dom e = s.dom e) ∧ (∀ pa, t.physRead pa = s.physRead pa) ∧
       ∀ q, (s.quad q).lists d = true → ∀ c ∈ coresOf q,
         let rest := distinct (((s.quad q).slots.filterMap id).filter fun e => decide (e ≠ d))
         (∀ e, rest = [e] → (t.core c).share = [(e, 256)]) ∧
         (rest.length ≠ 1 → (t.core c).share = (s.core c).share.filter fun y => decide (y.1 ≠ d))) ∧
     (¬free → exec (.domainDestroy d) s = .next s)) ∧
    (x.stop = false → puts (.dctlStop d) { x with stop := true, stopAt := s.time }) ∧ (x.stop = true → puts (.dctlStop d) x) ∧
    (x.stop = true → puts (.dctlStart d) { x with stop := false, toffset := if x.tmode then x.toffset else x.toffset + BitVec.ofNat 64 (s.time - x.stopAt) }) ∧
    (x.stop = false → puts (.dctlStart d) x) ∧
    (∀ key, (x.exists_ = true → x.keyValid = false → puts (.key d key) { x with key := key, keyValid := true }) ∧
      (x.exists_ = false ∨ x.keyValid = true → puts (.key d key) x)) ∧
    (∀ core (v : BitVec 128),
      let es := (List.range 4).map fun i => (bitsOf v.toNat (32 * i + 9) (32 * i), bitsOf v.toNat (32 * i + 24) (32 * i + 16))
      ((es.map (·.2)).sum ≤ 256 → s.hasDie (dieOf core) = true → ∃ t, exec (.share core v) s = .next t ∧ t.core core = { s.core core with share := es } ∧ t = { s with cores := t.cores }) ∧
      (256 < (es.map (·.2)).sum ∨ s.hasDie (dieOf core) = false → exec (.share core v) s = .next s)) ∧
    (∀ quad (v : DWord),
      let old := slotDoms (s.quad quad).slots
      let new := slotDoms (assignSlots v)
      (s.hasDie (quad / 16) = false ∨ s.boot ≠ .ready → exec (.quadAssignmentWrite quad v) s = .next s) ∧
      (∀ reason, s.boot = .ready → s.hasDie (quad / 16) = true → s.assignRefusal quad new = some reason → ∃ t, exec (.quadAssignmentWrite quad v) s = .next t ∧
        t.quad quad = { s.quad quad with astat := 2, areason := reason } ∧ t = { s with quads := t.quads }) ∧
      (s.boot = .ready → s.hasDie (quad / 16) = true → s.assignRefusal quad new = none → ∃ t, exec (.quadAssignmentWrite quad v) s = .next t ∧
        t.quad quad = { s.quad quad with slots := assignSlots v, astat := 1, areason := 0 } ∧
        ((∀ e, e ∈ old ↔ e ∈ new) → t = { s with quads := t.quads }) ∧
        (¬(∀ e, e ∈ old ↔ e ∈ new) → ∀ c ∈ coresOf quad, (t.core c).share = freshShares new ∧ (t.core c).credits = [])))

/-- R33, R35, R37 to R39, R50, R51: decoding the words of a well-formed instruction gives the instruction back, with every
operand at every value the encodings admit and every prefix class. -/
def Obligations.EncodingRoundTrip : Prop :=
  ∀ i : Instr, i.wf = true → encode i ≠ [] → decodeWords (encode i) = .ok i

/-- R35, R38, R40, R52: a word that decodes, with or without a prefix word, decodes to a well-formed instruction whose
encoding is these words: no two words mean one instruction and no bit of them is ignored. -/
def Obligations.DecodingIsEncoding : Prop :=
  ∀ (p : Option (BitVec 24)) (w : Word) (i : Instr), decode p w = .ok i →
    i.wf = true ∧ encode i = (match p with
      | none => [w]
      | some x => [0xFF#8 ++ x, w])

/-- The worked encodings of R52, R316, R323, R326, R349, R371 and R376 decode to what they stand for; its borderline words
are refused. -/
def Obligations.WorkedEncodingsDecode : Prop :=
  decodeWords [0xFF000186, 0x190302A0] = .ok (.addi (.v 3) (.v 2) (.long 0x186#24 0xA0#8)) ∧
  decodeWords [0x661207C4] = .ok (.stest .flt 1 2 (.v 7) (.reg (.g 4))) ∧
  decodeWords [0x78084143] = .ok (.trd (.v 8) 2 false 5 3 none) ∧
  decodeWords [0xFF000001, 0x78084143] = .ok (.trd (.v 8) 2 false 5 3 (some true)) ∧
  decodeWords [0xFF020408, 0xB2300005] = .ok (.apply 3 5 (some { base := 8, nin := 4, nout := 2 })) ∧
  decodeWords [0xBB500000] = .ok (.fence .die .rel false) ∧ decodeWords [0xBB040000] = .ok (.fence .core .none true) ∧
  decodeWords [0xBCFC0FFF] = .ok (.waitc 63 0 63 63) ∧ decodeWords [0x8CC4C410] = .ok (.gaddi (.g 4) (.g 4) (.short 0x10#8)) ∧
  decodeWords [0xD8C6C400] = .ok (.spawn (.g 6) 4) ∧ decodeWords [0xE040C202] = .ok (.ald 2 2 2) ∧
  decodeWords [0xF2000007] = .ok (.trap 7) ∧ decodeWords [0xF800C603] = .ok (.logctlReadPosition (.g 6)) ∧
  decodeWords [0xE900000C] = .ok (.enter 12) ∧
  decodeWords [0x00000000] = .error .illegalOp ∧ decodeWords [0xFF000001, 0x81010203] = .error .illegalPfx ∧
  decodeWords [0x6D120304] = .error .illegalOp

/-- R33, R40, R50 to R52: an unassigned opcode is ILLEGAL_OP with or without a prefix, and an assigned one never is; a
prefix in front of an instruction without a prefix class, another prefix word among them, is ILLEGAL_PREFIX. -/
def Obligations.UnassignedWordsRefused : Prop :=
  ∀ (w : Word) (p : Option (BitVec 24)),
    ((fop w).toNat ∈ unassignedOps → decode p w = .error .illegalOp) ∧
    ((fop w).toNat ∉ unassignedOps → decode p w ≠ .error .illegalOp) ∧
    ((fop w).toNat ∈ plainOps → ∀ x, decode (some x) w = .error .illegalPfx)

/-- R29, R38, R52, R298 to R300, R382: a step with a live stream selected runs exactly the instruction its next word
decodes to (its trap if the word is no instruction). A stall leaves the stream's registers, program counter and all
memory as they were. Around an issue the step changes no register, no program counter and no memory byte: it charges
the issue, counts it, resets the back-off level at a retirement unless the instruction keeps it, lets waiting streams
try again, and only the uniform pipe picks once more; a prefix word is charged with the word behind it.

Rests on the model's choice of log entry 12 (DESIGN CHOICE: many agents act at once; one step is one issue, one event
or one selection, and `turn`, `script`, `sweep` and `chooser` in the state say which comes next). -/
def Obligations.StepRunsDecoded : Prop :=
  ∀ (s : State) (t : Turn) (rest : List Turn) (i : Instr), s.turn = t :: rest → s.turnLive t.ref = true →
    s.serviceDue t.ref = none → s.codeBad t.ref (s.wordPc t.ref) = false →
    decoded (s.wordPc t.ref).toNat (s.pfxOf t.ref) (s.fetchWord t.ref (s.wordPc t.ref)) = i →
    (t.ref.isSlice = true → sliceMay i = true) →
    let u := if isPfx i then s else s.charge t
    ∀ v, exec i u = .next v → ∃ y, step s = .next y ∧
      (v.last = .stalled → (y.warp t.ref).v = (s.warp t.ref).v ∧ (y.warp t.ref).g = (s.warp t.ref).g ∧
        (y.warp t.ref).pc = (s.warp t.ref).pc ∧ (∀ pa, y.physRead pa = s.physRead pa) ∧ y.last = .stalled) ∧
      (v.last = .retired → isPfx i = true → y = v) ∧
      (v.last ≠ .stalled → isPfx i = false → (t.pipe ≠ 4 ∨ t.second = true → y.turn = []) ∧
        (y.turn.length ≤ 1 ∧ ∀ x ∈ y.turn, x.pipe = 4 ∧ x.second = true) ∧ (∀ pa, y.physRead pa = v.physRead pa) ∧
        (∀ r, (y.warp r).v = (v.warp r).v ∧ (y.warp r).g = (v.warp r).g ∧ (y.warp r).sets = (v.warp r).sets ∧
          (y.warp r).pc = (v.warp r).pc ∧ (y.warp r).stack = (v.warp r).stack ∧ (y.warp r).waiting = false)) ∧
      (v.last = .retired → isPfx i = false → (keepsLevel i = false → (y.warp t.ref).level = 0) ∧
        (keepsLevel i = true → (y.warp t.ref).level = (v.warp t.ref).level))

/-- R9, R413: no step is a fault or a refusal. An instruction of a selected stream, and every event, gives a next state.

Rests on the model's choice of log entry 12 (DESIGN CHOICE: many agents act at once; one step is one issue, one event
or one selection, and `turn`, `script`, `sweep` and `chooser` in the state say which comes next). -/
def Obligations.EveryStepGoesOn : Prop :=
  (∀ s : State, Goes (step s)) ∧ ∀ (i : Instr) (s : State), (s.turn ≠ [] ∨ isEvent i = true) → Goes (exec i s)

/-- R25: the model's memory keeps its canonical form (addresses rising, no byte listed that an unlisted address reads as)
in every step, so that equal memories are equal data; the reset memory has it.

Rests on the model's choice of log entry 2 (DESIGN CHOICE: what a byte of physical memory that nothing has written
reads as: the spec gives no power-on contents; it reads 0). -/
def Obligations.StepKeepsMemoryForm : Prop :=
  State.reset.Canonical ∧ ∀ s t : State, s.Canonical → step s = .next t → t.Canonical

/-- R124: FABS and FNEG, from their words to their results. OP 0x2A and 0x2B with b = 0 are FABS and FNEG, and any other b
is a nonzero field. In each lane of S a NaN operand gives 0x7FC0_0000; for every other operand FABS clears bit 31,
FNEG inverts it, and all other bits, subnormals and infinities included, stay. -/
def Obligations.SignBitInstructions : Prop :=
  (∀ w : Word, ((fop w = 0x2A#8 ∨ fop w = 0x2B#8) → fb w ≠ 0 → decode none w = .error .illegalField) ∧
    (∀ d a, Reg.ofNum (fd w) = some d → Reg.ofNum (fa w) = some a → d.isLaneDst = true → fb w = 0 →
      (fop w = 0x2A#8 → decode none w = .ok (.fabs d a)) ∧ (fop w = 0x2B#8 → decode none w = .ok (.fneg d a)))) ∧
  ∀ (d a : Reg) (s : State) (r : Ref), d.isLaneDst = true → s.warpRuns r → s.canRead r a → s.canWriteRoom r [a] d →
    let nan (x : Word) : Prop := x.extractLsb' 23 8 = 0xFF#8 ∧ x.extractLsb' 0 23 ≠ 0
    (∃ t val, exec (.fabs d a) s = .next t ∧ LaneWrites s t r [a] d val ∧ ∀ j,
      let x := s.laneVal r a j
      (nan x → val j = 0x7FC00000#32) ∧ (¬nan x → (val j).getLsbD 31 = false ∧ ∀ k, k < 31 → (val j).getLsbD k = x.getLsbD k)) ∧
    ∃ t val, exec (.fneg d a) s = .next t ∧ LaneWrites s t r [a] d val ∧ ∀ j,
      let x := s.laneVal r a j
      (nan x → val j = 0x7FC00000#32) ∧ (¬nan x → (val j).getLsbD 31 = !x.getLsbD 31 ∧ ∀ k, k < 31 → (val j).getLsbD k = x.getLsbD k)

/-- R134: BZERO, from its word to its result. OP 0x45 with b = 0 is BZERO, and any other b is a nonzero field. In each
lane of S it writes the index, 0 to 3, of the lowest byte of a that is zero, and 4 if no byte is zero. -/
def Obligations.LowestZeroByte : Prop :=
  (∀ w : Word, fop w = 0x45#8 → (fb w ≠ 0 → decode none w = .error .illegalField) ∧
    (∀ d a, Reg.ofNum (fd w) = some d → Reg.ofNum (fa w) = some a → d.isLaneDst = true → fb w = 0 → decode none w = .ok (.bzero d a))) ∧
  ∀ (d a : Reg) (s : State) (r : Ref), d.isLaneDst = true → s.warpRuns r → s.canRead r a → s.canWriteRoom r [a] d →
    ∃ t val, exec (.bzero d a) s = .next t ∧ LaneWrites s t r [a] d val ∧ ∀ j,
      let byte (k : Nat) : BitVec 8 := (s.laneVal r a j).extractLsb' (8 * k) 8
      ∃ n, val j = BitVec.ofNat 32 n ∧ n ≤ 4 ∧ (∀ k, k < n → byte k ≠ 0) ∧ (n < 4 → byte n = 0)

/-- R328, R340, R342, R346: whatever instruction a warp at user privilege runs, no domain's translation roots, time
offset, scale or mode, key, owner epoch, stop or existence changes, and no core's supervisor entry, swap-out time,
shares or save areas. -/
def Obligations.UserKeepsDomains : Prop :=
  ∀ (i : Instr) (s t : State) (r : Ref), s.issues r → (s.warp r).priv = false → isEvent i = false → exec i s = .next t →
    (∀ d, let x := s.dom d
      let y := t.dom d
      (y.ptbase, y.hptbase, y.vwbase, y.toffset, y.tscale, y.tmode) = (x.ptbase, x.hptbase, x.vwbase, x.toffset, x.tscale, x.tmode) ∧
      (y.key, y.keyValid, y.epoch, y.stop, y.exists_, y.force) = (x.key, x.keyValid, x.epoch, x.stop, x.exists_, x.force)) ∧
    ∀ c, ((t.core c).svec, (t.core c).swapwait, (t.core c).share, (t.core c).savebase, (t.core c).strap) =
      ((s.core c).svec, (s.core c).swapwait, (s.core c).share, (s.core c).savebase, (s.core c).strap)
end

