-- ==== Sys2Proof/Laws/Tab.lean ====
section
/-! SUPPORT. Laws of the sparse tables: reading back what was written, every other key untouched, and the canonical form
kept. -/

namespace Sys2Proof.Machine

variable {α : Type} [DecidableEq α]

omit [DecidableEq α] in
theorem Tab.get_erase_same (d : α) (t : Tab α) (i : Nat) : Tab.get d (t.erase i) i = d := by
  induction t with
  | nil => rfl
  | cons e t ih => obtain ⟨k, v⟩ := e; simp only [Tab.erase]; split <;> simp_all [Tab.get]

omit [DecidableEq α] in
theorem Tab.get_erase_other (d : α) (t : Tab α) {i j : Nat} (h : j ≠ i) : Tab.get d (t.erase i) j = Tab.get d t j := by
  induction t with
  | nil => rfl
  | cons e t ih => obtain ⟨k, v⟩ := e; simp only [Tab.erase]; split <;> simp_all [Tab.get]

omit [DecidableEq α] in
theorem Tab.get_insert_same (d : α) (t : Tab α) (i : Nat) (x : α) : Tab.get d (t.insert i x) i = x := by
  induction t with
  | nil => simp [Tab.insert, Tab.get]
  | cons e t ih =>
    obtain ⟨k, v⟩ := e
    by_cases h : i ≤ k
    · simp [Tab.insert, Tab.get, h]
    · simp [Tab.insert, Tab.get, h, ih, show i ≠ k by omega]

omit [DecidableEq α] in
theorem Tab.get_insert_other (d : α) (t : Tab α) {i j : Nat} (x : α) (h : j ≠ i) :
    Tab.get d (t.insert i x) j = Tab.get d t j := by
  induction t with
  | nil => simp [Tab.insert, Tab.get, h]
  | cons e t ih => obtain ⟨k, v⟩ := e; simp only [Tab.insert]; split <;> simp_all [Tab.get]

/-- A table reads back the value written at a key. -/
@[simp] theorem Tab.get_set_same (d : α) (t : Tab α) (i : Nat) (x : α) : Tab.get d (Tab.set d t i x) i = x := by
  unfold Tab.set
  split
  · simp_all [Tab.get_erase_same]
  · exact Tab.get_insert_same d _ i x

/-- A write leaves every other key alone. -/
theorem Tab.get_set_other (d : α) (t : Tab α) {i j : Nat} (x : α) (h : j ≠ i) :
    Tab.get d (Tab.set d t i x) j = Tab.get d t j := by
  unfold Tab.set
  split
  · exact Tab.get_erase_other d t h
  · rw [Tab.get_insert_other d _ x h, Tab.get_erase_other d t h]

/-- A table after one write, at every key. -/
theorem Tab.get_set (d : α) (t : Tab α) (i j : Nat) (x : α) :
    Tab.get d (Tab.set d t i x) j = if j = i then x else Tab.get d t j := by
  split
  · subst_vars; simp
  · exact Tab.get_set_other d t x ‹_›

/-! ### The canonical form -/

theorem Tab.wfFrom_mono (d : α) {a b : Nat} (t : Tab α) (h : a ≤ b) (w : Tab.wfFrom d b t = true) : Tab.wfFrom d a t = true := by
  cases t with
  | nil => rfl
  | cons e t =>
    obtain ⟨k, v⟩ := e
    simp only [Tab.wfFrom, Bool.and_eq_true, decide_eq_true_eq] at *
    exact ⟨⟨by omega, w.1.2⟩, w.2⟩

theorem Tab.wfFrom_erase (d : α) (i : Nat) (t : Tab α) : ∀ b, Tab.wfFrom d b t = true → Tab.wfFrom d b (t.erase i) = true := by
  induction t with
  | nil => intro _ _; rfl
  | cons e t ih =>
    obtain ⟨k, v⟩ := e
    intro b w
    simp only [Tab.wfFrom, Bool.and_eq_true, decide_eq_true_eq] at w
    simp only [Tab.erase]
    split
    · exact Tab.wfFrom_mono d _ (by omega) (ih _ w.2)
    · simp [Tab.wfFrom, w.1.1, w.1.2, ih _ w.2]

theorem Tab.wfFrom_insert (d : α) (i : Nat) (x : α) (hx : x ≠ d) (t : Tab α) :
    ∀ b, b ≤ i → (∀ e ∈ t, e.1 ≠ i) → Tab.wfFrom d b t = true → Tab.wfFrom d b (t.insert i x) = true := by
  induction t with
  | nil => intro b hb _ _; simp [Tab.insert, Tab.wfFrom, hb, hx]
  | cons e t ih =>
    obtain ⟨k, v⟩ := e
    intro b hb hn w
    simp only [Tab.wfFrom, Bool.and_eq_true, decide_eq_true_eq] at w
    have hk : k ≠ i := hn (k, v) (by simp)
    simp only [Tab.insert]
    split
    · simp [Tab.wfFrom, hb, hx, w.1.2, w.2, show i + 1 ≤ k by omega]
    · simp [Tab.wfFrom, w.1.1, w.1.2, ih (k + 1) (by omega) (fun e he => hn e (by simp [he])) w.2]

omit [DecidableEq α] in
theorem Tab.not_mem_erase (t : Tab α) (i : Nat) : ∀ e ∈ t.erase i, e.1 ≠ i := by
  induction t with
  | nil => intro e he; cases he
  | cons x t ih =>
    obtain ⟨k, v⟩ := x
    simp only [Tab.erase]
    split
    · exact ih
    · intro e he
      rcases List.mem_cons.mp he with rfl | he
      · exact fun h => ‹¬i = k› h.symm
      · exact ih e he

/-- A write keeps the canonical form. -/
theorem Tab.wf_set (d : α) (t : Tab α) (i : Nat) (x : α) (w : Tab.wf d t = true) : Tab.wf d (Tab.set d t i x) = true := by
  unfold Tab.set Tab.wf at *
  split
  · exact Tab.wfFrom_erase d i t 0 w
  · exact Tab.wfFrom_insert d i x ‹_› _ 0 (by omega) (Tab.not_mem_erase t i) (Tab.wfFrom_erase d i t 0 w)

/-- Entries left out of a canonical table leave a canonical table. -/
theorem Tab.wfFrom_filter (d : α) (p : Nat × α → Bool) (t : Tab α) : ∀ b, Tab.wfFrom d b t = true → Tab.wfFrom d b (t.filter p) = true := by
  induction t with
  | nil => intro _ _; rfl
  | cons e t ih =>
    obtain ⟨k, v⟩ := e
    intro b w
    simp only [Tab.wfFrom, Bool.and_eq_true, decide_eq_true_eq] at w
    simp only [List.filter_cons]
    split
    · simp [Tab.wfFrom, w.1.1, w.1.2, ih _ w.2]
    · exact Tab.wfFrom_mono d _ (by omega) (ih _ w.2)

theorem Tab.wf_filter (d : α) (p : Nat × α → Bool) (t : Tab α) (w : Tab.wf d t = true) : Tab.wf d (t.filter p) = true :=
  Tab.wfFrom_filter d p t 0 w

end Sys2Proof.Machine
end

