-- ==== Sys2Proof/Laws/State.lean ====
section
/-! SUPPORT. The fields of the state after each named update, and the units read back after one was replaced. -/

namespace Sys2Proof.Machine

variable (s : State) (r r' : Ref) (c c' k k' : Nat)


/-! ### `setCore` -/

@[simp] theorem State.setCore_part (x : Core) : (s.setCore c x).part = s.part := rfl
@[simp] theorem State.setCore_mem (x : Core) : (s.setCore c x).mem = s.mem := rfl
@[simp] theorem State.setCore_bad (x : Core) : (s.setCore c x).bad = s.bad := rfl
@[simp] theorem State.setCore_tags (x : Core) : (s.setCore c x).tags = s.tags := rfl
@[simp] theorem State.setCore_stamped (x : Core) : (s.setCore c x).stamped = s.stamped := rfl
@[simp] theorem State.setCore_pages (x : Core) : (s.setCore c x).pages = s.pages := rfl
@[simp] theorem State.setCore_pending (x : Core) : (s.setCore c x).pending = s.pending := rfl
@[simp] theorem State.setCore_quads (x : Core) : (s.setCore c x).quads = s.quads := rfl
@[simp] theorem State.setCore_dies (x : Core) : (s.setCore c x).dies = s.dies := rfl
@[simp] theorem State.setCore_vaults (x : Core) : (s.setCore c x).vaults = s.vaults := rfl
@[simp] theorem State.setCore_domains (x : Core) : (s.setCore c x).domains = s.domains := rfl
@[simp] theorem State.setCore_launches (x : Core) : (s.setCore c x).launches = s.launches := rfl
@[simp] theorem State.setCore_nextLaunch (x : Core) : (s.setCore c x).nextLaunch = s.nextLaunch := rfl
@[simp] theorem State.setCore_nextSeq (x : Core) : (s.setCore c x).nextSeq = s.nextSeq := rfl
@[simp] theorem State.setCore_nextIssue (x : Core) : (s.setCore c x).nextIssue = s.nextIssue := rfl
@[simp] theorem State.setCore_admission (x : Core) : (s.setCore c x).admission = s.admission := rfl
@[simp] theorem State.setCore_admbad (x : Core) : (s.setCore c x).admbad = s.admbad := rfl
@[simp] theorem State.setCore_admref (x : Core) : (s.setCore c x).admref = s.admref := rfl
@[simp] theorem State.setCore_admreason (x : Core) : (s.setCore c x).admreason = s.admreason := rfl
@[simp] theorem State.setCore_fwaddr (x : Core) : (s.setCore c x).fwaddr = s.fwaddr := rfl
@[simp] theorem State.setCore_fwlen (x : Core) : (s.setCore c x).fwlen = s.fwlen := rfl
@[simp] theorem State.setCore_boot (x : Core) : (s.setCore c x).boot = s.boot := rfl
@[simp] theorem State.setCore_bootReason (x : Core) : (s.setCore c x).bootReason = s.bootReason := rfl
@[simp] theorem State.setCore_windows (x : Core) : (s.setCore c x).windows = s.windows := rfl
@[simp] theorem State.setCore_podix (x : Core) : (s.setCore c x).podix = s.podix := rfl
@[simp] theorem State.setCore_bcnsrc (x : Core) : (s.setCore c x).bcnsrc = s.bcnsrc := rfl
@[simp] theorem State.setCore_hbeacon (x : Core) : (s.setCore c x).hbeacon = s.hbeacon := rfl
@[simp] theorem State.setCore_hbeaconu (x : Core) : (s.setCore c x).hbeaconu = s.hbeaconu := rfl
@[simp] theorem State.setCore_pcap (x : Core) : (s.setCore c x).pcap = s.pcap := rfl
@[simp] theorem State.setCore_pmeas (x : Core) : (s.setCore c x).pmeas = s.pmeas := rfl
@[simp] theorem State.setCore_ptable (x : Core) : (s.setCore c x).ptable = s.ptable := rfl
@[simp] theorem State.setCore_msix (x : Core) : (s.setCore c x).msix = s.msix := rfl
@[simp] theorem State.setCore_msixTable (x : Core) : (s.setCore c x).msixTable = s.msixTable := rfl
@[simp] theorem State.setCore_msixPending (x : Core) : (s.setCore c x).msixPending = s.msixPending := rfl
@[simp] theorem State.setCore_hostRead (x : Core) : (s.setCore c x).hostRead = s.hostRead := rfl
@[simp] theorem State.setCore_fwDigest (x : Core) : (s.setCore c x).fwDigest = s.fwDigest := rfl
@[simp] theorem State.setCore_attested (x : Core) : (s.setCore c x).attested = s.attested := rfl
@[simp] theorem State.setCore_images (x : Core) : (s.setCore c x).images = s.images := rfl
@[simp] theorem State.setCore_nextImage (x : Core) : (s.setCore c x).nextImage = s.nextImage := rfl
@[simp] theorem State.setCore_reply (x : Core) : (s.setCore c x).reply = s.reply := rfl
@[simp] theorem State.setCore_delayed (x : Core) : (s.setCore c x).delayed = s.delayed := rfl
@[simp] theorem State.setCore_fabric (x : Core) : (s.setCore c x).fabric = s.fabric := rfl
@[simp] theorem State.setCore_beaconsOut (x : Core) : (s.setCore c x).beaconsOut = s.beaconsOut := rfl
@[simp] theorem State.setCore_time (x : Core) : (s.setCore c x).time = s.time := rfl
@[simp] theorem State.setCore_pace (x : Core) : (s.setCore c x).pace = s.pace := rfl
@[simp] theorem State.setCore_turn (x : Core) : (s.setCore c x).turn = s.turn := rfl
@[simp] theorem State.setCore_script (x : Core) : (s.setCore c x).script = s.script := rfl
@[simp] theorem State.setCore_sweep (x : Core) : (s.setCore c x).sweep = s.sweep := rfl
@[simp] theorem State.setCore_chooser (x : Core) : (s.setCore c x).chooser = s.chooser := rfl
@[simp] theorem State.setCore_last (x : Core) : (s.setCore c x).last = s.last := rfl

/-! ### `modCore` -/

@[simp] theorem State.modCore_part (f : Core → Core) : (s.modCore c f).part = s.part := rfl
@[simp] theorem State.modCore_mem (f : Core → Core) : (s.modCore c f).mem = s.mem := rfl
@[simp] theorem State.modCore_bad (f : Core → Core) : (s.modCore c f).bad = s.bad := rfl
@[simp] theorem State.modCore_tags (f : Core → Core) : (s.modCore c f).tags = s.tags := rfl
@[simp] theorem State.modCore_stamped (f : Core → Core) : (s.modCore c f).stamped = s.stamped := rfl
@[simp] theorem State.modCore_pages (f : Core → Core) : (s.modCore c f).pages = s.pages := rfl
@[simp] theorem State.modCore_pending (f : Core → Core) : (s.modCore c f).pending = s.pending := rfl
@[simp] theorem State.modCore_quads (f : Core → Core) : (s.modCore c f).quads = s.quads := rfl
@[simp] theorem State.modCore_dies (f : Core → Core) : (s.modCore c f).dies = s.dies := rfl
@[simp] theorem State.modCore_vaults (f : Core → Core) : (s.modCore c f).vaults = s.vaults := rfl
@[simp] theorem State.modCore_domains (f : Core → Core) : (s.modCore c f).domains = s.domains := rfl
@[simp] theorem State.modCore_launches (f : Core → Core) : (s.modCore c f).launches = s.launches := rfl
@[simp] theorem State.modCore_nextLaunch (f : Core → Core) : (s.modCore c f).nextLaunch = s.nextLaunch := rfl
@[simp] theorem State.modCore_nextSeq (f : Core → Core) : (s.modCore c f).nextSeq = s.nextSeq := rfl
@[simp] theorem State.modCore_nextIssue (f : Core → Core) : (s.modCore c f).nextIssue = s.nextIssue := rfl
@[simp] theorem State.modCore_admission (f : Core → Core) : (s.modCore c f).admission = s.admission := rfl
@[simp] theorem State.modCore_admbad (f : Core → Core) : (s.modCore c f).admbad = s.admbad := rfl
@[simp] theorem State.modCore_admref (f : Core → Core) : (s.modCore c f).admref = s.admref := rfl
@[simp] theorem State.modCore_admreason (f : Core → Core) : (s.modCore c f).admreason = s.admreason := rfl
@[simp] theorem State.modCore_fwaddr (f : Core → Core) : (s.modCore c f).fwaddr = s.fwaddr := rfl
@[simp] theorem State.modCore_fwlen (f : Core → Core) : (s.modCore c f).fwlen = s.fwlen := rfl
@[simp] theorem State.modCore_boot (f : Core → Core) : (s.modCore c f).boot = s.boot := rfl
@[simp] theorem State.modCore_bootReason (f : Core → Core) : (s.modCore c f).bootReason = s.bootReason := rfl
@[simp] theorem State.modCore_windows (f : Core → Core) : (s.modCore c f).windows = s.windows := rfl
@[simp] theorem State.modCore_podix (f : Core → Core) : (s.modCore c f).podix = s.podix := rfl
@[simp] theorem State.modCore_bcnsrc (f : Core → Core) : (s.modCore c f).bcnsrc = s.bcnsrc := rfl
@[simp] theorem State.modCore_hbeacon (f : Core → Core) : (s.modCore c f).hbeacon = s.hbeacon := rfl
@[simp] theorem State.modCore_hbeaconu (f : Core → Core) : (s.modCore c f).hbeaconu = s.hbeaconu := rfl
@[simp] theorem State.modCore_pcap (f : Core → Core) : (s.modCore c f).pcap = s.pcap := rfl
@[simp] theorem State.modCore_pmeas (f : Core → Core) : (s.modCore c f).pmeas = s.pmeas := rfl
@[simp] theorem State.modCore_ptable (f : Core → Core) : (s.modCore c f).ptable = s.ptable := rfl
@[simp] theorem State.modCore_msix (f : Core → Core) : (s.modCore c f).msix = s.msix := rfl
@[simp] theorem State.modCore_msixTable (f : Core → Core) : (s.modCore c f).msixTable = s.msixTable := rfl
@[simp] theorem State.modCore_msixPending (f : Core → Core) : (s.modCore c f).msixPending = s.msixPending := rfl
@[simp] theorem State.modCore_hostRead (f : Core → Core) : (s.modCore c f).hostRead = s.hostRead := rfl
@[simp] theorem State.modCore_fwDigest (f : Core → Core) : (s.modCore c f).fwDigest = s.fwDigest := rfl
@[simp] theorem State.modCore_attested (f : Core → Core) : (s.modCore c f).attested = s.attested := rfl
@[simp] theorem State.modCore_images (f : Core → Core) : (s.modCore c f).images = s.images := rfl
@[simp] theorem State.modCore_nextImage (f : Core → Core) : (s.modCore c f).nextImage = s.nextImage := rfl
@[simp] theorem State.modCore_reply (f : Core → Core) : (s.modCore c f).reply = s.reply := rfl
@[simp] theorem State.modCore_delayed (f : Core → Core) : (s.modCore c f).delayed = s.delayed := rfl
@[simp] theorem State.modCore_fabric (f : Core → Core) : (s.modCore c f).fabric = s.fabric := rfl
@[simp] theorem State.modCore_beaconsOut (f : Core → Core) : (s.modCore c f).beaconsOut = s.beaconsOut := rfl
@[simp] theorem State.modCore_time (f : Core → Core) : (s.modCore c f).time = s.time := rfl
@[simp] theorem State.modCore_pace (f : Core → Core) : (s.modCore c f).pace = s.pace := rfl
@[simp] theorem State.modCore_turn (f : Core → Core) : (s.modCore c f).turn = s.turn := rfl
@[simp] theorem State.modCore_script (f : Core → Core) : (s.modCore c f).script = s.script := rfl
@[simp] theorem State.modCore_sweep (f : Core → Core) : (s.modCore c f).sweep = s.sweep := rfl
@[simp] theorem State.modCore_chooser (f : Core → Core) : (s.modCore c f).chooser = s.chooser := rfl
@[simp] theorem State.modCore_last (f : Core → Core) : (s.modCore c f).last = s.last := rfl

/-! ### `modQuad` -/

@[simp] theorem State.modQuad_part (f : Quad → Quad) : (s.modQuad c f).part = s.part := rfl
@[simp] theorem State.modQuad_mem (f : Quad → Quad) : (s.modQuad c f).mem = s.mem := rfl
@[simp] theorem State.modQuad_bad (f : Quad → Quad) : (s.modQuad c f).bad = s.bad := rfl
@[simp] theorem State.modQuad_tags (f : Quad → Quad) : (s.modQuad c f).tags = s.tags := rfl
@[simp] theorem State.modQuad_stamped (f : Quad → Quad) : (s.modQuad c f).stamped = s.stamped := rfl
@[simp] theorem State.modQuad_pages (f : Quad → Quad) : (s.modQuad c f).pages = s.pages := rfl
@[simp] theorem State.modQuad_pending (f : Quad → Quad) : (s.modQuad c f).pending = s.pending := rfl
@[simp] theorem State.modQuad_cores (f : Quad → Quad) : (s.modQuad c f).cores = s.cores := rfl
@[simp] theorem State.modQuad_dies (f : Quad → Quad) : (s.modQuad c f).dies = s.dies := rfl
@[simp] theorem State.modQuad_vaults (f : Quad → Quad) : (s.modQuad c f).vaults = s.vaults := rfl
@[simp] theorem State.modQuad_domains (f : Quad → Quad) : (s.modQuad c f).domains = s.domains := rfl
@[simp] theorem State.modQuad_launches (f : Quad → Quad) : (s.modQuad c f).launches = s.launches := rfl
@[simp] theorem State.modQuad_nextLaunch (f : Quad → Quad) : (s.modQuad c f).nextLaunch = s.nextLaunch := rfl
@[simp] theorem State.modQuad_nextSeq (f : Quad → Quad) : (s.modQuad c f).nextSeq = s.nextSeq := rfl
@[simp] theorem State.modQuad_nextIssue (f : Quad → Quad) : (s.modQuad c f).nextIssue = s.nextIssue := rfl
@[simp] theorem State.modQuad_admission (f : Quad → Quad) : (s.modQuad c f).admission = s.admission := rfl
@[simp] theorem State.modQuad_admbad (f : Quad → Quad) : (s.modQuad c f).admbad = s.admbad := rfl
@[simp] theorem State.modQuad_admref (f : Quad → Quad) : (s.modQuad c f).admref = s.admref := rfl
@[simp] theorem State.modQuad_admreason (f : Quad → Quad) : (s.modQuad c f).admreason = s.admreason := rfl
@[simp] theorem State.modQuad_fwaddr (f : Quad → Quad) : (s.modQuad c f).fwaddr = s.fwaddr := rfl
@[simp] theorem State.modQuad_fwlen (f : Quad → Quad) : (s.modQuad c f).fwlen = s.fwlen := rfl
@[simp] theorem State.modQuad_boot (f : Quad → Quad) : (s.modQuad c f).boot = s.boot := rfl
@[simp] theorem State.modQuad_bootReason (f : Quad → Quad) : (s.modQuad c f).bootReason = s.bootReason := rfl
@[simp] theorem State.modQuad_windows (f : Quad → Quad) : (s.modQuad c f).windows = s.windows := rfl
@[simp] theorem State.modQuad_podix (f : Quad → Quad) : (s.modQuad c f).podix = s.podix := rfl
@[simp] theorem State.modQuad_bcnsrc (f : Quad → Quad) : (s.modQuad c f).bcnsrc = s.bcnsrc := rfl
@[simp] theorem State.modQuad_hbeacon (f : Quad → Quad) : (s.modQuad c f).hbeacon = s.hbeacon := rfl
@[simp] theorem State.modQuad_hbeaconu (f : Quad → Quad) : (s.modQuad c f).hbeaconu = s.hbeaconu := rfl
@[simp] theorem State.modQuad_pcap (f : Quad → Quad) : (s.modQuad c f).pcap = s.pcap := rfl
@[simp] theorem State.modQuad_pmeas (f : Quad → Quad) : (s.modQuad c f).pmeas = s.pmeas := rfl
@[simp] theorem State.modQuad_ptable (f : Quad → Quad) : (s.modQuad c f).ptable = s.ptable := rfl
@[simp] theorem State.modQuad_msix (f : Quad → Quad) : (s.modQuad c f).msix = s.msix := rfl
@[simp] theorem State.modQuad_msixTable (f : Quad → Quad) : (s.modQuad c f).msixTable = s.msixTable := rfl
@[simp] theorem State.modQuad_msixPending (f : Quad → Quad) : (s.modQuad c f).msixPending = s.msixPending := rfl
@[simp] theorem State.modQuad_hostRead (f : Quad → Quad) : (s.modQuad c f).hostRead = s.hostRead := rfl
@[simp] theorem State.modQuad_fwDigest (f : Quad → Quad) : (s.modQuad c f).fwDigest = s.fwDigest := rfl
@[simp] theorem State.modQuad_attested (f : Quad → Quad) : (s.modQuad c f).attested = s.attested := rfl
@[simp] theorem State.modQuad_images (f : Quad → Quad) : (s.modQuad c f).images = s.images := rfl
@[simp] theorem State.modQuad_nextImage (f : Quad → Quad) : (s.modQuad c f).nextImage = s.nextImage := rfl
@[simp] theorem State.modQuad_reply (f : Quad → Quad) : (s.modQuad c f).reply = s.reply := rfl
@[simp] theorem State.modQuad_delayed (f : Quad → Quad) : (s.modQuad c f).delayed = s.delayed := rfl
@[simp] theorem State.modQuad_fabric (f : Quad → Quad) : (s.modQuad c f).fabric = s.fabric := rfl
@[simp] theorem State.modQuad_beaconsOut (f : Quad → Quad) : (s.modQuad c f).beaconsOut = s.beaconsOut := rfl
@[simp] theorem State.modQuad_time (f : Quad → Quad) : (s.modQuad c f).time = s.time := rfl
@[simp] theorem State.modQuad_pace (f : Quad → Quad) : (s.modQuad c f).pace = s.pace := rfl
@[simp] theorem State.modQuad_turn (f : Quad → Quad) : (s.modQuad c f).turn = s.turn := rfl
@[simp] theorem State.modQuad_script (f : Quad → Quad) : (s.modQuad c f).script = s.script := rfl
@[simp] theorem State.modQuad_sweep (f : Quad → Quad) : (s.modQuad c f).sweep = s.sweep := rfl
@[simp] theorem State.modQuad_chooser (f : Quad → Quad) : (s.modQuad c f).chooser = s.chooser := rfl
@[simp] theorem State.modQuad_last (f : Quad → Quad) : (s.modQuad c f).last = s.last := rfl

/-! ### `modDie` -/

@[simp] theorem State.modDie_part (f : Die → Die) : (s.modDie c f).part = s.part := rfl
@[simp] theorem State.modDie_mem (f : Die → Die) : (s.modDie c f).mem = s.mem := rfl
@[simp] theorem State.modDie_bad (f : Die → Die) : (s.modDie c f).bad = s.bad := rfl
@[simp] theorem State.modDie_tags (f : Die → Die) : (s.modDie c f).tags = s.tags := rfl
@[simp] theorem State.modDie_stamped (f : Die → Die) : (s.modDie c f).stamped = s.stamped := rfl
@[simp] theorem State.modDie_pages (f : Die → Die) : (s.modDie c f).pages = s.pages := rfl
@[simp] theorem State.modDie_pending (f : Die → Die) : (s.modDie c f).pending = s.pending := rfl
@[simp] theorem State.modDie_cores (f : Die → Die) : (s.modDie c f).cores = s.cores := rfl
@[simp] theorem State.modDie_quads (f : Die → Die) : (s.modDie c f).quads = s.quads := rfl
@[simp] theorem State.modDie_vaults (f : Die → Die) : (s.modDie c f).vaults = s.vaults := rfl
@[simp] theorem State.modDie_domains (f : Die → Die) : (s.modDie c f).domains = s.domains := rfl
@[simp] theorem State.modDie_launches (f : Die → Die) : (s.modDie c f).launches = s.launches := rfl
@[simp] theorem State.modDie_nextLaunch (f : Die → Die) : (s.modDie c f).nextLaunch = s.nextLaunch := rfl
@[simp] theorem State.modDie_nextSeq (f : Die → Die) : (s.modDie c f).nextSeq = s.nextSeq := rfl
@[simp] theorem State.modDie_nextIssue (f : Die → Die) : (s.modDie c f).nextIssue = s.nextIssue := rfl
@[simp] theorem State.modDie_admission (f : Die → Die) : (s.modDie c f).admission = s.admission := rfl
@[simp] theorem State.modDie_admbad (f : Die → Die) : (s.modDie c f).admbad = s.admbad := rfl
@[simp] theorem State.modDie_admref (f : Die → Die) : (s.modDie c f).admref = s.admref := rfl
@[simp] theorem State.modDie_admreason (f : Die → Die) : (s.modDie c f).admreason = s.admreason := rfl
@[simp] theorem State.modDie_fwaddr (f : Die → Die) : (s.modDie c f).fwaddr = s.fwaddr := rfl
@[simp] theorem State.modDie_fwlen (f : Die → Die) : (s.modDie c f).fwlen = s.fwlen := rfl
@[simp] theorem State.modDie_boot (f : Die → Die) : (s.modDie c f).boot = s.boot := rfl
@[simp] theorem State.modDie_bootReason (f : Die → Die) : (s.modDie c f).bootReason = s.bootReason := rfl
@[simp] theorem State.modDie_windows (f : Die → Die) : (s.modDie c f).windows = s.windows := rfl
@[simp] theorem State.modDie_podix (f : Die → Die) : (s.modDie c f).podix = s.podix := rfl
@[simp] theorem State.modDie_bcnsrc (f : Die → Die) : (s.modDie c f).bcnsrc = s.bcnsrc := rfl
@[simp] theorem State.modDie_hbeacon (f : Die → Die) : (s.modDie c f).hbeacon = s.hbeacon := rfl
@[simp] theorem State.modDie_hbeaconu (f : Die → Die) : (s.modDie c f).hbeaconu = s.hbeaconu := rfl
@[simp] theorem State.modDie_pcap (f : Die → Die) : (s.modDie c f).pcap = s.pcap := rfl
@[simp] theorem State.modDie_pmeas (f : Die → Die) : (s.modDie c f).pmeas = s.pmeas := rfl
@[simp] theorem State.modDie_ptable (f : Die → Die) : (s.modDie c f).ptable = s.ptable := rfl
@[simp] theorem State.modDie_msix (f : Die → Die) : (s.modDie c f).msix = s.msix := rfl
@[simp] theorem State.modDie_msixTable (f : Die → Die) : (s.modDie c f).msixTable = s.msixTable := rfl
@[simp] theorem State.modDie_msixPending (f : Die → Die) : (s.modDie c f).msixPending = s.msixPending := rfl
@[simp] theorem State.modDie_hostRead (f : Die → Die) : (s.modDie c f).hostRead = s.hostRead := rfl
@[simp] theorem State.modDie_fwDigest (f : Die → Die) : (s.modDie c f).fwDigest = s.fwDigest := rfl
@[simp] theorem State.modDie_attested (f : Die → Die) : (s.modDie c f).attested = s.attested := rfl
@[simp] theorem State.modDie_images (f : Die → Die) : (s.modDie c f).images = s.images := rfl
@[simp] theorem State.modDie_nextImage (f : Die → Die) : (s.modDie c f).nextImage = s.nextImage := rfl
@[simp] theorem State.modDie_reply (f : Die → Die) : (s.modDie c f).reply = s.reply := rfl
@[simp] theorem State.modDie_delayed (f : Die → Die) : (s.modDie c f).delayed = s.delayed := rfl
@[simp] theorem State.modDie_fabric (f : Die → Die) : (s.modDie c f).fabric = s.fabric := rfl
@[simp] theorem State.modDie_beaconsOut (f : Die → Die) : (s.modDie c f).beaconsOut = s.beaconsOut := rfl
@[simp] theorem State.modDie_time (f : Die → Die) : (s.modDie c f).time = s.time := rfl
@[simp] theorem State.modDie_pace (f : Die → Die) : (s.modDie c f).pace = s.pace := rfl
@[simp] theorem State.modDie_turn (f : Die → Die) : (s.modDie c f).turn = s.turn := rfl
@[simp] theorem State.modDie_script (f : Die → Die) : (s.modDie c f).script = s.script := rfl
@[simp] theorem State.modDie_sweep (f : Die → Die) : (s.modDie c f).sweep = s.sweep := rfl
@[simp] theorem State.modDie_chooser (f : Die → Die) : (s.modDie c f).chooser = s.chooser := rfl
@[simp] theorem State.modDie_last (f : Die → Die) : (s.modDie c f).last = s.last := rfl

/-! ### `modVault` -/

@[simp] theorem State.modVault_part (f : Vault → Vault) : (s.modVault c f).part = s.part := rfl
@[simp] theorem State.modVault_mem (f : Vault → Vault) : (s.modVault c f).mem = s.mem := rfl
@[simp] theorem State.modVault_bad (f : Vault → Vault) : (s.modVault c f).bad = s.bad := rfl
@[simp] theorem State.modVault_tags (f : Vault → Vault) : (s.modVault c f).tags = s.tags := rfl
@[simp] theorem State.modVault_stamped (f : Vault → Vault) : (s.modVault c f).stamped = s.stamped := rfl
@[simp] theorem State.modVault_pages (f : Vault → Vault) : (s.modVault c f).pages = s.pages := rfl
@[simp] theorem State.modVault_pending (f : Vault → Vault) : (s.modVault c f).pending = s.pending := rfl
@[simp] theorem State.modVault_cores (f : Vault → Vault) : (s.modVault c f).cores = s.cores := rfl
@[simp] theorem State.modVault_quads (f : Vault → Vault) : (s.modVault c f).quads = s.quads := rfl
@[simp] theorem State.modVault_dies (f : Vault → Vault) : (s.modVault c f).dies = s.dies := rfl
@[simp] theorem State.modVault_domains (f : Vault → Vault) : (s.modVault c f).domains = s.domains := rfl
@[simp] theorem State.modVault_launches (f : Vault → Vault) : (s.modVault c f).launches = s.launches := rfl
@[simp] theorem State.modVault_nextLaunch (f : Vault → Vault) : (s.modVault c f).nextLaunch = s.nextLaunch := rfl
@[simp] theorem State.modVault_nextSeq (f : Vault → Vault) : (s.modVault c f).nextSeq = s.nextSeq := rfl
@[simp] theorem State.modVault_nextIssue (f : Vault → Vault) : (s.modVault c f).nextIssue = s.nextIssue := rfl
@[simp] theorem State.modVault_admission (f : Vault → Vault) : (s.modVault c f).admission = s.admission := rfl
@[simp] theorem State.modVault_admbad (f : Vault → Vault) : (s.modVault c f).admbad = s.admbad := rfl
@[simp] theorem State.modVault_admref (f : Vault → Vault) : (s.modVault c f).admref = s.admref := rfl
@[simp] theorem State.modVault_admreason (f : Vault → Vault) : (s.modVault c f).admreason = s.admreason := rfl
@[simp] theorem State.modVault_fwaddr (f : Vault → Vault) : (s.modVault c f).fwaddr = s.fwaddr := rfl
@[simp] theorem State.modVault_fwlen (f : Vault → Vault) : (s.modVault c f).fwlen = s.fwlen := rfl
@[simp] theorem State.modVault_boot (f : Vault → Vault) : (s.modVault c f).boot = s.boot := rfl
@[simp] theorem State.modVault_bootReason (f : Vault → Vault) : (s.modVault c f).bootReason = s.bootReason := rfl
@[simp] theorem State.modVault_windows (f : Vault → Vault) : (s.modVault c f).windows = s.windows := rfl
@[simp] theorem State.modVault_podix (f : Vault → Vault) : (s.modVault c f).podix = s.podix := rfl
@[simp] theorem State.modVault_bcnsrc (f : Vault → Vault) : (s.modVault c f).bcnsrc = s.bcnsrc := rfl
@[simp] theorem State.modVault_hbeacon (f : Vault → Vault) : (s.modVault c f).hbeacon = s.hbeacon := rfl
@[simp] theorem State.modVault_hbeaconu (f : Vault → Vault) : (s.modVault c f).hbeaconu = s.hbeaconu := rfl
@[simp] theorem State.modVault_pcap (f : Vault → Vault) : (s.modVault c f).pcap = s.pcap := rfl
@[simp] theorem State.modVault_pmeas (f : Vault → Vault) : (s.modVault c f).pmeas = s.pmeas := rfl
@[simp] theorem State.modVault_ptable (f : Vault → Vault) : (s.modVault c f).ptable = s.ptable := rfl
@[simp] theorem State.modVault_msix (f : Vault → Vault) : (s.modVault c f).msix = s.msix := rfl
@[simp] theorem State.modVault_msixTable (f : Vault → Vault) : (s.modVault c f).msixTable = s.msixTable := rfl
@[simp] theorem State.modVault_msixPending (f : Vault → Vault) : (s.modVault c f).msixPending = s.msixPending := rfl
@[simp] theorem State.modVault_hostRead (f : Vault → Vault) : (s.modVault c f).hostRead = s.hostRead := rfl
@[simp] theorem State.modVault_fwDigest (f : Vault → Vault) : (s.modVault c f).fwDigest = s.fwDigest := rfl
@[simp] theorem State.modVault_attested (f : Vault → Vault) : (s.modVault c f).attested = s.attested := rfl
@[simp] theorem State.modVault_images (f : Vault → Vault) : (s.modVault c f).images = s.images := rfl
@[simp] theorem State.modVault_nextImage (f : Vault → Vault) : (s.modVault c f).nextImage = s.nextImage := rfl
@[simp] theorem State.modVault_reply (f : Vault → Vault) : (s.modVault c f).reply = s.reply := rfl
@[simp] theorem State.modVault_delayed (f : Vault → Vault) : (s.modVault c f).delayed = s.delayed := rfl
@[simp] theorem State.modVault_fabric (f : Vault → Vault) : (s.modVault c f).fabric = s.fabric := rfl
@[simp] theorem State.modVault_beaconsOut (f : Vault → Vault) : (s.modVault c f).beaconsOut = s.beaconsOut := rfl
@[simp] theorem State.modVault_time (f : Vault → Vault) : (s.modVault c f).time = s.time := rfl
@[simp] theorem State.modVault_pace (f : Vault → Vault) : (s.modVault c f).pace = s.pace := rfl
@[simp] theorem State.modVault_turn (f : Vault → Vault) : (s.modVault c f).turn = s.turn := rfl
@[simp] theorem State.modVault_script (f : Vault → Vault) : (s.modVault c f).script = s.script := rfl
@[simp] theorem State.modVault_sweep (f : Vault → Vault) : (s.modVault c f).sweep = s.sweep := rfl
@[simp] theorem State.modVault_chooser (f : Vault → Vault) : (s.modVault c f).chooser = s.chooser := rfl
@[simp] theorem State.modVault_last (f : Vault → Vault) : (s.modVault c f).last = s.last := rfl

/-! ### `modDom` -/

@[simp] theorem State.modDom_part (f : Domain → Domain) : (s.modDom c f).part = s.part := rfl
@[simp] theorem State.modDom_mem (f : Domain → Domain) : (s.modDom c f).mem = s.mem := rfl
@[simp] theorem State.modDom_bad (f : Domain → Domain) : (s.modDom c f).bad = s.bad := rfl
@[simp] theorem State.modDom_tags (f : Domain → Domain) : (s.modDom c f).tags = s.tags := rfl
@[simp] theorem State.modDom_stamped (f : Domain → Domain) : (s.modDom c f).stamped = s.stamped := rfl
@[simp] theorem State.modDom_pages (f : Domain → Domain) : (s.modDom c f).pages = s.pages := rfl
@[simp] theorem State.modDom_pending (f : Domain → Domain) : (s.modDom c f).pending = s.pending := rfl
@[simp] theorem State.modDom_cores (f : Domain → Domain) : (s.modDom c f).cores = s.cores := rfl
@[simp] theorem State.modDom_quads (f : Domain → Domain) : (s.modDom c f).quads = s.quads := rfl
@[simp] theorem State.modDom_dies (f : Domain → Domain) : (s.modDom c f).dies = s.dies := rfl
@[simp] theorem State.modDom_vaults (f : Domain → Domain) : (s.modDom c f).vaults = s.vaults := rfl
@[simp] theorem State.modDom_launches (f : Domain → Domain) : (s.modDom c f).launches = s.launches := rfl
@[simp] theorem State.modDom_nextLaunch (f : Domain → Domain) : (s.modDom c f).nextLaunch = s.nextLaunch := rfl
@[simp] theorem State.modDom_nextSeq (f : Domain → Domain) : (s.modDom c f).nextSeq = s.nextSeq := rfl
@[simp] theorem State.modDom_nextIssue (f : Domain → Domain) : (s.modDom c f).nextIssue = s.nextIssue := rfl
@[simp] theorem State.modDom_admission (f : Domain → Domain) : (s.modDom c f).admission = s.admission := rfl
@[simp] theorem State.modDom_admbad (f : Domain → Domain) : (s.modDom c f).admbad = s.admbad := rfl
@[simp] theorem State.modDom_admref (f : Domain → Domain) : (s.modDom c f).admref = s.admref := rfl
@[simp] theorem State.modDom_admreason (f : Domain → Domain) : (s.modDom c f).admreason = s.admreason := rfl
@[simp] theorem State.modDom_fwaddr (f : Domain → Domain) : (s.modDom c f).fwaddr = s.fwaddr := rfl
@[simp] theorem State.modDom_fwlen (f : Domain → Domain) : (s.modDom c f).fwlen = s.fwlen := rfl
@[simp] theorem State.modDom_boot (f : Domain → Domain) : (s.modDom c f).boot = s.boot := rfl
@[simp] theorem State.modDom_bootReason (f : Domain → Domain) : (s.modDom c f).bootReason = s.bootReason := rfl
@[simp] theorem State.modDom_windows (f : Domain → Domain) : (s.modDom c f).windows = s.windows := rfl
@[simp] theorem State.modDom_podix (f : Domain → Domain) : (s.modDom c f).podix = s.podix := rfl
@[simp] theorem State.modDom_bcnsrc (f : Domain → Domain) : (s.modDom c f).bcnsrc = s.bcnsrc := rfl
@[simp] theorem State.modDom_hbeacon (f : Domain → Domain) : (s.modDom c f).hbeacon = s.hbeacon := rfl
@[simp] theorem State.modDom_hbeaconu (f : Domain → Domain) : (s.modDom c f).hbeaconu = s.hbeaconu := rfl
@[simp] theorem State.modDom_pcap (f : Domain → Domain) : (s.modDom c f).pcap = s.pcap := rfl
@[simp] theorem State.modDom_pmeas (f : Domain → Domain) : (s.modDom c f).pmeas = s.pmeas := rfl
@[simp] theorem State.modDom_ptable (f : Domain → Domain) : (s.modDom c f).ptable = s.ptable := rfl
@[simp] theorem State.modDom_msix (f : Domain → Domain) : (s.modDom c f).msix = s.msix := rfl
@[simp] theorem State.modDom_msixTable (f : Domain → Domain) : (s.modDom c f).msixTable = s.msixTable := rfl
@[simp] theorem State.modDom_msixPending (f : Domain → Domain) : (s.modDom c f).msixPending = s.msixPending := rfl
@[simp] theorem State.modDom_hostRead (f : Domain → Domain) : (s.modDom c f).hostRead = s.hostRead := rfl
@[simp] theorem State.modDom_fwDigest (f : Domain → Domain) : (s.modDom c f).fwDigest = s.fwDigest := rfl
@[simp] theorem State.modDom_attested (f : Domain → Domain) : (s.modDom c f).attested = s.attested := rfl
@[simp] theorem State.modDom_images (f : Domain → Domain) : (s.modDom c f).images = s.images := rfl
@[simp] theorem State.modDom_nextImage (f : Domain → Domain) : (s.modDom c f).nextImage = s.nextImage := rfl
@[simp] theorem State.modDom_reply (f : Domain → Domain) : (s.modDom c f).reply = s.reply := rfl
@[simp] theorem State.modDom_delayed (f : Domain → Domain) : (s.modDom c f).delayed = s.delayed := rfl
@[simp] theorem State.modDom_fabric (f : Domain → Domain) : (s.modDom c f).fabric = s.fabric := rfl
@[simp] theorem State.modDom_beaconsOut (f : Domain → Domain) : (s.modDom c f).beaconsOut = s.beaconsOut := rfl
@[simp] theorem State.modDom_time (f : Domain → Domain) : (s.modDom c f).time = s.time := rfl
@[simp] theorem State.modDom_pace (f : Domain → Domain) : (s.modDom c f).pace = s.pace := rfl
@[simp] theorem State.modDom_turn (f : Domain → Domain) : (s.modDom c f).turn = s.turn := rfl
@[simp] theorem State.modDom_script (f : Domain → Domain) : (s.modDom c f).script = s.script := rfl
@[simp] theorem State.modDom_sweep (f : Domain → Domain) : (s.modDom c f).sweep = s.sweep := rfl
@[simp] theorem State.modDom_chooser (f : Domain → Domain) : (s.modDom c f).chooser = s.chooser := rfl
@[simp] theorem State.modDom_last (f : Domain → Domain) : (s.modDom c f).last = s.last := rfl

/-! ### `setWg` -/

@[simp] theorem State.setWg_part (x : Workgroup) : (s.setWg c k x).part = s.part := rfl
@[simp] theorem State.setWg_mem (x : Workgroup) : (s.setWg c k x).mem = s.mem := rfl
@[simp] theorem State.setWg_bad (x : Workgroup) : (s.setWg c k x).bad = s.bad := rfl
@[simp] theorem State.setWg_tags (x : Workgroup) : (s.setWg c k x).tags = s.tags := rfl
@[simp] theorem State.setWg_stamped (x : Workgroup) : (s.setWg c k x).stamped = s.stamped := rfl
@[simp] theorem State.setWg_pages (x : Workgroup) : (s.setWg c k x).pages = s.pages := rfl
@[simp] theorem State.setWg_pending (x : Workgroup) : (s.setWg c k x).pending = s.pending := rfl
@[simp] theorem State.setWg_quads (x : Workgroup) : (s.setWg c k x).quads = s.quads := rfl
@[simp] theorem State.setWg_dies (x : Workgroup) : (s.setWg c k x).dies = s.dies := rfl
@[simp] theorem State.setWg_vaults (x : Workgroup) : (s.setWg c k x).vaults = s.vaults := rfl
@[simp] theorem State.setWg_domains (x : Workgroup) : (s.setWg c k x).domains = s.domains := rfl
@[simp] theorem State.setWg_launches (x : Workgroup) : (s.setWg c k x).launches = s.launches := rfl
@[simp] theorem State.setWg_nextLaunch (x : Workgroup) : (s.setWg c k x).nextLaunch = s.nextLaunch := rfl
@[simp] theorem State.setWg_nextSeq (x : Workgroup) : (s.setWg c k x).nextSeq = s.nextSeq := rfl
@[simp] theorem State.setWg_nextIssue (x : Workgroup) : (s.setWg c k x).nextIssue = s.nextIssue := rfl
@[simp] theorem State.setWg_admission (x : Workgroup) : (s.setWg c k x).admission = s.admission := rfl
@[simp] theorem State.setWg_admbad (x : Workgroup) : (s.setWg c k x).admbad = s.admbad := rfl
@[simp] theorem State.setWg_admref (x : Workgroup) : (s.setWg c k x).admref = s.admref := rfl
@[simp] theorem State.setWg_admreason (x : Workgroup) : (s.setWg c k x).admreason = s.admreason := rfl
@[simp] theorem State.setWg_fwaddr (x : Workgroup) : (s.setWg c k x).fwaddr = s.fwaddr := rfl
@[simp] theorem State.setWg_fwlen (x : Workgroup) : (s.setWg c k x).fwlen = s.fwlen := rfl
@[simp] theorem State.setWg_boot (x : Workgroup) : (s.setWg c k x).boot = s.boot := rfl
@[simp] theorem State.setWg_bootReason (x : Workgroup) : (s.setWg c k x).bootReason = s.bootReason := rfl
@[simp] theorem State.setWg_windows (x : Workgroup) : (s.setWg c k x).windows = s.windows := rfl
@[simp] theorem State.setWg_podix (x : Workgroup) : (s.setWg c k x).podix = s.podix := rfl
@[simp] theorem State.setWg_bcnsrc (x : Workgroup) : (s.setWg c k x).bcnsrc = s.bcnsrc := rfl
@[simp] theorem State.setWg_hbeacon (x : Workgroup) : (s.setWg c k x).hbeacon = s.hbeacon := rfl
@[simp] theorem State.setWg_hbeaconu (x : Workgroup) : (s.setWg c k x).hbeaconu = s.hbeaconu := rfl
@[simp] theorem State.setWg_pcap (x : Workgroup) : (s.setWg c k x).pcap = s.pcap := rfl
@[simp] theorem State.setWg_pmeas (x : Workgroup) : (s.setWg c k x).pmeas = s.pmeas := rfl
@[simp] theorem State.setWg_ptable (x : Workgroup) : (s.setWg c k x).ptable = s.ptable := rfl
@[simp] theorem State.setWg_msix (x : Workgroup) : (s.setWg c k x).msix = s.msix := rfl
@[simp] theorem State.setWg_msixTable (x : Workgroup) : (s.setWg c k x).msixTable = s.msixTable := rfl
@[simp] theorem State.setWg_msixPending (x : Workgroup) : (s.setWg c k x).msixPending = s.msixPending := rfl
@[simp] theorem State.setWg_hostRead (x : Workgroup) : (s.setWg c k x).hostRead = s.hostRead := rfl
@[simp] theorem State.setWg_fwDigest (x : Workgroup) : (s.setWg c k x).fwDigest = s.fwDigest := rfl
@[simp] theorem State.setWg_attested (x : Workgroup) : (s.setWg c k x).attested = s.attested := rfl
@[simp] theorem State.setWg_images (x : Workgroup) : (s.setWg c k x).images = s.images := rfl
@[simp] theorem State.setWg_nextImage (x : Workgroup) : (s.setWg c k x).nextImage = s.nextImage := rfl
@[simp] theorem State.setWg_reply (x : Workgroup) : (s.setWg c k x).reply = s.reply := rfl
@[simp] theorem State.setWg_delayed (x : Workgroup) : (s.setWg c k x).delayed = s.delayed := rfl
@[simp] theorem State.setWg_fabric (x : Workgroup) : (s.setWg c k x).fabric = s.fabric := rfl
@[simp] theorem State.setWg_beaconsOut (x : Workgroup) : (s.setWg c k x).beaconsOut = s.beaconsOut := rfl
@[simp] theorem State.setWg_time (x : Workgroup) : (s.setWg c k x).time = s.time := rfl
@[simp] theorem State.setWg_pace (x : Workgroup) : (s.setWg c k x).pace = s.pace := rfl
@[simp] theorem State.setWg_turn (x : Workgroup) : (s.setWg c k x).turn = s.turn := rfl
@[simp] theorem State.setWg_script (x : Workgroup) : (s.setWg c k x).script = s.script := rfl
@[simp] theorem State.setWg_sweep (x : Workgroup) : (s.setWg c k x).sweep = s.sweep := rfl
@[simp] theorem State.setWg_chooser (x : Workgroup) : (s.setWg c k x).chooser = s.chooser := rfl
@[simp] theorem State.setWg_last (x : Workgroup) : (s.setWg c k x).last = s.last := rfl

/-! ### `modWg` -/

@[simp] theorem State.modWg_part (f : Workgroup → Workgroup) : (s.modWg c k f).part = s.part := rfl
@[simp] theorem State.modWg_mem (f : Workgroup → Workgroup) : (s.modWg c k f).mem = s.mem := rfl
@[simp] theorem State.modWg_bad (f : Workgroup → Workgroup) : (s.modWg c k f).bad = s.bad := rfl
@[simp] theorem State.modWg_tags (f : Workgroup → Workgroup) : (s.modWg c k f).tags = s.tags := rfl
@[simp] theorem State.modWg_stamped (f : Workgroup → Workgroup) : (s.modWg c k f).stamped = s.stamped := rfl
@[simp] theorem State.modWg_pages (f : Workgroup → Workgroup) : (s.modWg c k f).pages = s.pages := rfl
@[simp] theorem State.modWg_pending (f : Workgroup → Workgroup) : (s.modWg c k f).pending = s.pending := rfl
@[simp] theorem State.modWg_quads (f : Workgroup → Workgroup) : (s.modWg c k f).quads = s.quads := rfl
@[simp] theorem State.modWg_dies (f : Workgroup → Workgroup) : (s.modWg c k f).dies = s.dies := rfl
@[simp] theorem State.modWg_vaults (f : Workgroup → Workgroup) : (s.modWg c k f).vaults = s.vaults := rfl
@[simp] theorem State.modWg_domains (f : Workgroup → Workgroup) : (s.modWg c k f).domains = s.domains := rfl
@[simp] theorem State.modWg_launches (f : Workgroup → Workgroup) : (s.modWg c k f).launches = s.launches := rfl
@[simp] theorem State.modWg_nextLaunch (f : Workgroup → Workgroup) : (s.modWg c k f).nextLaunch = s.nextLaunch := rfl
@[simp] theorem State.modWg_nextSeq (f : Workgroup → Workgroup) : (s.modWg c k f).nextSeq = s.nextSeq := rfl
@[simp] theorem State.modWg_nextIssue (f : Workgroup → Workgroup) : (s.modWg c k f).nextIssue = s.nextIssue := rfl
@[simp] theorem State.modWg_admission (f : Workgroup → Workgroup) : (s.modWg c k f).admission = s.admission := rfl
@[simp] theorem State.modWg_admbad (f : Workgroup → Workgroup) : (s.modWg c k f).admbad = s.admbad := rfl
@[simp] theorem State.modWg_admref (f : Workgroup → Workgroup) : (s.modWg c k f).admref = s.admref := rfl
@[simp] theorem State.modWg_admreason (f : Workgroup → Workgroup) : (s.modWg c k f).admreason = s.admreason := rfl
@[simp] theorem State.modWg_fwaddr (f : Workgroup → Workgroup) : (s.modWg c k f).fwaddr = s.fwaddr := rfl
@[simp] theorem State.modWg_fwlen (f : Workgroup → Workgroup) : (s.modWg c k f).fwlen = s.fwlen := rfl
@[simp] theorem State.modWg_boot (f : Workgroup → Workgroup) : (s.modWg c k f).boot = s.boot := rfl
@[simp] theorem State.modWg_bootReason (f : Workgroup → Workgroup) : (s.modWg c k f).bootReason = s.bootReason := rfl
@[simp] theorem State.modWg_windows (f : Workgroup → Workgroup) : (s.modWg c k f).windows = s.windows := rfl
@[simp] theorem State.modWg_podix (f : Workgroup → Workgroup) : (s.modWg c k f).podix = s.podix := rfl
@[simp] theorem State.modWg_bcnsrc (f : Workgroup → Workgroup) : (s.modWg c k f).bcnsrc = s.bcnsrc := rfl
@[simp] theorem State.modWg_hbeacon (f : Workgroup → Workgroup) : (s.modWg c k f).hbeacon = s.hbeacon := rfl
@[simp] theorem State.modWg_hbeaconu (f : Workgroup → Workgroup) : (s.modWg c k f).hbeaconu = s.hbeaconu := rfl
@[simp] theorem State.modWg_pcap (f : Workgroup → Workgroup) : (s.modWg c k f).pcap = s.pcap := rfl
@[simp] theorem State.modWg_pmeas (f : Workgroup → Workgroup) : (s.modWg c k f).pmeas = s.pmeas := rfl
@[simp] theorem State.modWg_ptable (f : Workgroup → Workgroup) : (s.modWg c k f).ptable = s.ptable := rfl
@[simp] theorem State.modWg_msix (f : Workgroup → Workgroup) : (s.modWg c k f).msix = s.msix := rfl
@[simp] theorem State.modWg_msixTable (f : Workgroup → Workgroup) : (s.modWg c k f).msixTable = s.msixTable := rfl
@[simp] theorem State.modWg_msixPending (f : Workgroup → Workgroup) : (s.modWg c k f).msixPending = s.msixPending := rfl
@[simp] theorem State.modWg_hostRead (f : Workgroup → Workgroup) : (s.modWg c k f).hostRead = s.hostRead := rfl
@[simp] theorem State.modWg_fwDigest (f : Workgroup → Workgroup) : (s.modWg c k f).fwDigest = s.fwDigest := rfl
@[simp] theorem State.modWg_attested (f : Workgroup → Workgroup) : (s.modWg c k f).attested = s.attested := rfl
@[simp] theorem State.modWg_images (f : Workgroup → Workgroup) : (s.modWg c k f).images = s.images := rfl
@[simp] theorem State.modWg_nextImage (f : Workgroup → Workgroup) : (s.modWg c k f).nextImage = s.nextImage := rfl
@[simp] theorem State.modWg_reply (f : Workgroup → Workgroup) : (s.modWg c k f).reply = s.reply := rfl
@[simp] theorem State.modWg_delayed (f : Workgroup → Workgroup) : (s.modWg c k f).delayed = s.delayed := rfl
@[simp] theorem State.modWg_fabric (f : Workgroup → Workgroup) : (s.modWg c k f).fabric = s.fabric := rfl
@[simp] theorem State.modWg_beaconsOut (f : Workgroup → Workgroup) : (s.modWg c k f).beaconsOut = s.beaconsOut := rfl
@[simp] theorem State.modWg_time (f : Workgroup → Workgroup) : (s.modWg c k f).time = s.time := rfl
@[simp] theorem State.modWg_pace (f : Workgroup → Workgroup) : (s.modWg c k f).pace = s.pace := rfl
@[simp] theorem State.modWg_turn (f : Workgroup → Workgroup) : (s.modWg c k f).turn = s.turn := rfl
@[simp] theorem State.modWg_script (f : Workgroup → Workgroup) : (s.modWg c k f).script = s.script := rfl
@[simp] theorem State.modWg_sweep (f : Workgroup → Workgroup) : (s.modWg c k f).sweep = s.sweep := rfl
@[simp] theorem State.modWg_chooser (f : Workgroup → Workgroup) : (s.modWg c k f).chooser = s.chooser := rfl
@[simp] theorem State.modWg_last (f : Workgroup → Workgroup) : (s.modWg c k f).last = s.last := rfl

/-! ### `modWgOf` -/

@[simp] theorem State.modWgOf_part (f : Workgroup → Workgroup) : (s.modWgOf r f).part = s.part := rfl
@[simp] theorem State.modWgOf_mem (f : Workgroup → Workgroup) : (s.modWgOf r f).mem = s.mem := rfl
@[simp] theorem State.modWgOf_bad (f : Workgroup → Workgroup) : (s.modWgOf r f).bad = s.bad := rfl
@[simp] theorem State.modWgOf_tags (f : Workgroup → Workgroup) : (s.modWgOf r f).tags = s.tags := rfl
@[simp] theorem State.modWgOf_stamped (f : Workgroup → Workgroup) : (s.modWgOf r f).stamped = s.stamped := rfl
@[simp] theorem State.modWgOf_pages (f : Workgroup → Workgroup) : (s.modWgOf r f).pages = s.pages := rfl
@[simp] theorem State.modWgOf_pending (f : Workgroup → Workgroup) : (s.modWgOf r f).pending = s.pending := rfl
@[simp] theorem State.modWgOf_quads (f : Workgroup → Workgroup) : (s.modWgOf r f).quads = s.quads := rfl
@[simp] theorem State.modWgOf_dies (f : Workgroup → Workgroup) : (s.modWgOf r f).dies = s.dies := rfl
@[simp] theorem State.modWgOf_vaults (f : Workgroup → Workgroup) : (s.modWgOf r f).vaults = s.vaults := rfl
@[simp] theorem State.modWgOf_domains (f : Workgroup → Workgroup) : (s.modWgOf r f).domains = s.domains := rfl
@[simp] theorem State.modWgOf_launches (f : Workgroup → Workgroup) : (s.modWgOf r f).launches = s.launches := rfl
@[simp] theorem State.modWgOf_nextLaunch (f : Workgroup → Workgroup) : (s.modWgOf r f).nextLaunch = s.nextLaunch := rfl
@[simp] theorem State.modWgOf_nextSeq (f : Workgroup → Workgroup) : (s.modWgOf r f).nextSeq = s.nextSeq := rfl
@[simp] theorem State.modWgOf_nextIssue (f : Workgroup → Workgroup) : (s.modWgOf r f).nextIssue = s.nextIssue := rfl
@[simp] theorem State.modWgOf_admission (f : Workgroup → Workgroup) : (s.modWgOf r f).admission = s.admission := rfl
@[simp] theorem State.modWgOf_admbad (f : Workgroup → Workgroup) : (s.modWgOf r f).admbad = s.admbad := rfl
@[simp] theorem State.modWgOf_admref (f : Workgroup → Workgroup) : (s.modWgOf r f).admref = s.admref := rfl
@[simp] theorem State.modWgOf_admreason (f : Workgroup → Workgroup) : (s.modWgOf r f).admreason = s.admreason := rfl
@[simp] theorem State.modWgOf_fwaddr (f : Workgroup → Workgroup) : (s.modWgOf r f).fwaddr = s.fwaddr := rfl
@[simp] theorem State.modWgOf_fwlen (f : Workgroup → Workgroup) : (s.modWgOf r f).fwlen = s.fwlen := rfl
@[simp] theorem State.modWgOf_boot (f : Workgroup → Workgroup) : (s.modWgOf r f).boot = s.boot := rfl
@[simp] theorem State.modWgOf_bootReason (f : Workgroup → Workgroup) : (s.modWgOf r f).bootReason = s.bootReason := rfl
@[simp] theorem State.modWgOf_windows (f : Workgroup → Workgroup) : (s.modWgOf r f).windows = s.windows := rfl
@[simp] theorem State.modWgOf_podix (f : Workgroup → Workgroup) : (s.modWgOf r f).podix = s.podix := rfl
@[simp] theorem State.modWgOf_bcnsrc (f : Workgroup → Workgroup) : (s.modWgOf r f).bcnsrc = s.bcnsrc := rfl
@[simp] theorem State.modWgOf_hbeacon (f : Workgroup → Workgroup) : (s.modWgOf r f).hbeacon = s.hbeacon := rfl
@[simp] theorem State.modWgOf_hbeaconu (f : Workgroup → Workgroup) : (s.modWgOf r f).hbeaconu = s.hbeaconu := rfl
@[simp] theorem State.modWgOf_pcap (f : Workgroup → Workgroup) : (s.modWgOf r f).pcap = s.pcap := rfl
@[simp] theorem State.modWgOf_pmeas (f : Workgroup → Workgroup) : (s.modWgOf r f).pmeas = s.pmeas := rfl
@[simp] theorem State.modWgOf_ptable (f : Workgroup → Workgroup) : (s.modWgOf r f).ptable = s.ptable := rfl
@[simp] theorem State.modWgOf_msix (f : Workgroup → Workgroup) : (s.modWgOf r f).msix = s.msix := rfl
@[simp] theorem State.modWgOf_msixTable (f : Workgroup → Workgroup) : (s.modWgOf r f).msixTable = s.msixTable := rfl
@[simp] theorem State.modWgOf_msixPending (f : Workgroup → Workgroup) : (s.modWgOf r f).msixPending = s.msixPending := rfl
@[simp] theorem State.modWgOf_hostRead (f : Workgroup → Workgroup) : (s.modWgOf r f).hostRead = s.hostRead := rfl
@[simp] theorem State.modWgOf_fwDigest (f : Workgroup → Workgroup) : (s.modWgOf r f).fwDigest = s.fwDigest := rfl
@[simp] theorem State.modWgOf_attested (f : Workgroup → Workgroup) : (s.modWgOf r f).attested = s.attested := rfl
@[simp] theorem State.modWgOf_images (f : Workgroup → Workgroup) : (s.modWgOf r f).images = s.images := rfl
@[simp] theorem State.modWgOf_nextImage (f : Workgroup → Workgroup) : (s.modWgOf r f).nextImage = s.nextImage := rfl
@[simp] theorem State.modWgOf_reply (f : Workgroup → Workgroup) : (s.modWgOf r f).reply = s.reply := rfl
@[simp] theorem State.modWgOf_delayed (f : Workgroup → Workgroup) : (s.modWgOf r f).delayed = s.delayed := rfl
@[simp] theorem State.modWgOf_fabric (f : Workgroup → Workgroup) : (s.modWgOf r f).fabric = s.fabric := rfl
@[simp] theorem State.modWgOf_beaconsOut (f : Workgroup → Workgroup) : (s.modWgOf r f).beaconsOut = s.beaconsOut := rfl
@[simp] theorem State.modWgOf_time (f : Workgroup → Workgroup) : (s.modWgOf r f).time = s.time := rfl
@[simp] theorem State.modWgOf_pace (f : Workgroup → Workgroup) : (s.modWgOf r f).pace = s.pace := rfl
@[simp] theorem State.modWgOf_turn (f : Workgroup → Workgroup) : (s.modWgOf r f).turn = s.turn := rfl
@[simp] theorem State.modWgOf_script (f : Workgroup → Workgroup) : (s.modWgOf r f).script = s.script := rfl
@[simp] theorem State.modWgOf_sweep (f : Workgroup → Workgroup) : (s.modWgOf r f).sweep = s.sweep := rfl
@[simp] theorem State.modWgOf_chooser (f : Workgroup → Workgroup) : (s.modWgOf r f).chooser = s.chooser := rfl
@[simp] theorem State.modWgOf_last (f : Workgroup → Workgroup) : (s.modWgOf r f).last = s.last := rfl

/-! ### `modWarpAt` -/

@[simp] theorem State.modWarpAt_part (f : Warp → Warp) : (s.modWarpAt c k k' f).part = s.part := rfl
@[simp] theorem State.modWarpAt_mem (f : Warp → Warp) : (s.modWarpAt c k k' f).mem = s.mem := rfl
@[simp] theorem State.modWarpAt_bad (f : Warp → Warp) : (s.modWarpAt c k k' f).bad = s.bad := rfl
@[simp] theorem State.modWarpAt_tags (f : Warp → Warp) : (s.modWarpAt c k k' f).tags = s.tags := rfl
@[simp] theorem State.modWarpAt_stamped (f : Warp → Warp) : (s.modWarpAt c k k' f).stamped = s.stamped := rfl
@[simp] theorem State.modWarpAt_pages (f : Warp → Warp) : (s.modWarpAt c k k' f).pages = s.pages := rfl
@[simp] theorem State.modWarpAt_pending (f : Warp → Warp) : (s.modWarpAt c k k' f).pending = s.pending := rfl
@[simp] theorem State.modWarpAt_quads (f : Warp → Warp) : (s.modWarpAt c k k' f).quads = s.quads := rfl
@[simp] theorem State.modWarpAt_dies (f : Warp → Warp) : (s.modWarpAt c k k' f).dies = s.dies := rfl
@[simp] theorem State.modWarpAt_vaults (f : Warp → Warp) : (s.modWarpAt c k k' f).vaults = s.vaults := rfl
@[simp] theorem State.modWarpAt_domains (f : Warp → Warp) : (s.modWarpAt c k k' f).domains = s.domains := rfl
@[simp] theorem State.modWarpAt_launches (f : Warp → Warp) : (s.modWarpAt c k k' f).launches = s.launches := rfl
@[simp] theorem State.modWarpAt_nextLaunch (f : Warp → Warp) : (s.modWarpAt c k k' f).nextLaunch = s.nextLaunch := rfl
@[simp] theorem State.modWarpAt_nextSeq (f : Warp → Warp) : (s.modWarpAt c k k' f).nextSeq = s.nextSeq := rfl
@[simp] theorem State.modWarpAt_nextIssue (f : Warp → Warp) : (s.modWarpAt c k k' f).nextIssue = s.nextIssue := rfl
@[simp] theorem State.modWarpAt_admission (f : Warp → Warp) : (s.modWarpAt c k k' f).admission = s.admission := rfl
@[simp] theorem State.modWarpAt_admbad (f : Warp → Warp) : (s.modWarpAt c k k' f).admbad = s.admbad := rfl
@[simp] theorem State.modWarpAt_admref (f : Warp → Warp) : (s.modWarpAt c k k' f).admref = s.admref := rfl
@[simp] theorem State.modWarpAt_admreason (f : Warp → Warp) : (s.modWarpAt c k k' f).admreason = s.admreason := rfl
@[simp] theorem State.modWarpAt_fwaddr (f : Warp → Warp) : (s.modWarpAt c k k' f).fwaddr = s.fwaddr := rfl
@[simp] theorem State.modWarpAt_fwlen (f : Warp → Warp) : (s.modWarpAt c k k' f).fwlen = s.fwlen := rfl
@[simp] theorem State.modWarpAt_boot (f : Warp → Warp) : (s.modWarpAt c k k' f).boot = s.boot := rfl
@[simp] theorem State.modWarpAt_bootReason (f : Warp → Warp) : (s.modWarpAt c k k' f).bootReason = s.bootReason := rfl
@[simp] theorem State.modWarpAt_windows (f : Warp → Warp) : (s.modWarpAt c k k' f).windows = s.windows := rfl
@[simp] theorem State.modWarpAt_podix (f : Warp → Warp) : (s.modWarpAt c k k' f).podix = s.podix := rfl
@[simp] theorem State.modWarpAt_bcnsrc (f : Warp → Warp) : (s.modWarpAt c k k' f).bcnsrc = s.bcnsrc := rfl
@[simp] theorem State.modWarpAt_hbeacon (f : Warp → Warp) : (s.modWarpAt c k k' f).hbeacon = s.hbeacon := rfl
@[simp] theorem State.modWarpAt_hbeaconu (f : Warp → Warp) : (s.modWarpAt c k k' f).hbeaconu = s.hbeaconu := rfl
@[simp] theorem State.modWarpAt_pcap (f : Warp → Warp) : (s.modWarpAt c k k' f).pcap = s.pcap := rfl
@[simp] theorem State.modWarpAt_pmeas (f : Warp → Warp) : (s.modWarpAt c k k' f).pmeas = s.pmeas := rfl
@[simp] theorem State.modWarpAt_ptable (f : Warp → Warp) : (s.modWarpAt c k k' f).ptable = s.ptable := rfl
@[simp] theorem State.modWarpAt_msix (f : Warp → Warp) : (s.modWarpAt c k k' f).msix = s.msix := rfl
@[simp] theorem State.modWarpAt_msixTable (f : Warp → Warp) : (s.modWarpAt c k k' f).msixTable = s.msixTable := rfl
@[simp] theorem State.modWarpAt_msixPending (f : Warp → Warp) : (s.modWarpAt c k k' f).msixPending = s.msixPending := rfl
@[simp] theorem State.modWarpAt_hostRead (f : Warp → Warp) : (s.modWarpAt c k k' f).hostRead = s.hostRead := rfl
@[simp] theorem State.modWarpAt_fwDigest (f : Warp → Warp) : (s.modWarpAt c k k' f).fwDigest = s.fwDigest := rfl
@[simp] theorem State.modWarpAt_attested (f : Warp → Warp) : (s.modWarpAt c k k' f).attested = s.attested := rfl
@[simp] theorem State.modWarpAt_images (f : Warp → Warp) : (s.modWarpAt c k k' f).images = s.images := rfl
@[simp] theorem State.modWarpAt_nextImage (f : Warp → Warp) : (s.modWarpAt c k k' f).nextImage = s.nextImage := rfl
@[simp] theorem State.modWarpAt_reply (f : Warp → Warp) : (s.modWarpAt c k k' f).reply = s.reply := rfl
@[simp] theorem State.modWarpAt_delayed (f : Warp → Warp) : (s.modWarpAt c k k' f).delayed = s.delayed := rfl
@[simp] theorem State.modWarpAt_fabric (f : Warp → Warp) : (s.modWarpAt c k k' f).fabric = s.fabric := rfl
@[simp] theorem State.modWarpAt_beaconsOut (f : Warp → Warp) : (s.modWarpAt c k k' f).beaconsOut = s.beaconsOut := rfl
@[simp] theorem State.modWarpAt_time (f : Warp → Warp) : (s.modWarpAt c k k' f).time = s.time := rfl
@[simp] theorem State.modWarpAt_pace (f : Warp → Warp) : (s.modWarpAt c k k' f).pace = s.pace := rfl
@[simp] theorem State.modWarpAt_turn (f : Warp → Warp) : (s.modWarpAt c k k' f).turn = s.turn := rfl
@[simp] theorem State.modWarpAt_script (f : Warp → Warp) : (s.modWarpAt c k k' f).script = s.script := rfl
@[simp] theorem State.modWarpAt_sweep (f : Warp → Warp) : (s.modWarpAt c k k' f).sweep = s.sweep := rfl
@[simp] theorem State.modWarpAt_chooser (f : Warp → Warp) : (s.modWarpAt c k k' f).chooser = s.chooser := rfl
@[simp] theorem State.modWarpAt_last (f : Warp → Warp) : (s.modWarpAt c k k' f).last = s.last := rfl

/-! ### `modSlice` -/

@[simp] theorem State.modSlice_part (f : Slice → Slice) : (s.modSlice r f).part = s.part := rfl
@[simp] theorem State.modSlice_mem (f : Slice → Slice) : (s.modSlice r f).mem = s.mem := rfl
@[simp] theorem State.modSlice_bad (f : Slice → Slice) : (s.modSlice r f).bad = s.bad := rfl
@[simp] theorem State.modSlice_tags (f : Slice → Slice) : (s.modSlice r f).tags = s.tags := rfl
@[simp] theorem State.modSlice_stamped (f : Slice → Slice) : (s.modSlice r f).stamped = s.stamped := rfl
@[simp] theorem State.modSlice_pages (f : Slice → Slice) : (s.modSlice r f).pages = s.pages := rfl
@[simp] theorem State.modSlice_pending (f : Slice → Slice) : (s.modSlice r f).pending = s.pending := rfl
@[simp] theorem State.modSlice_quads (f : Slice → Slice) : (s.modSlice r f).quads = s.quads := rfl
@[simp] theorem State.modSlice_dies (f : Slice → Slice) : (s.modSlice r f).dies = s.dies := rfl
@[simp] theorem State.modSlice_vaults (f : Slice → Slice) : (s.modSlice r f).vaults = s.vaults := rfl
@[simp] theorem State.modSlice_domains (f : Slice → Slice) : (s.modSlice r f).domains = s.domains := rfl
@[simp] theorem State.modSlice_launches (f : Slice → Slice) : (s.modSlice r f).launches = s.launches := rfl
@[simp] theorem State.modSlice_nextLaunch (f : Slice → Slice) : (s.modSlice r f).nextLaunch = s.nextLaunch := rfl
@[simp] theorem State.modSlice_nextSeq (f : Slice → Slice) : (s.modSlice r f).nextSeq = s.nextSeq := rfl
@[simp] theorem State.modSlice_nextIssue (f : Slice → Slice) : (s.modSlice r f).nextIssue = s.nextIssue := rfl
@[simp] theorem State.modSlice_admission (f : Slice → Slice) : (s.modSlice r f).admission = s.admission := rfl
@[simp] theorem State.modSlice_admbad (f : Slice → Slice) : (s.modSlice r f).admbad = s.admbad := rfl
@[simp] theorem State.modSlice_admref (f : Slice → Slice) : (s.modSlice r f).admref = s.admref := rfl
@[simp] theorem State.modSlice_admreason (f : Slice → Slice) : (s.modSlice r f).admreason = s.admreason := rfl
@[simp] theorem State.modSlice_fwaddr (f : Slice → Slice) : (s.modSlice r f).fwaddr = s.fwaddr := rfl
@[simp] theorem State.modSlice_fwlen (f : Slice → Slice) : (s.modSlice r f).fwlen = s.fwlen := rfl
@[simp] theorem State.modSlice_boot (f : Slice → Slice) : (s.modSlice r f).boot = s.boot := rfl
@[simp] theorem State.modSlice_bootReason (f : Slice → Slice) : (s.modSlice r f).bootReason = s.bootReason := rfl
@[simp] theorem State.modSlice_windows (f : Slice → Slice) : (s.modSlice r f).windows = s.windows := rfl
@[simp] theorem State.modSlice_podix (f : Slice → Slice) : (s.modSlice r f).podix = s.podix := rfl
@[simp] theorem State.modSlice_bcnsrc (f : Slice → Slice) : (s.modSlice r f).bcnsrc = s.bcnsrc := rfl
@[simp] theorem State.modSlice_hbeacon (f : Slice → Slice) : (s.modSlice r f).hbeacon = s.hbeacon := rfl
@[simp] theorem State.modSlice_hbeaconu (f : Slice → Slice) : (s.modSlice r f).hbeaconu = s.hbeaconu := rfl
@[simp] theorem State.modSlice_pcap (f : Slice → Slice) : (s.modSlice r f).pcap = s.pcap := rfl
@[simp] theorem State.modSlice_pmeas (f : Slice → Slice) : (s.modSlice r f).pmeas = s.pmeas := rfl
@[simp] theorem State.modSlice_ptable (f : Slice → Slice) : (s.modSlice r f).ptable = s.ptable := rfl
@[simp] theorem State.modSlice_msix (f : Slice → Slice) : (s.modSlice r f).msix = s.msix := rfl
@[simp] theorem State.modSlice_msixTable (f : Slice → Slice) : (s.modSlice r f).msixTable = s.msixTable := rfl
@[simp] theorem State.modSlice_msixPending (f : Slice → Slice) : (s.modSlice r f).msixPending = s.msixPending := rfl
@[simp] theorem State.modSlice_hostRead (f : Slice → Slice) : (s.modSlice r f).hostRead = s.hostRead := rfl
@[simp] theorem State.modSlice_fwDigest (f : Slice → Slice) : (s.modSlice r f).fwDigest = s.fwDigest := rfl
@[simp] theorem State.modSlice_attested (f : Slice → Slice) : (s.modSlice r f).attested = s.attested := rfl
@[simp] theorem State.modSlice_images (f : Slice → Slice) : (s.modSlice r f).images = s.images := rfl
@[simp] theorem State.modSlice_nextImage (f : Slice → Slice) : (s.modSlice r f).nextImage = s.nextImage := rfl
@[simp] theorem State.modSlice_reply (f : Slice → Slice) : (s.modSlice r f).reply = s.reply := rfl
@[simp] theorem State.modSlice_delayed (f : Slice → Slice) : (s.modSlice r f).delayed = s.delayed := rfl
@[simp] theorem State.modSlice_fabric (f : Slice → Slice) : (s.modSlice r f).fabric = s.fabric := rfl
@[simp] theorem State.modSlice_beaconsOut (f : Slice → Slice) : (s.modSlice r f).beaconsOut = s.beaconsOut := rfl
@[simp] theorem State.modSlice_time (f : Slice → Slice) : (s.modSlice r f).time = s.time := rfl
@[simp] theorem State.modSlice_pace (f : Slice → Slice) : (s.modSlice r f).pace = s.pace := rfl
@[simp] theorem State.modSlice_turn (f : Slice → Slice) : (s.modSlice r f).turn = s.turn := rfl
@[simp] theorem State.modSlice_script (f : Slice → Slice) : (s.modSlice r f).script = s.script := rfl
@[simp] theorem State.modSlice_sweep (f : Slice → Slice) : (s.modSlice r f).sweep = s.sweep := rfl
@[simp] theorem State.modSlice_chooser (f : Slice → Slice) : (s.modSlice r f).chooser = s.chooser := rfl
@[simp] theorem State.modSlice_last (f : Slice → Slice) : (s.modSlice r f).last = s.last := rfl

/-! ### `physWrite` -/

@[simp] theorem State.physWrite_part (x : Byte) : (s.physWrite c x).part = s.part := rfl
@[simp] theorem State.physWrite_bad (x : Byte) : (s.physWrite c x).bad = s.bad := rfl
@[simp] theorem State.physWrite_tags (x : Byte) : (s.physWrite c x).tags = s.tags := rfl
@[simp] theorem State.physWrite_stamped (x : Byte) : (s.physWrite c x).stamped = s.stamped := rfl
@[simp] theorem State.physWrite_pages (x : Byte) : (s.physWrite c x).pages = s.pages := rfl
@[simp] theorem State.physWrite_pending (x : Byte) : (s.physWrite c x).pending = s.pending := rfl
@[simp] theorem State.physWrite_cores (x : Byte) : (s.physWrite c x).cores = s.cores := rfl
@[simp] theorem State.physWrite_quads (x : Byte) : (s.physWrite c x).quads = s.quads := rfl
@[simp] theorem State.physWrite_dies (x : Byte) : (s.physWrite c x).dies = s.dies := rfl
@[simp] theorem State.physWrite_vaults (x : Byte) : (s.physWrite c x).vaults = s.vaults := rfl
@[simp] theorem State.physWrite_domains (x : Byte) : (s.physWrite c x).domains = s.domains := rfl
@[simp] theorem State.physWrite_launches (x : Byte) : (s.physWrite c x).launches = s.launches := rfl
@[simp] theorem State.physWrite_nextLaunch (x : Byte) : (s.physWrite c x).nextLaunch = s.nextLaunch := rfl
@[simp] theorem State.physWrite_nextSeq (x : Byte) : (s.physWrite c x).nextSeq = s.nextSeq := rfl
@[simp] theorem State.physWrite_nextIssue (x : Byte) : (s.physWrite c x).nextIssue = s.nextIssue := rfl
@[simp] theorem State.physWrite_admission (x : Byte) : (s.physWrite c x).admission = s.admission := rfl
@[simp] theorem State.physWrite_admbad (x : Byte) : (s.physWrite c x).admbad = s.admbad := rfl
@[simp] theorem State.physWrite_admref (x : Byte) : (s.physWrite c x).admref = s.admref := rfl
@[simp] theorem State.physWrite_admreason (x : Byte) : (s.physWrite c x).admreason = s.admreason := rfl
@[simp] theorem State.physWrite_fwaddr (x : Byte) : (s.physWrite c x).fwaddr = s.fwaddr := rfl
@[simp] theorem State.physWrite_fwlen (x : Byte) : (s.physWrite c x).fwlen = s.fwlen := rfl
@[simp] theorem State.physWrite_boot (x : Byte) : (s.physWrite c x).boot = s.boot := rfl
@[simp] theorem State.physWrite_bootReason (x : Byte) : (s.physWrite c x).bootReason = s.bootReason := rfl
@[simp] theorem State.physWrite_windows (x : Byte) : (s.physWrite c x).windows = s.windows := rfl
@[simp] theorem State.physWrite_podix (x : Byte) : (s.physWrite c x).podix = s.podix := rfl
@[simp] theorem State.physWrite_bcnsrc (x : Byte) : (s.physWrite c x).bcnsrc = s.bcnsrc := rfl
@[simp] theorem State.physWrite_hbeacon (x : Byte) : (s.physWrite c x).hbeacon = s.hbeacon := rfl
@[simp] theorem State.physWrite_hbeaconu (x : Byte) : (s.physWrite c x).hbeaconu = s.hbeaconu := rfl
@[simp] theorem State.physWrite_pcap (x : Byte) : (s.physWrite c x).pcap = s.pcap := rfl
@[simp] theorem State.physWrite_pmeas (x : Byte) : (s.physWrite c x).pmeas = s.pmeas := rfl
@[simp] theorem State.physWrite_ptable (x : Byte) : (s.physWrite c x).ptable = s.ptable := rfl
@[simp] theorem State.physWrite_msix (x : Byte) : (s.physWrite c x).msix = s.msix := rfl
@[simp] theorem State.physWrite_msixTable (x : Byte) : (s.physWrite c x).msixTable = s.msixTable := rfl
@[simp] theorem State.physWrite_msixPending (x : Byte) : (s.physWrite c x).msixPending = s.msixPending := rfl
@[simp] theorem State.physWrite_hostRead (x : Byte) : (s.physWrite c x).hostRead = s.hostRead := rfl
@[simp] theorem State.physWrite_fwDigest (x : Byte) : (s.physWrite c x).fwDigest = s.fwDigest := rfl
@[simp] theorem State.physWrite_attested (x : Byte) : (s.physWrite c x).attested = s.attested := rfl
@[simp] theorem State.physWrite_images (x : Byte) : (s.physWrite c x).images = s.images := rfl
@[simp] theorem State.physWrite_nextImage (x : Byte) : (s.physWrite c x).nextImage = s.nextImage := rfl
@[simp] theorem State.physWrite_reply (x : Byte) : (s.physWrite c x).reply = s.reply := rfl
@[simp] theorem State.physWrite_delayed (x : Byte) : (s.physWrite c x).delayed = s.delayed := rfl
@[simp] theorem State.physWrite_fabric (x : Byte) : (s.physWrite c x).fabric = s.fabric := rfl
@[simp] theorem State.physWrite_beaconsOut (x : Byte) : (s.physWrite c x).beaconsOut = s.beaconsOut := rfl
@[simp] theorem State.physWrite_time (x : Byte) : (s.physWrite c x).time = s.time := rfl
@[simp] theorem State.physWrite_pace (x : Byte) : (s.physWrite c x).pace = s.pace := rfl
@[simp] theorem State.physWrite_turn (x : Byte) : (s.physWrite c x).turn = s.turn := rfl
@[simp] theorem State.physWrite_script (x : Byte) : (s.physWrite c x).script = s.script := rfl
@[simp] theorem State.physWrite_sweep (x : Byte) : (s.physWrite c x).sweep = s.sweep := rfl
@[simp] theorem State.physWrite_chooser (x : Byte) : (s.physWrite c x).chooser = s.chooser := rfl
@[simp] theorem State.physWrite_last (x : Byte) : (s.physWrite c x).last = s.last := rfl

/-! ### `raise` -/

@[simp] theorem State.raise_part : (s.raise c k).part = s.part := by unfold State.raise; split <;> rfl
@[simp] theorem State.raise_mem : (s.raise c k).mem = s.mem := by unfold State.raise; split <;> rfl
@[simp] theorem State.raise_bad : (s.raise c k).bad = s.bad := by unfold State.raise; split <;> rfl
@[simp] theorem State.raise_tags : (s.raise c k).tags = s.tags := by unfold State.raise; split <;> rfl
@[simp] theorem State.raise_stamped : (s.raise c k).stamped = s.stamped := by unfold State.raise; split <;> rfl
@[simp] theorem State.raise_pages : (s.raise c k).pages = s.pages := by unfold State.raise; split <;> rfl
@[simp] theorem State.raise_pending : (s.raise c k).pending = s.pending := by unfold State.raise; split <;> rfl
@[simp] theorem State.raise_cores : (s.raise c k).cores = s.cores := by unfold State.raise; split <;> rfl
@[simp] theorem State.raise_quads : (s.raise c k).quads = s.quads := by unfold State.raise; split <;> rfl
@[simp] theorem State.raise_dies : (s.raise c k).dies = s.dies := by unfold State.raise; split <;> rfl
@[simp] theorem State.raise_vaults : (s.raise c k).vaults = s.vaults := by unfold State.raise; split <;> rfl
@[simp] theorem State.raise_domains : (s.raise c k).domains = s.domains := by unfold State.raise; split <;> rfl
@[simp] theorem State.raise_launches : (s.raise c k).launches = s.launches := by unfold State.raise; split <;> rfl
@[simp] theorem State.raise_nextLaunch : (s.raise c k).nextLaunch = s.nextLaunch := by unfold State.raise; split <;> rfl
@[simp] theorem State.raise_nextSeq : (s.raise c k).nextSeq = s.nextSeq := by unfold State.raise; split <;> rfl
@[simp] theorem State.raise_nextIssue : (s.raise c k).nextIssue = s.nextIssue := by unfold State.raise; split <;> rfl
@[simp] theorem State.raise_admission : (s.raise c k).admission = s.admission := by unfold State.raise; split <;> rfl
@[simp] theorem State.raise_admbad : (s.raise c k).admbad = s.admbad := by unfold State.raise; split <;> rfl
@[simp] theorem State.raise_admref : (s.raise c k).admref = s.admref := by unfold State.raise; split <;> rfl
@[simp] theorem State.raise_admreason : (s.raise c k).admreason = s.admreason := by unfold State.raise; split <;> rfl
@[simp] theorem State.raise_fwaddr : (s.raise c k).fwaddr = s.fwaddr := by unfold State.raise; split <;> rfl
@[simp] theorem State.raise_fwlen : (s.raise c k).fwlen = s.fwlen := by unfold State.raise; split <;> rfl
@[simp] theorem State.raise_boot : (s.raise c k).boot = s.boot := by unfold State.raise; split <;> rfl
@[simp] theorem State.raise_bootReason : (s.raise c k).bootReason = s.bootReason := by unfold State.raise; split <;> rfl
@[simp] theorem State.raise_windows : (s.raise c k).windows = s.windows := by unfold State.raise; split <;> rfl
@[simp] theorem State.raise_podix : (s.raise c k).podix = s.podix := by unfold State.raise; split <;> rfl
@[simp] theorem State.raise_bcnsrc : (s.raise c k).bcnsrc = s.bcnsrc := by unfold State.raise; split <;> rfl
@[simp] theorem State.raise_hbeacon : (s.raise c k).hbeacon = s.hbeacon := by unfold State.raise; split <;> rfl
@[simp] theorem State.raise_hbeaconu : (s.raise c k).hbeaconu = s.hbeaconu := by unfold State.raise; split <;> rfl
@[simp] theorem State.raise_pcap : (s.raise c k).pcap = s.pcap := by unfold State.raise; split <;> rfl
@[simp] theorem State.raise_pmeas : (s.raise c k).pmeas = s.pmeas := by unfold State.raise; split <;> rfl
@[simp] theorem State.raise_ptable : (s.raise c k).ptable = s.ptable := by unfold State.raise; split <;> rfl
@[simp] theorem State.raise_msixTable : (s.raise c k).msixTable = s.msixTable := by unfold State.raise; split <;> rfl
@[simp] theorem State.raise_hostRead : (s.raise c k).hostRead = s.hostRead := by unfold State.raise; split <;> rfl
@[simp] theorem State.raise_fwDigest : (s.raise c k).fwDigest = s.fwDigest := by unfold State.raise; split <;> rfl
@[simp] theorem State.raise_attested : (s.raise c k).attested = s.attested := by unfold State.raise; split <;> rfl
@[simp] theorem State.raise_images : (s.raise c k).images = s.images := by unfold State.raise; split <;> rfl
@[simp] theorem State.raise_nextImage : (s.raise c k).nextImage = s.nextImage := by unfold State.raise; split <;> rfl
@[simp] theorem State.raise_reply : (s.raise c k).reply = s.reply := by unfold State.raise; split <;> rfl
@[simp] theorem State.raise_delayed : (s.raise c k).delayed = s.delayed := by unfold State.raise; split <;> rfl
@[simp] theorem State.raise_fabric : (s.raise c k).fabric = s.fabric := by unfold State.raise; split <;> rfl
@[simp] theorem State.raise_beaconsOut : (s.raise c k).beaconsOut = s.beaconsOut := by unfold State.raise; split <;> rfl
@[simp] theorem State.raise_time : (s.raise c k).time = s.time := by unfold State.raise; split <;> rfl
@[simp] theorem State.raise_pace : (s.raise c k).pace = s.pace := by unfold State.raise; split <;> rfl
@[simp] theorem State.raise_turn : (s.raise c k).turn = s.turn := by unfold State.raise; split <;> rfl
@[simp] theorem State.raise_script : (s.raise c k).script = s.script := by unfold State.raise; split <;> rfl
@[simp] theorem State.raise_sweep : (s.raise c k).sweep = s.sweep := by unfold State.raise; split <;> rfl
@[simp] theorem State.raise_chooser : (s.raise c k).chooser = s.chooser := by unfold State.raise; split <;> rfl
@[simp] theorem State.raise_last : (s.raise c k).last = s.last := by unfold State.raise; split <;> rfl

/-! ### `pop` -/

@[simp] theorem State.pop_part : (s.pop r c).part = s.part := rfl
@[simp] theorem State.pop_mem : (s.pop r c).mem = s.mem := rfl
@[simp] theorem State.pop_bad : (s.pop r c).bad = s.bad := rfl
@[simp] theorem State.pop_tags : (s.pop r c).tags = s.tags := rfl
@[simp] theorem State.pop_stamped : (s.pop r c).stamped = s.stamped := rfl
@[simp] theorem State.pop_pages : (s.pop r c).pages = s.pages := rfl
@[simp] theorem State.pop_pending : (s.pop r c).pending = s.pending := rfl
@[simp] theorem State.pop_quads : (s.pop r c).quads = s.quads := rfl
@[simp] theorem State.pop_dies : (s.pop r c).dies = s.dies := rfl
@[simp] theorem State.pop_vaults : (s.pop r c).vaults = s.vaults := rfl
@[simp] theorem State.pop_domains : (s.pop r c).domains = s.domains := rfl
@[simp] theorem State.pop_launches : (s.pop r c).launches = s.launches := rfl
@[simp] theorem State.pop_nextLaunch : (s.pop r c).nextLaunch = s.nextLaunch := rfl
@[simp] theorem State.pop_nextSeq : (s.pop r c).nextSeq = s.nextSeq := rfl
@[simp] theorem State.pop_nextIssue : (s.pop r c).nextIssue = s.nextIssue := rfl
@[simp] theorem State.pop_admission : (s.pop r c).admission = s.admission := rfl
@[simp] theorem State.pop_admbad : (s.pop r c).admbad = s.admbad := rfl
@[simp] theorem State.pop_admref : (s.pop r c).admref = s.admref := rfl
@[simp] theorem State.pop_admreason : (s.pop r c).admreason = s.admreason := rfl
@[simp] theorem State.pop_fwaddr : (s.pop r c).fwaddr = s.fwaddr := rfl
@[simp] theorem State.pop_fwlen : (s.pop r c).fwlen = s.fwlen := rfl
@[simp] theorem State.pop_boot : (s.pop r c).boot = s.boot := rfl
@[simp] theorem State.pop_bootReason : (s.pop r c).bootReason = s.bootReason := rfl
@[simp] theorem State.pop_windows : (s.pop r c).windows = s.windows := rfl
@[simp] theorem State.pop_podix : (s.pop r c).podix = s.podix := rfl
@[simp] theorem State.pop_bcnsrc : (s.pop r c).bcnsrc = s.bcnsrc := rfl
@[simp] theorem State.pop_hbeacon : (s.pop r c).hbeacon = s.hbeacon := rfl
@[simp] theorem State.pop_hbeaconu : (s.pop r c).hbeaconu = s.hbeaconu := rfl
@[simp] theorem State.pop_pcap : (s.pop r c).pcap = s.pcap := rfl
@[simp] theorem State.pop_pmeas : (s.pop r c).pmeas = s.pmeas := rfl
@[simp] theorem State.pop_ptable : (s.pop r c).ptable = s.ptable := rfl
@[simp] theorem State.pop_msix : (s.pop r c).msix = s.msix := rfl
@[simp] theorem State.pop_msixTable : (s.pop r c).msixTable = s.msixTable := rfl
@[simp] theorem State.pop_msixPending : (s.pop r c).msixPending = s.msixPending := rfl
@[simp] theorem State.pop_hostRead : (s.pop r c).hostRead = s.hostRead := rfl
@[simp] theorem State.pop_fwDigest : (s.pop r c).fwDigest = s.fwDigest := rfl
@[simp] theorem State.pop_attested : (s.pop r c).attested = s.attested := rfl
@[simp] theorem State.pop_images : (s.pop r c).images = s.images := rfl
@[simp] theorem State.pop_nextImage : (s.pop r c).nextImage = s.nextImage := rfl
@[simp] theorem State.pop_reply : (s.pop r c).reply = s.reply := rfl
@[simp] theorem State.pop_delayed : (s.pop r c).delayed = s.delayed := rfl
@[simp] theorem State.pop_fabric : (s.pop r c).fabric = s.fabric := rfl
@[simp] theorem State.pop_beaconsOut : (s.pop r c).beaconsOut = s.beaconsOut := rfl
@[simp] theorem State.pop_time : (s.pop r c).time = s.time := rfl
@[simp] theorem State.pop_pace : (s.pop r c).pace = s.pace := rfl
@[simp] theorem State.pop_turn : (s.pop r c).turn = s.turn := rfl
@[simp] theorem State.pop_script : (s.pop r c).script = s.script := rfl
@[simp] theorem State.pop_sweep : (s.pop r c).sweep = s.sweep := rfl
@[simp] theorem State.pop_chooser : (s.pop r c).chooser = s.chooser := rfl
@[simp] theorem State.pop_last : (s.pop r c).last = s.last := rfl

/-! ### `modWarp` -/

@[simp] theorem State.modWarp_part (f : Warp → Warp) : (s.modWarp r f).part = s.part := by unfold State.modWarp; split <;> rfl
@[simp] theorem State.modWarp_mem (f : Warp → Warp) : (s.modWarp r f).mem = s.mem := by unfold State.modWarp; split <;> rfl
@[simp] theorem State.modWarp_bad (f : Warp → Warp) : (s.modWarp r f).bad = s.bad := by unfold State.modWarp; split <;> rfl
@[simp] theorem State.modWarp_tags (f : Warp → Warp) : (s.modWarp r f).tags = s.tags := by unfold State.modWarp; split <;> rfl
@[simp] theorem State.modWarp_stamped (f : Warp → Warp) : (s.modWarp r f).stamped = s.stamped := by unfold State.modWarp; split <;> rfl
@[simp] theorem State.modWarp_pages (f : Warp → Warp) : (s.modWarp r f).pages = s.pages := by unfold State.modWarp; split <;> rfl
@[simp] theorem State.modWarp_pending (f : Warp → Warp) : (s.modWarp r f).pending = s.pending := by unfold State.modWarp; split <;> rfl
@[simp] theorem State.modWarp_quads (f : Warp → Warp) : (s.modWarp r f).quads = s.quads := by unfold State.modWarp; split <;> rfl
@[simp] theorem State.modWarp_dies (f : Warp → Warp) : (s.modWarp r f).dies = s.dies := by unfold State.modWarp; split <;> rfl
@[simp] theorem State.modWarp_vaults (f : Warp → Warp) : (s.modWarp r f).vaults = s.vaults := by unfold State.modWarp; split <;> rfl
@[simp] theorem State.modWarp_domains (f : Warp → Warp) : (s.modWarp r f).domains = s.domains := by unfold State.modWarp; split <;> rfl
@[simp] theorem State.modWarp_launches (f : Warp → Warp) : (s.modWarp r f).launches = s.launches := by unfold State.modWarp; split <;> rfl
@[simp] theorem State.modWarp_nextLaunch (f : Warp → Warp) : (s.modWarp r f).nextLaunch = s.nextLaunch := by unfold State.modWarp; split <;> rfl
@[simp] theorem State.modWarp_nextSeq (f : Warp → Warp) : (s.modWarp r f).nextSeq = s.nextSeq := by unfold State.modWarp; split <;> rfl
@[simp] theorem State.modWarp_nextIssue (f : Warp → Warp) : (s.modWarp r f).nextIssue = s.nextIssue := by unfold State.modWarp; split <;> rfl
@[simp] theorem State.modWarp_admission (f : Warp → Warp) : (s.modWarp r f).admission = s.admission := by unfold State.modWarp; split <;> rfl
@[simp] theorem State.modWarp_admbad (f : Warp → Warp) : (s.modWarp r f).admbad = s.admbad := by unfold State.modWarp; split <;> rfl
@[simp] theorem State.modWarp_admref (f : Warp → Warp) : (s.modWarp r f).admref = s.admref := by unfold State.modWarp; split <;> rfl
@[simp] theorem State.modWarp_admreason (f : Warp → Warp) : (s.modWarp r f).admreason = s.admreason := by unfold State.modWarp; split <;> rfl
@[simp] theorem State.modWarp_fwaddr (f : Warp → Warp) : (s.modWarp r f).fwaddr = s.fwaddr := by unfold State.modWarp; split <;> rfl
@[simp] theorem State.modWarp_fwlen (f : Warp → Warp) : (s.modWarp r f).fwlen = s.fwlen := by unfold State.modWarp; split <;> rfl
@[simp] theorem State.modWarp_boot (f : Warp → Warp) : (s.modWarp r f).boot = s.boot := by unfold State.modWarp; split <;> rfl
@[simp] theorem State.modWarp_bootReason (f : Warp → Warp) : (s.modWarp r f).bootReason = s.bootReason := by unfold State.modWarp; split <;> rfl
@[simp] theorem State.modWarp_windows (f : Warp → Warp) : (s.modWarp r f).windows = s.windows := by unfold State.modWarp; split <;> rfl
@[simp] theorem State.modWarp_podix (f : Warp → Warp) : (s.modWarp r f).podix = s.podix := by unfold State.modWarp; split <;> rfl
@[simp] theorem State.modWarp_bcnsrc (f : Warp → Warp) : (s.modWarp r f).bcnsrc = s.bcnsrc := by unfold State.modWarp; split <;> rfl
@[simp] theorem State.modWarp_hbeacon (f : Warp → Warp) : (s.modWarp r f).hbeacon = s.hbeacon := by unfold State.modWarp; split <;> rfl
@[simp] theorem State.modWarp_hbeaconu (f : Warp → Warp) : (s.modWarp r f).hbeaconu = s.hbeaconu := by unfold State.modWarp; split <;> rfl
@[simp] theorem State.modWarp_pcap (f : Warp → Warp) : (s.modWarp r f).pcap = s.pcap := by unfold State.modWarp; split <;> rfl
@[simp] theorem State.modWarp_pmeas (f : Warp → Warp) : (s.modWarp r f).pmeas = s.pmeas := by unfold State.modWarp; split <;> rfl
@[simp] theorem State.modWarp_ptable (f : Warp → Warp) : (s.modWarp r f).ptable = s.ptable := by unfold State.modWarp; split <;> rfl
@[simp] theorem State.modWarp_msix (f : Warp → Warp) : (s.modWarp r f).msix = s.msix := by unfold State.modWarp; split <;> rfl
@[simp] theorem State.modWarp_msixTable (f : Warp → Warp) : (s.modWarp r f).msixTable = s.msixTable := by unfold State.modWarp; split <;> rfl
@[simp] theorem State.modWarp_msixPending (f : Warp → Warp) : (s.modWarp r f).msixPending = s.msixPending := by unfold State.modWarp; split <;> rfl
@[simp] theorem State.modWarp_hostRead (f : Warp → Warp) : (s.modWarp r f).hostRead = s.hostRead := by unfold State.modWarp; split <;> rfl
@[simp] theorem State.modWarp_fwDigest (f : Warp → Warp) : (s.modWarp r f).fwDigest = s.fwDigest := by unfold State.modWarp; split <;> rfl
@[simp] theorem State.modWarp_attested (f : Warp → Warp) : (s.modWarp r f).attested = s.attested := by unfold State.modWarp; split <;> rfl
@[simp] theorem State.modWarp_images (f : Warp → Warp) : (s.modWarp r f).images = s.images := by unfold State.modWarp; split <;> rfl
@[simp] theorem State.modWarp_nextImage (f : Warp → Warp) : (s.modWarp r f).nextImage = s.nextImage := by unfold State.modWarp; split <;> rfl
@[simp] theorem State.modWarp_reply (f : Warp → Warp) : (s.modWarp r f).reply = s.reply := by unfold State.modWarp; split <;> rfl
@[simp] theorem State.modWarp_delayed (f : Warp → Warp) : (s.modWarp r f).delayed = s.delayed := by unfold State.modWarp; split <;> rfl
@[simp] theorem State.modWarp_fabric (f : Warp → Warp) : (s.modWarp r f).fabric = s.fabric := by unfold State.modWarp; split <;> rfl
@[simp] theorem State.modWarp_beaconsOut (f : Warp → Warp) : (s.modWarp r f).beaconsOut = s.beaconsOut := by unfold State.modWarp; split <;> rfl
@[simp] theorem State.modWarp_time (f : Warp → Warp) : (s.modWarp r f).time = s.time := by unfold State.modWarp; split <;> rfl
@[simp] theorem State.modWarp_pace (f : Warp → Warp) : (s.modWarp r f).pace = s.pace := by unfold State.modWarp; split <;> rfl
@[simp] theorem State.modWarp_turn (f : Warp → Warp) : (s.modWarp r f).turn = s.turn := by unfold State.modWarp; split <;> rfl
@[simp] theorem State.modWarp_script (f : Warp → Warp) : (s.modWarp r f).script = s.script := by unfold State.modWarp; split <;> rfl
@[simp] theorem State.modWarp_sweep (f : Warp → Warp) : (s.modWarp r f).sweep = s.sweep := by unfold State.modWarp; split <;> rfl
@[simp] theorem State.modWarp_chooser (f : Warp → Warp) : (s.modWarp r f).chooser = s.chooser := by unfold State.modWarp; split <;> rfl
@[simp] theorem State.modWarp_last (f : Warp → Warp) : (s.modWarp r f).last = s.last := by unfold State.modWarp; split <;> rfl

/-! ### `setPc` -/

@[simp] theorem State.setPc_part (x : Word) : (s.setPc r x).part = s.part := by unfold State.setPc; split <;> simp
@[simp] theorem State.setPc_mem (x : Word) : (s.setPc r x).mem = s.mem := by unfold State.setPc; split <;> simp
@[simp] theorem State.setPc_bad (x : Word) : (s.setPc r x).bad = s.bad := by unfold State.setPc; split <;> simp
@[simp] theorem State.setPc_tags (x : Word) : (s.setPc r x).tags = s.tags := by unfold State.setPc; split <;> simp
@[simp] theorem State.setPc_stamped (x : Word) : (s.setPc r x).stamped = s.stamped := by unfold State.setPc; split <;> simp
@[simp] theorem State.setPc_pages (x : Word) : (s.setPc r x).pages = s.pages := by unfold State.setPc; split <;> simp
@[simp] theorem State.setPc_pending (x : Word) : (s.setPc r x).pending = s.pending := by unfold State.setPc; split <;> simp
@[simp] theorem State.setPc_quads (x : Word) : (s.setPc r x).quads = s.quads := by unfold State.setPc; split <;> simp
@[simp] theorem State.setPc_dies (x : Word) : (s.setPc r x).dies = s.dies := by unfold State.setPc; split <;> simp
@[simp] theorem State.setPc_vaults (x : Word) : (s.setPc r x).vaults = s.vaults := by unfold State.setPc; split <;> simp
@[simp] theorem State.setPc_domains (x : Word) : (s.setPc r x).domains = s.domains := by unfold State.setPc; split <;> simp
@[simp] theorem State.setPc_launches (x : Word) : (s.setPc r x).launches = s.launches := by unfold State.setPc; split <;> simp
@[simp] theorem State.setPc_nextLaunch (x : Word) : (s.setPc r x).nextLaunch = s.nextLaunch := by unfold State.setPc; split <;> simp
@[simp] theorem State.setPc_nextSeq (x : Word) : (s.setPc r x).nextSeq = s.nextSeq := by unfold State.setPc; split <;> simp
@[simp] theorem State.setPc_nextIssue (x : Word) : (s.setPc r x).nextIssue = s.nextIssue := by unfold State.setPc; split <;> simp
@[simp] theorem State.setPc_admission (x : Word) : (s.setPc r x).admission = s.admission := by unfold State.setPc; split <;> simp
@[simp] theorem State.setPc_admbad (x : Word) : (s.setPc r x).admbad = s.admbad := by unfold State.setPc; split <;> simp
@[simp] theorem State.setPc_admref (x : Word) : (s.setPc r x).admref = s.admref := by unfold State.setPc; split <;> simp
@[simp] theorem State.setPc_admreason (x : Word) : (s.setPc r x).admreason = s.admreason := by unfold State.setPc; split <;> simp
@[simp] theorem State.setPc_fwaddr (x : Word) : (s.setPc r x).fwaddr = s.fwaddr := by unfold State.setPc; split <;> simp
@[simp] theorem State.setPc_fwlen (x : Word) : (s.setPc r x).fwlen = s.fwlen := by unfold State.setPc; split <;> simp
@[simp] theorem State.setPc_boot (x : Word) : (s.setPc r x).boot = s.boot := by unfold State.setPc; split <;> simp
@[simp] theorem State.setPc_bootReason (x : Word) : (s.setPc r x).bootReason = s.bootReason := by unfold State.setPc; split <;> simp
@[simp] theorem State.setPc_windows (x : Word) : (s.setPc r x).windows = s.windows := by unfold State.setPc; split <;> simp
@[simp] theorem State.setPc_podix (x : Word) : (s.setPc r x).podix = s.podix := by unfold State.setPc; split <;> simp
@[simp] theorem State.setPc_bcnsrc (x : Word) : (s.setPc r x).bcnsrc = s.bcnsrc := by unfold State.setPc; split <;> simp
@[simp] theorem State.setPc_hbeacon (x : Word) : (s.setPc r x).hbeacon = s.hbeacon := by unfold State.setPc; split <;> simp
@[simp] theorem State.setPc_hbeaconu (x : Word) : (s.setPc r x).hbeaconu = s.hbeaconu := by unfold State.setPc; split <;> simp
@[simp] theorem State.setPc_pcap (x : Word) : (s.setPc r x).pcap = s.pcap := by unfold State.setPc; split <;> simp
@[simp] theorem State.setPc_pmeas (x : Word) : (s.setPc r x).pmeas = s.pmeas := by unfold State.setPc; split <;> simp
@[simp] theorem State.setPc_ptable (x : Word) : (s.setPc r x).ptable = s.ptable := by unfold State.setPc; split <;> simp
@[simp] theorem State.setPc_msix (x : Word) : (s.setPc r x).msix = s.msix := by unfold State.setPc; split <;> simp
@[simp] theorem State.setPc_msixTable (x : Word) : (s.setPc r x).msixTable = s.msixTable := by unfold State.setPc; split <;> simp
@[simp] theorem State.setPc_msixPending (x : Word) : (s.setPc r x).msixPending = s.msixPending := by unfold State.setPc; split <;> simp
@[simp] theorem State.setPc_hostRead (x : Word) : (s.setPc r x).hostRead = s.hostRead := by unfold State.setPc; split <;> simp
@[simp] theorem State.setPc_fwDigest (x : Word) : (s.setPc r x).fwDigest = s.fwDigest := by unfold State.setPc; split <;> simp
@[simp] theorem State.setPc_attested (x : Word) : (s.setPc r x).attested = s.attested := by unfold State.setPc; split <;> simp
@[simp] theorem State.setPc_images (x : Word) : (s.setPc r x).images = s.images := by unfold State.setPc; split <;> simp
@[simp] theorem State.setPc_nextImage (x : Word) : (s.setPc r x).nextImage = s.nextImage := by unfold State.setPc; split <;> simp
@[simp] theorem State.setPc_reply (x : Word) : (s.setPc r x).reply = s.reply := by unfold State.setPc; split <;> simp
@[simp] theorem State.setPc_delayed (x : Word) : (s.setPc r x).delayed = s.delayed := by unfold State.setPc; split <;> simp
@[simp] theorem State.setPc_fabric (x : Word) : (s.setPc r x).fabric = s.fabric := by unfold State.setPc; split <;> simp
@[simp] theorem State.setPc_beaconsOut (x : Word) : (s.setPc r x).beaconsOut = s.beaconsOut := by unfold State.setPc; split <;> simp
@[simp] theorem State.setPc_time (x : Word) : (s.setPc r x).time = s.time := by unfold State.setPc; split <;> simp
@[simp] theorem State.setPc_pace (x : Word) : (s.setPc r x).pace = s.pace := by unfold State.setPc; split <;> simp
@[simp] theorem State.setPc_turn (x : Word) : (s.setPc r x).turn = s.turn := by unfold State.setPc; split <;> simp
@[simp] theorem State.setPc_script (x : Word) : (s.setPc r x).script = s.script := by unfold State.setPc; split <;> simp
@[simp] theorem State.setPc_sweep (x : Word) : (s.setPc r x).sweep = s.sweep := by unfold State.setPc; split <;> simp
@[simp] theorem State.setPc_chooser (x : Word) : (s.setPc r x).chooser = s.chooser := by unfold State.setPc; split <;> simp
@[simp] theorem State.setPc_last (x : Word) : (s.setPc r x).last = s.last := by unfold State.setPc; split <;> simp

/-! ### `setPfx` -/

@[simp] theorem State.setPfx_part (x : Option (BitVec 24)) : (s.setPfx r x).part = s.part := by unfold State.setPfx; split <;> simp
@[simp] theorem State.setPfx_mem (x : Option (BitVec 24)) : (s.setPfx r x).mem = s.mem := by unfold State.setPfx; split <;> simp
@[simp] theorem State.setPfx_bad (x : Option (BitVec 24)) : (s.setPfx r x).bad = s.bad := by unfold State.setPfx; split <;> simp
@[simp] theorem State.setPfx_tags (x : Option (BitVec 24)) : (s.setPfx r x).tags = s.tags := by unfold State.setPfx; split <;> simp
@[simp] theorem State.setPfx_stamped (x : Option (BitVec 24)) : (s.setPfx r x).stamped = s.stamped := by unfold State.setPfx; split <;> simp
@[simp] theorem State.setPfx_pages (x : Option (BitVec 24)) : (s.setPfx r x).pages = s.pages := by unfold State.setPfx; split <;> simp
@[simp] theorem State.setPfx_pending (x : Option (BitVec 24)) : (s.setPfx r x).pending = s.pending := by unfold State.setPfx; split <;> simp
@[simp] theorem State.setPfx_quads (x : Option (BitVec 24)) : (s.setPfx r x).quads = s.quads := by unfold State.setPfx; split <;> simp
@[simp] theorem State.setPfx_dies (x : Option (BitVec 24)) : (s.setPfx r x).dies = s.dies := by unfold State.setPfx; split <;> simp
@[simp] theorem State.setPfx_vaults (x : Option (BitVec 24)) : (s.setPfx r x).vaults = s.vaults := by unfold State.setPfx; split <;> simp
@[simp] theorem State.setPfx_domains (x : Option (BitVec 24)) : (s.setPfx r x).domains = s.domains := by unfold State.setPfx; split <;> simp
@[simp] theorem State.setPfx_launches (x : Option (BitVec 24)) : (s.setPfx r x).launches = s.launches := by unfold State.setPfx; split <;> simp
@[simp] theorem State.setPfx_nextLaunch (x : Option (BitVec 24)) : (s.setPfx r x).nextLaunch = s.nextLaunch := by unfold State.setPfx; split <;> simp
@[simp] theorem State.setPfx_nextSeq (x : Option (BitVec 24)) : (s.setPfx r x).nextSeq = s.nextSeq := by unfold State.setPfx; split <;> simp
@[simp] theorem State.setPfx_nextIssue (x : Option (BitVec 24)) : (s.setPfx r x).nextIssue = s.nextIssue := by unfold State.setPfx; split <;> simp
@[simp] theorem State.setPfx_admission (x : Option (BitVec 24)) : (s.setPfx r x).admission = s.admission := by unfold State.setPfx; split <;> simp
@[simp] theorem State.setPfx_admbad (x : Option (BitVec 24)) : (s.setPfx r x).admbad = s.admbad := by unfold State.setPfx; split <;> simp
@[simp] theorem State.setPfx_admref (x : Option (BitVec 24)) : (s.setPfx r x).admref = s.admref := by unfold State.setPfx; split <;> simp
@[simp] theorem State.setPfx_admreason (x : Option (BitVec 24)) : (s.setPfx r x).admreason = s.admreason := by unfold State.setPfx; split <;> simp
@[simp] theorem State.setPfx_fwaddr (x : Option (BitVec 24)) : (s.setPfx r x).fwaddr = s.fwaddr := by unfold State.setPfx; split <;> simp
@[simp] theorem State.setPfx_fwlen (x : Option (BitVec 24)) : (s.setPfx r x).fwlen = s.fwlen := by unfold State.setPfx; split <;> simp
@[simp] theorem State.setPfx_boot (x : Option (BitVec 24)) : (s.setPfx r x).boot = s.boot := by unfold State.setPfx; split <;> simp
@[simp] theorem State.setPfx_bootReason (x : Option (BitVec 24)) : (s.setPfx r x).bootReason = s.bootReason := by unfold State.setPfx; split <;> simp
@[simp] theorem State.setPfx_windows (x : Option (BitVec 24)) : (s.setPfx r x).windows = s.windows := by unfold State.setPfx; split <;> simp
@[simp] theorem State.setPfx_podix (x : Option (BitVec 24)) : (s.setPfx r x).podix = s.podix := by unfold State.setPfx; split <;> simp
@[simp] theorem State.setPfx_bcnsrc (x : Option (BitVec 24)) : (s.setPfx r x).bcnsrc = s.bcnsrc := by unfold State.setPfx; split <;> simp
@[simp] theorem State.setPfx_hbeacon (x : Option (BitVec 24)) : (s.setPfx r x).hbeacon = s.hbeacon := by unfold State.setPfx; split <;> simp
@[simp] theorem State.setPfx_hbeaconu (x : Option (BitVec 24)) : (s.setPfx r x).hbeaconu = s.hbeaconu := by unfold State.setPfx; split <;> simp
@[simp] theorem State.setPfx_pcap (x : Option (BitVec 24)) : (s.setPfx r x).pcap = s.pcap := by unfold State.setPfx; split <;> simp
@[simp] theorem State.setPfx_pmeas (x : Option (BitVec 24)) : (s.setPfx r x).pmeas = s.pmeas := by unfold State.setPfx; split <;> simp
@[simp] theorem State.setPfx_ptable (x : Option (BitVec 24)) : (s.setPfx r x).ptable = s.ptable := by unfold State.setPfx; split <;> simp
@[simp] theorem State.setPfx_msix (x : Option (BitVec 24)) : (s.setPfx r x).msix = s.msix := by unfold State.setPfx; split <;> simp
@[simp] theorem State.setPfx_msixTable (x : Option (BitVec 24)) : (s.setPfx r x).msixTable = s.msixTable := by unfold State.setPfx; split <;> simp
@[simp] theorem State.setPfx_msixPending (x : Option (BitVec 24)) : (s.setPfx r x).msixPending = s.msixPending := by unfold State.setPfx; split <;> simp
@[simp] theorem State.setPfx_hostRead (x : Option (BitVec 24)) : (s.setPfx r x).hostRead = s.hostRead := by unfold State.setPfx; split <;> simp
@[simp] theorem State.setPfx_fwDigest (x : Option (BitVec 24)) : (s.setPfx r x).fwDigest = s.fwDigest := by unfold State.setPfx; split <;> simp
@[simp] theorem State.setPfx_attested (x : Option (BitVec 24)) : (s.setPfx r x).attested = s.attested := by unfold State.setPfx; split <;> simp
@[simp] theorem State.setPfx_images (x : Option (BitVec 24)) : (s.setPfx r x).images = s.images := by unfold State.setPfx; split <;> simp
@[simp] theorem State.setPfx_nextImage (x : Option (BitVec 24)) : (s.setPfx r x).nextImage = s.nextImage := by unfold State.setPfx; split <;> simp
@[simp] theorem State.setPfx_reply (x : Option (BitVec 24)) : (s.setPfx r x).reply = s.reply := by unfold State.setPfx; split <;> simp
@[simp] theorem State.setPfx_delayed (x : Option (BitVec 24)) : (s.setPfx r x).delayed = s.delayed := by unfold State.setPfx; split <;> simp
@[simp] theorem State.setPfx_fabric (x : Option (BitVec 24)) : (s.setPfx r x).fabric = s.fabric := by unfold State.setPfx; split <;> simp
@[simp] theorem State.setPfx_beaconsOut (x : Option (BitVec 24)) : (s.setPfx r x).beaconsOut = s.beaconsOut := by unfold State.setPfx; split <;> simp
@[simp] theorem State.setPfx_time (x : Option (BitVec 24)) : (s.setPfx r x).time = s.time := by unfold State.setPfx; split <;> simp
@[simp] theorem State.setPfx_pace (x : Option (BitVec 24)) : (s.setPfx r x).pace = s.pace := by unfold State.setPfx; split <;> simp
@[simp] theorem State.setPfx_turn (x : Option (BitVec 24)) : (s.setPfx r x).turn = s.turn := by unfold State.setPfx; split <;> simp
@[simp] theorem State.setPfx_script (x : Option (BitVec 24)) : (s.setPfx r x).script = s.script := by unfold State.setPfx; split <;> simp
@[simp] theorem State.setPfx_sweep (x : Option (BitVec 24)) : (s.setPfx r x).sweep = s.sweep := by unfold State.setPfx; split <;> simp
@[simp] theorem State.setPfx_chooser (x : Option (BitVec 24)) : (s.setPfx r x).chooser = s.chooser := by unfold State.setPfx; split <;> simp
@[simp] theorem State.setPfx_last (x : Option (BitVec 24)) : (s.setPfx r x).last = s.last := by unfold State.setPfx; split <;> simp

/-! ### `setG` -/

@[simp] theorem State.setG_part (x : Word) : (s.setG r c x).part = s.part := by unfold State.setG; split <;> simp
@[simp] theorem State.setG_mem (x : Word) : (s.setG r c x).mem = s.mem := by unfold State.setG; split <;> simp
@[simp] theorem State.setG_bad (x : Word) : (s.setG r c x).bad = s.bad := by unfold State.setG; split <;> simp
@[simp] theorem State.setG_tags (x : Word) : (s.setG r c x).tags = s.tags := by unfold State.setG; split <;> simp
@[simp] theorem State.setG_stamped (x : Word) : (s.setG r c x).stamped = s.stamped := by unfold State.setG; split <;> simp
@[simp] theorem State.setG_pages (x : Word) : (s.setG r c x).pages = s.pages := by unfold State.setG; split <;> simp
@[simp] theorem State.setG_pending (x : Word) : (s.setG r c x).pending = s.pending := by unfold State.setG; split <;> simp
@[simp] theorem State.setG_quads (x : Word) : (s.setG r c x).quads = s.quads := by unfold State.setG; split <;> simp
@[simp] theorem State.setG_dies (x : Word) : (s.setG r c x).dies = s.dies := by unfold State.setG; split <;> simp
@[simp] theorem State.setG_vaults (x : Word) : (s.setG r c x).vaults = s.vaults := by unfold State.setG; split <;> simp
@[simp] theorem State.setG_domains (x : Word) : (s.setG r c x).domains = s.domains := by unfold State.setG; split <;> simp
@[simp] theorem State.setG_launches (x : Word) : (s.setG r c x).launches = s.launches := by unfold State.setG; split <;> simp
@[simp] theorem State.setG_nextLaunch (x : Word) : (s.setG r c x).nextLaunch = s.nextLaunch := by unfold State.setG; split <;> simp
@[simp] theorem State.setG_nextSeq (x : Word) : (s.setG r c x).nextSeq = s.nextSeq := by unfold State.setG; split <;> simp
@[simp] theorem State.setG_nextIssue (x : Word) : (s.setG r c x).nextIssue = s.nextIssue := by unfold State.setG; split <;> simp
@[simp] theorem State.setG_admission (x : Word) : (s.setG r c x).admission = s.admission := by unfold State.setG; split <;> simp
@[simp] theorem State.setG_admbad (x : Word) : (s.setG r c x).admbad = s.admbad := by unfold State.setG; split <;> simp
@[simp] theorem State.setG_admref (x : Word) : (s.setG r c x).admref = s.admref := by unfold State.setG; split <;> simp
@[simp] theorem State.setG_admreason (x : Word) : (s.setG r c x).admreason = s.admreason := by unfold State.setG; split <;> simp
@[simp] theorem State.setG_fwaddr (x : Word) : (s.setG r c x).fwaddr = s.fwaddr := by unfold State.setG; split <;> simp
@[simp] theorem State.setG_fwlen (x : Word) : (s.setG r c x).fwlen = s.fwlen := by unfold State.setG; split <;> simp
@[simp] theorem State.setG_boot (x : Word) : (s.setG r c x).boot = s.boot := by unfold State.setG; split <;> simp
@[simp] theorem State.setG_bootReason (x : Word) : (s.setG r c x).bootReason = s.bootReason := by unfold State.setG; split <;> simp
@[simp] theorem State.setG_windows (x : Word) : (s.setG r c x).windows = s.windows := by unfold State.setG; split <;> simp
@[simp] theorem State.setG_podix (x : Word) : (s.setG r c x).podix = s.podix := by unfold State.setG; split <;> simp
@[simp] theorem State.setG_bcnsrc (x : Word) : (s.setG r c x).bcnsrc = s.bcnsrc := by unfold State.setG; split <;> simp
@[simp] theorem State.setG_hbeacon (x : Word) : (s.setG r c x).hbeacon = s.hbeacon := by unfold State.setG; split <;> simp
@[simp] theorem State.setG_hbeaconu (x : Word) : (s.setG r c x).hbeaconu = s.hbeaconu := by unfold State.setG; split <;> simp
@[simp] theorem State.setG_pcap (x : Word) : (s.setG r c x).pcap = s.pcap := by unfold State.setG; split <;> simp
@[simp] theorem State.setG_pmeas (x : Word) : (s.setG r c x).pmeas = s.pmeas := by unfold State.setG; split <;> simp
@[simp] theorem State.setG_ptable (x : Word) : (s.setG r c x).ptable = s.ptable := by unfold State.setG; split <;> simp
@[simp] theorem State.setG_msix (x : Word) : (s.setG r c x).msix = s.msix := by unfold State.setG; split <;> simp
@[simp] theorem State.setG_msixTable (x : Word) : (s.setG r c x).msixTable = s.msixTable := by unfold State.setG; split <;> simp
@[simp] theorem State.setG_msixPending (x : Word) : (s.setG r c x).msixPending = s.msixPending := by unfold State.setG; split <;> simp
@[simp] theorem State.setG_hostRead (x : Word) : (s.setG r c x).hostRead = s.hostRead := by unfold State.setG; split <;> simp
@[simp] theorem State.setG_fwDigest (x : Word) : (s.setG r c x).fwDigest = s.fwDigest := by unfold State.setG; split <;> simp
@[simp] theorem State.setG_attested (x : Word) : (s.setG r c x).attested = s.attested := by unfold State.setG; split <;> simp
@[simp] theorem State.setG_images (x : Word) : (s.setG r c x).images = s.images := by unfold State.setG; split <;> simp
@[simp] theorem State.setG_nextImage (x : Word) : (s.setG r c x).nextImage = s.nextImage := by unfold State.setG; split <;> simp
@[simp] theorem State.setG_reply (x : Word) : (s.setG r c x).reply = s.reply := by unfold State.setG; split <;> simp
@[simp] theorem State.setG_delayed (x : Word) : (s.setG r c x).delayed = s.delayed := by unfold State.setG; split <;> simp
@[simp] theorem State.setG_fabric (x : Word) : (s.setG r c x).fabric = s.fabric := by unfold State.setG; split <;> simp
@[simp] theorem State.setG_beaconsOut (x : Word) : (s.setG r c x).beaconsOut = s.beaconsOut := by unfold State.setG; split <;> simp
@[simp] theorem State.setG_time (x : Word) : (s.setG r c x).time = s.time := by unfold State.setG; split <;> simp
@[simp] theorem State.setG_pace (x : Word) : (s.setG r c x).pace = s.pace := by unfold State.setG; split <;> simp
@[simp] theorem State.setG_turn (x : Word) : (s.setG r c x).turn = s.turn := by unfold State.setG; split <;> simp
@[simp] theorem State.setG_script (x : Word) : (s.setG r c x).script = s.script := by unfold State.setG; split <;> simp
@[simp] theorem State.setG_sweep (x : Word) : (s.setG r c x).sweep = s.sweep := by unfold State.setG; split <;> simp
@[simp] theorem State.setG_chooser (x : Word) : (s.setG r c x).chooser = s.chooser := by unfold State.setG; split <;> simp
@[simp] theorem State.setG_last (x : Word) : (s.setG r c x).last = s.last := by unfold State.setG; split <;> simp

/-! ### `setV` -/

@[simp] theorem State.setV_part (x : Row) : (s.setV r c x).part = s.part := by unfold State.setV; simp
@[simp] theorem State.setV_mem (x : Row) : (s.setV r c x).mem = s.mem := by unfold State.setV; simp
@[simp] theorem State.setV_bad (x : Row) : (s.setV r c x).bad = s.bad := by unfold State.setV; simp
@[simp] theorem State.setV_tags (x : Row) : (s.setV r c x).tags = s.tags := by unfold State.setV; simp
@[simp] theorem State.setV_stamped (x : Row) : (s.setV r c x).stamped = s.stamped := by unfold State.setV; simp
@[simp] theorem State.setV_pages (x : Row) : (s.setV r c x).pages = s.pages := by unfold State.setV; simp
@[simp] theorem State.setV_pending (x : Row) : (s.setV r c x).pending = s.pending := by unfold State.setV; simp
@[simp] theorem State.setV_quads (x : Row) : (s.setV r c x).quads = s.quads := by unfold State.setV; simp
@[simp] theorem State.setV_dies (x : Row) : (s.setV r c x).dies = s.dies := by unfold State.setV; simp
@[simp] theorem State.setV_vaults (x : Row) : (s.setV r c x).vaults = s.vaults := by unfold State.setV; simp
@[simp] theorem State.setV_domains (x : Row) : (s.setV r c x).domains = s.domains := by unfold State.setV; simp
@[simp] theorem State.setV_launches (x : Row) : (s.setV r c x).launches = s.launches := by unfold State.setV; simp
@[simp] theorem State.setV_nextLaunch (x : Row) : (s.setV r c x).nextLaunch = s.nextLaunch := by unfold State.setV; simp
@[simp] theorem State.setV_nextSeq (x : Row) : (s.setV r c x).nextSeq = s.nextSeq := by unfold State.setV; simp
@[simp] theorem State.setV_nextIssue (x : Row) : (s.setV r c x).nextIssue = s.nextIssue := by unfold State.setV; simp
@[simp] theorem State.setV_admission (x : Row) : (s.setV r c x).admission = s.admission := by unfold State.setV; simp
@[simp] theorem State.setV_admbad (x : Row) : (s.setV r c x).admbad = s.admbad := by unfold State.setV; simp
@[simp] theorem State.setV_admref (x : Row) : (s.setV r c x).admref = s.admref := by unfold State.setV; simp
@[simp] theorem State.setV_admreason (x : Row) : (s.setV r c x).admreason = s.admreason := by unfold State.setV; simp
@[simp] theorem State.setV_fwaddr (x : Row) : (s.setV r c x).fwaddr = s.fwaddr := by unfold State.setV; simp
@[simp] theorem State.setV_fwlen (x : Row) : (s.setV r c x).fwlen = s.fwlen := by unfold State.setV; simp
@[simp] theorem State.setV_boot (x : Row) : (s.setV r c x).boot = s.boot := by unfold State.setV; simp
@[simp] theorem State.setV_bootReason (x : Row) : (s.setV r c x).bootReason = s.bootReason := by unfold State.setV; simp
@[simp] theorem State.setV_windows (x : Row) : (s.setV r c x).windows = s.windows := by unfold State.setV; simp
@[simp] theorem State.setV_podix (x : Row) : (s.setV r c x).podix = s.podix := by unfold State.setV; simp
@[simp] theorem State.setV_bcnsrc (x : Row) : (s.setV r c x).bcnsrc = s.bcnsrc := by unfold State.setV; simp
@[simp] theorem State.setV_hbeacon (x : Row) : (s.setV r c x).hbeacon = s.hbeacon := by unfold State.setV; simp
@[simp] theorem State.setV_hbeaconu (x : Row) : (s.setV r c x).hbeaconu = s.hbeaconu := by unfold State.setV; simp
@[simp] theorem State.setV_pcap (x : Row) : (s.setV r c x).pcap = s.pcap := by unfold State.setV; simp
@[simp] theorem State.setV_pmeas (x : Row) : (s.setV r c x).pmeas = s.pmeas := by unfold State.setV; simp
@[simp] theorem State.setV_ptable (x : Row) : (s.setV r c x).ptable = s.ptable := by unfold State.setV; simp
@[simp] theorem State.setV_msix (x : Row) : (s.setV r c x).msix = s.msix := by unfold State.setV; simp
@[simp] theorem State.setV_msixTable (x : Row) : (s.setV r c x).msixTable = s.msixTable := by unfold State.setV; simp
@[simp] theorem State.setV_msixPending (x : Row) : (s.setV r c x).msixPending = s.msixPending := by unfold State.setV; simp
@[simp] theorem State.setV_hostRead (x : Row) : (s.setV r c x).hostRead = s.hostRead := by unfold State.setV; simp
@[simp] theorem State.setV_fwDigest (x : Row) : (s.setV r c x).fwDigest = s.fwDigest := by unfold State.setV; simp
@[simp] theorem State.setV_attested (x : Row) : (s.setV r c x).attested = s.attested := by unfold State.setV; simp
@[simp] theorem State.setV_images (x : Row) : (s.setV r c x).images = s.images := by unfold State.setV; simp
@[simp] theorem State.setV_nextImage (x : Row) : (s.setV r c x).nextImage = s.nextImage := by unfold State.setV; simp
@[simp] theorem State.setV_reply (x : Row) : (s.setV r c x).reply = s.reply := by unfold State.setV; simp
@[simp] theorem State.setV_delayed (x : Row) : (s.setV r c x).delayed = s.delayed := by unfold State.setV; simp
@[simp] theorem State.setV_fabric (x : Row) : (s.setV r c x).fabric = s.fabric := by unfold State.setV; simp
@[simp] theorem State.setV_beaconsOut (x : Row) : (s.setV r c x).beaconsOut = s.beaconsOut := by unfold State.setV; simp
@[simp] theorem State.setV_time (x : Row) : (s.setV r c x).time = s.time := by unfold State.setV; simp
@[simp] theorem State.setV_pace (x : Row) : (s.setV r c x).pace = s.pace := by unfold State.setV; simp
@[simp] theorem State.setV_turn (x : Row) : (s.setV r c x).turn = s.turn := by unfold State.setV; simp
@[simp] theorem State.setV_script (x : Row) : (s.setV r c x).script = s.script := by unfold State.setV; simp
@[simp] theorem State.setV_sweep (x : Row) : (s.setV r c x).sweep = s.sweep := by unfold State.setV; simp
@[simp] theorem State.setV_chooser (x : Row) : (s.setV r c x).chooser = s.chooser := by unfold State.setV; simp
@[simp] theorem State.setV_last (x : Row) : (s.setV r c x).last = s.last := by unfold State.setV; simp

/-! ### `putPair` -/

@[simp] theorem State.putPair_part (x : DWord) : (s.putPair r c x).part = s.part := by simp [State.putPair]
@[simp] theorem State.putPair_mem (x : DWord) : (s.putPair r c x).mem = s.mem := by simp [State.putPair]
@[simp] theorem State.putPair_bad (x : DWord) : (s.putPair r c x).bad = s.bad := by simp [State.putPair]
@[simp] theorem State.putPair_tags (x : DWord) : (s.putPair r c x).tags = s.tags := by simp [State.putPair]
@[simp] theorem State.putPair_stamped (x : DWord) : (s.putPair r c x).stamped = s.stamped := by simp [State.putPair]
@[simp] theorem State.putPair_pages (x : DWord) : (s.putPair r c x).pages = s.pages := by simp [State.putPair]
@[simp] theorem State.putPair_pending (x : DWord) : (s.putPair r c x).pending = s.pending := by simp [State.putPair]
@[simp] theorem State.putPair_quads (x : DWord) : (s.putPair r c x).quads = s.quads := by simp [State.putPair]
@[simp] theorem State.putPair_dies (x : DWord) : (s.putPair r c x).dies = s.dies := by simp [State.putPair]
@[simp] theorem State.putPair_vaults (x : DWord) : (s.putPair r c x).vaults = s.vaults := by simp [State.putPair]
@[simp] theorem State.putPair_domains (x : DWord) : (s.putPair r c x).domains = s.domains := by simp [State.putPair]
@[simp] theorem State.putPair_launches (x : DWord) : (s.putPair r c x).launches = s.launches := by simp [State.putPair]
@[simp] theorem State.putPair_nextLaunch (x : DWord) : (s.putPair r c x).nextLaunch = s.nextLaunch := by simp [State.putPair]
@[simp] theorem State.putPair_nextSeq (x : DWord) : (s.putPair r c x).nextSeq = s.nextSeq := by simp [State.putPair]
@[simp] theorem State.putPair_nextIssue (x : DWord) : (s.putPair r c x).nextIssue = s.nextIssue := by simp [State.putPair]
@[simp] theorem State.putPair_admission (x : DWord) : (s.putPair r c x).admission = s.admission := by simp [State.putPair]
@[simp] theorem State.putPair_admbad (x : DWord) : (s.putPair r c x).admbad = s.admbad := by simp [State.putPair]
@[simp] theorem State.putPair_admref (x : DWord) : (s.putPair r c x).admref = s.admref := by simp [State.putPair]
@[simp] theorem State.putPair_admreason (x : DWord) : (s.putPair r c x).admreason = s.admreason := by simp [State.putPair]
@[simp] theorem State.putPair_fwaddr (x : DWord) : (s.putPair r c x).fwaddr = s.fwaddr := by simp [State.putPair]
@[simp] theorem State.putPair_fwlen (x : DWord) : (s.putPair r c x).fwlen = s.fwlen := by simp [State.putPair]
@[simp] theorem State.putPair_boot (x : DWord) : (s.putPair r c x).boot = s.boot := by simp [State.putPair]
@[simp] theorem State.putPair_bootReason (x : DWord) : (s.putPair r c x).bootReason = s.bootReason := by simp [State.putPair]
@[simp] theorem State.putPair_windows (x : DWord) : (s.putPair r c x).windows = s.windows := by simp [State.putPair]
@[simp] theorem State.putPair_podix (x : DWord) : (s.putPair r c x).podix = s.podix := by simp [State.putPair]
@[simp] theorem State.putPair_bcnsrc (x : DWord) : (s.putPair r c x).bcnsrc = s.bcnsrc := by simp [State.putPair]
@[simp] theorem State.putPair_hbeacon (x : DWord) : (s.putPair r c x).hbeacon = s.hbeacon := by simp [State.putPair]
@[simp] theorem State.putPair_hbeaconu (x : DWord) : (s.putPair r c x).hbeaconu = s.hbeaconu := by simp [State.putPair]
@[simp] theorem State.putPair_pcap (x : DWord) : (s.putPair r c x).pcap = s.pcap := by simp [State.putPair]
@[simp] theorem State.putPair_pmeas (x : DWord) : (s.putPair r c x).pmeas = s.pmeas := by simp [State.putPair]
@[simp] theorem State.putPair_ptable (x : DWord) : (s.putPair r c x).ptable = s.ptable := by simp [State.putPair]
@[simp] theorem State.putPair_msix (x : DWord) : (s.putPair r c x).msix = s.msix := by simp [State.putPair]
@[simp] theorem State.putPair_msixTable (x : DWord) : (s.putPair r c x).msixTable = s.msixTable := by simp [State.putPair]
@[simp] theorem State.putPair_msixPending (x : DWord) : (s.putPair r c x).msixPending = s.msixPending := by simp [State.putPair]
@[simp] theorem State.putPair_hostRead (x : DWord) : (s.putPair r c x).hostRead = s.hostRead := by simp [State.putPair]
@[simp] theorem State.putPair_fwDigest (x : DWord) : (s.putPair r c x).fwDigest = s.fwDigest := by simp [State.putPair]
@[simp] theorem State.putPair_attested (x : DWord) : (s.putPair r c x).attested = s.attested := by simp [State.putPair]
@[simp] theorem State.putPair_images (x : DWord) : (s.putPair r c x).images = s.images := by simp [State.putPair]
@[simp] theorem State.putPair_nextImage (x : DWord) : (s.putPair r c x).nextImage = s.nextImage := by simp [State.putPair]
@[simp] theorem State.putPair_reply (x : DWord) : (s.putPair r c x).reply = s.reply := by simp [State.putPair]
@[simp] theorem State.putPair_delayed (x : DWord) : (s.putPair r c x).delayed = s.delayed := by simp [State.putPair]
@[simp] theorem State.putPair_fabric (x : DWord) : (s.putPair r c x).fabric = s.fabric := by simp [State.putPair]
@[simp] theorem State.putPair_beaconsOut (x : DWord) : (s.putPair r c x).beaconsOut = s.beaconsOut := by simp [State.putPair]
@[simp] theorem State.putPair_time (x : DWord) : (s.putPair r c x).time = s.time := by simp [State.putPair]
@[simp] theorem State.putPair_pace (x : DWord) : (s.putPair r c x).pace = s.pace := by simp [State.putPair]
@[simp] theorem State.putPair_turn (x : DWord) : (s.putPair r c x).turn = s.turn := by simp [State.putPair]
@[simp] theorem State.putPair_script (x : DWord) : (s.putPair r c x).script = s.script := by simp [State.putPair]
@[simp] theorem State.putPair_sweep (x : DWord) : (s.putPair r c x).sweep = s.sweep := by simp [State.putPair]
@[simp] theorem State.putPair_chooser (x : DWord) : (s.putPair r c x).chooser = s.chooser := by simp [State.putPair]
@[simp] theorem State.putPair_last (x : DWord) : (s.putPair r c x).last = s.last := by simp [State.putPair]

/-! ### `retire` -/

@[simp] theorem State.retire_part : (s.retire r).part = s.part := by simp [State.retire]
@[simp] theorem State.retire_mem : (s.retire r).mem = s.mem := by simp [State.retire]
@[simp] theorem State.retire_bad : (s.retire r).bad = s.bad := by simp [State.retire]
@[simp] theorem State.retire_tags : (s.retire r).tags = s.tags := by simp [State.retire]
@[simp] theorem State.retire_stamped : (s.retire r).stamped = s.stamped := by simp [State.retire]
@[simp] theorem State.retire_pages : (s.retire r).pages = s.pages := by simp [State.retire]
@[simp] theorem State.retire_pending : (s.retire r).pending = s.pending := by simp [State.retire]
@[simp] theorem State.retire_quads : (s.retire r).quads = s.quads := by simp [State.retire]
@[simp] theorem State.retire_dies : (s.retire r).dies = s.dies := by simp [State.retire]
@[simp] theorem State.retire_vaults : (s.retire r).vaults = s.vaults := by simp [State.retire]
@[simp] theorem State.retire_domains : (s.retire r).domains = s.domains := by simp [State.retire]
@[simp] theorem State.retire_launches : (s.retire r).launches = s.launches := by simp [State.retire]
@[simp] theorem State.retire_nextLaunch : (s.retire r).nextLaunch = s.nextLaunch := by simp [State.retire]
@[simp] theorem State.retire_nextSeq : (s.retire r).nextSeq = s.nextSeq := by simp [State.retire]
@[simp] theorem State.retire_nextIssue : (s.retire r).nextIssue = s.nextIssue := by simp [State.retire]
@[simp] theorem State.retire_admission : (s.retire r).admission = s.admission := by simp [State.retire]
@[simp] theorem State.retire_admbad : (s.retire r).admbad = s.admbad := by simp [State.retire]
@[simp] theorem State.retire_admref : (s.retire r).admref = s.admref := by simp [State.retire]
@[simp] theorem State.retire_admreason : (s.retire r).admreason = s.admreason := by simp [State.retire]
@[simp] theorem State.retire_fwaddr : (s.retire r).fwaddr = s.fwaddr := by simp [State.retire]
@[simp] theorem State.retire_fwlen : (s.retire r).fwlen = s.fwlen := by simp [State.retire]
@[simp] theorem State.retire_boot : (s.retire r).boot = s.boot := by simp [State.retire]
@[simp] theorem State.retire_bootReason : (s.retire r).bootReason = s.bootReason := by simp [State.retire]
@[simp] theorem State.retire_windows : (s.retire r).windows = s.windows := by simp [State.retire]
@[simp] theorem State.retire_podix : (s.retire r).podix = s.podix := by simp [State.retire]
@[simp] theorem State.retire_bcnsrc : (s.retire r).bcnsrc = s.bcnsrc := by simp [State.retire]
@[simp] theorem State.retire_hbeacon : (s.retire r).hbeacon = s.hbeacon := by simp [State.retire]
@[simp] theorem State.retire_hbeaconu : (s.retire r).hbeaconu = s.hbeaconu := by simp [State.retire]
@[simp] theorem State.retire_pcap : (s.retire r).pcap = s.pcap := by simp [State.retire]
@[simp] theorem State.retire_pmeas : (s.retire r).pmeas = s.pmeas := by simp [State.retire]
@[simp] theorem State.retire_ptable : (s.retire r).ptable = s.ptable := by simp [State.retire]
@[simp] theorem State.retire_msix : (s.retire r).msix = s.msix := by simp [State.retire]
@[simp] theorem State.retire_msixTable : (s.retire r).msixTable = s.msixTable := by simp [State.retire]
@[simp] theorem State.retire_msixPending : (s.retire r).msixPending = s.msixPending := by simp [State.retire]
@[simp] theorem State.retire_hostRead : (s.retire r).hostRead = s.hostRead := by simp [State.retire]
@[simp] theorem State.retire_fwDigest : (s.retire r).fwDigest = s.fwDigest := by simp [State.retire]
@[simp] theorem State.retire_attested : (s.retire r).attested = s.attested := by simp [State.retire]
@[simp] theorem State.retire_images : (s.retire r).images = s.images := by simp [State.retire]
@[simp] theorem State.retire_nextImage : (s.retire r).nextImage = s.nextImage := by simp [State.retire]
@[simp] theorem State.retire_reply : (s.retire r).reply = s.reply := by simp [State.retire]
@[simp] theorem State.retire_delayed : (s.retire r).delayed = s.delayed := by simp [State.retire]
@[simp] theorem State.retire_fabric : (s.retire r).fabric = s.fabric := by simp [State.retire]
@[simp] theorem State.retire_beaconsOut : (s.retire r).beaconsOut = s.beaconsOut := by simp [State.retire]
@[simp] theorem State.retire_time : (s.retire r).time = s.time := by simp [State.retire]
@[simp] theorem State.retire_pace : (s.retire r).pace = s.pace := by simp [State.retire]
@[simp] theorem State.retire_turn : (s.retire r).turn = s.turn := by simp [State.retire]
@[simp] theorem State.retire_script : (s.retire r).script = s.script := by simp [State.retire]
@[simp] theorem State.retire_sweep : (s.retire r).sweep = s.sweep := by simp [State.retire]
@[simp] theorem State.retire_chooser : (s.retire r).chooser = s.chooser := by simp [State.retire]
@[simp] theorem State.retire_last : (s.retire r).last = .retired := rfl

/-! ### `goto` -/

@[simp] theorem State.goto_part (x : Word) : (s.goto r x).part = s.part := by simp [State.goto]
@[simp] theorem State.goto_mem (x : Word) : (s.goto r x).mem = s.mem := by simp [State.goto]
@[simp] theorem State.goto_bad (x : Word) : (s.goto r x).bad = s.bad := by simp [State.goto]
@[simp] theorem State.goto_tags (x : Word) : (s.goto r x).tags = s.tags := by simp [State.goto]
@[simp] theorem State.goto_stamped (x : Word) : (s.goto r x).stamped = s.stamped := by simp [State.goto]
@[simp] theorem State.goto_pages (x : Word) : (s.goto r x).pages = s.pages := by simp [State.goto]
@[simp] theorem State.goto_pending (x : Word) : (s.goto r x).pending = s.pending := by simp [State.goto]
@[simp] theorem State.goto_quads (x : Word) : (s.goto r x).quads = s.quads := by simp [State.goto]
@[simp] theorem State.goto_dies (x : Word) : (s.goto r x).dies = s.dies := by simp [State.goto]
@[simp] theorem State.goto_vaults (x : Word) : (s.goto r x).vaults = s.vaults := by simp [State.goto]
@[simp] theorem State.goto_domains (x : Word) : (s.goto r x).domains = s.domains := by simp [State.goto]
@[simp] theorem State.goto_launches (x : Word) : (s.goto r x).launches = s.launches := by simp [State.goto]
@[simp] theorem State.goto_nextLaunch (x : Word) : (s.goto r x).nextLaunch = s.nextLaunch := by simp [State.goto]
@[simp] theorem State.goto_nextSeq (x : Word) : (s.goto r x).nextSeq = s.nextSeq := by simp [State.goto]
@[simp] theorem State.goto_nextIssue (x : Word) : (s.goto r x).nextIssue = s.nextIssue := by simp [State.goto]
@[simp] theorem State.goto_admission (x : Word) : (s.goto r x).admission = s.admission := by simp [State.goto]
@[simp] theorem State.goto_admbad (x : Word) : (s.goto r x).admbad = s.admbad := by simp [State.goto]
@[simp] theorem State.goto_admref (x : Word) : (s.goto r x).admref = s.admref := by simp [State.goto]
@[simp] theorem State.goto_admreason (x : Word) : (s.goto r x).admreason = s.admreason := by simp [State.goto]
@[simp] theorem State.goto_fwaddr (x : Word) : (s.goto r x).fwaddr = s.fwaddr := by simp [State.goto]
@[simp] theorem State.goto_fwlen (x : Word) : (s.goto r x).fwlen = s.fwlen := by simp [State.goto]
@[simp] theorem State.goto_boot (x : Word) : (s.goto r x).boot = s.boot := by simp [State.goto]
@[simp] theorem State.goto_bootReason (x : Word) : (s.goto r x).bootReason = s.bootReason := by simp [State.goto]
@[simp] theorem State.goto_windows (x : Word) : (s.goto r x).windows = s.windows := by simp [State.goto]
@[simp] theorem State.goto_podix (x : Word) : (s.goto r x).podix = s.podix := by simp [State.goto]
@[simp] theorem State.goto_bcnsrc (x : Word) : (s.goto r x).bcnsrc = s.bcnsrc := by simp [State.goto]
@[simp] theorem State.goto_hbeacon (x : Word) : (s.goto r x).hbeacon = s.hbeacon := by simp [State.goto]
@[simp] theorem State.goto_hbeaconu (x : Word) : (s.goto r x).hbeaconu = s.hbeaconu := by simp [State.goto]
@[simp] theorem State.goto_pcap (x : Word) : (s.goto r x).pcap = s.pcap := by simp [State.goto]
@[simp] theorem State.goto_pmeas (x : Word) : (s.goto r x).pmeas = s.pmeas := by simp [State.goto]
@[simp] theorem State.goto_ptable (x : Word) : (s.goto r x).ptable = s.ptable := by simp [State.goto]
@[simp] theorem State.goto_msix (x : Word) : (s.goto r x).msix = s.msix := by simp [State.goto]
@[simp] theorem State.goto_msixTable (x : Word) : (s.goto r x).msixTable = s.msixTable := by simp [State.goto]
@[simp] theorem State.goto_msixPending (x : Word) : (s.goto r x).msixPending = s.msixPending := by simp [State.goto]
@[simp] theorem State.goto_hostRead (x : Word) : (s.goto r x).hostRead = s.hostRead := by simp [State.goto]
@[simp] theorem State.goto_fwDigest (x : Word) : (s.goto r x).fwDigest = s.fwDigest := by simp [State.goto]
@[simp] theorem State.goto_attested (x : Word) : (s.goto r x).attested = s.attested := by simp [State.goto]
@[simp] theorem State.goto_images (x : Word) : (s.goto r x).images = s.images := by simp [State.goto]
@[simp] theorem State.goto_nextImage (x : Word) : (s.goto r x).nextImage = s.nextImage := by simp [State.goto]
@[simp] theorem State.goto_reply (x : Word) : (s.goto r x).reply = s.reply := by simp [State.goto]
@[simp] theorem State.goto_delayed (x : Word) : (s.goto r x).delayed = s.delayed := by simp [State.goto]
@[simp] theorem State.goto_fabric (x : Word) : (s.goto r x).fabric = s.fabric := by simp [State.goto]
@[simp] theorem State.goto_beaconsOut (x : Word) : (s.goto r x).beaconsOut = s.beaconsOut := by simp [State.goto]
@[simp] theorem State.goto_time (x : Word) : (s.goto r x).time = s.time := by simp [State.goto]
@[simp] theorem State.goto_pace (x : Word) : (s.goto r x).pace = s.pace := by simp [State.goto]
@[simp] theorem State.goto_turn (x : Word) : (s.goto r x).turn = s.turn := by simp [State.goto]
@[simp] theorem State.goto_script (x : Word) : (s.goto r x).script = s.script := by simp [State.goto]
@[simp] theorem State.goto_sweep (x : Word) : (s.goto r x).sweep = s.sweep := by simp [State.goto]
@[simp] theorem State.goto_chooser (x : Word) : (s.goto r x).chooser = s.chooser := by simp [State.goto]
@[simp] theorem State.goto_last (x : Word) : (s.goto r x).last = .retired := rfl

/-! ### Units read back -/

@[simp] theorem State.core_setCore_same (x : Core) : (s.setCore c x).core c = x := by simp [State.core, State.setCore]

theorem State.core_setCore (x : Core) : (s.setCore c x).core c' = if c' = c then x else s.core c' := by
  simp [State.core, State.setCore, Tab.get_set]

@[simp] theorem State.core_modCore_same (f : Core → Core) : (s.modCore c f).core c = f (s.core c) := by
  simp [State.modCore]

theorem State.core_modCore (f : Core → Core) : (s.modCore c f).core c' = if c' = c then f (s.core c) else s.core c' := by
  simp [State.modCore, State.core_setCore]

theorem State.core_modCore_other (f : Core → Core) (h : c' ≠ c) : (s.modCore c f).core c' = s.core c' := by
  simp [State.core_modCore, h]

@[simp] theorem State.quad_modQuad_same (f : Quad → Quad) : (s.modQuad c f).quad c = f (s.quad c) := by simp [State.quad, State.modQuad]

theorem State.quad_modQuad (f : Quad → Quad) : (s.modQuad c f).quad c' = if c' = c then f (s.quad c) else s.quad c' := by
  simp [State.quad, State.modQuad, Tab.get_set]

@[simp] theorem State.die_modDie_same (f : Die → Die) : (s.modDie c f).die c = f (s.die c) := by simp [State.die, State.modDie]

theorem State.die_modDie (f : Die → Die) : (s.modDie c f).die c' = if c' = c then f (s.die c) else s.die c' := by
  simp [State.die, State.modDie, Tab.get_set]

@[simp] theorem State.vault_modVault_same (f : Vault → Vault) : (s.modVault c f).vault c = f (s.vault c) := by simp [State.vault, State.modVault]

theorem State.vault_modVault (f : Vault → Vault) : (s.modVault c f).vault c' = if c' = c then f (s.vault c) else s.vault c' := by
  simp [State.vault, State.modVault, Tab.get_set]

@[simp] theorem State.dom_modDom_same (f : Domain → Domain) : (s.modDom c f).dom c = f (s.dom c) := by simp [State.dom, State.modDom]

theorem State.dom_modDom (f : Domain → Domain) : (s.modDom c f).dom c' = if c' = c then f (s.dom c) else s.dom c' := by
  simp [State.dom, State.modDom, Tab.get_set]

@[simp] theorem State.quad_setCore (x : Core) : (s.setCore c x).quad c' = s.quad c' := rfl
@[simp] theorem State.die_setCore (x : Core) : (s.setCore c x).die c' = s.die c' := rfl
@[simp] theorem State.vault_setCore (x : Core) : (s.setCore c x).vault c' = s.vault c' := rfl
@[simp] theorem State.dom_setCore (x : Core) : (s.setCore c x).dom c' = s.dom c' := rfl
@[simp] theorem State.quad_modCore (f : Core → Core) : (s.modCore c f).quad c' = s.quad c' := rfl
@[simp] theorem State.die_modCore (f : Core → Core) : (s.modCore c f).die c' = s.die c' := rfl
@[simp] theorem State.vault_modCore (f : Core → Core) : (s.modCore c f).vault c' = s.vault c' := rfl
@[simp] theorem State.dom_modCore (f : Core → Core) : (s.modCore c f).dom c' = s.dom c' := rfl
@[simp] theorem State.core_modQuad (f : Quad → Quad) : (s.modQuad c f).core c' = s.core c' := rfl
@[simp] theorem State.die_modQuad (f : Quad → Quad) : (s.modQuad c f).die c' = s.die c' := rfl
@[simp] theorem State.vault_modQuad (f : Quad → Quad) : (s.modQuad c f).vault c' = s.vault c' := rfl
@[simp] theorem State.dom_modQuad (f : Quad → Quad) : (s.modQuad c f).dom c' = s.dom c' := rfl
@[simp] theorem State.core_modDie (f : Die → Die) : (s.modDie c f).core c' = s.core c' := rfl
@[simp] theorem State.quad_modDie (f : Die → Die) : (s.modDie c f).quad c' = s.quad c' := rfl
@[simp] theorem State.vault_modDie (f : Die → Die) : (s.modDie c f).vault c' = s.vault c' := rfl
@[simp] theorem State.dom_modDie (f : Die → Die) : (s.modDie c f).dom c' = s.dom c' := rfl
@[simp] theorem State.core_modVault (f : Vault → Vault) : (s.modVault c f).core c' = s.core c' := rfl
@[simp] theorem State.quad_modVault (f : Vault → Vault) : (s.modVault c f).quad c' = s.quad c' := rfl
@[simp] theorem State.die_modVault (f : Vault → Vault) : (s.modVault c f).die c' = s.die c' := rfl
@[simp] theorem State.dom_modVault (f : Vault → Vault) : (s.modVault c f).dom c' = s.dom c' := rfl
@[simp] theorem State.core_modDom (f : Domain → Domain) : (s.modDom c f).core c' = s.core c' := rfl
@[simp] theorem State.quad_modDom (f : Domain → Domain) : (s.modDom c f).quad c' = s.quad c' := rfl
@[simp] theorem State.die_modDom (f : Domain → Domain) : (s.modDom c f).die c' = s.die c' := rfl
@[simp] theorem State.vault_modDom (f : Domain → Domain) : (s.modDom c f).vault c' = s.vault c' := rfl
@[simp] theorem State.quad_setWg (x : Workgroup) : (s.setWg c k x).quad c' = s.quad c' := rfl
@[simp] theorem State.die_setWg (x : Workgroup) : (s.setWg c k x).die c' = s.die c' := rfl
@[simp] theorem State.vault_setWg (x : Workgroup) : (s.setWg c k x).vault c' = s.vault c' := rfl
@[simp] theorem State.dom_setWg (x : Workgroup) : (s.setWg c k x).dom c' = s.dom c' := rfl
@[simp] theorem State.quad_modWg (f : Workgroup → Workgroup) : (s.modWg c k f).quad c' = s.quad c' := rfl
@[simp] theorem State.die_modWg (f : Workgroup → Workgroup) : (s.modWg c k f).die c' = s.die c' := rfl
@[simp] theorem State.vault_modWg (f : Workgroup → Workgroup) : (s.modWg c k f).vault c' = s.vault c' := rfl
@[simp] theorem State.dom_modWg (f : Workgroup → Workgroup) : (s.modWg c k f).dom c' = s.dom c' := rfl
@[simp] theorem State.quad_modWgOf (f : Workgroup → Workgroup) : (s.modWgOf r f).quad c' = s.quad c' := rfl
@[simp] theorem State.die_modWgOf (f : Workgroup → Workgroup) : (s.modWgOf r f).die c' = s.die c' := rfl
@[simp] theorem State.vault_modWgOf (f : Workgroup → Workgroup) : (s.modWgOf r f).vault c' = s.vault c' := rfl
@[simp] theorem State.dom_modWgOf (f : Workgroup → Workgroup) : (s.modWgOf r f).dom c' = s.dom c' := rfl
@[simp] theorem State.quad_modWarpAt (f : Warp → Warp) : (s.modWarpAt c k k' f).quad c' = s.quad c' := rfl
@[simp] theorem State.die_modWarpAt (f : Warp → Warp) : (s.modWarpAt c k k' f).die c' = s.die c' := rfl
@[simp] theorem State.vault_modWarpAt (f : Warp → Warp) : (s.modWarpAt c k k' f).vault c' = s.vault c' := rfl
@[simp] theorem State.dom_modWarpAt (f : Warp → Warp) : (s.modWarpAt c k k' f).dom c' = s.dom c' := rfl
@[simp] theorem State.quad_modSlice (f : Slice → Slice) : (s.modSlice r f).quad c' = s.quad c' := rfl
@[simp] theorem State.die_modSlice (f : Slice → Slice) : (s.modSlice r f).die c' = s.die c' := rfl
@[simp] theorem State.vault_modSlice (f : Slice → Slice) : (s.modSlice r f).vault c' = s.vault c' := rfl
@[simp] theorem State.dom_modSlice (f : Slice → Slice) : (s.modSlice r f).dom c' = s.dom c' := rfl
@[simp] theorem State.core_physWrite (x : Byte) : (s.physWrite c x).core c' = s.core c' := rfl
@[simp] theorem State.quad_physWrite (x : Byte) : (s.physWrite c x).quad c' = s.quad c' := rfl
@[simp] theorem State.die_physWrite (x : Byte) : (s.physWrite c x).die c' = s.die c' := rfl
@[simp] theorem State.vault_physWrite (x : Byte) : (s.physWrite c x).vault c' = s.vault c' := rfl
@[simp] theorem State.dom_physWrite (x : Byte) : (s.physWrite c x).dom c' = s.dom c' := rfl
@[simp] theorem State.core_raise  : (s.raise c k).core c' = s.core c' := by unfold State.raise; split <;> rfl
@[simp] theorem State.quad_raise  : (s.raise c k).quad c' = s.quad c' := by unfold State.raise; split <;> rfl
@[simp] theorem State.die_raise  : (s.raise c k).die c' = s.die c' := by unfold State.raise; split <;> rfl
@[simp] theorem State.vault_raise  : (s.raise c k).vault c' = s.vault c' := by unfold State.raise; split <;> rfl
@[simp] theorem State.dom_raise  : (s.raise c k).dom c' = s.dom c' := by unfold State.raise; split <;> rfl
@[simp] theorem State.quad_pop  : (s.pop r c).quad c' = s.quad c' := rfl
@[simp] theorem State.die_pop  : (s.pop r c).die c' = s.die c' := rfl
@[simp] theorem State.vault_pop  : (s.pop r c).vault c' = s.vault c' := rfl
@[simp] theorem State.dom_pop  : (s.pop r c).dom c' = s.dom c' := rfl
@[simp] theorem State.quad_modWarp (f : Warp → Warp) : (s.modWarp r f).quad c' = s.quad c' := by simp [State.quad]
@[simp] theorem State.die_modWarp (f : Warp → Warp) : (s.modWarp r f).die c' = s.die c' := by simp [State.die]
@[simp] theorem State.vault_modWarp (f : Warp → Warp) : (s.modWarp r f).vault c' = s.vault c' := by simp [State.vault]
@[simp] theorem State.dom_modWarp (f : Warp → Warp) : (s.modWarp r f).dom c' = s.dom c' := by simp [State.dom]
@[simp] theorem State.quad_setPc (x : Word) : (s.setPc r x).quad c' = s.quad c' := by simp [State.quad]
@[simp] theorem State.die_setPc (x : Word) : (s.setPc r x).die c' = s.die c' := by simp [State.die]
@[simp] theorem State.vault_setPc (x : Word) : (s.setPc r x).vault c' = s.vault c' := by simp [State.vault]
@[simp] theorem State.dom_setPc (x : Word) : (s.setPc r x).dom c' = s.dom c' := by simp [State.dom]
@[simp] theorem State.quad_setPfx (x : Option (BitVec 24)) : (s.setPfx r x).quad c' = s.quad c' := by simp [State.quad]
@[simp] theorem State.die_setPfx (x : Option (BitVec 24)) : (s.setPfx r x).die c' = s.die c' := by simp [State.die]
@[simp] theorem State.vault_setPfx (x : Option (BitVec 24)) : (s.setPfx r x).vault c' = s.vault c' := by simp [State.vault]
@[simp] theorem State.dom_setPfx (x : Option (BitVec 24)) : (s.setPfx r x).dom c' = s.dom c' := by simp [State.dom]
@[simp] theorem State.quad_setG (x : Word) : (s.setG r c x).quad c' = s.quad c' := by simp [State.quad]
@[simp] theorem State.die_setG (x : Word) : (s.setG r c x).die c' = s.die c' := by simp [State.die]
@[simp] theorem State.vault_setG (x : Word) : (s.setG r c x).vault c' = s.vault c' := by simp [State.vault]
@[simp] theorem State.dom_setG (x : Word) : (s.setG r c x).dom c' = s.dom c' := by simp [State.dom]
@[simp] theorem State.quad_setV (x : Row) : (s.setV r c x).quad c' = s.quad c' := by simp [State.quad]
@[simp] theorem State.die_setV (x : Row) : (s.setV r c x).die c' = s.die c' := by simp [State.die]
@[simp] theorem State.vault_setV (x : Row) : (s.setV r c x).vault c' = s.vault c' := by simp [State.vault]
@[simp] theorem State.dom_setV (x : Row) : (s.setV r c x).dom c' = s.dom c' := by simp [State.dom]
@[simp] theorem State.quad_putPair (x : DWord) : (s.putPair r c x).quad c' = s.quad c' := by simp [State.quad]
@[simp] theorem State.die_putPair (x : DWord) : (s.putPair r c x).die c' = s.die c' := by simp [State.die]
@[simp] theorem State.vault_putPair (x : DWord) : (s.putPair r c x).vault c' = s.vault c' := by simp [State.vault]
@[simp] theorem State.dom_putPair (x : DWord) : (s.putPair r c x).dom c' = s.dom c' := by simp [State.dom]
@[simp] theorem State.quad_retire  : (s.retire r).quad c' = s.quad c' := by simp [State.quad]
@[simp] theorem State.die_retire  : (s.retire r).die c' = s.die c' := by simp [State.die]
@[simp] theorem State.vault_retire  : (s.retire r).vault c' = s.vault c' := by simp [State.vault]
@[simp] theorem State.dom_retire  : (s.retire r).dom c' = s.dom c' := by simp [State.dom]
@[simp] theorem State.quad_goto (x : Word) : (s.goto r x).quad c' = s.quad c' := by simp [State.quad]
@[simp] theorem State.die_goto (x : Word) : (s.goto r x).die c' = s.die c' := by simp [State.die]
@[simp] theorem State.vault_goto (x : Word) : (s.goto r x).vault c' = s.vault c' := by simp [State.vault]
@[simp] theorem State.dom_goto (x : Word) : (s.goto r x).dom c' = s.dom c' := by simp [State.dom]

/-! ### Workgroups and warps read back -/

@[simp] theorem State.wg_setWg_same (x : Workgroup) : (s.setWg c k x).wg c k = x := by simp [State.wg, State.setWg]

theorem State.wg_setWg (x : Workgroup) : (s.setWg c k x).wg c' k' = if c' = c ∧ k' = k then x else s.wg c' k' := by
  by_cases hc : c' = c
  · subst hc; simp [State.wg, State.setWg, Tab.get_set]
  · simp [State.wg, State.setWg, State.core_modCore, hc]

@[simp] theorem State.wg_modWg_same (f : Workgroup → Workgroup) : (s.modWg c k f).wg c k = f (s.wg c k) := by simp [State.modWg]

theorem State.wg_modWg (f : Workgroup → Workgroup) :
    (s.modWg c k f).wg c' k' = if c' = c ∧ k' = k then f (s.wg c k) else s.wg c' k' := by simp [State.modWg, State.wg_setWg]

@[simp] theorem State.wgOf_modWgOf (f : Workgroup → Workgroup) : (s.modWgOf r f).wgOf r = f (s.wgOf r) := by
  simp [State.wgOf, State.modWgOf]

@[simp] theorem State.wgOf_modSlice (f : Slice → Slice) :
    (s.modSlice r f).wgOf r = { s.wgOf r with slice := f (s.wgOf r).slice } := by simp [State.modSlice]

@[simp] theorem Workgroup.warp_setWarp_same (g : Workgroup) (x : Warp) : (g.setWarp k x).warp k = x := by
  simp [Workgroup.warp, Workgroup.setWarp]

theorem Workgroup.warp_setWarp (g : Workgroup) (x : Warp) : (g.setWarp k x).warp k' = if k' = k then x else g.warp k' := by
  simp [Workgroup.warp, Workgroup.setWarp, Tab.get_set]

@[simp] theorem Workgroup.setWarp_present (g : Workgroup) (x : Warp) : (g.setWarp k x).present = g.present := rfl
@[simp] theorem Workgroup.setWarp_dom (g : Workgroup) (x : Warp) : (g.setWarp k x).dom = g.dom := rfl
@[simp] theorem Workgroup.setWarp_launch (g : Workgroup) (x : Warp) : (g.setWarp k x).launch = g.launch := rfl
@[simp] theorem Workgroup.setWarp_index (g : Workgroup) (x : Warp) : (g.setWarp k x).index = g.index := rfl
@[simp] theorem Workgroup.setWarp_prio (g : Workgroup) (x : Warp) : (g.setWarp k x).prio = g.prio := rfl
@[simp] theorem Workgroup.setWarp_det (g : Workgroup) (x : Warp) : (g.setWarp k x).det = g.det := rfl
@[simp] theorem Workgroup.setWarp_log (g : Workgroup) (x : Warp) : (g.setWarp k x).log = g.log := rfl
@[simp] theorem Workgroup.setWarp_seq (g : Workgroup) (x : Warp) : (g.setWarp k x).seq = g.seq := rfl
@[simp] theorem Workgroup.setWarp_warpsN (g : Workgroup) (x : Warp) : (g.setWarp k x).warpsN = g.warpsN := rfl
@[simp] theorem Workgroup.setWarp_gran (g : Workgroup) (x : Warp) : (g.setWarp k x).gran = g.gran := rfl
@[simp] theorem Workgroup.setWarp_inhlo (g : Workgroup) (x : Warp) : (g.setWarp k x).inhlo = g.inhlo := rfl
@[simp] theorem Workgroup.setWarp_inhn (g : Workgroup) (x : Warp) : (g.setWarp k x).inhn = g.inhn := rfl
@[simp] theorem Workgroup.setWarp_granules (g : Workgroup) (x : Warp) : (g.setWarp k x).granules = g.granules := rfl
@[simp] theorem Workgroup.setWarp_qsram (g : Workgroup) (x : Warp) : (g.setWarp k x).qsram = g.qsram := rfl
@[simp] theorem Workgroup.setWarp_setheap (g : Workgroup) (x : Warp) : (g.setWarp k x).setheap = g.setheap := rfl
@[simp] theorem Workgroup.setWarp_epoch (g : Workgroup) (x : Warp) : (g.setWarp k x).epoch = g.epoch := rfl
@[simp] theorem Workgroup.setWarp_tags (g : Workgroup) (x : Warp) : (g.setWarp k x).tags = g.tags := rfl
@[simp] theorem Workgroup.setWarp_heapUsed (g : Workgroup) (x : Warp) : (g.setWarp k x).heapUsed = g.heapUsed := rfl
@[simp] theorem Workgroup.setWarp_queues (g : Workgroup) (x : Warp) : (g.setWarp k x).queues = g.queues := rfl
@[simp] theorem Workgroup.setWarp_windows (g : Workgroup) (x : Warp) : (g.setWarp k x).windows = g.windows := rfl
@[simp] theorem Workgroup.setWarp_slice (g : Workgroup) (x : Warp) : (g.setWarp k x).slice = g.slice := rfl
@[simp] theorem Workgroup.setWarp_partials (g : Workgroup) (x : Warp) : (g.setWarp k x).partials = g.partials := rfl
@[simp] theorem Workgroup.setWarp_redEpoch (g : Workgroup) (x : Warp) : (g.setWarp k x).redEpoch = g.redEpoch := rfl
@[simp] theorem Workgroup.setWarp_holds (g : Workgroup) (x : Warp) : (g.setWarp k x).holds = g.holds := rfl
@[simp] theorem Workgroup.setWarp_spawned (g : Workgroup) (x : Warp) : (g.setWarp k x).spawned = g.spawned := rfl
@[simp] theorem Workgroup.setWarp_savedArray (g : Workgroup) (x : Warp) : (g.setWarp k x).savedArray = g.savedArray := rfl
@[simp] theorem Workgroup.setQueue_present (g : Workgroup) (x : Queue) : (g.setQueue k x).present = g.present := rfl
@[simp] theorem Workgroup.setQueue_dom (g : Workgroup) (x : Queue) : (g.setQueue k x).dom = g.dom := rfl
@[simp] theorem Workgroup.setQueue_launch (g : Workgroup) (x : Queue) : (g.setQueue k x).launch = g.launch := rfl
@[simp] theorem Workgroup.setQueue_index (g : Workgroup) (x : Queue) : (g.setQueue k x).index = g.index := rfl
@[simp] theorem Workgroup.setQueue_prio (g : Workgroup) (x : Queue) : (g.setQueue k x).prio = g.prio := rfl
@[simp] theorem Workgroup.setQueue_det (g : Workgroup) (x : Queue) : (g.setQueue k x).det = g.det := rfl
@[simp] theorem Workgroup.setQueue_log (g : Workgroup) (x : Queue) : (g.setQueue k x).log = g.log := rfl
@[simp] theorem Workgroup.setQueue_seq (g : Workgroup) (x : Queue) : (g.setQueue k x).seq = g.seq := rfl
@[simp] theorem Workgroup.setQueue_warpsN (g : Workgroup) (x : Queue) : (g.setQueue k x).warpsN = g.warpsN := rfl
@[simp] theorem Workgroup.setQueue_gran (g : Workgroup) (x : Queue) : (g.setQueue k x).gran = g.gran := rfl
@[simp] theorem Workgroup.setQueue_inhlo (g : Workgroup) (x : Queue) : (g.setQueue k x).inhlo = g.inhlo := rfl
@[simp] theorem Workgroup.setQueue_inhn (g : Workgroup) (x : Queue) : (g.setQueue k x).inhn = g.inhn := rfl
@[simp] theorem Workgroup.setQueue_granules (g : Workgroup) (x : Queue) : (g.setQueue k x).granules = g.granules := rfl
@[simp] theorem Workgroup.setQueue_qsram (g : Workgroup) (x : Queue) : (g.setQueue k x).qsram = g.qsram := rfl
@[simp] theorem Workgroup.setQueue_setheap (g : Workgroup) (x : Queue) : (g.setQueue k x).setheap = g.setheap := rfl
@[simp] theorem Workgroup.setQueue_epoch (g : Workgroup) (x : Queue) : (g.setQueue k x).epoch = g.epoch := rfl
@[simp] theorem Workgroup.setQueue_tags (g : Workgroup) (x : Queue) : (g.setQueue k x).tags = g.tags := rfl
@[simp] theorem Workgroup.setQueue_heapUsed (g : Workgroup) (x : Queue) : (g.setQueue k x).heapUsed = g.heapUsed := rfl
@[simp] theorem Workgroup.setQueue_windows (g : Workgroup) (x : Queue) : (g.setQueue k x).windows = g.windows := rfl
@[simp] theorem Workgroup.setQueue_warps (g : Workgroup) (x : Queue) : (g.setQueue k x).warps = g.warps := rfl
@[simp] theorem Workgroup.setQueue_slice (g : Workgroup) (x : Queue) : (g.setQueue k x).slice = g.slice := rfl
@[simp] theorem Workgroup.setQueue_partials (g : Workgroup) (x : Queue) : (g.setQueue k x).partials = g.partials := rfl
@[simp] theorem Workgroup.setQueue_redEpoch (g : Workgroup) (x : Queue) : (g.setQueue k x).redEpoch = g.redEpoch := rfl
@[simp] theorem Workgroup.setQueue_holds (g : Workgroup) (x : Queue) : (g.setQueue k x).holds = g.holds := rfl
@[simp] theorem Workgroup.setQueue_spawned (g : Workgroup) (x : Queue) : (g.setQueue k x).spawned = g.spawned := rfl
@[simp] theorem Workgroup.setQueue_savedArray (g : Workgroup) (x : Queue) : (g.setQueue k x).savedArray = g.savedArray := rfl

@[simp] theorem Workgroup.queue_setQueue_same (g : Workgroup) (x : Queue) : (g.setQueue k x).queue k = x := by
  simp [Workgroup.queue, Workgroup.setQueue]

theorem Workgroup.queue_setQueue (g : Workgroup) (x : Queue) : (g.setQueue k x).queue k' = if k' = k then x else g.queue k' := by
  simp [Workgroup.queue, Workgroup.setQueue, Tab.get_set]

@[simp] theorem Workgroup.warp_setQueue (g : Workgroup) (x : Queue) : (g.setQueue k x).warp k' = g.warp k' := rfl

@[simp] theorem Workgroup.queue_setWarp (g : Workgroup) (x : Warp) : (g.setWarp k x).queue k' = g.queue k' := rfl

@[simp] theorem State.warpAt_modWarpAt_same (w : Nat) (f : Warp → Warp) : (s.modWarpAt c k w f).warpAt c k w = f (s.warpAt c k w) := by
  simp [State.warpAt, State.modWarpAt]

theorem State.warpAt_modWarpAt (w w' : Nat) (f : Warp → Warp) :
    (s.modWarpAt c k w f).warpAt c' k' w' = if c' = c ∧ k' = k ∧ w' = w then f (s.warpAt c k w) else s.warpAt c' k' w' := by
  by_cases h : c' = c ∧ k' = k
  · obtain ⟨rfl, rfl⟩ := h
    by_cases hw : w' = w <;> simp [State.warpAt, State.modWarpAt, Workgroup.warp_setWarp, hw]
  · have h3 : ¬(c' = c ∧ k' = k ∧ w' = w) := fun x => h ⟨x.1, x.2.1⟩
    simp [State.warpAt, State.modWarpAt, State.wg_modWg, h, h3]

/-- The warp of a stream after it was changed. -/
theorem State.warp_modWarp (f : Warp → Warp) (h : r.isSlice = false) : (s.modWarp r f).warp r = f (s.warp r) := by
  cases r with
  | mk c k who => cases who with
    | warp w => simp [State.warp, State.modWarp]
    | slice => simp [Ref.isSlice] at h

/-- The warps of other streams are untouched. -/
theorem State.warp_modWarp_other (f : Warp → Warp) (h : r' ≠ r) : (s.modWarp r f).warp r' = s.warp r' := by
  obtain ⟨c, k, w⟩ := r
  obtain ⟨c', k', w'⟩ := r'
  cases w with
  | slice => rfl
  | warp w => cases w' with
    | slice => rfl
    | warp w' =>
      simp only [State.warp, State.modWarp, State.warpAt_modWarpAt]
      rw [if_neg]
      rintro ⟨rfl, rfl, rfl⟩
      exact h rfl

/-- A stream's workgroup after one of its warps was changed. -/
theorem State.wgOf_modWarp (f : Warp → Warp) :
    (s.modWarp r f).wgOf r = match r.who with
      | .warp w => (s.wgOf r).setWarp w (f (s.warp r))
      | .slice => s.wgOf r := by
  obtain ⟨c, k, w⟩ := r
  cases w <;> simp [State.modWarp, State.wgOf, State.modWarpAt, State.warp, State.warpAt]

end Sys2Proof.Machine
end

