-- ==== Sys2Proof/Laws/Stream.lean ====
section
/-! SUPPORT. What the shared operations on operands can do: the frames of register, queue and program counter updates, and how an
instruction ends. -/

namespace Sys2Proof.Machine

variable {s t u : State} {r : Ref}

/-! ### How an instruction ends -/

theorem State.issues_iff : s.issues r ↔ ∃ x xs, s.turn = x :: xs ∧ x.ref = r := by
  unfold State.issues
  cases h : s.turn with
  | nil => simp
  | cons x xs => simp

/-- What an instruction of the selected stream leads to. -/
theorem issue_eq (h : s.issues r) (k : State → Ref → Exc State) : issue s k = .next (s.conclude r (s.outcome r k)) := by
  obtain ⟨x, xs, h1, rfl⟩ := State.issues_iff.mp h
  simp [issue, h1]

/-- An instruction with an effect has it. -/
theorem issue_ok (h : s.issues r) {k : State → Ref → Exc State} (h1 : k s r = .ok t) : issue s k = .next t := by
  simp [issue_eq h, State.outcome, h1, State.conclude]

/-- An instruction that is not ready stalls. -/
theorem issue_stalls (h : s.issues r) {k : State → Ref → Exc State} (h1 : k s r = .error .stall) : issue s k = .next { s with last := .stalled } := by
  simp [issue_eq h, State.outcome, h1, State.conclude]

/-- A trap that names no bad place is taken as it is found. -/
theorem issue_traps (h : s.issues r) {k : State → Ref → Exc State} {x : Trap} (h1 : k s r = .error (.trap x)) (hx : x.sites = []) :
    issue s k = .next (s.takeTrap r x) := by
  simp [issue_eq h, State.outcome, h1, State.conclude, State.wholeTrap, hx]

/-- An instruction of a selected stream always answers a next state. -/
theorem issue_goes (h : s.turn ≠ []) (k : State → Ref → Exc State) : Goes (issue s k) := by
  unfold issue
  split
  · contradiction
  · exact ⟨_, rfl⟩

theorem issueSeq_ok (h : s.issues r) (hf : s.fallsThrough r) (k : State → Ref → Exc State) (h1 : k s r = .ok t) :
    issueSeq s k = .next (t.retire r) := by
  unfold State.fallsThrough at hf
  exact issue_ok h (by simp [need, hf, h1, bind, Except.bind, pure, Except.pure])

/-! ### Frames -/

theorem StreamOnly.refl (s : State) (r : Ref) : StreamOnly s s r := by
  constructor <;> intros <;> rfl

theorem StreamOnly.trans (a : StreamOnly s t r) (b : StreamOnly t u r) : StreamOnly s u r where
  machine := by have h1 := a.machine; have h2 := b.machine; rw [h1] at h2; exact h2
  bytes := fun pa => (b.bytes pa).trans (a.bytes pa)
  domains := fun d => by have h1 := a.domains d; have h2 := b.domains d; rw [h1] at h2; exact h2
  counts := fun d k hk => (b.counts d k hk).trans (a.counts d k hk)
  times := fun d hd => by
    have h1 := a.times d hd
    have hw : t.domOf r = s.domOf r := by
      have := a.groups r.core r.set
      simp only [State.domOf, State.wgOf]; rw [this]
    exact (b.times d (by rw [hw]; exact hd)).trans h1
  cores := fun c => by have h1 := a.cores c; have h2 := b.cores c; rw [h1] at h2; exact h2
  groups := fun c k => by have h1 := a.groups c k; have h2 := b.groups c k; rw [h1] at h2; exact h2
  queues := fun c k h => (b.queues c k h).trans (a.queues c k h)
  warps := fun r' h => (b.warps r' h).trans (a.warps r' h)
  slices := fun c k h => (b.slices c k h).trans (a.slices c k h)
  own := b.own.trans a.own
  ownSlice := b.ownSlice.trans a.ownSlice

/-- A change of the stream's own workgroup that only touches queue registers. -/
theorem StreamOnly.ofGroup (f : Workgroup → Workgroup) (q : Tab Queue) (h : f (s.wgOf r) = { s.wgOf r with queues := q }) :
    StreamOnly s (s.modWgOf r f) r where
  machine := rfl
  bytes := fun _ => rfl
  domains := fun _ => rfl
  counts := fun _ _ _ => rfl
  times := fun _ _ => rfl
  cores := fun c => by
    by_cases hc : c = r.core
    · subst hc; simp [State.modWgOf, State.modWg, State.setWg]
    · simp [State.modWgOf, State.modWg, State.setWg, State.core_modCore, hc]
  groups := fun c k => by
    by_cases hc : c = r.core ∧ k = r.set
    · obtain ⟨rfl, rfl⟩ := hc
      have := State.wgOf_modWgOf s r f
      simp only [State.wgOf] at this h ⊢; rw [this, h]
    · simp [State.modWgOf, State.wg_modWg, hc]
  queues := fun c k hc => by simp [State.modWgOf, State.wg_modWg, hc]
  warps := fun r' hr => by
    unfold State.warp
    cases r'.who with
    | slice => rfl
    | warp w =>
      simp only [State.warpAt, State.modWgOf, State.wg_modWg]
      split
      · rename_i hc; obtain ⟨h1, h2⟩ := hc; rw [h1, h2]; simp only [State.wgOf] at h; rw [h]; rfl
      · rfl
  slices := fun c k hc => by
    simp only [State.modWgOf, State.wg_modWg]
    split
    · rename_i hc; obtain ⟨h1, h2⟩ := hc; rw [h1, h2]; simp only [State.wgOf] at h; rw [h]
    · rfl
  own := by
    unfold State.warp
    cases r.who with
    | slice => rfl
    | warp w => simp only [State.warpAt, State.modWgOf, State.wg_modWg_same]; simp only [State.wgOf] at h; rw [h]; rfl
  ownSlice := by simp only [State.wgOf_modWgOf]; rw [h]

/-- A change of the stream's own warp that only touches registers and the program counter. -/
theorem StreamOnly.ofWarp (f : Warp → Warp) (h : ∀ w, (f w).rest = w.rest) : StreamOnly s (s.modWarp r f) r := by
  obtain ⟨c0, k0, w0⟩ := r
  cases w0 with
  | slice => exact StreamOnly.refl s _
  | warp w0 =>
    refine ⟨rfl, fun _ => rfl, fun _ => rfl, fun _ _ _ => rfl, fun _ _ => rfl, fun c => ?_, fun c k => ?_, fun c k hc => ?_, fun r' hr => ?_,
      fun c k hc => ?_, ?_, ?_⟩
    · by_cases hc : c = c0
      · subst hc; simp [State.modWarp, State.modWarpAt, State.modWg, State.setWg]
      · simp [State.modWarp, State.modWarpAt, State.modWg, State.setWg, State.core_modCore, hc]
    · simp only [State.modWarp, State.modWarpAt, State.wg_modWg]
      split
      · rename_i hc; obtain ⟨rfl, rfl⟩ := hc; rfl
      · rfl
    · simp [State.modWarp, State.modWarpAt, State.wg_modWg, hc]
    · exact State.warp_modWarp_other s _ r' f hr
    · simp only [State.modWarp, State.modWarpAt, State.wg_modWg]
      split
      · rename_i hc; obtain ⟨rfl, rfl⟩ := hc; rfl
      · rfl
    · rw [State.warp_modWarp s _ f rfl]; exact h _
    · simp [State.modWarp, State.modWarpAt, State.wgOf]

/-- A change of an access slice that only touches registers and the program counter. -/
theorem StreamOnly.ofSlice (f : Slice → Slice) (hr : r.isSlice = true) (h : ∀ x, (f x).rest = x.rest) :
    StreamOnly s (s.modSlice r f) r where
  machine := rfl
  bytes := fun _ => rfl
  domains := fun _ => rfl
  counts := fun _ _ _ => rfl
  times := fun _ _ => rfl
  cores := fun c => by
    by_cases hc : c = r.core
    · subst hc; simp [State.modSlice, State.modWgOf, State.modWg, State.setWg]
    · simp [State.modSlice, State.modWgOf, State.modWg, State.setWg, State.core_modCore, hc]
  groups := fun c k => by
    simp only [State.modSlice, State.modWgOf, State.wg_modWg]
    split
    · rename_i hc; obtain ⟨rfl, rfl⟩ := hc; rfl
    · rfl
  queues := fun c k hc => by simp [State.modSlice, State.modWgOf, State.wg_modWg, hc]
  warps := fun r' _ => by
    unfold State.warp
    cases r'.who with
    | slice => rfl
    | warp w =>
      simp only [State.warpAt, State.modSlice, State.modWgOf, State.wg_modWg]
      split
      · rename_i hc; obtain ⟨h1, h2⟩ := hc; rw [h1, h2]; rfl
      · rfl
  slices := fun c k hc => by
    have : ¬(c = r.core ∧ k = r.set) := fun x => hc ⟨x.1, x.2, hr⟩
    simp [State.modSlice, State.modWgOf, State.wg_modWg, this]
  own := by
    obtain ⟨c0, k0, w0⟩ := r
    cases w0 with
    | slice => rfl
    | warp w => simp [Ref.isSlice] at hr
  ownSlice := by rw [State.wgOf_modSlice]; exact h _

/-- A returned guest time. -/
theorem StreamOnly.ofGuest : StreamOnly s (s.noteGuest (s.domOf r)) r where
  machine := rfl
  bytes := fun _ => rfl
  domains := fun d => by
    unfold State.noteGuest
    rw [State.dom_modDom]
    split
    · subst_vars; rfl
    · rfl
  counts := fun d k _ => by
    unfold State.noteGuest
    rw [State.dom_modDom]
    split
    · subst_vars; rfl
    · rfl
  times := fun d hd => by
    unfold State.noteGuest
    rw [State.dom_modDom, if_neg hd]
  cores := fun _ => rfl
  groups := fun _ _ => rfl
  queues := fun _ _ _ => rfl
  warps := fun _ _ => rfl
  slices := fun _ _ _ => rfl
  own := rfl
  ownSlice := rfl

/-- Counter `k` of every domain after counter 6 of one was raised (R382). -/
theorem State.counter_count6 (s : State) (d n e k : Nat) : ((s.count d 6 n).dom e).counter k =
    if e = d ∧ k = 6 ∧ (s.dom d).stop = false then (s.dom d).counter 6 + BitVec.ofNat 64 n else (s.dom e).counter k := by
  unfold State.count
  rw [State.dom_modDom]
  by_cases he : e = d
  · subst he
    cases hs : (s.dom e).stop
    · by_cases hk : k = 6
      · subst hk; simp [Domain.counter]
      · simp [Domain.counter, Tab.get_set, hk]
    · simp
  · simp [he]

/-- An expansion counted. -/
theorem StreamOnly.ofCount (n : Nat) : StreamOnly s (s.count (s.domOf r) 6 n) r where
  machine := rfl
  bytes := fun _ => rfl
  domains := fun d => by
    unfold State.count
    rw [State.dom_modDom]
    split
    · subst_vars; dsimp only; split <;> rfl
    · rfl
  counts := fun d k hk => by rw [State.counter_count6, if_neg fun h => hk h.2.1]
  times := fun d hd => by unfold State.count; rw [State.dom_modDom, if_neg hd]
  cores := fun _ => rfl
  groups := fun _ _ => rfl
  queues := fun _ _ _ => rfl
  warps := fun _ _ => rfl
  slices := fun _ _ _ => rfl
  own := rfl
  ownSlice := rfl

/-- The last field is no part of the frame. -/
theorem StreamOnly.ofLast (a : StreamOnly s t r) (x : Last) : StreamOnly s { t with last := x } r where
  machine := by have h := a.machine; rw [h]
  bytes := a.bytes
  domains := a.domains
  counts := a.counts
  times := a.times
  cores := a.cores
  groups := a.groups
  queues := a.queues
  warps := a.warps
  slices := a.slices
  own := a.own
  ownSlice := a.ownSlice

theorem StreamOnly.setPc (x : Word) : StreamOnly s (s.setPc r x) r := by
  unfold State.setPc
  split
  · exact StreamOnly.ofWarp _ fun _ => rfl
  · exact StreamOnly.ofSlice _ (by simp [Ref.isSlice, *]) fun _ => rfl

theorem StreamOnly.setG (n : Nat) (x : Word) : StreamOnly s (s.setG r n x) r := by
  unfold State.setG
  split
  · exact StreamOnly.ofWarp _ fun _ => rfl
  · exact StreamOnly.ofSlice _ (by simp [Ref.isSlice, *]) fun _ => rfl

theorem StreamOnly.setV (n : Nat) (x : Row) : StreamOnly s (s.setV r n x) r := StreamOnly.ofWarp _ fun _ => rfl

/-- What a write in the lanes of a mask does to a lane register, counter 6 set aside. -/
theorem State.mergeV_eq (n : Nat) (m : Lanes) (row : Row) : s.mergeV r n m row =
    ((if expands m ((s.warp r).vreg n) then s.count (s.domOf r) 6 1 else s).modWarp r fun w =>
      { w with bad := w.bad.filter fun b => !(b.isV n && m.getLsbD b.lane) }).setV r n (rowMerge m ((s.warp r).vreg n) row) := rfl

theorem StreamOnly.mergeV (n : Nat) (m : Lanes) (row : Row) : StreamOnly s (s.mergeV r n m row) r := by
  rw [State.mergeV_eq]
  refine StreamOnly.trans ?_ (StreamOnly.setV _ _)
  refine StreamOnly.trans ?_ (StreamOnly.ofWarp _ fun _ => rfl)
  split
  · exact StreamOnly.ofCount 1
  · exact StreamOnly.refl s r

theorem State.warp_count (d k n : Nat) (r' : Ref) : (s.count d k n).warp r' = s.warp r' := by
  unfold State.warp; split <;> rfl

/-- The warp after a write in the lanes of a mask. -/
theorem State.warp_mergeV (n : Nat) (m : Lanes) (row : Row) (hr : r.isSlice = false) : (s.mergeV r n m row).warp r =
    { s.warp r with
      v := Tab.set rowZero (s.warp r).v n (rowMerge m ((s.warp r).vreg n) row)
      bad := (s.warp r).bad.filter fun b => !(b.isV n && m.getLsbD b.lane) } := by
  rw [State.mergeV_eq]
  unfold State.setV
  rw [State.warp_modWarp _ _ _ hr, State.warp_modWarp _ _ _ hr]
  split <;> simp [State.warp_count]

/-- It leaves every queue register alone. -/
theorem State.queue_mergeV (n : Nat) (m : Lanes) (row : Row) (q : Nat) :
    ((s.mergeV r n m row).wgOf r).queue q = (s.wgOf r).queue q := by
  rw [State.mergeV_eq]
  unfold State.setV
  rw [State.wgOf_modWarp]
  have h : ∀ u : State, u.wgOf r = s.wgOf r → ∀ f, ((u.modWarp r f).wgOf r).queue q = (s.wgOf r).queue q := by
    intro u hu f
    rw [State.wgOf_modWarp, ← hu]
    split <;> rfl
  split
  · rw [Workgroup.queue_setWarp]; exact h _ (by split <;> rfl) _
  · exact h _ (by split <;> rfl) _

/-- Counter 6 of the stream's domain after it (R24, R382). -/
theorem State.counter_mergeV (n : Nat) (m : Lanes) (row : Row) : ((s.mergeV r n m row).dom (s.domOf r)).counter 6 =
    (s.dom (s.domOf r)).counter 6 + (if expands m ((s.warp r).vreg n) && !(s.dom (s.domOf r)).stop then 1 else 0) := by
  rw [State.mergeV_eq, State.dom_setV, State.dom_modWarp]
  split
  · rename_i h; rw [State.counter_count6, h]; cases (s.dom (s.domOf r)).stop <;> simp
  · rename_i h; simp [h]

theorem StreamOnly.retire (a : StreamOnly s t r) : StreamOnly s (t.retire r) r :=
  StreamOnly.ofLast (a.trans (StreamOnly.setPc _)) _

theorem StreamOnly.goto (a : StreamOnly s t r) (x : Word) : StreamOnly s (t.goto r x) r :=
  StreamOnly.ofLast (a.trans (StreamOnly.setPc _)) _

theorem StreamOnly.pop (q : Nat) : StreamOnly s (s.pop r q) r := StreamOnly.ofGroup _ _ rfl

theorem StreamOnly.consume (srcs : List Reg) : StreamOnly s (s.consume r srcs) r := by
  unfold State.consume
  generalize distinct srcs = xs
  induction xs generalizing s with
  | nil => exact StreamOnly.refl s r
  | cons x xs ih =>
    refine StreamOnly.trans ?_ ih
    cases x <;> first | exact StreamOnly.refl s r | exact StreamOnly.pop _ | exact StreamOnly.ofGuest

/-! ### What reading operands leaves alone -/

theorem State.warp_pop (q : Nat) : (s.pop r q).warp r = s.warp r := by
  obtain ⟨c0, k0, w0⟩ := r
  cases w0 with
  | slice => rfl
  | warp w => simp [State.warp, State.warpAt, State.pop, State.modWgOf]

theorem State.slice_pop (q : Nat) : ((s.pop r q).wgOf r).slice = (s.wgOf r).slice := by simp [State.pop]

theorem State.warps_pop (q : Nat) : ((s.pop r q).wgOf r).warps = (s.wgOf r).warps := by simp [State.pop]

theorem State.rows_pop (q q' : Nat) : (((s.pop r q).wgOf r).queue q').rows =
    if q' = q then ((s.wgOf r).queue q).rows.drop 1 else ((s.wgOf r).queue q').rows := by
  unfold State.pop
  rw [State.wgOf_modWgOf, Workgroup.queue_setQueue]
  split <;> rfl

theorem State.flights_pop (q c : Nat) : ((s.pop r q).core c).flights = (s.core c).flights := by
  rw [(StreamOnly.pop (s := s) (r := r) q).cores c]

theorem distinct_nodup {α : Type} [DecidableEq α] (xs : List α) : (distinct xs).Nodup := by
  induction xs with
  | nil => exact List.nodup_nil
  | cons x xs ih =>
    refine List.nodup_cons.mpr ⟨?_, List.Nodup.filter _ ih⟩
    simp [List.mem_filter]

theorem mem_distinct {α : Type} [DecidableEq α] (xs : List α) (y : α) : y ∈ distinct xs ↔ y ∈ xs := by
  induction xs with
  | nil => simp [distinct]
  | cons x xs ih =>
    simp only [distinct, List.mem_cons, List.mem_filter, ih, decide_eq_true_eq]
    by_cases h : y = x <;> simp [h]

/-- What reading the registers `srcs` does: each queue register is popped once, and nothing of the stream itself changes. -/
theorem State.consume_spec (srcs : List Reg) :
    (s.consume r srcs).warp r = s.warp r ∧ ((s.consume r srcs).wgOf r).slice = (s.wgOf r).slice ∧
      ((s.consume r srcs).wgOf r).warps = (s.wgOf r).warps ∧
      ∀ q : Fin 8, (((s.consume r srcs).wgOf r).queue q.val).rows =
        if Reg.q q ∈ srcs then ((s.wgOf r).queue q.val).rows.drop 1 else ((s.wgOf r).queue q.val).rows := by
  have key : ∀ (xs : List Reg) (t : State), xs.Nodup →
      let u := xs.foldl (fun t x => match x with
        | .q n => t.pop r n.val
        | .cyc => t.noteGuest (t.domOf r)
        | _ => t) t
      u.warp r = t.warp r ∧ (u.wgOf r).slice = (t.wgOf r).slice ∧ (u.wgOf r).warps = (t.wgOf r).warps ∧
        ∀ q : Fin 8, ((u.wgOf r).queue q.val).rows =
          if Reg.q q ∈ xs then ((t.wgOf r).queue q.val).rows.drop 1 else ((t.wgOf r).queue q.val).rows := by
    intro xs
    induction xs with
    | nil => intro t _; simp
    | cons x xs ih =>
      intro t hn
      obtain ⟨hx, hm⟩ := List.nodup_cons.mp hn
      cases x with
      | q n =>
        obtain ⟨h1, h2, h3, h4⟩ := ih (t.pop r n.val) hm
        refine ⟨h1.trans (State.warp_pop _), h2.trans (State.slice_pop _), h3.trans (State.warps_pop _), fun q => ?_⟩
        simp only [List.foldl_cons]
        rw [h4 q, State.rows_pop]
        by_cases hq : q = n
        · subst hq; simp [hx]
        · have : q.val ≠ n.val := fun h => hq (Fin.ext h)
          simp [hq, this]
      | cyc =>
        obtain ⟨h1, h2, h3, h4⟩ := ih (t.noteGuest (t.domOf r)) hm
        refine ⟨h1, h2, h3, fun q => ?_⟩
        simp only [List.foldl_cons]
        rw [h4 q]
        simp [State.noteGuest, State.wgOf, State.wg]
      | _ =>
        obtain ⟨h1, h2, h3, h4⟩ := ih t hm
        refine ⟨h1, h2, h3, fun q => ?_⟩
        simp only [List.foldl_cons]
        rw [h4 q]
        simp
  have := key (distinct srcs) s (distinct_nodup srcs)
  simp only [mem_distinct] at this
  exact this

/-! ### Values read and written -/

theorem rowGet_rowOf (f : Nat → Word) {j : Nat} (h : j < 32) : rowGet (rowOf f) j = f j := by
  simp [rowGet, rowOf, laneIdx, List.getD, h]

theorem rowGet_rowAll (x : Word) {j : Nat} (h : j < 32) : rowGet (rowAll x) j = x := by
  unfold rowGet rowAll
  rw [List.getD_eq_getElem?_getD, List.getElem?_replicate, if_pos h]
  rfl

theorem rowGet_rowZero (j : Nat) : rowGet rowZero j = 0 := by
  unfold rowGet rowZero
  rw [List.getD_eq_getElem?_getD, List.getElem?_replicate]
  split <;> rfl

theorem rowOf_congr {f g : Nat → Word} (h : ∀ j, j < 32 → f j = g j) : rowOf f = rowOf g :=
  List.map_congr_left fun j hj => h j (by simpa [laneIdx] using hj)

theorem rowGet_rowMerge (m : Lanes) (old new : Row) {j : Nat} (h : j < 32) :
    rowGet (rowMerge m old new) j = if m.getLsbD j then rowGet new j else rowGet old j := rowGet_rowOf _ h

/-- No bad place that a test names: the check passes. -/
theorem State.sound_ok {p : RegSite → Bool} (h : ∀ b ∈ s.badPlaces r, p b = false) : s.sound r p = .ok () := by
  have e : s.badRegs r p = [] := by
    rw [show s.badRegs r p = (s.badPlaces r).filter p from rfl, List.filter_eq_nil_iff]
    exact fun b hb => by simp [h b hb]
  unfold State.sound
  rw [e]

theorem State.soundIn_ok {n : Nat} (h : s.applied r = 0 ∨ s.intact r (.g n)) : s.soundIn r (RegSite.isG n) = .ok () := by
  unfold State.soundIn
  split
  · rfl
  · rename_i h0
    refine State.sound_ok fun b hb => ?_
    cases b <;> simp only [RegSite.isG, decide_eq_false_iff_not]
    rintro rfl
    exact (h.resolve_left h0) hb

theorem State.soundG_ok {n : Nat} (h : s.intact r (.g n)) : s.sound r (RegSite.isG n) = .ok () := by
  refine State.sound_ok fun b hb => ?_
  cases b <;> simp only [RegSite.isG, decide_eq_false_iff_not]
  rintro rfl
  exact h hb

theorem State.soundRun_ok {n k : Nat} (h : ∀ i, i < k → ∀ j, (s.applied r).getLsbD j = true → s.intact r (.v (n + i) j)) :
    s.soundRun r n k = .ok () := by
  refine State.sound_ok fun b hb => ?_
  rw [Bool.and_eq_false_imp]
  intro hv
  obtain ⟨i, hi, hb'⟩ := List.any_eq_true.mp hv
  cases b <;> simp only [RegSite.isV, decide_eq_true_eq, Bool.false_eq_true] at hb'
  subst hb'
  rw [← Bool.not_eq_true]
  exact fun hj => h i (List.mem_range.mp hi) _ hj hb

/-- A readable L-form source gives its row. -/
theorem State.laneRow_ok {x : Reg} (h : s.canRead r x) :
    ∃ row, s.laneRow r x = .ok row ∧ ∀ j, j < 32 → rowGet row j = s.laneVal r x j := by
  cases x with
  | v n =>
    refine ⟨(s.warp r).vreg n.val, ?_, fun j _ => ?_⟩
    · have hs : s.soundRun r n.val 1 = .ok () := State.soundRun_ok fun i hi => by
        rw [Nat.lt_one_iff.mp hi, Nat.add_zero]; exact h.2.2
      unfold State.laneRow
      simp only [need, waitFor, Warp.inAlloc, h.1, h.2.1, hs]
      rfl
    · simp only [State.laneVal]
  | g n =>
    refine ⟨rowAll (s.greg r n.val), ?_, fun j hj => ?_⟩
    · unfold State.laneRow
      simp only [waitFor, h.1, State.soundIn_ok h.2]
      rfl
    · simp only [State.laneVal, rowGet_rowAll _ hj]
  | q n =>
    obtain ⟨y, ys, h1, h2, h3⟩ := h
    refine ⟨y.row, ?_, fun j _ => ?_⟩
    · unfold State.laneRow
      simp only [State.headRow, h1, h2]
      rw [if_neg]
      rcases h3 with h3 | h3 <;> simp [h3]
    · simp only [State.laneVal, h1]
  | laneid =>
    refine ⟨rowOf fun j => BitVec.ofNat 32 j, ?_, fun j hj => ?_⟩
    · unfold State.laneRow; rfl
    · simp only [State.laneVal, rowGet_rowOf _ hj]
  | zero =>
    refine ⟨rowAll 0, ?_, fun j hj => ?_⟩
    · unfold State.laneRow; rfl
    · simp only [State.laneVal, rowGet_rowAll _ hj]
  | warpix =>
    refine ⟨rowAll (BitVec.ofNat 32 r.index), ?_, fun j hj => ?_⟩
    · unfold State.laneRow; rfl
    · simp only [State.laneVal, rowGet_rowAll _ hj]
  | wgid =>
    refine ⟨rowAll (s.wgOf r).index, ?_, fun j hj => ?_⟩
    · unfold State.laneRow; rfl
    · simp only [State.laneVal, rowGet_rowAll _ hj]
  | coreix =>
    refine ⟨rowAll (BitVec.ofNat 32 r.core), ?_, fun j hj => ?_⟩
    · unfold State.laneRow; rfl
    · simp only [State.laneVal, rowGet_rowAll _ hj]
  | vaultix =>
    refine ⟨rowAll (BitVec.ofNat 32 r.core), ?_, fun j hj => ?_⟩
    · unfold State.laneRow; rfl
    · simp only [State.laneVal, rowGet_rowAll _ hj]
  | cyc =>
    refine ⟨rowAll (lo32 (s.guest (s.domOf r))), ?_, fun j hj => ?_⟩
    · unfold State.laneRow; rfl
    · simp only [State.laneVal, rowGet_rowAll _ hj]

/-- A readable second source gives its row. -/
theorem State.srcRow_ok {b : Src} (k : ImmKind) (h : s.canReadSrc r b) :
    ∃ row, s.srcRow r k b = .ok row ∧ ∀ j, j < 32 → rowGet row j = s.srcVal r k b j := by
  cases b with
  | reg x => exact State.laneRow_ok h
  | imm p =>
    refine ⟨rowAll (immWord k p), ?_, fun j hj => ?_⟩
    · simp only [State.srcRow]; rfl
    · simp only [State.srcVal, rowGet_rowAll _ hj]

/-- A readable G-form source gives its value. -/
theorem State.uniVal_ok {x : Reg} (hx : x.isUniSrc = true) (h : s.canReadUni r x 1) : s.uniVal r x = .ok (s.uniRead r x) := by
  cases x with
  | v n => simp [Reg.isUniSrc] at hx
  | g n =>
    obtain ⟨h1, h2⟩ := h 0 Nat.one_pos
    rw [Nat.add_zero] at h1 h2
    simp [State.uniVal, State.uniRead, State.laneVal, waitFor, h1, State.soundG_ok h2, bind, Except.bind, pure, Except.pure]
  | q n =>
    obtain ⟨y, ys, h1, h2, h3⟩ := h
    simp [State.uniVal, State.uniRead, State.laneVal, State.headRow, h1, h2, h3, bind, Except.bind, pure, Except.pure]
  | laneid => rfl
  | _ => rfl

end Sys2Proof.Machine
end

