-- ==== Sys2Proof/Laws/Lane.lean ====
section
/-! SUPPORT. The shapes of the arithmetic instructions: what they answer when their operands can be read and written. -/

namespace Sys2Proof.Machine

variable {s t u : State} {r : Ref}

theorem StreamOnly.pendingV (a : StreamOnly s t r) (n : Nat) : t.pendingV r n = s.pendingV r n := by
  unfold State.pendingV; rw [a.cores]

theorem StreamOnly.pendingG (a : StreamOnly s t r) (n : Nat) : t.pendingG r n = s.pendingG r n := by
  unfold State.pendingG; rw [a.cores]

theorem StreamOnly.pendingQ (a : StreamOnly s t r) (n : Nat) : t.pendingQ r n = s.pendingQ r n := by
  have hf : ((t.wgOf r).slice.feeds n).isSome = ((s.wgOf r).slice.feeds n).isSome := by
    have e := a.ownSlice
    simp only [Slice.rest, Slice.mk.injEq] at e
    unfold Slice.feeds Slice.replaces
    rw [e.2.2.2.2.1, e.2.2.2.2.2.1]
  unfold State.pendingQ
  rw [hf, a.cores]

theorem StreamOnly.pendingS (a : StreamOnly s t r) (n : Nat) : t.pendingS r n = s.pendingS r n := by
  unfold State.pendingS; rw [a.cores]

theorem State.pcOf_congr (hw : t.warp r = s.warp r) (hs : (t.wgOf r).slice = (s.wgOf r).slice) : t.pcOf r = s.pcOf r := by
  unfold State.pcOf; rw [hw, hs]

theorem State.nextPc_congr (hw : t.warp r = s.warp r) (hs : (t.wgOf r).slice = (s.wgOf r).slice) : t.nextPc r = s.nextPc r := by
  unfold State.nextPc State.pfxOf; rw [State.pcOf_congr hw hs, hw, hs]

theorem State.greg_congr (hw : t.warp r = s.warp r) (hs : (t.wgOf r).slice = (s.wgOf r).slice) (n : Nat) :
    t.greg r n = s.greg r n := by unfold State.greg; rw [hw, hs]

/-- The program counter of a stream after it was replaced. -/
theorem State.pcOf_setPc (x : Word) : (s.setPc r x).pcOf r = x ∧ (s.setPc r x).pfxOf r = none := by
  obtain ⟨c, k, w⟩ := r
  cases w with
  | warp w => simp [State.setPc, State.pcOf, State.pfxOf, State.warp, State.modWarp]
  | slice => simp [State.setPc, State.pcOf, State.pfxOf]

/-- What a change of the program counter leaves of the stream. -/
theorem State.setPc_regs (x : Word) :
    ((s.setPc r x).warp r).v = (s.warp r).v ∧ ((s.setPc r x).warp r).g = (s.warp r).g ∧
      ((s.setPc r x).wgOf r).queues = (s.wgOf r).queues ∧ ∀ n, (s.setPc r x).greg r n = s.greg r n := by
  obtain ⟨c, k, w⟩ := r
  cases w with
  | warp w =>
    refine ⟨?_, ?_, ?_, fun n => ?_⟩
    · simp [State.setPc, State.warp, State.modWarp]
    · simp [State.setPc, State.warp, State.modWarp]
    · simp [State.setPc, State.modWarp, State.wgOf, State.modWarpAt]
    · simp [State.setPc, State.greg, State.warp, State.modWarp]
  | slice => simp [State.setPc, State.greg, State.warp, State.wgOf, State.modSlice, State.modWgOf]

theorem State.retire_queue (q : Nat) : ((s.retire r).wgOf r).queue q = (s.wgOf r).queue q := by
  unfold Workgroup.queue
  rw [show ((s.retire r).wgOf r).queues = (s.wgOf r).queues from (State.setPc_regs (s := s) (r := r) (s.nextPc r)).2.2.1]

/-- A row put into a queue register after the operands were read. -/
theorem State.push_ok (q : Nat) (row : Row) (pc : Word) (hp : s.pendingQ r q = false)
    (hl : ((s.wgOf r).queue q).rows.length < Config.queueRows) :
    ∃ t, s.push r q row none pc = .ok t ∧ StreamOnly s t r ∧ t.warp r = s.warp r ∧ (t.wgOf r).slice = (s.wgOf r).slice ∧
      (∀ d, t.dom d = s.dom d) ∧
      ∀ q', ((t.wgOf r).queue q').rows =
        if q' = q then ((s.wgOf r).queue q).rows ++ [{ row := row, mark := none, bad := false }] else ((s.wgOf r).queue q').rows := by
  refine ⟨_, ?_, StreamOnly.ofGroup (fun g => g.setQueue q
    { g.queue q with rows := (g.queue q).rows ++ [{ row := row, mark := none, bad := false }], last := pc }) _ rfl, ?_, ?_, fun _ => rfl, ?_⟩
  · unfold State.push
    simp only [hp, hl, waitFor]
    rfl
  · obtain ⟨c0, k0, w0⟩ := r
    cases w0 with
    | slice => rfl
    | warp w => simp [State.warp, State.warpAt, State.modWgOf]
  · simp
  · intro q'
    rw [State.wgOf_modWgOf, Workgroup.queue_setQueue]
    split <;> rfl

/-- A warp that retires: its program counter and prefix move, nothing else of it. -/
theorem State.warp_retire (hr : r.isSlice = false) : (s.retire r).warp r = { s.warp r with pc := s.nextPc r, pfx := none } := by
  obtain ⟨c, k, w⟩ := r
  cases w with
  | slice => simp [Ref.isSlice] at hr
  | warp w =>
    have h : ∀ (u : State) (x : Last) (q : Ref), ({ u with last := x } : State).warp q = u.warp q := fun u x q => by
      unfold State.warp; split <;> rfl
    unfold State.retire
    rw [h]
    unfold State.setPc
    rw [State.warp_modWarp _ _ _ rfl]

/-- Reading the operands counts nothing. -/
theorem State.consume_counts (srcs : List Reg) (d : Nat) :
    ((s.consume r srcs).dom d).counters = (s.dom d).counters ∧ ((s.consume r srcs).dom d).stop = (s.dom d).stop := by
  unfold State.consume
  generalize distinct srcs = xs
  induction xs generalizing s with
  | nil => exact ⟨rfl, rfl⟩
  | cons x xs ih =>
    refine ⟨ih.1.trans ?_, ih.2.trans ?_⟩ <;>
      cases x <;> first
        | rfl
        | (unfold State.noteGuest; rw [State.dom_modDom]; split <;> simp_all)

/-- What an L-form instruction leaves once it retires, from what its effect left. -/
theorem LaneDone.ofEffect {srcs : List Reg} {d : Reg} {val : Nat → Word} (hr : r.isSlice = false)
    (pc : (t.warp r).pc = (s.warp r).pc) (pfx : (t.warp r).pfx = (s.warp r).pfx) (g : (t.warp r).g = (s.warp r).g)
    (lanes : ∀ n : Fin 192, ∀ j, j < 32 → rowGet ((t.warp r).vreg n.val) j =
      if d = .v n ∧ (s.applied r).getLsbD j = true then val j else rowGet ((s.warp r).vreg n.val) j)
    (others : ∀ n : Fin 192, d ≠ .v n → (t.warp r).vreg n.val = (s.warp r).vreg n.val)
    (queues : ∀ q : Fin 8, ((t.wgOf r).queue q.val).rows =
      s.rowsAfter r srcs (if s.applied r = 0 then .zero else d) (rowOf fun j => if (s.applied r).getLsbD j then val j else 0) q)
    (bad : ∀ b, b ∈ (t.warp r).bad ↔
      b ∈ (s.warp r).bad ∧ ∀ n : Fin 192, d = .v n → ∀ j, (s.applied r).getLsbD j = true → b ≠ .v n.val j)
    (counted : (t.dom (s.domOf r)).counter 6 =
      (s.dom (s.domOf r)).counter 6 + (if (s.dom (s.domOf r)).stop then 0 else BitVec.ofNat 64 (s.expanded r d 1)))
    (frame : StreamOnly s t r) : LaneDone s (t.retire r) r srcs d val := by
  have hw := State.warp_retire (s := t) hr
  have hn : t.nextPc r = s.nextPc r := by
    obtain ⟨c, k, w⟩ := r
    cases w with
    | slice => simp [Ref.isSlice] at hr
    | warp w => unfold State.nextPc State.pcOf State.pfxOf; dsimp only; rw [pc, pfx]
  refine ⟨rfl, ((State.pcOf_setPc _).1).trans hn, (State.pcOf_setPc _).2, ?_, ?_, ?_, ?_, ?_, ?_, frame.retire⟩
  · rw [hw]; exact lanes
  · rw [hw]; exact others
  · intro m
    refine ((State.setPc_regs _).2.2.2 m).trans ?_
    obtain ⟨c, k, w⟩ := r
    cases w with
    | slice => simp [Ref.isSlice] at hr
    | warp w => unfold State.greg; dsimp only; rw [g]
  · intro q; rw [State.retire_queue]; exact queues q
  · rw [hw]; exact bad
  · rw [State.dom_retire]; exact counted

/-- A row written in the lanes of S after the operands were read. -/
theorem State.putLanes_ok {srcs : List Reg} {d : Reg} {row : Row} {val : Nat → Word} (hr : r.isSlice = false)
    (hd : d.isLaneDst = true) (hw : s.canWrite r srcs d) (hv : ∀ j, j < 32 → rowGet row j = val j) :
    ∃ t, (s.consume r srcs).putLanes r d (s.applied r) row = .ok t ∧ LaneDone s (t.retire r) r srcs d val := by
  obtain ⟨c1, c2, c3, c4⟩ := State.consume_spec (s := s) (r := r) srcs
  have cf := StreamOnly.consume (s := s) (r := r) srcs
  obtain ⟨c5, c6⟩ := State.consume_counts (s := s) (r := r) srcs (s.domOf r)
  have cd : (s.consume r srcs).domOf r = s.domOf r := by
    unfold State.domOf State.wgOf; rw [cf.groups]
  cases d with
  | v n =>
    have hw' : s.pendingV r n.val = false := hw.2
    have hm := State.warp_mergeV (s := s.consume r srcs) n.val (s.applied r) row hr
    rw [c1] at hm
    have hvr : ∀ m, ((((s.consume r srcs).mergeV r n.val (s.applied r) row).warp r).vreg m) =
        if m = n.val then rowMerge (s.applied r) ((s.warp r).vreg n.val) row else (s.warp r).vreg m := by
      intro m; rw [hm]; exact Tab.get_set _ _ _ _ _
    refine ⟨_, by unfold State.putLanes; simp only [waitFor, cf.pendingV, hw']; rfl, LaneDone.ofEffect hr ?_ ?_ ?_ ?_ ?_ ?_ ?_ ?_
      (cf.trans (StreamOnly.mergeV _ _ _))⟩
    · rw [hm]
    · rw [hm]
    · rw [hm]
    · intro m j hj
      rw [hvr]
      by_cases hmn : m = n
      · subst hmn
        simp only [if_true, true_and, rowGet_rowMerge _ _ _ hj, hv j hj]
      · have h1 : m.val ≠ n.val := fun h => hmn (Fin.ext h)
        have h2 : Reg.v n ≠ Reg.v m := fun h => hmn (by injection h with h; exact h.symm)
        simp only [h1, h2, if_false, false_and]
    · intro m hmn
      rw [hvr, if_neg fun h => hmn (by rw [Fin.ext h])]
    · intro q
      rw [State.queue_mergeV, c4 q]
      have h4 : ¬((if s.applied r = 0 then Reg.zero else Reg.v n) = Reg.q q) := by split <;> simp
      simp only [State.rowsAfter, h4, if_false, List.append_nil]
    · intro b
      rw [hm]
      simp only [List.mem_filter, Bool.not_eq_true', Bool.and_eq_false_imp]
      constructor
      · rintro ⟨hb, h⟩
        refine ⟨hb, fun m hmn j hj e => ?_⟩
        injection hmn with hmn
        subst hmn e
        have := h (by simp [RegSite.isV])
        simp only [RegSite.lane] at this
        rw [hj] at this
        cases this
      · rintro ⟨hb, h⟩
        refine ⟨hb, fun hv => ?_⟩
        cases b <;> simp only [RegSite.isV, decide_eq_true_eq, Bool.false_eq_true] at hv
        subst hv
        rw [← Bool.not_eq_true]
        exact fun hj => h n rfl _ hj rfl
    · have h5 := State.counter_mergeV (s := s.consume r srcs) (r := r) n.val (s.applied r) row
      rw [cd, c1, c6] at h5
      rw [h5]
      simp only [Domain.counter, c5, State.expanded]
      cases (s.dom (s.domOf r)).stop <;> cases he : expands (s.applied r) ((s.warp r).vreg n.val) <;> simp [List.range_succ, he]
  | q n =>
    by_cases h0 : s.applied r = 0
    · refine ⟨s.consume r srcs, by simp [State.putLanes, h0, pure, Except.pure], LaneDone.ofEffect hr ?_ ?_ ?_ ?_ ?_ ?_ ?_ ?_ cf⟩ <;>
        simp [c1, h0, c4, State.rowsAfter, Domain.counter, c5, State.expanded]
    · obtain ⟨h1, h2⟩ := (show s.applied r = 0 ∨ s.canPush r srcs n from hw).resolve_left h0
      have hl : (((s.consume r srcs).wgOf r).queue n.val).rows.length < Config.queueRows := by
        rw [c4 n]
        unfold Config.queueRows at *
        split at h2 <;> simp_all
        omega
      obtain ⟨t, ht, tf, tw, ts, td, tq⟩ := State.push_ok (s := s.consume r srcs) (r := r) n.val (rowMerge (s.applied r) rowZero row)
        ((s.consume r srcs).pcOf r) (by rw [cf.pendingQ]; exact h1) hl
      refine ⟨t, by unfold State.putLanes; simp only [if_neg h0]; exact ht, LaneDone.ofEffect hr ?_ ?_ ?_ ?_ ?_ ?_ ?_ ?_ (cf.trans tf)⟩
      · rw [tw, c1]
      · rw [tw, c1]
      · rw [tw, c1]
      · intro m j _; simp [tw, c1]
      · intro m _; rw [tw, c1]
      · intro q
        rw [tq q.val, if_neg h0]
        unfold State.rowsAfter
        by_cases hq : q = n
        · subst hq
          rw [if_pos rfl, c4 q, if_pos (rfl : Reg.q q = Reg.q q)]
          congr 3
          exact rowOf_congr fun j hj => by rw [hv j hj, rowGet_rowZero]
        · have h3 : q.val ≠ n.val := fun h => hq (Fin.ext h)
          have h4 : Reg.q n ≠ Reg.q q := fun h => hq (by injection h with h; exact h.symm)
          rw [if_neg h3, c4 q, if_neg h4, List.append_nil]
      · intro b; simp [tw, c1]
      · simp [td, Domain.counter, c5, State.expanded]
  | zero =>
    refine ⟨s.consume r srcs, rfl, LaneDone.ofEffect hr ?_ ?_ ?_ ?_ ?_ ?_ ?_ ?_ cf⟩ <;>
      simp [c1, c4, State.rowsAfter, Domain.counter, c5, State.expanded]
  | _ => exact absurd hd Bool.false_ne_true

theorem LaneDone.congr {srcs : List Reg} {d : Reg} {f g : Nat → Word} (h : LaneDone s t r srcs d f) (e : ∀ j, j < 32 → f j = g j) :
    LaneDone s t r srcs d g where
  last := h.last
  pc := h.pc
  pfx := h.pfx
  lanes := fun n j hj => by rw [h.lanes n j hj, e j hj]
  others := h.others
  uniform := h.uniform
  queues := fun q => by
    rw [h.queues q]
    congr 1
    exact rowOf_congr fun j hj => by rw [e j hj]
  bad := h.bad
  counted := h.counted
  frame := h.frame

/-- An L-form register that can be read, or one that can be written, lies below the allocation. -/
theorem State.bounds_ok {xs : List (Reg × Nat)}
    (h : ∀ x ∈ xs, ∀ n, x.1 = .v n → n.val + x.2 - 1 < 8 * (s.warp r).gran) : s.bounds r xs = .ok () := by
  unfold State.bounds need
  rw [if_pos]
  rw [List.all_eq_true]
  intro x hx
  split
  · simpa [Warp.inAlloc] using h x hx _ ‹_›
  · rfl

theorem State.canRead_bound {x : Reg} (h : s.canRead r x) (n : Fin 192) (e : x = .v n) : n.val < 8 * (s.warp r).gran := by
  subst e; exact h.1

theorem State.canWrite_bound {srcs : List Reg} {x : Reg} (h : s.canWrite r srcs x) (n : Fin 192) (e : x = .v n) :
    n.val < 8 * (s.warp r).gran := by
  subst e; exact h.1

/-- A two-source L-form instruction completes when its operands can be read and its destination written. -/
theorem laneTri_done (k : ImmKind) (old : Bool) (f : Mode → Word → Word → Word → Word) {d a : Reg} {b : Src} (h : s.warpRuns r)
    (hd : d.isLaneDst = true) (ha : s.canRead r a) (hb : s.canReadSrc r b) (ho : old = true → s.canRead r d)
    (hw : s.canWrite r (a :: srcRegs b ++ (if old then [d] else [])) d) :
    ∃ t, laneTri k old f d a b s = .next t ∧ LaneDone s t r (a :: srcRegs b ++ (if old then [d] else [])) d
      (fun j => f (s.mode r) (s.laneVal r a j) (s.srcVal r k b j) (if old then s.laneVal r d j else 0)) := by
  obtain ⟨x, hx, vx⟩ := State.laneRow_ok ha
  obtain ⟨y, hy, vy⟩ := State.srcRow_ok k hb
  obtain ⟨z, hz, vz⟩ : ∃ z, s.oldRow r old d = .ok z ∧ ∀ j, j < 32 → rowGet z j = if old then s.laneVal r d j else 0 := by
    cases old with
    | true => exact State.laneRow_ok (ho rfl)
    | false => exact ⟨rowZero, rfl, fun j _ => rowGet_rowZero j⟩
  obtain ⟨t, ht, hl⟩ := State.putLanes_ok (row := rowOf fun j => f (s.mode r) (rowGet x j) (rowGet y j) (rowGet z j))
    (val := fun j => f (s.mode r) (s.laneVal r a j) (s.srcVal r k b j) (if old then s.laneVal r d j else 0)) h.isWarp hd hw
    (fun j hj => by rw [rowGet_rowOf _ hj, vx j hj, vy j hj, vz j hj])
  refine ⟨t.retire r, ?_, hl⟩
  unfold laneTri
  refine issueSeq_ok h.selected h.falls _ ?_
  have hbd : s.bounds r ((d :: a :: srcRegs b).map fun x => (x, 1)) = .ok () := by
    refine State.bounds_ok fun p hp n hn => ?_
    obtain ⟨q, hq, rfl⟩ := List.mem_map.mp hp
    simp only at hn ⊢
    rw [Nat.add_sub_cancel]
    rcases List.mem_cons.mp hq with rfl | hq
    · exact State.canWrite_bound hw n hn
    · rcases List.mem_cons.mp hq with rfl | hq
      · exact State.canRead_bound ha n hn
      · cases b with
        | reg c =>
          simp only [srcRegs, List.mem_singleton] at hq
          subst hq
          exact State.canRead_bound (s := s) (r := r) hb n hn
        | imm p => simp [srcRegs] at hq
  simp only [hbd, hx, hy, hz, bind, Except.bind]
  exact ht

/-- A one-source L-form instruction completes when its source can be read and its destination written. -/
theorem laneUn_done (f : Mode → Word → Word) {d a : Reg} (h : s.warpRuns r) (hd : d.isLaneDst = true) (ha : s.canRead r a)
    (hw : s.canWrite r [a] d) :
    ∃ t, laneUn f d a s = .next t ∧ LaneDone s t r [a] d (fun j => f (s.mode r) (s.laneVal r a j)) := by
  obtain ⟨x, hx, vx⟩ := State.laneRow_ok ha
  obtain ⟨t, ht, hl⟩ := State.putLanes_ok (row := rowOf fun j => f (s.mode r) (rowGet x j))
    (val := fun j => f (s.mode r) (s.laneVal r a j)) h.isWarp hd hw (fun j hj => by rw [rowGet_rowOf _ hj, vx j hj])
  refine ⟨t.retire r, ?_, hl⟩
  unfold laneUn
  refine issueSeq_ok h.selected h.falls _ ?_
  have hbd : s.bounds r [(d, 1), (a, 1)] = .ok () := by
    refine State.bounds_ok fun p hp n hn => ?_
    simp only [List.mem_cons, List.not_mem_nil, or_false] at hp
    rcases hp with rfl | rfl
    · exact State.canWrite_bound hw n hn
    · exact State.canRead_bound ha n hn
  simp only [hbd, hx, bind, Except.bind]
  exact ht

end Sys2Proof.Machine
end

