-- ==== Sys2Proof/Laws/Memory.lean ====
section
/-! SUPPORT. Laws of memory: what a byte write, a store and a cleared run leave at every address, and the canonical form kept by
every memory operation and held by the reset state. -/

namespace Sys2Proof.Machine

/-! ### Reading after writing -/

theorem State.physRead_physWrite (s : State) (pa pa' : Nat) (x : Byte) :
    (s.physWrite pa x).physRead pa' = if pa' = pa then x else s.physRead pa' := Tab.get_set _ _ _ _ _

/-- A store leaves its bytes at its addresses and every other byte alone. -/
theorem State.physRead_physStore (bs : List Byte) : ∀ (s : State) (pa pa' : Nat),
    (s.physStore pa bs).physRead pa' = if pa ≤ pa' ∧ pa' < pa + bs.length then bs.getD (pa' - pa) 0 else s.physRead pa' := by
  induction bs with
  | nil => intro s pa pa'; rw [if_neg (by simp only [List.length_nil]; omega)]; rfl
  | cons b bs ih =>
    intro s pa pa'
    rw [State.physStore, ih, State.physRead_physWrite]
    by_cases h1 : pa' = pa
    · subst h1
      rw [if_neg (by omega), if_pos rfl, if_pos (by simp only [List.length_cons]; omega)]
      simp
    · by_cases h2 : pa + 1 ≤ pa' ∧ pa' < pa + 1 + bs.length
      · rw [if_pos h2, if_pos (by simp only [List.length_cons]; omega), show pa' - pa = (pa' - (pa + 1)) + 1 by omega]
        simp
      · rw [if_neg h2, if_neg h1, if_neg (by simp only [List.length_cons]; omega)]

/-- A cleared run reads 0, every other byte as before. -/
theorem State.physRead_physClear (n : Nat) : ∀ (s : State) (pa pa' : Nat),
    (s.physClear pa n).physRead pa' = if pa ≤ pa' ∧ pa' < pa + n then 0 else s.physRead pa' := by
  induction n with
  | zero => intro s pa pa'; rw [if_neg (by omega)]; rfl
  | succ n ih =>
    intro s pa pa'
    rw [State.physClear, ih, State.physRead_physWrite]
    by_cases h1 : pa' = pa
    · subst h1; rw [if_neg (by omega), if_pos rfl, if_pos (by omega)]
    · by_cases h2 : pa + 1 ≤ pa' ∧ pa' < pa + 1 + n
      · rw [if_pos h2, if_pos (by omega)]
      · rw [if_neg h2, if_neg h1, if_neg (by omega)]

/-- New tags leave every byte as it is. -/
theorem State.physRead_tags (s : State) (x : Tab Tag) (pa : Nat) : ({ s with tags := x }).physRead pa = s.physRead pa := rfl

/-- A write under an owner leaves every granule but its own alone. -/
theorem State.physRead_ownWrite_other (s : State) (b : BRef) (x : Byte) (pa : Nat) (h : pa / 64 ≠ b.pa / 64) :
    (s.ownWrite b x).physRead pa = s.physRead pa := by
  have hp : pa ≠ b.pa := by intro e; exact h (by rw [e])
  unfold State.ownWrite
  split
  · rw [State.physRead_physWrite, if_neg hp, State.physRead_tags, State.physRead_physClear, if_neg (by omega)]
  · rw [State.physRead_physWrite, if_neg hp]

/-- The byte written under an owner reads back under that owner. -/
theorem State.physRead_ownWrite_same (s : State) (b : BRef) (x : Byte) : (s.ownWrite b x).physRead b.pa = x := by
  unfold State.ownWrite
  split <;> simp [State.physRead_physWrite]

/-! ### The canonical form -/

theorem State.wf_physWrite (s : State) (pa : Nat) (x : Byte) (h : Memory.wf s.mem = true) :
    Memory.wf (s.physWrite pa x).mem = true := Tab.wf_set _ _ _ _ h

theorem State.wf_physStore (bs : List Byte) : ∀ (s : State) (pa : Nat), Memory.wf s.mem = true →
    Memory.wf (s.physStore pa bs).mem = true := by
  induction bs with
  | nil => intro s _ h; exact h
  | cons b bs ih => intro s pa h; exact ih _ _ (s.wf_physWrite pa b h)

theorem State.wf_physClear (n : Nat) : ∀ (s : State) (pa : Nat), Memory.wf s.mem = true →
    Memory.wf (s.physClear pa n).mem = true := by
  induction n with
  | zero => intro s _ h; exact h
  | succ n ih => intro s pa h; exact ih _ _ (s.wf_physWrite pa 0 h)

theorem State.wf_tags (s : State) (x : Tab Tag) (h : Memory.wf s.mem = true) : Memory.wf ({ s with tags := x }).mem = true := h

theorem State.wf_ownWrite (s : State) (b : BRef) (x : Byte) (h : Memory.wf s.mem = true) :
    Memory.wf (s.ownWrite b x).mem = true := by
  unfold State.ownWrite
  split
  · exact State.wf_physWrite _ _ _ (State.wf_tags _ _ (s.wf_physClear _ _ h))
  · exact s.wf_physWrite _ _ h

theorem State.noteWrite_mem (s : State) (pa : Nat) : (s.noteWrite pa).mem = s.mem := by
  unfold State.noteWrite; split <;> rfl

theorem State.finishReads_mem (s : State) (granule : Nat) : (s.finishReads granule).mem = s.mem := by
  unfold State.finishReads; split <;> rfl

theorem State.wf_writeRef (s : State) (b : BRef) (x : Byte) (h : Memory.wf s.mem = true) :
    Memory.wf (s.writeRef b x).mem = true := by
  rw [State.writeRef, State.noteWrite_mem]
  refine State.wf_ownWrite _ b x ?_
  split
  · rw [State.finishReads_mem]; exact h
  · exact h

theorem State.wf_writeRefs (bs : List BRef) : ∀ (s : State) (xs : List Byte), Memory.wf s.mem = true →
    Memory.wf (s.writeRefs bs xs).mem = true := by
  induction bs with
  | nil => intro s xs h; cases xs <;> exact h
  | cons b bs ih =>
    intro s xs h
    cases xs with
    | nil => exact h
    | cons x xs => exact ih _ xs (s.wf_writeRef b x h)

theorem State.wf_physZero (s : State) (pa n : Nat) (h : Memory.wf s.mem = true) : Memory.wf (s.physZero pa n).mem = true :=
  Tab.wf_filter _ _ _ h

theorem State.wf_physPieces (s : State) (pa : Nat) (l : List (Nat × List Byte)) (h : Memory.wf s.mem = true) :
    Memory.wf (s.physPieces pa l).mem = true := by
  unfold State.physPieces
  induction l generalizing s with
  | nil => exact h
  | cons x l ih => exact ih _ (s.wf_physStore _ _ h)

theorem State.wf_cutVault (s : State) (vault cap : Nat) (h : Memory.wf s.mem = true) :
    Memory.wf (s.cutVault vault cap).mem = true := Tab.wf_filter _ _ _ h

theorem State.wf_powerUp (s : State) (h : Memory.wf s.mem = true) : Memory.wf s.powerUp.mem = true :=
  Tab.wf_filter _ _ _ h

theorem State.wf_collapse (s : State) (line : Nat) (h : Memory.wf s.mem = true) : Memory.wf (s.collapse line).mem = true := by
  unfold State.collapse
  dsimp only
  split
  · exact s.wf_physStore _ _ h
  · exact h

/-- A fold of memory operations that each keep the canonical form keeps it. -/
theorem State.wf_foldl {α : Type} (f : State → α → State) (hf : ∀ s x, Memory.wf s.mem = true → Memory.wf (f s x).mem = true) (l : List α) :
    ∀ s, Memory.wf s.mem = true → Memory.wf (l.foldl f s).mem = true := by
  induction l with
  | nil => exact fun _ h => h
  | cons x l ih => exact fun s h => ih _ (hf s x h)

theorem State.wf_restorePage (s : State) (p : StampedPage) (h : Memory.wf s.mem = true) : Memory.wf (s.restorePage p).mem = true :=
  State.wf_foldl _ (fun t _ ht => t.wf_physWrite _ _ ht) _ _ (State.wf_foldl _ (fun t _ ht => t.wf_physWrite _ _ ht) _ _ h)

theorem State.wf_makePage (s : State) (pa size : Nat) (stamped : Bool) (h : Memory.wf s.mem = true) :
    Memory.wf (s.makePage pa size stamped).mem = true := by
  have h1 := State.wf_foldl State.restorePage (fun t p ht => t.wf_restorePage p ht) (s.pages.filter fun p => decide (p.pa < pa + size) && decide (pa < p.pa + p.size)) s h
  unfold State.makePage
  dsimp only
  split <;> exact State.wf_foldl _ (fun t l ht => t.wf_collapse _ ht) _ _ h1

/-- The reset memory lists nothing. -/
theorem reset_memory_wf : Memory.wf State.reset.mem = true := by decide

end Sys2Proof.Machine
end

