-- ==== Sys2Proof/Tests/Slice0.lean ====
section
/-! SUPPORT. Tests: an ill-formed term for each check of well-formedness, words written out from the encodings of the spec and what
they decode to, a state and operands that meet the hypotheses of each statement, and small results worked out from the spec. -/

namespace Sys2Proof.Tests

set_option Elab.async false

open Sys2Proof Sys2Proof.Machine

/-! ### States -/

/-- The package with a workgroup of domain 1 resident on core 0, its warp 0 selected at address 0. -/
def base : State := State.reset.withFetchWord 32 0xA9000000

/-- The warp of that workgroup. -/
def r0 : Ref := loadedRef

/-- That state with its warp changed. -/
def withWarp (f : Warp → Warp) : State := base.modWarp r0 f

/-- That state with a uniform register set. -/
def withG (n : Nat) (x : Word) : State := base.setG r0 n x

/-! ### Hypotheses as checks -/

def runsB (s : State) (r : Ref) : Bool :=
  decide (s.turn.head?.map Turn.ref = some r) && !r.isSlice && !s.foreign r (s.nextPc r)

theorem runs {s : State} {r : Ref} (h : runsB s r = true) : s.warpRuns r := by
  simp only [runsB, Bool.and_eq_true, decide_eq_true_eq, Bool.not_eq_true'] at h
  exact ⟨h.1.1, h.1.2, h.2⟩

theorem selects {s : State} {r : Ref} (h : decide (s.turn.head?.map Turn.ref = some r) = true) : s.issues r := (of_decide_eq_true h : s.turn.head?.map Turn.ref = some r)

theorem falls {s : State} {r : Ref} (h : s.foreign r (s.nextPc r) = false) : s.fallsThrough r := h

/-- No register of the stream fails its error check. -/
def cleanB (s : State) (r : Ref) : Bool := decide (s.badPlaces r = [])

theorem clean {s : State} {r : Ref} (h : cleanB s r = true) (b : RegSite) : s.intact r b := by
  have h' : s.badPlaces r = [] := of_decide_eq_true h
  unfold State.intact
  rw [h']
  exact List.not_mem_nil

def readB (s : State) (r : Ref) : Reg → Bool
  | .v n => decide (n.val < 8 * (s.warp r).gran) && !s.pendingV r n.val && cleanB s r
  | .g n => !s.pendingG r n.val && cleanB s r
  | .q n => match ((s.wgOf r).queue n.val).rows with
    | x :: _ => decide (x.mark = none) && !x.bad
    | [] => false
  | _ => true

theorem readsQ {s : State} {r : Ref} {n : Fin 8} (h : readB s r (.q n) = true) : s.canReadQ r n.val := by
  simp only [readB] at h
  split at h
  · simp only [Bool.and_eq_true, decide_eq_true_eq, Bool.not_eq_true'] at h
    exact ⟨_, _, ‹_›, h⟩
  · exact absurd h Bool.false_ne_true

theorem readsRow {s : State} {r : Ref} {n : Fin 8} (h : readB s r (.q n) = true) : s.canReadRow r n.val := by
  obtain ⟨x, xs, hx, hm, hb⟩ := readsQ h
  exact ⟨x, xs, hx, hm, .inr hb⟩

theorem reads {s : State} {r : Ref} {x : Reg} (h : readB s r x = true) : s.canRead r x := by
  cases x with
  | v n =>
    simp only [readB, Bool.and_eq_true, decide_eq_true_eq, Bool.not_eq_true'] at h
    exact ⟨h.1.1, h.1.2, fun _ _ => clean h.2 _⟩
  | g n =>
    simp only [readB, Bool.and_eq_true, Bool.not_eq_true'] at h
    exact ⟨h.1, .inr (clean h.2 _)⟩
  | q n => exact readsRow h
  | _ => exact trivial

theorem readsFrom {s : State} {r : Ref} {x : Reg} {f : Nat → Nat} (h : cleanB s r = true) : s.canReadFrom r x f :=
  fun _ _ _ _ => clean h _

theorem readsSrc {s : State} {r : Ref} {x : Reg} (h : readB s r x = true) : s.canReadSrc r (.reg x) := reads h

/-- A run of uniform registers, or another source of a G-form instruction. -/
def readUniB (s : State) (r : Ref) (x : Reg) (k : Nat) : Bool :=
  match x with
  | .g n => ((List.range k).all fun i => !s.pendingG r (n.val + i)) && cleanB s r
  | y => readB s r y

theorem readsUni {s : State} {r : Ref} {x : Reg} {k : Nat} (h : readUniB s r x k = true) : s.canReadUni r x k := by
  cases x with
  | g n =>
    simp only [readUniB, Bool.and_eq_true, List.all_eq_true, List.mem_range, Bool.not_eq_true'] at h
    exact fun i hi => ⟨h.1 i hi, clean h.2 _⟩
  | q n => exact readsQ h
  | _ => exact trivial

theorem readsSrcUni {s : State} {r : Ref} {x : Reg} (h : readUniB s r x 1 = true) : s.canReadSrcUni r (.reg x) := readsUni h

/-- A queue register has room. -/
def roomB (s : State) (r : Ref) (srcs : List Reg) (n : Fin 8) : Bool :=
  !s.pendingQ r n.val && decide (((s.wgOf r).queue n.val).rows.length < Config.queueRows + (if Reg.q n ∈ srcs then 1 else 0))

theorem rooms {s : State} {r : Ref} {srcs : List Reg} {n : Fin 8} (h : roomB s r srcs n = true) : s.canPush r srcs n := by
  simp only [roomB, Bool.and_eq_true, decide_eq_true_eq, Bool.not_eq_true'] at h
  exact h

def writeB (s : State) (r : Ref) (srcs : List Reg) : Reg → Bool
  | .v n => decide (n.val < 8 * (s.warp r).gran) && !s.pendingV r n.val
  | .g n => !s.pendingG r n.val
  | .q n => roomB s r srcs n
  | _ => true

theorem writesRoom {s : State} {r : Ref} {srcs : List Reg} {x : Reg} (h : writeB s r srcs x = true) : s.canWriteRoom r srcs x := by
  cases x with
  | v n => simpa only [writeB, Bool.and_eq_true, decide_eq_true_eq, Bool.not_eq_true', State.canWriteRoom] using h
  | q n => exact rooms h
  | _ => exact trivial

theorem writes {s : State} {r : Ref} {srcs : List Reg} {x : Reg} (h : writeB s r srcs x = true) : s.canWrite r srcs x := by
  cases x with
  | v n => exact writesRoom h
  | q n => exact .inr (rooms h)
  | _ => exact trivial

theorem writesUni {s : State} {r : Ref} {srcs : List Reg} {x : Reg} (h : writeB s r srcs x = true) : s.canWriteUni r srcs x := by
  cases x with
  | g n => simpa only [writeB, Bool.not_eq_true', State.canWriteUni] using h
  | q n => exact rooms h
  | _ => exact trivial

def readRunB (s : State) (r : Ref) (x : Reg) (k : Nat) : Bool :=
  match x with
  | .v n => decide (n.val + k ≤ 8 * (s.warp r).gran) && ((List.range k).all fun i => !s.pendingV r (n.val + i)) && cleanB s r
  | .g n => ((List.range k).all fun i => !s.pendingG r (n.val + i)) && cleanB s r
  | y => readB s r y

theorem readsRun {s : State} {r : Ref} {x : Reg} {k : Nat} (h : readRunB s r x k = true) : s.canReadRun r x k := by
  cases x with
  | v n =>
    simp only [readRunB, Bool.and_eq_true, decide_eq_true_eq, List.all_eq_true, List.mem_range, Bool.not_eq_true'] at h
    exact fun i hi => ⟨by omega, h.1.2 i hi, fun _ _ => clean h.2 _⟩
  | g n =>
    simp only [readRunB, Bool.and_eq_true, List.all_eq_true, List.mem_range, Bool.not_eq_true'] at h
    exact fun i hi => ⟨h.1 i hi, .inr (clean h.2 _)⟩
  | q n => exact readsRow h
  | _ => exact trivial

def writeRunB (s : State) (r : Ref) (srcs : List Reg) (x : Reg) (k : Nat) : Bool :=
  match x with
  | .v n => decide (n.val + k ≤ 8 * (s.warp r).gran) && (List.range k).all fun i => !s.pendingV r (n.val + i)
  | y => writeB s r srcs y

theorem writesRun {s : State} {r : Ref} {srcs : List Reg} {x : Reg} {k : Nat} (h : writeRunB s r srcs x k = true) :
    s.canWriteRun r srcs x k := by
  cases x <;> simp only [writeRunB, Bool.and_eq_true, decide_eq_true_eq, List.all_eq_true, List.mem_range, Bool.not_eq_true'] at h <;>
    simp only [State.canWriteRun] <;> first | exact h | exact writes h

def goB (s : State) (r : Ref) (x : Int) : Bool :=
  decide (0 ≤ x ∧ x < 262144 ∧ x % 4 = 0) && !s.foreign r (BitVec.ofInt 32 x)

theorem goes {s : State} {r : Ref} {x : Int} (h : goB s r x = true) : s.mayGo r x := by
  simp only [goB, Bool.and_eq_true, decide_eq_true_eq, Bool.not_eq_true'] at h
  exact ⟨h.1.1, h.1.2.1, h.1.2.2, h.2⟩

def awaitB (s : State) (r : Ref) (d : Reg) (k : Nat) : Bool :=
  match d with
  | .v n => decide (n.val + k ≤ 8 * (s.warp r).gran) && (List.range k).all fun i => !s.pendingV r (n.val + i)
  | .g n => (List.range k).all fun i => !s.pendingG r (n.val + i)
  | _ => true

theorem awaits {s : State} {r : Ref} {d : Reg} {k : Nat} (h : awaitB s r d k = true) : s.canAwait r d k := by
  cases d <;> simp only [awaitB, Bool.and_eq_true, decide_eq_true_eq, List.all_eq_true, List.mem_range, Bool.not_eq_true'] at h <;>
    simp only [State.canAwait] <;> exact h

/-- The bytes an access covers, none where it fails. -/
def bytesOf (s : State) (k : Access) (a : Actor) (ea : DWord) (n align : Nat) : List BRef :=
  match resolve s k a ea n align with
  | .ok bs => bs
  | .error _ => []

theorem resolves {s : State} {k : Access} {a : Actor} {ea : DWord} {n align : Nat}
    (h : (bytesOf s k a ea n align).isEmpty = false) : resolve s k a ea n align = .ok (bytesOf s k a ea n align) := by
  unfold bytesOf at *
  split at h
  · assumption
  · exact absurd h (by decide)

theorem reaches {s : State} {r : Ref} {n : Nat} {addr : Nat → DWord}
    (h : ((List.range 32).all fun j => s.mayReach r [s.threadOf r j] (addr j).toNat n) = true) : s.lanesReach r n addr :=
  fun j hj _ => List.all_eq_true.mp h j (List.mem_range.mpr hj)

theorem passes {s : State} {r : Ref} {k : Access} {n : Nat} {addr : Nat → DWord} (hr : s.lanesReach r n addr)
    (h : ((List.range 32).all fun j => !(bytesOf s k (s.actor r) (addr j) n n).isEmpty) = true) :
    s.lanesPass r k n addr (fun j => bytesOf s k (s.actor r) (addr j) n n) := by
  refine ⟨hr, fun j hj _ => ?_⟩
  have := List.all_eq_true.mp h j (List.mem_range.mpr hj)
  exact resolves (by simpa using this)

theorem okOf {ε α : Type} {e : Except ε α} (h : e.isOk = true) : ∃ x, e = .ok x := by
  cases e with
  | ok x => exact ⟨x, rfl⟩
  | error _ => cases h

theorem errOf {ε α : Type} {e : Except ε α} (h : e.isOk = false) : ∃ x, e = .error x := by
  cases e with
  | ok _ => cases h
  | error x => exact ⟨x, rfl⟩

theorem okUnit {e : Exc Unit} (h : e.isOk = true) : e = .ok () := by
  obtain ⟨_, h⟩ := okOf h; exact h

theorem trapOf {α : Type} {e : Exc α} (h : (match e with | .error (.trap _) => true | _ => false) = true) : ∃ x, e = .error (.trap x) := by
  split at h
  · exact ⟨_, rfl⟩
  · cases h

/-- A structure read and the state after it, if its address passes. -/
def structOf (s : State) (r : Ref) (a : DWord) (n align : Nat) : List Byte × State :=
  match s.readStruct r a n align with
  | .ok p => p
  | .error _ => ([], s)

theorem structs {s : State} {r : Ref} {a : DWord} {n align : Nat} (h : (s.readStruct r a n align).isOk = true) :
    s.readStruct r a n align = .ok ((structOf s r a n align).1, (structOf s r a n align).2) := by
  unfold structOf
  cases he : s.readStruct r a n align with
  | ok p => rfl
  | error _ => rw [he] at h; cases h

/-! ### Witnesses: a state and operands that meet the hypotheses of each statement, clause by clause -/

/-- A queue register with one unmarked row at its head. -/
def withQueue (q : Nat) (x : Word) : State :=
  base.modWgOf r0 fun g => g.setQueue q { g.queue q with rows := [{ row := rowAll x, mark := none, bad := false }] }

/-- LaneIntegerResult: a multiply-add, whose destination is read; the highest register, a uniform source and an immediate. -/
theorem witness_LaneIntegerResult : ∃ e ∈ intTable, ∃ (d a : Reg) (b : Src) (s : State) (r : Ref), (e.1 d a b).wf = true ∧ e.2.1 = true ∧
    s.warpRuns r ∧ s.canRead r a ∧ s.canReadSrc r b ∧ s.canRead r d ∧ s.canWrite r (a :: srcRegs b ++ [d]) d :=
  ⟨_, List.mem_of_getElem? (i := 5) rfl, .v 191, .g 3, .imm 7, base, r0, by decide +kernel, rfl, runs (by decide +kernel),
    reads (by decide +kernel), trivial, reads (by decide +kernel), writes (by decide +kernel)⟩

/-- LaneIntegerResult: an addition from a queue register to a queue register. -/
theorem witness_LaneIntegerResult_queue : ∃ e ∈ intTable, ∃ (d a : Reg) (b : Src) (s : State) (r : Ref), (e.1 d a b).wf = true ∧
    e.2.1 = false ∧ s.warpRuns r ∧ s.canRead r a ∧ s.canReadSrc r b ∧ s.canWrite r (a :: srcRegs b) d :=
  ⟨_, List.mem_of_getElem? (i := 0) rfl, .q 2, .q 2, .reg .laneid, withQueue 2 9, r0, by decide +kernel, rfl, runs (by decide +kernel),
    reads (by decide +kernel), readsSrc (by decide +kernel), writes (by decide +kernel)⟩

/-- LaneFloatResult: a fused multiply-add, whose destination is read. -/
theorem witness_LaneFloatResult : ∃ e ∈ floatTable, ∃ (d a : Reg) (b : Src) (s : State) (r : Ref), (e.1 d a b).wf = true ∧ e.2.2.1 = true ∧
    s.warpRuns r ∧ s.canRead r a ∧ s.canReadSrc r b ∧ s.canRead r d ∧ s.canWrite r (a :: srcRegs b ++ [d]) d :=
  ⟨_, List.mem_of_getElem? (i := 3) rfl, .v 0, .v 1, .reg (.v 2), base, r0, by decide +kernel, rfl, runs (by decide +kernel),
    reads (by decide +kernel), readsSrc (by decide +kernel), reads (by decide +kernel), writes (by decide +kernel)⟩

/-- LaneUnaryAndImmediate: one register source. -/
theorem witness_LaneUnary : ∃ e ∈ unaryTable, ∃ (d a : Reg) (s : State) (r : Ref), (e.1 d a).wf = true ∧ s.warpRuns r ∧ s.canRead r a ∧
    s.canWrite r [a] d :=
  ⟨_, List.mem_of_getElem? (i := 0) rfl, .v 0, .v 191, base, r0, by decide +kernel, runs (by decide +kernel), reads (by decide +kernel),
    writes (by decide +kernel)⟩

/-- LaneUnaryAndImmediate: the four clauses with an immediate. -/
theorem witness_LaneImmediate : ∃ (d a : Reg) (s : State) (r : Ref), s.warpRuns r ∧
    (∃ e ∈ byteTable, ∃ n : BitVec 8, (e.1 d a n).wf = true ∧ s.canRead r a ∧ s.canWrite r [a] d) ∧
    (∃ i : Imm8, (Instr.addi d a i).wf = true ∧ s.canRead r a ∧ s.canWrite r [a] d) ∧
    (∃ i16 : BitVec 16, (Instr.movi d i16).wf = true ∧ s.canWrite r [] d) ∧
    (∃ i16 : BitVec 16, (Instr.movhi d i16).wf = true ∧ s.canRead r d ∧ s.canWrite r [d] d) :=
  ⟨.v 4, .v 5, base, r0, runs (by decide +kernel),
    ⟨_, List.mem_of_getElem? (i := 0) rfl, 3, by decide +kernel, reads (by decide +kernel), writes (by decide +kernel)⟩,
    ⟨.long 0x123456 0x78, by decide +kernel, reads (by decide +kernel), writes (by decide +kernel)⟩,
    ⟨0x8000, by decide +kernel, writes (by decide +kernel)⟩,
    ⟨0xFFFF, by decide +kernel, reads (by decide +kernel), writes (by decide +kernel)⟩⟩

/-- LaneUnaryAndImmediate: the retrieval helpers and the shuffle by a register. -/
theorem witness_LaneHelper : ∃ (d a b : Reg) (s : State) (r : Ref), s.warpRuns r ∧ d.isLaneDst = true ∧ s.canRead r a ∧ s.canRead r b ∧
    s.canWrite r [a, b] d ∧ helperTable ≠ [] ∧ ∃ w, s.canReadFrom r a (fun j => j / widthOf w * widthOf w + (s.laneVal r b j).toNat % widthOf w) :=
  ⟨.v 4, .v 5, .g 6, base, r0, runs (by decide +kernel), rfl, reads (by decide +kernel), reads (by decide +kernel),
    writes (by decide +kernel), by simp [helperTable], none, readsFrom (by decide +kernel)⟩

/-- CrossLaneResult: a shuffle by the largest distance and a reduction. -/
theorem witness_CrossLaneResult : ∃ (d a : Reg) (n : BitVec 8) (s : State) (r : Ref), s.warpRuns r ∧ d.isLaneDst = true ∧ n.toNat < 32 ∧
    s.canRead r a ∧ s.canWrite r [a] d ∧ ∀ f, s.canReadFrom r a f :=
  ⟨.v 4, .v 5, 31, base, r0, runs (by decide +kernel), rfl, by decide, reads (by decide +kernel), writes (by decide +kernel),
    fun _ => readsFrom (by decide +kernel)⟩

/-- ConversionsAndIndirectMoves: a conversion, an expansion to two registers, a packing of four and a scale of two. -/
theorem witness_Conversions : ∃ (d a : Reg) (s : State) (r : Ref), s.warpRuns r ∧
    (∃ code : BitVec 8, (Instr.cvt d a code none).wf = true ∧ s.canReadRun r a (fmtRegs (code.toNat % 16)) ∧
      s.canWriteRun r [a] d (fmtRegs (code.toNat / 16))) ∧
    (∃ code : BitVec 8, code.toNat < 2 ∧ (Instr.xpnd d a code).wf = true ∧ s.canReadRun r a 1 ∧ s.canWriteRun r [a] d 2) ∧
    (∃ code : BitVec 8, 2 ≤ code.toNat ∧ (Instr.pack d a code none).wf = true ∧ s.canReadRun r a 4 ∧ s.canWriteRun r [a] d 1) ∧
    (∃ code : BitVec 8, (Instr.qscale d a code none).wf = true ∧ s.canReadRun r a 1 ∧ s.canWriteRun r [a] d 2) :=
  ⟨.v 4, .v 8, base, r0, runs (by decide +kernel),
    ⟨0x01, by decide +kernel, readsRun (by decide +kernel), writesRun (by decide +kernel)⟩,
    ⟨1, by decide, by decide +kernel, readsRun (by decide +kernel), writesRun (by decide +kernel)⟩,
    ⟨2, by decide, by decide +kernel, readsRun (by decide +kernel), writesRun (by decide +kernel)⟩,
    ⟨0, by decide +kernel, readsRun (by decide +kernel), writesRun (by decide +kernel)⟩⟩

/-- ConversionsAndIndirectMoves: a number at the top of the allocation, one above it, and an empty applied set. -/
theorem witness_IndirectMoves : ∃ (d : Fin 192) (gx : Fin 48) (r : Ref), ∃ s t u : State,
    (s.warpRuns r ∧ d.val < 8 * (s.warp r).gran ∧ s.applied r ≠ 0 ∧ s.canRead r (.v d) ∧ s.canWrite r [] (.v d) ∧ s.canRead r (.g gx) ∧
      ∃ (i8 : BitVec 8) (n : Fin 192), (n.val : Int) = (s.greg r gx.val).toNat + i8.toInt ∧ s.canRead r (.v n) ∧ s.canWrite r [] (.v n)) ∧
    (t.warpRuns r ∧ d.val < 8 * (t.warp r).gran ∧ t.applied r ≠ 0 ∧ t.canRead r (.g gx) ∧
      ∃ i8 : BitVec 8, ∀ n : Nat, n < 8 * (t.warp r).gran → (n : Int) ≠ (t.greg r gx.val).toNat + i8.toInt) ∧
    (u.warpRuns r ∧ d.val < 8 * (u.warp r).gran ∧ u.applied r = 0 ∧ u.canWrite r [] (.v d)) :=
  ⟨0, 3, r0, withG 3 190, base, withWarp fun w => { w with cur := 0 },
    ⟨runs (by decide +kernel), by decide +kernel, by decide +kernel, reads (by decide +kernel), writes (by decide +kernel), reads (by decide +kernel),
      1, 191, by decide +kernel, reads (by decide +kernel), writes (by decide +kernel)⟩,
    ⟨runs (by decide +kernel), by decide +kernel, by decide +kernel, reads (by decide +kernel), 0xFF, by decide +kernel⟩,
    ⟨runs (by decide +kernel), by decide +kernel, by decide +kernel, writes (by decide +kernel)⟩⟩

/-- The workgroup with its access slice selected, at address 0. -/
def sliceRef : Ref := { core := 0, set := 0, who := .slice }
def withSlice : State :=
  { base.modWgOf r0 (fun g => { g with slice := { g.slice with present := true } }) with turn := [{ ref := sliceRef, pipe := uniformPipe, passed := [] }] }

/-- UniformRunsOnEmptySet: two sources, for a warp whose applied set is empty. -/
theorem witness_UniformResult : ∃ e ∈ uniTable, ∃ (d a : Reg) (b : Src) (s : State) (r : Ref), (e.1 d a b).wf = true ∧ s.issues r ∧
    s.fallsThrough r ∧ s.canReadUni r a 1 ∧ s.canReadSrcUni r b ∧ s.canWriteUni r (a :: srcRegs b) d ∧ s.applied r = 0 :=
  ⟨_, List.mem_of_getElem? (i := 0) rfl, .g 0, .g 1, .imm 5, withWarp fun w => { w with cur := 0 }, r0, by decide +kernel,
    (runs (by decide +kernel)).selected, (runs (by decide +kernel)).falls, readsUni (by decide +kernel), trivial, writesUni (by decide +kernel),
    by decide +kernel⟩

/-- UniformRunsOnEmptySet: two sources, for an access slice. -/
theorem witness_UniformResult_slice : ∃ e ∈ uniTable, ∃ (d a : Reg) (b : Src) (s : State) (r : Ref), (e.1 d a b).wf = true ∧ s.issues r ∧
    r.isSlice = true ∧ s.fallsThrough r ∧ s.canReadUni r a 1 ∧ s.canReadSrcUni r b ∧ s.canWriteUni r (a :: srcRegs b) d :=
  ⟨_, List.mem_of_getElem? (i := 0) rfl, .g 0, .g 1, .reg (.g 47), withSlice, sliceRef, by decide +kernel, selects (by decide +kernel), rfl,
    falls (by decide +kernel), readsUni (by decide +kernel), readsSrcUni (by decide +kernel), writesUni (by decide +kernel)⟩

/-- UniformRunsOnEmptySet: the moves, the immediates and GRDL. -/
theorem witness_UniformMoves : ∃ (d a : Reg) (s : State) (r : Ref), s.issues r ∧ s.fallsThrough r ∧
    (∃ i : Imm8, (Instr.gaddi d a i).wf = true ∧ s.canReadUni r a 1 ∧ s.canWriteUni r [a] d) ∧
    (∃ i16 : BitVec 16, (Instr.gmovi d i16).wf = true ∧ s.canWriteUni r [] d) ∧
    (∃ i16 : BitVec 16, (Instr.gmovhi d i16).wf = true ∧ s.canReadUni r d 1 ∧ s.canWriteUni r [d] d) ∧
    ((Instr.gmov d a).wf = true ∧ s.canReadUni r a 1 ∧ s.canWriteUni r [a] d) ∧
    (∃ n : Fin 192, (Instr.grdl d n a).wf = true ∧ n.val < 8 * (s.warp r).gran ∧ s.pendingV r n.val = false ∧ s.canReadUni r a 1 ∧
      s.intact r (.v n.val ((s.uniRead r a).toNat % 32)) ∧ s.canWriteUni r [a] d) :=
  ⟨.g 4, .g 5, base, r0, selects (by decide +kernel), falls (by decide +kernel),
    ⟨.long 0x123456 0x78, by decide +kernel, readsUni (by decide +kernel), writesUni (by decide +kernel)⟩,
    ⟨0x64, by decide +kernel, writesUni (by decide +kernel)⟩, ⟨0x64, by decide +kernel, readsUni (by decide +kernel), writesUni (by decide +kernel)⟩,
    ⟨by decide +kernel, readsUni (by decide +kernel), writesUni (by decide +kernel)⟩,
    ⟨191, by decide +kernel, by decide +kernel, by decide +kernel, readsUni (by decide +kernel), clean (by decide +kernel) _, writesUni (by decide +kernel)⟩⟩

/-- TransfersOfControl: each branch taken and not taken, at labels inside instruction memory. -/
theorem witness_Branches : ∃ (r : Ref) (s t : State), s.issues r ∧ t.issues r ∧ r.isSlice = false ∧
    (∃ off : BitVec 24, s.mayGo r (s.branchTo r off.toInt) ∧ s.passesOn r (s.branchTo r off.toInt)) ∧ (∃ off : BitVec 24, offMap (s.branchTo r off.toInt)) ∧
    (∃ (a : Fin 48) (off : BitVec 16), s.canReadUni r (.g a) 1 ∧ s.mayGo r (s.branchTo r off.toInt) ∧ s.fallsThrough r ∧ s.greg r a.val = 0) ∧
    (∃ (a : Fin 48) (off : BitVec 16), t.canReadUni r (.g a) 1 ∧ t.mayGo r (t.branchTo r off.toInt) ∧ t.fallsThrough r ∧ t.greg r a.val ≠ 0) ∧
    (∃ off : BitVec 16, offMap (s.branchTo r off.toInt)) ∧ (∃ off : BitVec 20, offMap (s.branchTo r off.toInt)) ∧
    (∃ (st : Fin 16) (off : BitVec 20) (m : Members), s.pendingS r st.val = false ∧ s.intact r (.s st.val) ∧ s.readSet r ((s.warp r).sreg st.val) = .ok m ∧
      s.mayGo r (s.branchTo r off.toInt) ∧ s.fallsThrough r ∧ (∃ p ∈ homesOf m, (s.wgOf r).isLive p = true)) ∧
    (∃ (st : Fin 16) (off : BitVec 20) (m : Members), s.pendingS r st.val = false ∧ s.intact r (.s st.val) ∧ s.readSet r ((s.warp r).sreg st.val) = .ok m ∧
      s.mayGo r (s.branchTo r off.toInt) ∧ ∀ p ∈ homesOf m, (s.wgOf r).isLive p = false) :=
  ⟨r0, base, withG 7 1, selects (by decide +kernel), selects (by decide +kernel), rfl, ⟨1, goes (by decide +kernel), .inl rfl⟩,
    ⟨0x800000, .inl (by decide +kernel)⟩, ⟨7, 1, readsUni (by decide +kernel), goes (by decide +kernel), falls (by decide +kernel), by decide +kernel⟩,
    ⟨7, 0xFFFF, readsUni (by decide +kernel), goes (by decide +kernel), falls (by decide +kernel), by decide +kernel⟩,
    ⟨0x8000, .inl (by decide +kernel)⟩, ⟨0x7FFFF, .inr (by decide +kernel)⟩,
    ⟨0, 1, _, by decide +kernel, clean (by decide +kernel) _, rfl, goes (by decide +kernel), falls (by decide +kernel), by decide +kernel⟩,
    ⟨1, 1, _, by decide +kernel, clean (by decide +kernel) _, rfl, goes (by decide +kernel), by decide +kernel⟩⟩

/-- TransfersOfControl: an access slice's branches to another address, and past the end of instruction memory. -/
theorem witness_SliceBranches : ∃ (s : State) (r : Ref), s.issues r ∧ r.isSlice = true ∧
    (∃ off : BitVec 24, s.mayGo r (s.branchTo r off.toInt) ∧ s.passesOn r (s.branchTo r off.toInt)) ∧
    (∃ (a : Fin 48) (off : BitVec 16), s.canReadUni r (.g a) 1 ∧ s.mayGo r (s.branchTo r off.toInt) ∧ s.passesOn r (s.branchTo r off.toInt) ∧
      s.fallsThrough r ∧ s.greg r a.val = 0) ∧
    (∃ off : BitVec 24, offMap (s.branchTo r off.toInt)) ∧ (∃ off : BitVec 16, offMap (s.branchTo r off.toInt)) :=
  ⟨withSlice, sliceRef, selects (by decide +kernel), rfl, ⟨1, goes (by decide +kernel), .inr (by decide +kernel)⟩,
    ⟨7, 1, readsUni (by decide +kernel), goes (by decide +kernel), .inr (by decide +kernel), falls (by decide +kernel), by decide +kernel⟩,
    ⟨0x7FFFFF, .inr (by decide +kernel)⟩, ⟨0x8000, .inl (by decide +kernel)⟩⟩

/-- TransfersOfControl: calls and returns to an aligned address, and to one that is not aligned. -/
theorem witness_Calls : ∃ (r : Ref) (s t : State) (a : Reg), s.issues r ∧ t.issues r ∧ r.isSlice = false ∧ a.isUniSrc = true ∧
    (∃ off : BitVec 24, s.mayGo r (s.branchTo r off.toInt) ∧ s.pendingG r 47 = false) ∧ (∃ off : BitVec 24, offMap (s.branchTo r off.toInt)) ∧
    (s.canReadUni r a 1 ∧ s.mayGo r (s.uniRead r a).toNat) ∧ (t.canReadUni r a 1 ∧ ¬(t.uniRead r a).toNat % 4 = 0) :=
  ⟨r0, withG 3 8, withG 3 9, .g 3, selects (by decide +kernel), selects (by decide +kernel), rfl, rfl, ⟨1, goes (by decide +kernel), by decide +kernel⟩,
    ⟨0x800000, .inl (by decide +kernel)⟩, ⟨readsUni (by decide +kernel), goes (by decide +kernel)⟩, readsUni (by decide +kernel), by decide +kernel⟩

/-- TransfersOfControl: a slice's branches to its own address that are taken, by each of the three. -/
theorem witness_SliceHalts : ∃ (s t : State) (r : Ref) (x : Int), s.issues r ∧ t.issues r ∧ r.isSlice = true ∧ s.mayGo r x ∧
    BitVec.ofInt 32 x = s.pcOf r ∧ (∃ off : BitVec 24, s.branchTo r off.toInt = x) ∧
    (∃ (a : Fin 48) (off : BitVec 16), s.branchTo r off.toInt = x ∧ s.canReadUni r (.g a) 1 ∧ s.greg r a.val = 0) ∧
    (∃ (a : Fin 48) (off : BitVec 16), t.branchTo r off.toInt = x ∧ t.canReadUni r (.g a) 1 ∧ t.greg r a.val ≠ 0) :=
  ⟨withSlice, withSlice.setG sliceRef 7 1, sliceRef, 0, selects (by decide +kernel), selects (by decide +kernel), rfl, goes (by decide +kernel), rfl,
    ⟨0xFFFFFF, by decide +kernel⟩, ⟨7, 0xFFFF, by decide +kernel, readsUni (by decide +kernel), by decide +kernel⟩,
    ⟨7, 0xFFFF, by decide +kernel, readsUni (by decide +kernel), by decide +kernel⟩⟩

/-- A set register of the warp set. -/
def withS (n : Nat) (x : DWord) : State := withWarp fun w => { w with sets := Tab.set 0 w.sets n x }

/-- SetInstructionResults: two inline sets of one warp, and a uniform pair that holds one. -/
theorem witness_InlineSets : ∃ (sd sa sb : Fin 16) (k : Nat) (ma mb : Lanes) (s : State) (r : Ref), s.warpRuns r ∧ k < 16 ∧ r.index < 16 ∧
    s.pendingS r sa.val = false ∧ s.pendingS r sb.val = false ∧ s.pendingS r sd.val = false ∧ (∀ b, s.intact r b) ∧
    (s.warp r).sreg sa.val = inlineSet k ma ∧ (s.warp r).sreg sb.val = inlineSet k mb ∧ isWide ((s.warp r).sreg sd.val) = false ∧
    ∃ d : Fin 48, s.canReadUni r (.g d) 2 ∧
      pair64 (s.greg r d.val) (s.greg r (d.val + 1)) = inlineSet k ma :=
  ⟨3, 0, 0, 0, BitVec.allOnes 32, BitVec.allOnes 32, (withG 2 0xFFFFFFFF).setG r0 3 (hi32 (inlineSet 0 (BitVec.allOnes 32))), r0,
    runs (by decide +kernel), by decide +kernel, by decide +kernel, by decide +kernel, by decide +kernel, by decide +kernel,
    clean (by decide +kernel), by decide +kernel, by decide +kernel, by decide +kernel, 2, readsUni (by decide +kernel), by decide +kernel⟩

/-- SetInstructionResults: sets of any form, whose union is made; and sets of two warps, for whose union no object is free. -/
theorem witness_SetInstructions : ∃ (sd sa sb : Fin 16) (s t : State) (r : Ref) (a b c e : Members), s.warpRuns r ∧ t.warpRuns r ∧
    s.pendingS r sa.val = false ∧ s.pendingS r sb.val = false ∧ s.pendingS r sd.val = false ∧
    t.pendingS r sa.val = false ∧ t.pendingS r sb.val = false ∧ t.pendingS r sd.val = false ∧ (∀ b, s.intact r b) ∧ (∀ b, t.intact r b) ∧
    s.readSet r ((s.warp r).sreg sa.val) = .ok a ∧ s.readSet r ((s.warp r).sreg sb.val) = .ok b ∧
    t.readSet r ((t.warp r).sreg sa.val) = .ok c ∧ t.readSet r ((t.warp r).sreg sb.val) = .ok e ∧
    (∃ x s1, s.makeSet r (membersWhere fun k j => Members.has a (k, j) || Members.has b (k, j)) = .ok (x, s1)) ∧
    t.makeSet r (membersWhere fun k j => Members.has c (k, j) || Members.has e (k, j)) = .error (.trap (Trap.of .setHeap)) ∧
    (∃ (d : Fin 48) (m : Members), s.canReadUni r (.g d) 2 ∧
      s.readSet r (pair64 (s.greg r d.val) (s.greg r (d.val + 1))) = .ok m) :=
  ⟨3, 0, 1, base, withS 1 (inlineSet 1 7), r0, _, _, _, _, runs (by decide +kernel), runs (by decide +kernel), by decide +kernel,
    by decide +kernel, by decide +kernel, by decide +kernel, by decide +kernel, by decide +kernel, clean (by decide +kernel),
    clean (by decide +kernel), rfl, rfl, rfl, rfl, ⟨_, _, rfl⟩, rfl, 2, _, readsUni (by decide +kernel), rfl⟩

/-- SetsReadIntoRegisters: SCOUNT and STOV. -/
theorem witness_SetToUniform : ∃ (st : Fin 16) (s : State) (r : Ref), s.warpRuns r ∧ s.pendingS r st.val = false ∧ s.intact r (.s st.val) ∧
    (∃ (d : Reg) (m : Members), d.isUniDst = true ∧ s.canWriteUni r [] d ∧ s.readSet r ((s.warp r).sreg st.val) = .ok m) ∧
    (∃ d : Fin 48, s.pendingG r d.val = false ∧ s.pendingG r (d.val + 1) = false) :=
  ⟨0, base, r0, runs (by decide +kernel), by decide +kernel, clean (by decide +kernel) _, ⟨.g 5, _, rfl, writesUni (by decide +kernel), rfl⟩, 6, by decide +kernel,
    by decide +kernel⟩

/-- SetsReadIntoRegisters: SETV of a set, and of a value that is none. -/
theorem witness_Setv : ∃ (d : Reg) (st : Fin 16) (s t : State) (r : Ref), s.warpRuns r ∧ t.warpRuns r ∧ d.isLaneDst = true ∧
    s.canWrite r [] d ∧ t.canWrite r [] d ∧ s.pendingS r st.val = false ∧ t.pendingS r st.val = false ∧
    s.intact r (.s st.val) ∧ t.intact r (.s st.val) ∧ (∃ m, s.readSet r ((s.warp r).sreg st.val) = .ok m) ∧
    t.applied r ≠ 0 ∧ t.readSet r ((t.warp r).sreg st.val) = .error (.trap (Trap.of .setHeap)) :=
  ⟨.v 9, 1, base, withS 1 0x7000000000000000, r0, runs (by decide +kernel), runs (by decide +kernel), rfl, writes (by decide +kernel),
    writes (by decide +kernel), by decide +kernel, by decide +kernel, clean (by decide +kernel) _, clean (by decide +kernel) _, ⟨_, rfl⟩, by decide +kernel, rfl⟩

/-- SetsReadIntoRegisters: a comparison of a lane register with an immediate, both results in free set registers. -/
theorem witness_Stest : ∃ (c : Cond) (st sf : Fin 16) (a : Reg) (b : Src) (s : State) (r : Ref), (Instr.stest c st sf a b).wf = true ∧
    s.warpRuns r ∧ r.index < 16 ∧ (s.warp r).gather = none ∧ s.canRead r a ∧ s.canReadSrc r b ∧
    s.pendingS r st.val = false ∧ s.pendingS r sf.val = false ∧
    isWide ((s.warp r).sreg st.val) = false ∧ isWide ((s.warp r).sreg sf.val) = false :=
  ⟨.eq, 1, 2, .v 3, .imm 5, base, r0, by decide +kernel, runs (by decide +kernel), by decide, rfl, reads (by decide +kernel), trivial,
    by decide +kernel, by decide +kernel, by decide +kernel, by decide +kernel⟩

/-- A poll of one lane in flight, a direct access; and a cached load. -/
def polling : State :=
  base.fly (base.flight r0 .poll (modsOf none) 1 .none [{ lane := 0, threads := [0], addr := 0, refs := [], data := [] }])
def hitting : State :=
  base.fly (base.flight r0 .load (modsOf none) 1 .none [{ lane := 0, threads := [0], addr := 0, refs := [], data := [] }])

/-- WaitsThatChangeNothing: an acquire and a release with nothing in flight, a fence of no kind past a cached load, and fences that wait
for a load and for a direct access. -/
theorem witness_Fence : ∃ (s t u : State) (r : Ref), s.warpRuns r ∧ t.warpRuns r ∧ u.warpRuns r ∧
    s.ownOutstanding r = [] ∧ s.dirtyHeld r.core (s.domOf r) = false ∧
    (t.ownOutstanding r ≠ [] ∧ ∀ f ∈ t.ownOutstanding r, ∀ l ∈ f.lanes, f.laneDirect (t.core r.core) l = false) ∧
    (∃ f ∈ u.ownOutstanding r, ∃ l ∈ f.lanes, f.laneDirect (u.core r.core) l = true) :=
  ⟨base, hitting, polling, r0, runs (by decide +kernel), runs (by decide +kernel), runs (by decide +kernel), by decide +kernel,
    by decide +kernel, ⟨by decide +kernel, by decide +kernel⟩, by decide +kernel⟩

/-- The warp has a stamped version that arrived too late. -/
def withMissed : State :=
  { base with pending := [{ line := 0, limit := 0, stamp := 5, die := 0, ref := r0, pc := 0, seqNo := 1, bytes := [], arrived := true, dropped := true, dom := 1, epoch := 0, threads := [] }] }

/-- WaitsThatChangeNothing: counters at their thresholds, a load too many, and a stamped store that came too late. -/
theorem witness_CounterWaits : ∃ (r : Ref) (s t u : State), s.warpRuns r ∧ t.warpRuns r ∧ u.warpRuns r ∧
    (∀ c, (s.warp r).ctr c ≤ 0 ∧ ∀ k x, s.owed r c = some (k, x) → k ≤ 0) ∧ 0 < (t.warp r).ld ∧
    (u.warp r).ctr .ld ≤ 0 ∧ (∀ k x, u.owed r .ld = some (k, x) → k ≤ 0) ∧ (∃ k x, u.owed r .st = some (k, x) ∧ 0 < k) := by
  refine ⟨r0, base, withWarp fun w => { w with ldOps := [(1, false)] }, withMissed, runs (by decide +kernel), runs (by decide +kernel),
    runs (by decide +kernel), ?_, by decide +kernel, by decide +kernel, ?_, 1, _, rfl, by decide⟩
  · intro c
    refine ⟨by cases c <;> decide +kernel, fun k x h => ?_⟩
    rw [show base.owed r0 c = none by cases c <;> rfl] at h
    cases h
  · intro k x h
    cases h

/-- The workgroup with one granule of quad SRAM, a set heap of 1 KiB at its top, and the address `off` of its window in `g2` and `g3`. -/
def window (off : Word) : State :=
  ((base.modWgOf r0 fun g => { g with qsram := 4096, granules := [7], setheap := 1024 }).setG r0 2 off).setG r0 3 0x00400000

/-- Where no byte of the package is lost, no access meets one. -/
theorem kept {s : State} (h : decide (s.bad = []) = true) {core : Nat} (f : Flight) : s.lostLanes core f = [] := by
  unfold State.lostLanes
  rw [if_pos (of_decide_eq_true h)]

/-- AccessesIssue: loads and polls of the quad SRAM window, and stores to it; of an empty S as well. -/
theorem witness_LaneAccesses : ∃ (d a : Reg) (i8 : BitVec 8) (s t : State) (r : Ref), s.warpRuns r ∧ s.canReadRun r a 2 ∧ t.warpRuns r ∧
    t.canReadRun r a 2 ∧ (Instr.ld d a i8 none).wf = true ∧ (Instr.poll d a i8 none).wf = true ∧ (Instr.st d a i8 none).wf = true ∧
    s.canAwait r d (dataRegs d (modsOf none).size) ∧ s.canReadRun r d (dataRegs d (modsOf none).size) ∧ s.applied r ≠ 0 ∧ (s.warp r).ld < 63 ∧
    (s.warp r).st < 63 ∧ (∃ refs, s.lanesPass r .load (modsOf none).size.bytes (s.eaOf r a i8.toInt) refs) ∧
    (∃ refs, s.lanesPass r .store (modsOf none).size.bytes (s.eaOf r a i8.toInt) refs) ∧ (∀ f, s.lostLanes r.core f = []) ∧
    t.applied r = 0 ∧ t.pollFree r = true :=
  ⟨.v 4, .g 2, 4, window 0, withWarp fun w => { w with cur := 0 }, r0, runs (by decide +kernel), readsRun (by decide +kernel), runs (by decide +kernel), readsRun (by decide +kernel),
    by decide +kernel, by decide +kernel, by decide +kernel, awaits (by decide +kernel), readsRun (by decide +kernel), by decide +kernel,
    by decide +kernel, by decide +kernel, ⟨_, passes (reaches (by decide +kernel)) (by decide +kernel)⟩, ⟨_, passes (reaches (by decide +kernel)) (by decide +kernel)⟩,
    fun f => kept (by decide +kernel) f, by decide +kernel, by decide +kernel⟩

/-- AccessesIssue: lanes whose address is not aligned. -/
theorem witness_LaneAccessTraps : ∃ (d a : Reg) (i8 : BitVec 8) (s : State) (r : Ref), s.warpRuns r ∧ s.canReadRun r a 2 ∧
    (Instr.ld d a i8 none).wf = true ∧ (Instr.st d a i8 none).wf = true ∧ s.canAwait r d (dataRegs d (modsOf none).size) ∧
    s.canReadRun r d (dataRegs d (modsOf none).size) ∧ (s.warp r).ld < 63 ∧ (s.warp r).st < 63 ∧
    s.lanesReach r (modsOf none).size.bytes (s.eaOf r a i8.toInt) ∧ s.failing r .load (modsOf none).size.bytes (s.eaOf r a i8.toInt) ≠ [] ∧
    s.failing r .store (modsOf none).size.bytes (s.eaOf r a i8.toInt) ≠ [] :=
  ⟨.v 4, .g 2, 1, window 0, r0, runs (by decide +kernel), readsRun (by decide +kernel), by decide +kernel, by decide +kernel,
    awaits (by decide +kernel), readsRun (by decide +kernel), by decide +kernel, by decide +kernel, reaches (by decide +kernel), by decide +kernel, by decide +kernel⟩

/-- The address of a set access in the window, and of a plain one. -/
def uniAddr (s : State) (off : Int) : DWord := pair64 (s.greg r0 2) (s.greg r0 3) + BitVec.ofInt 64 off

/-- AccessesIssue: the uniform load and store, SLD and SST. -/
theorem witness_UniformAccesses : ∃ (i8 : BitVec 8) (s : State), s.warpRuns r0 ∧ s.canReadUni r0 (.g 2) 2 ∧ (∀ f, s.lostLanes 0 f = []) ∧
    (∃ (d : Reg) (refs : List BRef), (Instr.gld d (.g 2) i8 none).wf = true ∧ s.canAwait r0 d (dataRegs d (modsOf none).size) ∧
      (Instr.gst d (.g 2) i8 none).wf = true ∧ s.canReadUni r0 d (dataRegs d (modsOf none).size) ∧ (s.warp r0).ld < 63 ∧
      (s.warp r0).st < 63 ∧ s.mayReach r0 (s.uniThreads r0) (uniAddr s i8.toInt).toNat (modsOf none).size.bytes = true ∧
      resolve s .load (s.actor r0) (uniAddr s i8.toInt) (modsOf none).size.bytes (modsOf none).size.bytes = .ok refs ∧
      resolve s .store (s.actor r0) (uniAddr s i8.toInt) (modsOf none).size.bytes (modsOf none).size.bytes = .ok refs) ∧
    (∃ (sd : Fin 16) (refs : List BRef) (x : Members), s.pendingS r0 sd.val = false ∧ s.intact r0 (.s sd.val) ∧
      s.readSet r0 ((s.warp r0).sreg sd.val) = .ok x ∧ s.mayReach r0 (s.uniThreads r0) (uniAddr s (8 * i8.toInt)).toNat 8 = true ∧
      resolve s .load (s.actor r0) (uniAddr s (8 * i8.toInt)) 8 8 = .ok refs ∧
      resolve s .store (s.actor r0) (uniAddr s (8 * i8.toInt)) 8 8 = .ok refs) :=
  ⟨4, window 0, runs (by decide +kernel), readsUni (by decide +kernel), fun f => kept (by decide +kernel) f,
    ⟨.g 5, _, by decide +kernel, awaits (by decide +kernel), by decide +kernel, readsUni (by decide +kernel), by decide +kernel,
      by decide +kernel, by decide +kernel, resolves (by decide +kernel), rfl⟩,
    ⟨0, _, _, by decide +kernel, clean (by decide +kernel) _, rfl, by decide +kernel, resolves (by decide +kernel), rfl⟩⟩

/-- A byte of quad 0's SRAM as domain 1's tag would own it. -/
def windowByte (i : Nat) : BRef := { pa := 2 * 2 ^ 44 + i, dom := 0, epoch := 0, tagged := false, cached := false, stamp := 0 }

/-- One lane's access of four bytes of it. -/
def windowAcc (data : List Byte) : LaneAcc := { lane := 3, threads := [3], addr := 0x40000000000000, refs := (List.range 4).map windowByte, data := data }

/-- A load of one lane in flight to `v4`, and a store of one lane. -/
def loading : State := (base.fly (base.flight r0 .load (modsOf none) 8 (.lanes (.v 4) 1) [windowAcc []])).modWarp r0 fun w => { w with ldOps := [(base.nextIssue, false)] }
def storing : State := (base.fly (base.flight r0 .store (modsOf none) 8 .none [windowAcc [1, 2, 3, 4]])).modWarp r0 fun w => { w with stOps := [(base.nextIssue, false)] }

/-- The first access in flight of core 0. -/
def firstOf (s : State) : Flight := (s.core 0).flights.head?.getD (base.flight r0 .load (modsOf none) 0 .none [])

/-- WindowAccessesComplete: a load to `v4` that may return, and a store that may be performed. -/
theorem witness_WindowAccesses :
    (∃ (f : Flight) (s : State), (s.core 0).flights[0]? = some f ∧ f.kind = .load ∧ f.ref.core = 0 ∧ f.ref.isSlice = false ∧ f.order = .relaxed ∧ f.rp = false ∧
      f.dest = .lanes (.v 4) 1 ∧ (∀ l ∈ f.lanes, ∀ b ∈ l.refs, b.cached = false ∧ b.stamp = 0 ∧ paSpace b.pa = 2) ∧ f.lanes ≠ [] ∧
      (∀ i, i < 1 → (s.land f).pendingV f.ref ((4 : Fin 192).val + i) = false) ∧ s.loadMay 0 f = true ∧ f.got = [] ∧ s.lostLanes 0 f = []) ∧
    (∃ (f : Flight) (l : LaneAcc) (s : State), (s.core 0).flights[0]? = some f ∧ f.kind = .store ∧ f.ref.core = 0 ∧ f.ref.isSlice = false ∧ f.order = .relaxed ∧
      f.rp = false ∧ f.lanes = [l] ∧ (∀ b ∈ l.refs, b.cached = false ∧ b.stamp = 0 ∧ paSpace b.pa = 2 ∧ s.tagOf b.pa = (b.dom, b.epoch)) ∧
      l.data.length = l.refs.length ∧ (l.refs.map (·.pa)).Nodup ∧ s.storeMay 0 f = true ∧ f.got = []) :=
  ⟨⟨firstOf loading, loading, by decide +kernel⟩, ⟨firstOf storing, windowAcc [1, 2, 3, 4], storing, by decide +kernel⟩⟩

/-- An atomic in flight, all of whose groups have been served or one of which has not. -/
def adding (left : Nat) : State := base.fly { base.flight r0 .atom (modsOf none) 8 (.lanes (.v 4) 1) [windowAcc []] with left := left }

/-- The load reads a byte that is lost. -/
def losing : State := { loading with bad := [2 * 2 ^ 44] }

/-- A set load in flight, which is performed as a whole. -/
def setLoading : State := base.fly (base.flight r0 .sld setMods 1 (.setReg 4) [{ windowAcc [] with refs := (List.range 8).map windowByte }])

/-- AccessesComplete: a load and a store that complete, whole or by one part, accesses that the event of the other kind leaves alone, an
atomic that is served, a load of a lost byte, and a set load with a part. -/
theorem witness_Completion :
    (∃ (f : Flight) (s : State), (s.core 0).flights[0]? = some f ∧ s.lostLanes 0 f = [] ∧ s.loadMay 0 f = true ∧ f.kind.loads = true ∧
      s.flightReady 0 f = true ∧ (f.partAt 1).isSome = true ∧ Tab.get none f.got 1 = none) ∧
    (∃ (f : Flight) (s : State), (s.core 0).flights[0]? = some f ∧ s.loadMay 0 f = false ∧ f.kind = .atom ∧ f.noret = false ∧ f.left = 0 ∧
      s.destRoom f = true) ∧
    (∃ (f : Flight) (s : State), (s.core 0).flights[0]? = some f ∧ s.lostLanes 0 f = [] ∧ s.loadMay 0 f = false ∧ f.kind ≠ .atom) ∧
    (∃ (f : Flight) (s : State), (s.core 0).flights[0]? = some f ∧ s.storeMay 0 f = true ∧ (f.partAt 1).isSome = true ∧ Tab.get none f.got 1 = none) ∧
    (∃ (f : Flight) (s : State), (s.core 0).flights[0]? = some f ∧ s.storeMay 0 f = false) ∧
    (∃ (f : Flight) (s : State), (s.core 0).flights[0]? = some f ∧ f.kind.loads = true ∧ s.flightReady 0 f = true ∧ s.lostLanes 0 f ≠ []) ∧
    ∃ (f : Flight) (s : State), (s.core 0).flights[0]? = some f ∧ f.kind = .sld ∧ s.flightReady 0 f = true ∧ f.places.any (fun p => decide (p.1 / 16 = 0)) = true :=
  ⟨⟨firstOf loading, loading, by decide +kernel⟩, ⟨firstOf (adding 0), adding 0, by decide +kernel⟩, ⟨firstOf storing, storing, by decide +kernel⟩,
    ⟨firstOf storing, storing, by decide +kernel⟩, ⟨firstOf loading, loading, by decide +kernel⟩, ⟨firstOf losing, losing, by decide +kernel⟩,
    ⟨firstOf setLoading, setLoading, by decide +kernel⟩⟩

/-- A request for that location of an access with an issue number, which has served some lanes. -/
def asked (seqNo : Nat) (served : List (Nat × DWord)) : MReq :=
  { ref := r0, slot := 0, req := 0, seqNo := seqNo, op := .add, size := 4, refs := (List.range 4).map windowByte, served := served,
    lanes := [(3, 5, 0), (4, 5, 0)], launch := 0, index := 0, dom := 1, log := .off }

/-- Requests in the queue of quad 0's atomic service warp, and the results that it keeps. -/
def requested (qs : List MReq) : State := base.modQuad 0 fun q => { q with mitten := qs, results := [MResult.mk r0 0 0 0 [(3, 5)]] }

/-- A request of an atomic in flight whose location is lost. -/
def lostFlight : Flight := firstOf (adding 1)
def lostReq : MReq := asked lostFlight.seqNo []
def lostAtom : State := { (adding 1).modQuad 0 (fun q => { q with mitten := [lostReq] }) with bad := [2 * 2 ^ 44] }

/-- The window in a deterministic launch. -/
def detWindow : State := (window 0).modWgOf r0 fun g => { g with det := true }

/-- The partials of a relaxed floating sum of every lane, and the state that holds them. -/
def detRefs (j : Nat) : List BRef := bytesOf detWindow .atomic (detWindow.actor r0) (detWindow.eaOf r0 (.g 2) 0 j) 4 4
def detAccs : List LaneAcc := detWindow.accs r0 (detWindow.eaOf r0 (.g 2) 0) detRefs fun _ => []

/-- AtomicsIssueAndAreServed: an atomic to the window. -/
theorem witness_AtomicIssues : ∃ (op : AtomOp) (d a : Reg) (refs : Nat → List BRef) (s : State), (Instr.atom op d a none).wf = true ∧
    s.warpRuns r0 ∧ s.applied r0 ≠ 0 ∧ s.canReadRun r0 a 2 ∧ s.canReadRun r0 d (op.regs (modsOf none).size) ∧ (s.warp r0).ctr .ld < 63 ∧
    s.lanesPass r0 .atomic (modsOf none).size.bytes (s.eaOf r0 a 0) refs ∧ ¬(op = .fadd ∧ (s.wgOf r0).det = true) ∧
    s.mittenRoom (atomGroups (s.accs r0 (s.eaOf r0 a 0) refs fun _ => [])) = true ∧ ∀ f, s.lostLanes 0 f = [] := by
  refine ⟨.add, .v 4, .g 2, _, window 0, ?_, runs ?_, ?_, readsRun ?_, readsRun ?_, ?_, passes (reaches ?_) ?_, ?_, ?_, fun f => kept ?_ f⟩ <;> decide +kernel

/-- AtomicsIssueAndAreServed: a floating sum of a deterministic launch. -/
theorem witness_AtomicSums : ∃ (d a : Reg) (refs : Nat → List BRef) (s : State), (Instr.atom .fadd d a none).wf = true ∧ s.warpRuns r0 ∧
    s.applied r0 ≠ 0 ∧ s.canReadRun r0 a 2 ∧ s.canReadRun r0 d (AtomOp.regs .fadd (modsOf none).size) ∧ (s.warp r0).ctr .ld < 63 ∧
    s.lanesPass r0 .atomic (modsOf none).size.bytes (s.eaOf r0 a 0) refs ∧ (s.wgOf r0).det = true ∧
    (s.wgOf r0).partials.length + (newPartials (s.wgOf r0) r0.index (s.accs r0 (s.eaOf r0 a 0) refs fun _ => [])).length ≤ Config.partialTable ∧
    ((s.touchAccs r0 true (s.accs r0 (s.eaOf r0 a 0) refs fun _ => [])).putRun r0 d (s.applied r0) []).isOk = true := by
  refine ⟨.v 4, .g 2, detRefs, detWindow, ?_, runs ?_, ?_, readsRun ?_, readsRun ?_, ?_, passes (reaches ?_) ?_, ?_, ?_, ?_⟩ <;> decide +kernel

/-- AtomicsIssueAndAreServed: a request that may be performed, one that has been begun before it, one whose location is lost, an empty queue,
and a kept result. -/
theorem witness_AtomicServed :
    (∃ (s : State) (q : MReq), s.nextServed 0 = some q ∧ s.flightOf q = none ∧ q.served = []) ∧
    (∃ (s : State) (q : MReq), s.nextServed 0 = some q ∧ q ∈ (s.quad 0).mitten ∧ q.served ≠ [] ∧ (s.quad 0).mitten.head? ≠ some q ∧
      ∀ p ∈ (s.quad 0).mitten, p.served ≠ [] → p = q) ∧
    (∃ (s : State) (q : MReq) (f : Flight) (b : BRef), s.nextServed 0 = some q ∧ s.flightOf q = some f ∧ b ∈ q.refs ∧ s.badAt b = true) ∧
    (∃ s : State, s.nextServed 0 = none) ∧ ∃ (s : State) (x : MResult), (s.quad 0).results[0]? = some x :=
  ⟨⟨requested [asked 0 []], asked 0 [], by decide +kernel⟩, ⟨requested [asked 1 [], asked 0 [(2, 7)]], asked 0 [(2, 7)], by decide +kernel⟩,
    ⟨lostAtom, lostReq, lostFlight, windowByte 0, by decide +kernel⟩, ⟨base, by decide +kernel⟩,
    ⟨requested [], MResult.mk r0 0 0 0 [(3, 5)], by decide +kernel⟩⟩

/-- One lane of a request served alone leaves its sum in memory and the other lane to be served. -/
theorem test_serve_lane : (match exec (.mittenServe 64) (requested [asked 0 []]) with
    | .next t => decide (t.physRead (2 * 2 ^ 44) = 5 ∧ ((t.quad 0).mitten.map (·.lanes)) = [[(4, 5, 0)]])
    | _ => false) = true := by decide +kernel

/-- The warp with a page of an attribute at address 0 in the core's TLB, the interval clock of die 0 at [lo, hi], and the address
`off` in `g2` and `g3`. -/
def paged (attr : Nat) (lo hi : Nat) (off : Word) : State :=
  ((base.setG r0 2 off).modCore 0 fun c => { c with tlb := [TlbEntry.mk 1 0 0 65536 65536 1 attr true true true 0 true] }).modDie 0 fun d =>
    { d with lantern := { d.lantern with beaconed := true, earliest := lo, latest := hi } }

/-- ClocksAndBeacons: CLKIV and TIME without an order log. -/
theorem witness_ClockReads : ∃ (d : Fin 12) (e : Fin 48) (s : State) (r : Ref), s.warpRuns r ∧ (s.wgOf r).log = .off ∧
    (∀ i, i < 4 → s.pendingG r (4 * d.val + i) = false) ∧ s.pendingG r e.val = false ∧ s.pendingG r (e.val + 1) = false :=
  ⟨11, 46, base, r0, runs (by decide +kernel), by decide +kernel, by decide +kernel, by decide +kernel, by decide +kernel⟩

/-- The package with one port of die 0 up. -/
def upPort : State := base.modDie 0 fun d => { d with ports := [(0, { (Tab.get Port.init d.ports 0) with up := true })] }

/-- ClocksAndBeacons: a beacon of the fabric on the last die, the host's beacon register in host mode with a port up to report on, a KY-1S,
and a package with no port up. -/
theorem witness_Beacons : ∃ (s t u v : State), (∃ die lo hi : Nat, s.fabricBeacons = true ∧ die < s.dieCount ∧ lo ≤ hi) ∧ (t.bcnsrc = true ∧
    ((List.range t.dieCount).flatMap fun d => (t.die d).ports.filter fun p => p.2.up) ≠ []) ∧ (u.bcnsrc = false ∧ u.part = .ky1s ∧ u.fabricBeacons = false) ∧
    v.part ≠ .ky1s ∧ v.bcnsrc = false ∧ v.fabricBeacons = false :=
  ⟨upPort, { upPort with bcnsrc := true }, { base with part := .ky1s }, base, ⟨3, 5, 5, by decide +kernel, by decide +kernel, by decide⟩,
    by decide +kernel, by decide +kernel, by decide +kernel⟩

/-- StampedVersions: a stamped store of the lanes of S, one of an empty S, and one whose die's interval is too wide. -/
theorem witness_StampedStore : ∃ (d a : Reg) (b : Fin 48) (s t u : State) (r : Ref), (Instr.sts d a (.g b) none).wf = true ∧
    s.warpRuns r ∧ t.warpRuns r ∧ u.warpRuns r ∧ (s.wgOf r).log = .off ∧ (t.wgOf r).log = .off ∧ (u.wgOf r).log = .off ∧
    (∀ y ∈ [s, t, u], y.canReadRun r a 2 ∧ y.canReadRun r d (dataRegs d (modsOf none).size)) ∧ s.pendingG r b.val = false ∧ s.pendingG r (b.val + 1) = false ∧
    (s.clockWide (dieOf r.core) = false ∧ s.applied r ≠ 0 ∧ (s.warp r).st < 63 ∧
      ∃ refs, s.lanesPass r .stampStore (modsOf none).size.bytes (s.eaOf r a 0) refs) ∧
    (t.clockWide (dieOf r.core) = false ∧ t.applied r = 0) ∧ (u.clockWide (dieOf r.core) = true ∧ (u.warp r).st < 63) :=
  ⟨.v 4, .g 2, 6, paged 2 1000 1100 64, (paged 2 1000 1100 64).modWarp r0 fun w => { w with cur := 0 }, paged 2 1000 1101 64, r0,
    by decide +kernel, runs (by decide +kernel), runs (by decide +kernel), runs (by decide +kernel), by decide +kernel, by decide +kernel,
    by decide +kernel,
    (by simp only [List.forall_mem_cons]; refine ⟨⟨readsRun ?_, readsRun ?_⟩, ⟨readsRun ?_, readsRun ?_⟩, ⟨readsRun ?_, readsRun ?_⟩,
      fun _ h => (List.not_mem_nil h).elim⟩ <;> decide +kernel), by decide +kernel, by decide +kernel,
    ⟨by decide +kernel, by decide +kernel, by decide +kernel, _, passes (reaches (by decide +kernel)) (by decide +kernel)⟩, ⟨by decide +kernel, by decide +kernel⟩,
    by decide +kernel, by decide +kernel⟩

/-- A version of line `line` with a stamp on its way from warp 0. -/
def pendingOne (stamp : Nat) (arrived : Bool) : Pending := Pending.mk 1024 2 stamp 0 r0 0 1 [(0, 5)] arrived false 1 1 [0]

/-- A version may go to its line: no quiesced vault holds it and no older access goes before it. -/
def freeB (s : State) (p : Pending) : Bool := !s.heldFor p.seqNo (p.line * 64) && s.inOrder p.ref.core p.access

/-- StampedVersions: a version that is installed, one that comes too late, one that waits for a quiesced vault, one that becomes visible,
and one that does not yet. -/
theorem witness_StampVersions : ∃ (s t u v x : State) (idx : Nat) (p q : Pending), s.pending[idx]? = some p ∧ t.pending[idx]? = some p ∧
    x.pending[idx]? = some p ∧ u.pending[idx]? = some q ∧ v.pending[idx]? = some q ∧
    freeB s p = true ∧ freeB t p = true ∧ freeB x p = false ∧ u.held (q.line * 64) = false ∧ x.held (q.line * 64) = true ∧
    p.dropped = false ∧ q.dropped = false ∧ p.arrived = false ∧ q.arrived = true ∧
    s.clockReached (dieOfLine p.line) p.stamp = false ∧ t.clockReached (dieOfLine p.line) p.stamp = true ∧
    u.clockReached (dieOfLine q.line) q.stamp = true ∧ v.clockReached (dieOfLine q.line) q.stamp = false :=
  ⟨{ paged 2 1199 1200 0 with pending := [pendingOne 1100 false] }, { paged 2 1200 1201 0 with pending := [pendingOne 1100 false] },
    { paged 2 1200 1201 0 with pending := [pendingOne 1100 true] }, { paged 2 1199 1200 0 with pending := [pendingOne 1100 true] },
    ({ paged 2 1199 1200 0 with pending := [pendingOne 1100 false] } : State).modVault 0 fun x => { x with quiesce := true }, 0,
    pendingOne 1100 false, pendingOne 1100 true, by decide +kernel⟩

/-- AsOfLoads: one of the lanes of S, and one of an empty S. -/
theorem witness_AsOfLoad : ∃ (d a : Reg) (b : Fin 48) (s t : State) (r : Ref), (Instr.ldas d a (.g b) none).wf = true ∧
    s.warpRuns r ∧ t.warpRuns r ∧ s.canReadRun r a 2 ∧ t.canReadRun r a 2 ∧ s.canAwait r d (dataRegs d (modsOf none).size) ∧
    t.canAwait r d (dataRegs d (modsOf none).size) ∧
    (s.applied r ≠ 0 ∧ s.canReadUni r (.g b) 2 ∧ (s.warp r).ld < 63 ∧ s.clockWide (dieOf r.core) = false ∧
      ∃ refs, s.lanesPass r .stampLoad (modsOf none).size.bytes (s.eaOf r a 0) refs ∧ ∀ f, s.lostLanes r.core f = []) ∧ t.applied r = 0 :=
  ⟨.v 4, .g 2, 6, paged 2 1000 1100 64, (paged 2 1000 1100 64).modWarp r0 fun w => { w with cur := 0 }, r0,
    by decide +kernel, runs (by decide +kernel), runs (by decide +kernel), readsRun (by decide +kernel), readsRun (by decide +kernel),
    awaits (by decide +kernel), awaits (by decide +kernel),
    ⟨by decide +kernel, readsUni (by decide +kernel), by decide +kernel, by decide +kernel, _, passes (reaches (by decide +kernel)) (by decide +kernel), fun f => kept (by decide +kernel) f⟩,
    by decide +kernel⟩

/-- An as-of load at a stamp, of byte 64 of the page, that waits for its answer. -/
def asOf (stamp : Nat) : LdasOp :=
  { ref := r0, seqNo := 0, t := stamp, dest := .v 4, size := 1, pc := 0, next := 4, mask := 1,
    lanes := [{ lane := 0, threads := [0], addr := 64, refs := [BRef.mk 65600 1 1 true false 2], data := [] }], got := [] }

/-- That load of two lanes. -/
def asOfTwo : LdasOp := { asOf 900 with lanes := (asOf 900).lanes ++ [{ lane := 1, threads := [1], addr := 65, refs := [BRef.mk 65601 1 1 true false 2], data := [] }] }

/-- The package with a load waiting and a version of stamp 500 as the oldest retained one of its line. -/
def asking (o : LdasOp) : State :=
  { (paged 2 1000 1100 64).modCore 0 (fun c => { c with ldas := [o] }) with
    tags := [(1025, (1, 1))]
    stamped := [(1025, [Version.mk 500 0 (List.replicate 64 7) true])] }

/-- The lane 0 of a waiting load, and the load with its answer. -/
def laneOf (o : LdasOp) : LaneAcc := (o.lanes.find? fun l => decide (l.lane = 0)).getD { lane := 0, threads := [], addr := 0, refs := [], data := [] }
def answered (s : State) (o : LdasOp) : LdasOp := { o with got := o.got ++ [(0, s.laneAsOf o.t (laneOf o))] }

/-- A waiting load whose lane 0 is not answered. -/
def waitsB (s : State) (o : LdasOp) : Bool :=
  decide ((s.core 0).ldas.find? (fun o => decide (o.ref = r0)) = some o) && decide (o.open_.find? (fun l => decide (l.lane = 0)) = some (laneOf o))

/-- The load of stamp 900 for a queue register, which is full or not. -/
def asOfQueue : LdasOp := { asOf 900 with dest := .q 3 }
def fullQueue (n : Nat) : State :=
  (asking asOfQueue).modWgOf r0 fun g => g.setQueue 3 { g.queue 3 with rows := List.replicate n { row := rowZero, mark := none, bad := false } }

/-- The answer of lane 0 may come and is the last. -/
def lastB (s : State) (o : LdasOp) : Bool := waitsB s o && s.ldasMay o (laneOf o) && (answered s o).open_.isEmpty

/-- AsOfLoads: the last answer, the first of two, one that may not come yet, one whose stamp lies below every retained version, and the last
answer of a load for a queue register with room and without. -/
theorem witness_AsOfAnswers :
    (lastB (asking (asOf 900)) (asOf 900) = true ∧ (answered (asking (asOf 900)) (asOf 900)).expired = [] ∧
      (asking (asOf 900)).destRoom (answered (asking (asOf 900)) (asOf 900)).fills = true) ∧
    (waitsB (asking asOfTwo) asOfTwo = true ∧ (asking asOfTwo).ldasMay asOfTwo (laneOf asOfTwo) = true ∧
      (answered (asking asOfTwo) asOfTwo).open_ ≠ []) ∧
    (waitsB (asking (asOf 901)) (asOf 901) = true ∧ (asking (asOf 901)).ldasMay (asOf 901) (laneOf (asOf 901)) = false) ∧
    (lastB (asking (asOf 499)) (asOf 499) = true ∧ (answered (asking (asOf 499)) (asOf 499)).expired ≠ [] ∧
      ∃ m ∈ (asOf 499).lanes, (m.lane, none) ∈ (answered (asking (asOf 499)) (asOf 499)).got) ∧
    ((∀ n ∈ [15, 16], lastB (fullQueue n) asOfQueue = true ∧ (answered (fullQueue n) asOfQueue).expired = []) ∧
      (fullQueue 15).destRoom (answered (fullQueue 15) asOfQueue).fills = true ∧ (fullQueue 16).destRoom (answered (fullQueue 16) asOfQueue).fills = false) := by
  decide +kernel

theorem objAt {s : State} {r : Ref} {a : DWord} {n off : Nat} (h : decide (a.toNat < 2 ^ 56 ∧ bitsOf a.toNat 55 53 = 2 ∧
    bitsOf a.toNat 52 24 = 0 ∧ off = a.toNat % 2 ^ 24 ∧ off % n = 0 ∧ off + n ≤ (s.wgOf r).qsram) = true) : s.objOk r a n off := by
  unfold State.objOk
  exact of_decide_eq_true h

/-- A barrier object at offset 0 of the window, its address in `g2` and `g3`, and `x` in `g5`. -/
def barred (b : Bar) (x : Word) : State := (((window 0).setBar 0 0 0 b).tagWords 0 0 0 1).setG r0 5 x

/-- An object with an expected count of 3. -/
def bar3 (pending : Nat) (bytes : Int) (phase : Word) : Bar := { expected := 3, pending := pending, bytes := bytes, phase := phase, flags := 1 }

/-- BarrierObjects: the premises that every clause shares, for an object of 16 bytes. -/
def barFits (s : State) : Prop := s.warpRuns r0 ∧ s.canReadUni r0 (.g 2) 2 ∧ s.canReadUni r0 (.g 5) 1 ∧ s.objOk r0 (s.pairOf r0 2) 16 0 ∧
  s.quiet r0 = true ∧ s.quietAt r0 0 16 = true ∧ ∀ l ∈ (s.core r0.core).l1, l.dom = s.domOf r0 → l.dirty = 0

theorem barFits_barred (b : Bar) (x : Word) (h : (runsB (barred b x) r0 && readUniB (barred b x) r0 (.g 2) 2 && readUniB (barred b x) r0 (.g 5) 1 &&
    decide ((barred b x).pairOf r0 2 = 0x40000000000000#64) && decide (4096 ≤ ((barred b x).wgOf r0).qsram) && (barred b x).quiet r0 &&
    (barred b x).quietAt r0 0 16 && ((barred b x).core r0.core).l1.isEmpty) = true) : barFits (barred b x) := by
  simp only [Bool.and_eq_true, decide_eq_true_eq, List.isEmpty_iff] at h
  obtain ⟨⟨⟨⟨⟨⟨⟨h1, h2⟩, h3⟩, h4⟩, h5⟩, h6⟩, h7⟩, h8⟩ := h
  refine ⟨runs h1, readsUni h2, readsUni h3, ?_, h6, h7, by rw [h8]; intro l hl; cases hl⟩
  rw [h4]
  exact ⟨by decide, by decide, by decide, by decide, by decide, by omega⟩

/-- BarrierObjects: BARINIT of a free object with the largest count, and of one that holds a barrier. -/
theorem witness_BarrierStarts : ∃ s t : State, barFits s ∧ barFits t ∧ (Reg.g 5).isUniSrc = true ∧
    (s.uniRead r0 (.g 5)).toNat = 65535 ∧ (s.bar 0 0 0).flags.testBit 0 = false ∧
    1 ≤ (t.uniRead r0 (.g 5)).toNat ∧ (t.bar 0 0 0).flags.testBit 0 = true ∧ t.dirtyHeld 0 (t.domOf r0) = false :=
  ⟨barred { expected := 0, pending := 0, bytes := 0, phase := 0, flags := 0 } 65535, barred (bar3 3 0 0) 1,
    barFits_barred _ _ (by decide +kernel), barFits_barred _ _ (by decide +kernel), rfl, by decide +kernel, by decide +kernel,
    by decide +kernel, by decide +kernel, by decide +kernel⟩

/-- BarrierObjects: an arrival with bytes outstanding, and the last arrival. -/
theorem witness_BarrierArrivals : ∃ s t : State, barFits s ∧ barFits t ∧
    ((s.bar 0 0 0).flags.testBit 0 = true ∧ (s.bar 0 0 0).flags.testBit 2 = false ∧ 0 ≤ (s.uniRead r0 (.g 5)).toInt ∧ (s.bar 0 0 0).pending ≠ 0 ∧
      (s.bar 0 0 0).bytes + (s.uniRead r0 (.g 5)).toInt ≤ 2 ^ 31 - 1 ∧
      ¬((s.bar 0 0 0).pending = 1 ∧ (s.bar 0 0 0).bytes + (s.uniRead r0 (.g 5)).toInt = 0)) ∧
    ((t.bar 0 0 0).flags.testBit 0 = true ∧ (t.bar 0 0 0).flags.testBit 2 = false ∧ 0 ≤ (t.uniRead r0 (.g 5)).toInt ∧
      (t.bar 0 0 0).pending = 1 ∧ (t.bar 0 0 0).bytes + (t.uniRead r0 (.g 5)).toInt = 0) :=
  ⟨barred (bar3 1 (2 ^ 31 - 2) 0) 1, barred (bar3 1 (-128) 0) 128, barFits_barred _ _ (by decide +kernel), barFits_barred _ _ (by decide +kernel),
    by decide +kernel, by decide +kernel⟩

/-- BarrierObjects: each trap of BARINIT and ARRIVE. -/
theorem witness_BarrierTraps :
    (∃ s : State, s.warpRuns r0 ∧ s.canReadUni r0 (.g 2) 2 ∧ s.canReadUni r0 (.g 5) 1 ∧ inWindow (s.pairOf r0 2) = false) ∧
    (∃ s : State, s.warpRuns r0 ∧ s.canReadUni r0 (.g 2) 2 ∧ s.canReadUni r0 (.g 5) 1 ∧ inWindow (s.pairOf r0 2) = true ∧
      winOff (s.pairOf r0 2) % 16 ≠ 0) ∧
    (∃ s : State, s.warpRuns r0 ∧ s.canReadUni r0 (.g 2) 2 ∧ s.canReadUni r0 (.g 5) 1 ∧ inWindow (s.pairOf r0 2) = true ∧
      winOff (s.pairOf r0 2) % 16 = 0 ∧ (s.wgOf r0).qsram < winOff (s.pairOf r0 2) + 16) ∧
    (∃ s : State, barFits s ∧ (s.uniRead r0 (.g 5)).toNat = 65536) ∧
    (∃ s : State, barFits s ∧ (s.bar 0 0 0).flags.testBit 0 = false) ∧
    (∃ s : State, barFits s ∧ (s.bar 0 0 0).flags.testBit 0 = true ∧ (s.bar 0 0 0).flags.testBit 2 = true) ∧
    (∃ s : State, barFits s ∧ (s.bar 0 0 0).flags.testBit 0 = true ∧ (s.bar 0 0 0).flags.testBit 2 = false ∧
      2 ^ 31 - 1 < (s.bar 0 0 0).bytes + (s.uniRead r0 (.g 5)).toInt) :=
  ⟨⟨base, runs (by decide +kernel), readsUni (by decide +kernel), readsUni (by decide +kernel), by decide +kernel⟩,
    ⟨window 8, runs (by decide +kernel), readsUni (by decide +kernel), readsUni (by decide +kernel), by decide +kernel, by decide +kernel⟩,
    ⟨window 4096, runs (by decide +kernel), readsUni (by decide +kernel), readsUni (by decide +kernel), by decide +kernel, by decide +kernel,
      by decide +kernel⟩,
    ⟨barred (bar3 3 0 0) 65536, barFits_barred _ _ (by decide +kernel), by decide +kernel⟩,
    ⟨barred { bar3 3 0 0 with flags := 0 } 0, barFits_barred _ _ (by decide +kernel), by decide +kernel⟩,
    ⟨barred { bar3 3 0 0 with flags := 5 } 0, barFits_barred _ _ (by decide +kernel), by decide +kernel⟩,
    ⟨barred (bar3 3 (2 ^ 31 - 1) 0) 1, barFits_barred _ _ (by decide +kernel), by decide +kernel⟩⟩

/-- PhaseAndSlotWaits: a phase that has moved, one that has not, a join's phase that is reached and one just short of it, and an
object that holds no barrier. -/
theorem witness_PhaseWaits : ∃ s t u v : State, barFits s ∧ barFits t ∧ barFits u ∧ barFits v ∧
    ((s.bar 0 0 0).flags.testBit 0 = true ∧ (s.bar 0 0 0).phase ≠ s.uniRead r0 (.g 5) ∧
      ((s.bar 0 0 0).phase - s.uniRead r0 (.g 5)).toNat < 2 ^ 31) ∧
    ((t.bar 0 0 0).flags.testBit 0 = true ∧ (t.bar 0 0 0).phase = t.uniRead r0 (.g 5)) ∧
    ((u.bar 0 0 0).flags.testBit 0 = true ∧ 2 ^ 31 ≤ ((u.bar 0 0 0).phase - u.uniRead r0 (.g 5)).toNat) ∧
    (v.bar 0 0 0).flags.testBit 0 = false :=
  ⟨barred (bar3 3 0 1) 0, barred (bar3 3 0 7) 7, barred (bar3 3 0 7) 8, barred { bar3 3 0 0 with flags := 0 } 0,
    barFits_barred _ _ (by decide +kernel), barFits_barred _ _ (by decide +kernel), barFits_barred _ _ (by decide +kernel),
    barFits_barred _ _ (by decide +kernel), by decide +kernel, by decide +kernel, by decide +kernel, by decide +kernel⟩

/-- A buffer of 4 slots of 128 bytes at offset 0 of the window, its barriers at 32 and 48 with some flags, `filled` slots filled, and
`x` in `g5`. -/
def buffered (flags filled : Nat) (x : Word) : State :=
  let s := ((((window 0).winWrite 0 0 0 4 512).winWrite 0 0 4 4 128).winWrite 0 0 12 4 32).winWrite 0 0 16 4 48
  let b : Bar := { expected := 0, pending := 0, bytes := 0, phase := 0, flags := flags }
  (((((s.winWrite 0 0 8 2 4).setBar 0 0 32 { b with phase := BitVec.ofNat 32 filled }).setBar 0 0 48 b).tagWords 0 0 32 2).tagWords 0 0 0
    (if flags = 5 then 2 else 0)).setG r0 5 x

/-- The premises that every clause of the circular buffers shares. -/
def bufFits (s : State) : Prop := s.warpRuns r0 ∧ s.canReadUni r0 (.g 2) 2 ∧ s.canReadUni r0 (.g 5) 1 ∧ s.objOk r0 (s.pairOf r0 2) 32 0 ∧
  s.quiet r0 = true

/-- PhaseAndSlotWaits: a buffer that CBINIT sets up; with all slots filled, a wait that passes; with one too few, one that does not;
slots that are freed; a descriptor that is not set up; and counts that are not right. -/
theorem witness_CircularBuffers :
    (∃ s : State, bufFits s ∧ 1 ≤ (s.uniRead r0 (.g 5)).toNat ∧ s.cbFields 0 0 (s.cb 0 0 0) (s.uniRead r0 (.g 5)).toNat = none ∧
      (s.cb 0 0 0).fill ≠ (s.cb 0 0 0).free ∧
      (∀ o ∈ [(s.cb 0 0 0).fill, (s.cb 0 0 0).free], rangesMeet o 16 (s.cb 0 0 0).base ((s.uniRead r0 (.g 5)).toNat * (s.cb 0 0 0).slotbytes) = false ∧
        rangesMeet o 16 0 32 = false ∧ (s.bar 0 0 o).flags.testBit 1 = false) ∧
      (∀ o ∈ (s.core 0).cpops, o.ref.set = 0 → o.intoCb 0 = false)) ∧
    (∃ s : State, bufFits s ∧ (s.uniRead r0 (.g 5)).toNat = 65536) ∧
    (∃ s : State, bufFits s ∧ s.cbReady 0 0 0 = true ∧ (s.uniRead r0 (.g 5)).toNat = (s.cb 0 0 0).slots ∧
      (s.uniRead r0 (.g 5)).toNat ≤ s.cbFilled 0 0 0 ∧ s.dirtyHeld 0 (s.domOf r0) = false) ∧
    (∃ s : State, bufFits s ∧ s.cbReady 0 0 0 = true ∧ 1 ≤ (s.uniRead r0 (.g 5)).toNat ∧ (s.uniRead r0 (.g 5)).toNat ≤ (s.cb 0 0 0).slots ∧
      s.cbFilled 0 0 0 < (s.uniRead r0 (.g 5)).toNat) ∧
    (∃ s : State, bufFits s ∧ s.cbReady 0 0 0 = false) :=
  ⟨⟨buffered 1 0 4, ⟨runs (by decide +kernel), readsUni (by decide +kernel), readsUni (by decide +kernel), objAt (by decide +kernel), by decide +kernel⟩,
      by decide +kernel, by decide +kernel, by decide +kernel, by decide +kernel, by decide +kernel⟩,
    ⟨buffered 1 0 65536, ⟨runs (by decide +kernel), readsUni (by decide +kernel), readsUni (by decide +kernel), objAt (by decide +kernel), by decide +kernel⟩,
      by decide +kernel⟩,
    ⟨buffered 5 4 4, ⟨runs (by decide +kernel), readsUni (by decide +kernel), readsUni (by decide +kernel), objAt (by decide +kernel), by decide +kernel⟩,
      by decide +kernel, by decide +kernel, by decide +kernel, by decide +kernel⟩,
    ⟨buffered 5 2 3, ⟨runs (by decide +kernel), readsUni (by decide +kernel), readsUni (by decide +kernel), objAt (by decide +kernel), by decide +kernel⟩,
      by decide +kernel, by decide +kernel, by decide +kernel, by decide +kernel⟩,
    ⟨buffered 1 2 1, ⟨runs (by decide +kernel), readsUni (by decide +kernel), readsUni (by decide +kernel), objAt (by decide +kernel), by decide +kernel⟩,
      by decide +kernel⟩⟩

/-- PhaseAndSlotWaits: a buffer whose field is bad, one whose barrier has waiters, and counts that CBACQ and CBREL refuse. -/
theorem witness_CircularBuffers_misuse :
    (∃ s : State, bufFits s ∧ 1 ≤ (s.uniRead r0 (.g 5)).toNat ∧ (s.uniRead r0 (.g 5)).toNat ≤ 65535 ∧
      (s.cbFields 0 0 (s.cb 0 0 0) (s.uniRead r0 (.g 5)).toNat).isSome = true) ∧
    (∃ s : State, bufFits s ∧ 1 ≤ (s.uniRead r0 (.g 5)).toNat ∧ (s.uniRead r0 (.g 5)).toNat ≤ 65535 ∧
      s.cbFields 0 0 (s.cb 0 0 0) (s.uniRead r0 (.g 5)).toNat = none ∧
      ∃ o ∈ [(s.cb 0 0 0).fill, (s.cb 0 0 0).free], (s.bar 0 0 o).flags.testBit 1 = true) ∧
    (∃ s : State, bufFits s ∧ s.cbReady 0 0 0 = true ∧ (s.cb 0 0 0).slots < (s.uniRead r0 (.g 5)).toNat ∧
      s.cbFilled 0 0 0 < (s.uniRead r0 (.g 5)).toNat) :=
  ⟨⟨buffered 1 0 65535, ⟨runs (by decide +kernel), readsUni (by decide +kernel), readsUni (by decide +kernel), objAt (by decide +kernel), by decide +kernel⟩,
      by decide +kernel⟩,
    ⟨buffered 3 0 4, ⟨runs (by decide +kernel), readsUni (by decide +kernel), readsUni (by decide +kernel), objAt (by decide +kernel), by decide +kernel⟩,
      by decide +kernel⟩,
    ⟨buffered 5 4 5, ⟨runs (by decide +kernel), readsUni (by decide +kernel), readsUni (by decide +kernel), objAt (by decide +kernel), by decide +kernel⟩,
      by decide +kernel⟩⟩

/-- Fields (offset, bytes, value) stored at offset 256 of the window, whose address stands in `g2` and `g3`. -/
def described (fields : List (Nat × Nat × Nat)) : State :=
  fields.foldl (fun t e => t.winWrite 0 0 (256 + e.1) e.2.1 e.2.2) (window 256)

/-- A copy of one row of 128 bytes from offset 1024 of the window to offset 2048, with a value of its reserved word. -/
def copyFields (rsv : Nat) : List (Nat × Nat × Nat) :=
  [(0, 8, 0x40000000000400), (8, 8, 0x40000000000800), (32, 4, 128), (36, 4, 1), (56, 4, 0xFFFFFFFF), (60, 4, rsv)]

/-- A chain of one addition of an immediate over four binary32 elements in place, with a value of its reserved word. -/
def chainFields (rsv : Nat) : List (Nat × Nat × Nat) :=
  [(0, 8, 0x40000000000400), (16, 8, 0x40000000000400), (32, 4, 4), (36, 1, 8), (38, 1, 8), (39, 1, 1), (40, 4, rsv), (64, 1, 1), (65, 1, 2), (68, 4, 0x3F800000)]

/-- The premises that COPY and VCHAIN share. -/
def engineFits (s : State) : Prop := s.warpRuns r0 ∧ s.canReadUni r0 (.g 2) 2 ∧ (s.warp r0).cp < 63

/-- EngineOperationsIssue: a copy and a chain that are handed over, and one of each that traps. -/
theorem witness_EngineOperations : ∃ s t u v : State, engineFits s ∧ engineFits t ∧ engineFits u ∧ engineFits v ∧
    (∃ bs s1, s.readStruct r0 (s.pairOf r0 2) 64 64 = .ok (bs, s1) ∧ s.copyChecks r0 (copyDesc s bs) bs = .ok ()) ∧
    (∃ bs s1 x, t.readStruct r0 (t.pairOf r0 2) 64 64 = .ok (bs, s1) ∧ t.copyChecks r0 (copyDesc t bs) bs = .error (.trap x)) ∧
    (∃ bs s1, u.readStruct r0 (u.pairOf r0 2) 128 64 = .ok (bs, s1) ∧ u.chainChecks r0 bs = .ok ()) ∧
    (∃ bs s1 x, v.readStruct r0 (v.pairOf r0 2) 128 64 = .ok (bs, s1) ∧ v.chainChecks r0 bs = .error (.trap x)) := by
  refine ⟨described (copyFields 0), described (copyFields 1), described (chainFields 0), described (chainFields 1),
    ⟨runs (by decide +kernel), readsUni (by decide +kernel), by decide +kernel⟩,
    ⟨runs (by decide +kernel), readsUni (by decide +kernel), by decide +kernel⟩,
    ⟨runs (by decide +kernel), readsUni (by decide +kernel), by decide +kernel⟩,
    ⟨runs (by decide +kernel), readsUni (by decide +kernel), by decide +kernel⟩, ?_, ?_, ?_, ?_⟩
  · exact ⟨_, _, structs (by decide +kernel), okUnit (by decide +kernel)⟩
  · obtain ⟨x, h⟩ := trapOf (e := (described (copyFields 1)).copyChecks r0
      (copyDesc (described (copyFields 1)) (structOf (described (copyFields 1)) r0 ((described (copyFields 1)).pairOf r0 2) 64 64).1)
      (structOf (described (copyFields 1)) r0 ((described (copyFields 1)).pairOf r0 2) 64 64).1) (by decide +kernel)
    exact ⟨_, _, x, structs (by decide +kernel), h⟩
  · exact ⟨_, _, structs (by decide +kernel), okUnit (by decide +kernel)⟩
  · obtain ⟨x, h⟩ := trapOf (e := (described (chainFields 1)).chainChecks r0 (structOf (described (chainFields 1)) r0 ((described (chainFields 1)).pairOf r0 2) 128 64).1)
      (by decide +kernel)
    exact ⟨_, _, x, structs (by decide +kernel), h⟩

/-- EngineOperationsIssue: a descriptor of a window over 16 elements of 128 bytes. -/
theorem witness_WindowBinding : ∃ (s : State) (bs : List Byte) (s1 : State), s.warpRuns r0 ∧ s.slotQuiet r0 15 = true ∧
    s.canReadUni r0 (.g 2) 2 ∧ s.readStruct r0 (s.pairOf r0 2) 32 32 = .ok (bs, s1) ∧ bitsOf (field bs 0 8) 55 53 ≠ 3 ∧
    field bs 21 1 = 6 ∧ field bs 8 8 % 4 = 0 ∧ field bs 8 8 < 2 ^ 56 ∧ bitsOf (field bs 8 8) 55 53 ≤ 2 ∧ field bs 16 4 ≠ 0 ∧
    field bs 16 4 * 2 ^ field bs 20 1 ≤ 2 ^ 45 ∧ field bs 20 1 ≤ 12 ∧ ∀ x ∈ bs.drop 22, x = 0 :=
  ⟨described [(0, 8, 0x1000), (8, 8, 0x2000), (16, 4, 16), (20, 1, 7), (21, 1, 6)], _, _, runs (by decide +kernel), by decide +kernel,
    readsUni (by decide +kernel), structs (by decide +kernel), by decide +kernel⟩

/-- A copy of 256 bytes from `src` to offset 2048 of the window, 1 to 8 bytes as a signal copy, or into a buffer at offset 0. -/
def copyOf (src : DWord) (bytes : Nat) (signal toCb : Bool) (pkg : Option Nat) : CopyDesc :=
  CopyDesc.mk src (if toCb then 0x40000000000000 else 0x40000000000800) 0 0 bytes 1 0 0 0 0 toCb signal 0 pkg

def copying (s : State) (d : CopyDesc) (landed : List (Nat × Nat)) (f : Option OpFault) : State × CpOp :=
  let o := CpOp.mk 1 0 r0 1 0 .quad (.copy d) landed [] false none 0 0 f false
  (s.modCore 0 fun c => { c with cpops := [o] }, o)

def copyRuns (s : State × CpOp) (d : CopyDesc) : Prop := s.1.cpGoing 0 1 = some s.2 ∧ s.2.kind = .copy d

/-- The window in a package with a port up. -/
def linkedWindow : State := { window 0 with dies := upPort.dies }

/-- EngineEvents: a tripped die. -/
theorem witness_TrippedEngines : ∃ u : State, (u.die (dieOf 0)).tripped = true := ⟨base.modDie 0 fun d => { d with tripped := true }, by decide +kernel⟩

/-- EngineEvents: a granule that lands, one whose source has no translation, a signal copy, a copy that is done, a fault with the
supervisor, a remote granule without a route and with one, and a piece of a stream. -/
theorem witness_CopyEvents :
    (∃ s d s1, copyRuns s d ∧ s.1.granuleMay s.2 d 0 1 = true ∧ s.1.landGranule s.2 d 0 1 = .ok s1) ∧
    (∃ s d f, copyRuns s d ∧ s.1.granuleMay s.2 d 0 0 = true ∧ s.1.landGranule s.2 d 0 0 = .error f) ∧
    (∃ s d, copyRuns s d ∧ d.signal = true ∧ s.1.firstCp 0 s.2 = true ∧ s.2.complete = false) ∧
    (∃ s d, copyRuns s d ∧ s.2.fault = none ∧ s.2.complete = false ∧ s.1.copyDone s.2 d = true) ∧
    (∃ s d f, copyRuns s d ∧ s.2.fault = some f ∧ f.superv = true) ∧
    (∃ s d, copyRuns s d ∧ d.pkg.isSome = true ∧ d.toCb = false ∧ s.1.routed = false) ∧
    (∃ s d, copyRuns s d ∧ d.pkg.isSome = true ∧ d.toCb = false ∧ d.bar = 0 ∧ s.1.routed = true ∧ s.2.landed.contains (0, 0) = true ∧
      s.2.acked.contains (0, 0) = false ∧ s.2.fault = none) ∧
    (∃ s d, copyRuns s d ∧ s.2.fault = none ∧ s.2.complete = false ∧ d.toCb = true ∧ s.2.slotOf = none ∧ s.1.cbBusy 0 s.2 d = false ∧
      d.signal = false ∧ s.1.cbReady 0 0 (winOff d.dstA) = true ∧ s.2.pieces * (s.1.cb 0 0 (winOff d.dstA)).slotbytes < d.rowbytes * d.rows ∧
      s.1.cbFilled 0 0 (winOff d.dstA) + 1 ≤ (s.1.cb 0 0 (winOff d.dstA)).slots) := by
  refine ⟨?_, ?_, ?_, ?_, ?_, ?_, ?_, ?_⟩
  · obtain ⟨x, h⟩ := okOf (e := (copying (window 0) (copyOf 0x40000000000400 256 false false none) [] none).1.landGranule
      (copying (window 0) (copyOf 0x40000000000400 256 false false none) [] none).2 (copyOf 0x40000000000400 256 false false none) 0 1) (by decide +kernel)
    exact ⟨copying (window 0) (copyOf 0x40000000000400 256 false false none) [] none, copyOf 0x40000000000400 256 false false none, x,
      ⟨by decide +kernel, rfl⟩, by decide +kernel, h⟩
  · obtain ⟨x, h⟩ := errOf (e := (copying (window 0) (copyOf 0x400 128 false false none) [] none).1.landGranule
      (copying (window 0) (copyOf 0x400 128 false false none) [] none).2 (copyOf 0x400 128 false false none) 0 0) (by decide +kernel)
    exact ⟨copying (window 0) (copyOf 0x400 128 false false none) [] none, copyOf 0x400 128 false false none, x,
      ⟨by decide +kernel, rfl⟩, by decide +kernel, h⟩
  · exact ⟨copying (window 0) (copyOf 0x40000000000400 8 true false none) [] none, _, ⟨by decide +kernel, rfl⟩, rfl, by decide +kernel, rfl⟩
  · exact ⟨copying (window 0) (copyOf 0x40000000000400 128 false false none) [(0, 0)] none, _, ⟨by decide +kernel, rfl⟩, rfl, rfl, by decide +kernel⟩
  · exact ⟨copying (window 0) (copyOf 0x400 128 false false none) [] (some (OpFault.mk .pageNotPresent 0x400 none true)), _, _,
      ⟨by decide +kernel, rfl⟩, rfl, rfl⟩
  · exact ⟨copying (window 0) (copyOf 0x40000000000400 128 false false (some 5)) [] none, _, ⟨by decide +kernel, rfl⟩, rfl, rfl, by decide +kernel⟩
  · exact ⟨copying linkedWindow (copyOf 0x40000000000400 128 false false (some 5)) [(0, 0)] none, _, ⟨by decide +kernel, rfl⟩, rfl, rfl, rfl,
      by decide +kernel, rfl, rfl, rfl⟩
  · exact ⟨copying (buffered 5 3 0) (copyOf 0x40000000000400 128 false true none) [] none, _, ⟨by decide +kernel, rfl⟩, rfl, rfl, rfl, rfl,
      by decide +kernel, rfl, by decide +kernel, by decide +kernel, by decide +kernel⟩

/-- EngineEvents: the last operation of a warp completes. -/
theorem witness_CopyLeavesCounter : ∃ s d, copyRuns s d ∧ s.2.ref.core = 0 ∧ s.2.ref.isSlice = false ∧ s.2.fault = none ∧ s.2.complete = false ∧
    s.1.copyDone s.2 d = true ∧ ∀ x ∈ (s.1.core 0).cpops, x.ref = s.2.ref → x = s.2 :=
  ⟨copying (window 0) (copyOf 0x40000000000400 128 false false none) [(0, 0)] none, _, ⟨by decide +kernel, rfl⟩, rfl, rfl, rfl, rfl,
    by decide +kernel, by decide +kernel⟩

/-- EngineEvents: the first byte of a run. -/
theorem witness_GranulesCover : ∃ _start n c : Nat, c < n := ⟨127, 2, 0, by decide⟩

def chaining (src : DWord) : State × CpOp :=
  let d := ChainDesc.mk src 0 src 0 2 8 0 8 [(1, 1, 0)]
  let o := CpOp.mk 1 0 r0 1 0 .quad (.chain d) [] [] false none 0 0 none false
  ((window 0).modCore 0 fun c => { c with cpops := [o] }, o)

/-- EngineEvents: a chain that completes, and one whose input has no translation. -/
theorem witness_ChainEvents :
    (∃ s d i s1, s = chaining 0x40000000000400 ∧ s.1.cpGoing 0 1 = some s.2 ∧ s.2.kind = .chain d ∧ s.1.chainMay s.2 d = true ∧
      s.1.chainAll s.2 d = (i, none, s1)) ∧
    (∃ s d i f s1, s = chaining 0x400 ∧ s.1.cpGoing 0 1 = some s.2 ∧ s.2.kind = .chain d ∧ s.1.chainMay s.2 d = true ∧
      s.1.chainAll s.2 d = (i, some f, s1)) := by
  have none_ {p : Nat × Option OpFault × State} (h : p.2.1.isNone = true) : p = (p.1, none, p.2.2) := by
    obtain ⟨i, f, t⟩ := p; cases f <;> simp_all
  have some_ {p : Nat × Option OpFault × State} (h : p.2.1.isSome = true) : p = (p.1, some (p.2.1.get h), p.2.2) := by
    obtain ⟨i, f, t⟩ := p; cases f <;> simp_all
  exact ⟨⟨_, _, _, _, rfl, by decide +kernel, rfl, by decide +kernel, none_ (by decide +kernel)⟩,
    ⟨_, _, _, _, _, rfl, by decide +kernel, rfl, by decide +kernel, some_ (by decide +kernel)⟩⟩

/-- The workgroup with 64 KiB of quad SRAM, holding the array state, which `f` changes; fields (offset, bytes, value) stored at
offset 60 KiB of its window, whose address stands in `g2` and `g3`. -/
def arrayed (fields : List (Nat × Nat × Nat)) (f : ArrayState → ArrayState) : State :=
  fields.foldl (fun t e => t.winWrite 0 0 (61440 + e.1) e.2.1 e.2.2)
    ((((base.modWgOf r0 fun g => { g with qsram := 65536, granules := List.range 16 }).setG r0 2 61440).setG r0 3 0x00400000).modArray 0
      fun a => f { a with holder := some 0 })

/-- The premises that the instructions of the array state share. -/
def holds (s : State) : Prop := s.warpRuns r0 ∧ (s.array r0.core).holder = some r0.set

/-- TileInstructions: no live tile, a live one, the last tile of the configuration and the first one outside it. -/
theorem witness_TileInstructions : ∃ s t : State, holds s ∧ holds t ∧ (s.array 0).queued = [] ∧ (s.array 0).live = 0 ∧
    (t.array 0).queued = [] ∧ (t.array 0).live ≠ 0 ∧
    (∃ tile : Fin 16, tile.val < tileCount (s.array 0).cfg ∧ (s.array 0).tileQuiet tile.val = true ∧ s.arrRoom r0 = .ok ()) ∧
    (∃ tile : Fin 16, tileCount (s.array 0).cfg ≤ tile.val) :=
  ⟨arrayed [] id, arrayed [] fun a => { a with live := 1 }, ⟨runs (by decide +kernel), by decide +kernel⟩, ⟨runs (by decide +kernel), by decide +kernel⟩,
    by decide +kernel, by decide +kernel, by decide +kernel, by decide +kernel,
    ⟨7, by decide +kernel, by decide +kernel, okUnit (by decide +kernel)⟩, 8, by decide +kernel⟩

/-- TileInstructions: the last row slice, a slice whose index wraps, the first index outside, a slice of an empty set, and a bad row. -/
theorem witness_SliceInstructions : ∃ (tile : Fin 8) (s t u v x : State), holds s ∧ holds t ∧ holds u ∧ v.warpRuns r0 ∧ holds x ∧
    (∀ y ∈ [s, t, u, v, x], y.canWriteRun r0 [] (.v 188) 4) ∧ (∀ y ∈ [s, t, u, x], y.applied r0 ≠ 0 ∧ y.canReadUni r0 (.g 5) 1 ∧
      y.canReadRun r0 (.v 188) 4) ∧ sliceTile tile none < tileCount (s.array 0).cfg ∧ (s.array 0).tileQuiet (sliceTile tile none) = true ∧
    ((s.greg r0 5).toNat + 63) % 2 ^ 32 = tileRows (s.array 0).cfg - 1 ∧ s.soundTile r0 (sliceTile tile none) false 127 = .ok () ∧
    ((t.greg r0 5).toNat + 63) % 2 ^ 32 = 62 ∧ ((u.greg r0 5).toNat + 63) % 2 ^ 32 = tileRows (u.array 0).cfg ∧ v.applied r0 = 0 ∧
    x.soundTile r0 (sliceTile tile none) false 127 ≠ .ok () :=
  ⟨7, (arrayed [] id).setG r0 5 64, (arrayed [] id).setG r0 5 0xFFFFFFFF, (arrayed [] id).setG r0 5 65,
    (arrayed [] id).modWarp r0 fun w => { w with cur := 0 }, (arrayed [] fun a => { a with badRows := [(7, 127)] }).setG r0 5 64,
    ⟨runs (by decide +kernel), by decide +kernel⟩, ⟨runs (by decide +kernel), by decide +kernel⟩, ⟨runs (by decide +kernel), by decide +kernel⟩,
    runs (by decide +kernel), ⟨runs (by decide +kernel), by decide +kernel⟩,
    (by simp only [List.forall_mem_cons]; refine ⟨writesRun ?_, writesRun ?_, writesRun ?_, writesRun ?_, writesRun ?_, fun _ h => (List.not_mem_nil h).elim⟩ <;>
      decide +kernel),
    (by simp only [List.forall_mem_cons]; refine ⟨⟨?_, readsUni ?_, readsRun ?_⟩, ⟨?_, readsUni ?_, readsRun ?_⟩, ⟨?_, readsUni ?_, readsRun ?_⟩,
      ⟨?_, readsUni ?_, readsRun ?_⟩, fun _ h => (List.not_mem_nil h).elim⟩ <;> decide +kernel),
    by decide +kernel, by decide +kernel, by decide +kernel, okUnit (by decide +kernel), by decide +kernel, by decide +kernel, by decide +kernel,
    fun h => by
      have : ((arrayed [] fun a => { a with badRows := [(7, 127)] }).setG r0 5 64).soundTile r0 (sliceTile 7 none) false 127 |>.isOk := by rw [h]; rfl
      exact absurd this (by decide +kernel)⟩

/-- ArrayOperationsIssue: legal descriptors of LOADW and MLOOP without scales, and of MMASK. -/
theorem witness_ArrayOperations :
    (∃ s bs s1, holds s ∧ s.canReadUni r0 (.g 2) 2 ∧ s.arrRoom r0 = .ok () ∧ s.readStruct r0 (s.pairOf r0 2) 32 32 = .ok (bs, s1) ∧
      field bs 0 8 % 16 = 0 ∧ field bs 8 4 % 16 = 0 ∧ recordBytes (field bs 12 1) ≤ field bs 8 4 ∧ 9 ≤ field bs 12 1 ∧ field bs 12 1 ≤ 13 ∧
      field bs 13 1 < 2 ∧ scaledOk (field bs 12 1) ((field bs 13 1).testBit 0) = true ∧ field bs 14 2 = 0 ∧
      ((field bs 13 1).testBit 0 = false ∧ field bs 16 8 = 0 ∧ field bs 24 4 = 0) ∧ field bs 28 4 = 0) ∧
    (∃ s bs s1, holds s ∧ s.canReadUni r0 (.g 2) 2 ∧ s.arrRoom r0 = .ok () ∧ s.readStruct r0 (s.pairOf r0 2) 64 64 = .ok (bs, s1) ∧
      field bs 0 8 % 16 = 0 ∧ field bs 8 4 % 16 = 0 ∧ field bs 12 4 % 16 = 0 ∧ 9 ≤ field bs 16 1 ∧ field bs 16 1 ≤ 13 ∧ field bs 17 1 < 4 ∧
      scaledOk (field bs 16 1) ((field bs 17 1).testBit 0) = true ∧ 1 ≤ field bs 18 1 ∧ field bs 18 1 ≤ 128 ∧
      field bs 18 1 ≤ tileRows (s.array r0.core).cfg ∧ 1 ≤ field bs 19 1 ∧ field bs 19 1 ≤ 16 ∧ field bs 20 2 ≠ 0 ∧
      field bs 22 1 < tileCount (s.array r0.core).cfg ∧ field bs 22 1 ≤ 15 ∧ field bs 23 1 ≤ 3 ∧
      ((field bs 17 1).testBit 0 = false ∧ field bs 24 8 = 0 ∧ field bs 32 4 = 0) ∧ field bs 36 28 = 0) ∧
    (∃ s bs s1, holds s ∧ s.canReadUni r0 (.g 2) 2 ∧ s.readStruct r0 (s.pairOf r0 2) 160 32 = .ok (bs, s1) ∧ field bs 12 1 ≤ 32 ∧
      field bs 13 1 < 2 ∧ field bs 14 18 = 0) :=
  ⟨⟨arrayed [(0, 8, 0x40000000000000), (8, 4, 64), (12, 1, 11)] id, _, _, ⟨runs (by decide +kernel), by decide +kernel⟩,
      readsUni (by decide +kernel), okUnit (by decide +kernel), structs (by decide +kernel), by decide +kernel⟩,
    ⟨arrayed [(0, 8, 0x40000000000000), (8, 4, 64), (12, 4, 64), (16, 1, 11), (18, 1, 128), (19, 1, 16), (20, 2, 1), (22, 1, 7)] id, _, _,
      ⟨runs (by decide +kernel), by decide +kernel⟩, readsUni (by decide +kernel), okUnit (by decide +kernel), structs (by decide +kernel),
      by decide +kernel⟩,
    ⟨arrayed [(12, 1, 32)] id, _, _, ⟨runs (by decide +kernel), by decide +kernel⟩, readsUni (by decide +kernel), structs (by decide +kernel),
      by decide +kernel⟩⟩

/-- ArrayEvents: a free state that a workgroup waits for, and a holder that gives way. -/
theorem witness_ArrayHolders :
    (∃ (s : State) (k : Nat), (s.array 0).holder = none ∧ s.oldestClaim 0 = some k ∧ (s.wg 0 k).savedArray = none) ∧
    (∃ (s : State) (k : Nat), (s.array 0).holder = some k ∧ (s.array 0).live = 0 ∧ (s.array 0).queued = [] ∧
      (s.array 0).claims.contains k = false ∧ (s.array 0).claims ≠ []) :=
  ⟨⟨arrayed [] fun a => { a with holder := none, claims := [3] }, 3, by decide +kernel, by decide +kernel, by decide +kernel⟩,
    ⟨arrayed [] fun a => { a with claims := [3] }, 0, by decide +kernel, by decide +kernel, by decide +kernel, by decide +kernel, by decide +kernel⟩⟩

/-- One operation of the warp at the head of the array's order. -/
def atHead (k : ArrKind) (f : Option OpFault) : ArrOp := ArrOp.mk r0 0 1 k (List.replicate 32 0) f false
def working (k : ArrKind) (f : Option OpFault) (p : Progress) : State := arrayed [] fun a => { a with ops := [atHead k f], progress := p }

def loadAt (src : DWord) : ArrKind := .loadw (LoadwDesc.mk src 64 11 false 0 0) 1
def loopDesc (act : DWord) : MloopDesc := MloopDesc.mk act 64 64 11 false false 1 1 1 7 0 0 0

/-- ArrayEvents: the clearing of a tile. -/
theorem witness_TileCleared : ∃ (o : ArrOp) (s : State), s.arrHead 0 = some o ∧ o.kind = .tzero 7 ∧ o.fault = none ∧ o.ref.core = 0 ∧
    o.ref.isSlice = false ∧ ∀ x ∈ (s.array 0).ops, x.loaded = false :=
  ⟨atHead (.tzero 7) none, working (.tzero 7) none ArrayState.init.progress, by decide +kernel, rfl, rfl, rfl, rfl, by decide +kernel⟩

/-- A loop at the head and a load for the other latch behind it. -/
def behind : State := arrayed [] fun a => { a with ops := [atHead (.mloop (loopDesc 0x40000000000000)) none, atHead (loadAt 0x40000000000000) none] }

/-- ArrayEvents: a load that fills its latch, one behind a loop, a loop with a step left, and one without. -/
theorem witness_ArrayEvents :
    (∃ (o : ArrOp) (s : State) (d : LoadwDesc) (i : Nat) (l : Latch), s.arrHead 0 = some o ∧ o.fault = none ∧ o.loaded = false ∧ o.kind = .loadw d i ∧
      (s.forStreams 0 o).fillLatch (engineActor o.ref (s.domOf o.ref)) d o.raw = .ok l) ∧
    (∃ (o : ArrOp) (s : State) (m : MloopDesc) (x : ArrOp) (d : LoadwDesc) (i : Nat) (l : Latch), s.arrHead 0 = some o ∧ o.fault = none ∧
      o.kind = .mloop m ∧ (s.array 0).ops[1]? = some x ∧ x.kind = .loadw d i ∧ x.loaded = false ∧ x.fault = none ∧ m.names i = false ∧
      (s.forStreams 0 x).fillLatch (engineActor x.ref (s.domOf x.ref)) d x.raw = .ok l) ∧
    (∃ (o : ArrOp) (s : State) (d : MloopDesc) (j : Nat) (a : ArrayState), s.arrHead 0 = some o ∧ o.fault = none ∧ o.kind = .mloop d ∧ (s.array 0).refresh = false ∧
      (s.array 0).nextStep d = some j ∧ (s.forStreams 0 o).loopStep 0 o d = .ok a) ∧
    (∃ (o : ArrOp) (s : State) (d : MloopDesc) (a : ArrayState), s.arrHead 0 = some o ∧ o.fault = none ∧ o.kind = .mloop d ∧ (s.array 0).refresh = false ∧
      (s.array 0).nextStep d = none ∧ (s.forStreams 0 o).loopStep 0 o d = .ok a) := by
  refine ⟨?_, ?_, ?_, ?_⟩
  · obtain ⟨l, h⟩ := okOf (e := ((working (loadAt 0x40000000000000) none ArrayState.init.progress).forStreams 0
      (atHead (loadAt 0x40000000000000) none)).fillLatch (engineActor r0 1) (LoadwDesc.mk 0x40000000000000 64 11 false 0 0) (List.replicate 32 0))
      (by decide +kernel)
    exact ⟨_, _, _, _, l, by decide +kernel, rfl, rfl, rfl, h⟩
  · obtain ⟨l, h⟩ := okOf (e := (behind.forStreams 0 (atHead (loadAt 0x40000000000000) none)).fillLatch (engineActor r0 1)
      (LoadwDesc.mk 0x40000000000000 64 11 false 0 0) (List.replicate 32 0)) (by decide +kernel)
    exact ⟨atHead (.mloop (loopDesc 0x40000000000000)) none, behind, _, _, _, _, l, by decide +kernel, rfl, rfl, by decide +kernel, rfl, rfl, rfl,
      by decide +kernel, h⟩
  · obtain ⟨a, h⟩ := okOf (e := ((working (.mloop (loopDesc 0x40000000000000)) none ArrayState.init.progress).forStreams 0
      (atHead (.mloop (loopDesc 0x40000000000000)) none)).loopStep 0 (atHead (.mloop (loopDesc 0x40000000000000)) none)
      (loopDesc 0x40000000000000)) (by decide +kernel)
    exact ⟨_, working (.mloop (loopDesc 0x40000000000000)) none ArrayState.init.progress, _, 0, a, by decide +kernel, rfl, rfl, by decide +kernel,
      by decide +kernel, h⟩
  · obtain ⟨a, h⟩ := okOf (e := ((working (.mloop (loopDesc 0x40000000000000)) none ⟨true, 1, 1, 0⟩).forStreams 0
      (atHead (.mloop (loopDesc 0x40000000000000)) none)).loopStep 0 (atHead (.mloop (loopDesc 0x40000000000000)) none)
      (loopDesc 0x40000000000000)) (by decide +kernel)
    exact ⟨_, working (.mloop (loopDesc 0x40000000000000)) none ⟨true, 1, 1, 0⟩, _, a, by decide +kernel, rfl, rfl, by decide +kernel,
      by decide +kernel, h⟩

/-- ArrayEvents: streams without translation, a transient error, and a fault with the supervisor. -/
theorem witness_ArrayFaults :
    (∃ (o : ArrOp) (s : State) (d : MloopDesc) (row : Nat) (f : OpFault), s.arrHead 0 = some o ∧ o.fault = none ∧ o.kind = .mloop d ∧
      s.arrFault 0 0 row o = some f) ∧
    (∃ (o : ArrOp) (s : State) (d : LoadwDesc) (i row : Nat) (f : OpFault), s.arrHead 0 = some o ∧ o.fault = none ∧ o.kind = .loadw d i ∧
      s.arrFault 0 0 row o = some f) ∧
    (∃ (o : ArrOp) (s : State), s.arrHead 0 = some o ∧ o.fault = none ∧ o.kind.runs = true) ∧
    (∃ (u : State) (x : ArrOp) (f : OpFault), (u.die (dieOf 0)).tripped = false ∧ x.fault = some f ∧ f.superv = true ∧
      (u.array 0).ops.find? (fun y => (y.fault.map (·.superv)).getD false) = some x) ∧
    (∃ u : State, (u.die (dieOf 0)).tripped = true) := by
  have some_ {α : Type} {x : Option α} (h : x.isSome = true) : x = some (x.get h) := by cases x <;> simp_all
  refine ⟨?_, ?_, ?_, ?_, witness_TrippedEngines⟩
  · exact ⟨atHead (.mloop (loopDesc 0)) none, working (.mloop (loopDesc 0)) none ArrayState.init.progress, _, 0, _, by decide +kernel, rfl, rfl,
      some_ (by decide +kernel)⟩
  · exact ⟨atHead (loadAt 0) none, working (loadAt 0) none ArrayState.init.progress, _, _, 0, _, by decide +kernel, rfl, rfl, some_ (by decide +kernel)⟩
  · exact ⟨atHead (loadAt 0) none, working (loadAt 0) none ArrayState.init.progress, by decide +kernel, rfl, rfl⟩
  · exact ⟨working (loadAt 0) (some (OpFault.mk .pageNotPresent 0 none true)) ArrayState.init.progress, atHead (loadAt 0) (some (OpFault.mk .pageNotPresent 0 none true)),
      OpFault.mk .pageNotPresent 0 none true, by decide +kernel, rfl, rfl, by decide +kernel⟩

/-- A load and a loop behind it that have both faulted. -/
def bothFaulted : State :=
  arrayed [] fun a => { a with ops := [{ atHead (loadAt 0) (some (OpFault.mk .space 0 none false)) with seqNo := 5 },
    { atHead (.mloop (loopDesc 0)) (some (OpFault.mk .space 0 none false)) with seqNo := 6 }] }

/-- The operation that is named goes on, and the other keeps its fault. -/
theorem test_restart_named : (((bothFaulted.restartArr 0 6).array 0).ops.map (·.fault.isSome)) = [true, false] := by decide +kernel

/-- The window with the coordinates 1 and 2 at offset 1024, and fibre registers 0 to 2 as given. -/
def fibred (x y z : Fibre) : State :=
  (((((window 256).winWrite 0 0 1024 4 1).winWrite 0 0 1028 4 2).setFibre r0 0 x).setFibre r0 1 y).setFibre r0 2 z

/-- A plain fibre of `n` elements at those coordinates, with values at offset 1536. -/
def plainOf (n : Nat) : Fibre := Fibre.mk .plain 0x40000000000400 0x40000000000600 2 n 0 0 0 []

/-- Fibres: a legal descriptor with values, and a free set register. -/
theorem witness_FibreRegisters : ∃ (s : State) (bs : List Byte) (s1 : State), s.warpRuns r0 ∧ (Reg.g 5).isUniSrc = true ∧ s.canReadUni r0 (.g 2) 2 ∧
    s.canReadUni r0 (.g 5) 1 ∧ s.readStruct r0 (s.pairOf r0 2) 32 32 = .ok (bs, s1) ∧ field bs 0 8 % 4 = 0 ∧ field bs 16 1 ≤ 2 ∧
    field bs 8 8 % 2 ^ field bs 16 1 = 0 ∧ (∀ x ∈ bs.drop 17, x = 0) ∧ r0.index < 16 ∧ s.intact r0 (.f 7) ∧ s.pendingS r0 3 = false ∧ isWide ((s.warp r0).sreg 3) = false :=
  ⟨described [(0, 8, 0x40000000000400), (8, 8, 0x40000000000600), (16, 1, 2)], _, _, runs (by decide +kernel), rfl, readsUni (by decide +kernel),
    readsUni (by decide +kernel), structs (by decide +kernel), by decide +kernel, by decide +kernel, by decide +kernel, by decide +kernel,
    by decide +kernel, clean (by decide +kernel) _, by decide +kernel, by decide +kernel⟩

/-- Fibres: walks of a merged fibre, of an exhausted one, of plain ones, and a merge of two plain ones into a third register. -/
theorem witness_FibreWalks : ∃ s : State, s.warpRuns r0 ∧ (Reg.g 5).isUniSrc = true ∧ s.canReadUni r0 (.g 5) 1 ∧ s.quiet r0 = true ∧ (∀ b, s.intact r0 b) ∧
    (s.fibre r0 2).kind = .merged ∧ ((s.fibre r0 3).kind ≠ .merged ∧ (s.fibre r0 3).leftOver = 0) ∧ (s.fibre r0 0).kind ≠ .merged ∧
    (∃ y s1 ok, s.consumeMany r0 (s.fibre r0 0) (min (s.uniRead r0 (.g 5)).toNat (s.fibre r0 0).leftOver) = .ok (y, s1, ok)) ∧
    (∃ y s1 ok, s.consumeBelow r0 (s.uniRead r0 (.g 5)) (s.fibre r0 0) (s.fibre r0 0).leftOver = .ok (y, s1, ok)) ∧
    (∃ ms y z s1 ok, s.mergeWalk r0 (s.fibre r0 0) (s.fibre r0 1) [] ((s.fibre r0 0).leftOver + (s.fibre r0 1).leftOver) = .ok (ms, y, z, s1, ok)) := by
  obtain ⟨⟨y1, t1, k1⟩, h1⟩ := okOf (e := ((fibred (plainOf 2) (plainOf 2) { plainOf 0 with kind := .merged }).setG r0 5 2).consumeMany r0 (plainOf 2) 2)
    (by decide +kernel)
  obtain ⟨⟨y2, t2, k2⟩, h2⟩ := okOf (e := ((fibred (plainOf 2) (plainOf 2) { plainOf 0 with kind := .merged }).setG r0 5 2).consumeBelow r0 2 (plainOf 2) 2)
    (by decide +kernel)
  obtain ⟨⟨ms, y3, z3, t3, k3⟩, h3⟩ := okOf (e := ((fibred (plainOf 2) (plainOf 2) { plainOf 0 with kind := .merged }).setG r0 5 2).mergeWalk r0 (plainOf 2)
    (plainOf 2) [] 4) (by decide +kernel)
  have e0 : ((fibred (plainOf 2) (plainOf 2) { plainOf 0 with kind := .merged }).setG r0 5 2).fibre r0 0 = plainOf 2 := by decide +kernel
  have e1 : ((fibred (plainOf 2) (plainOf 2) { plainOf 0 with kind := .merged }).setG r0 5 2).fibre r0 1 = plainOf 2 := by decide +kernel
  have e2 : ((fibred (plainOf 2) (plainOf 2) { plainOf 0 with kind := .merged }).setG r0 5 2).uniRead r0 (.g 5) = 2 := by decide +kernel
  refine ⟨(fibred (plainOf 2) (plainOf 2) { plainOf 0 with kind := .merged }).setG r0 5 2, runs (by decide +kernel), rfl, readsUni (by decide +kernel),
    by decide +kernel, clean (by decide +kernel), by decide +kernel, by decide +kernel, by decide +kernel, ⟨y1, t1, k1, ?_⟩, ⟨y2, t2, k2, ?_⟩, ms, y3, z3, t3, k3, ?_⟩
  · rw [e0, e2]; exact h1
  · rw [e0, e2]; exact h2
  · rw [e0, e1]; exact h3

/-- Fibres: windows of an empty S, of a merged fibre and of a plain one with values. -/
theorem witness_FibreWindows : ∃ (d : Reg) (s t : State) (lost : LaneAcc → Bool), s.warpRuns r0 ∧ t.warpRuns r0 ∧ d.isLaneDst = true ∧
    (t.applied r0 = 0 ∧ t.canAwait r0 d 2) ∧ (s.warp r0).ld < 63 ∧ s.applied r0 ≠ 0 ∧ (∀ b, s.intact r0 b) ∧ (∀ x, s.lostLanes 0 x = []) ∧ s.canAwait r0 d 1 ∧ s.canAwait r0 d 2 ∧ s.canWrite r0 [] d ∧
    (s.fibre r0 2).kind = .merged ∧ (s.fibre r0 0).kind ≠ .merged ∧
    (∃ ls, s.fibreAccs r0 ((s.windowLanes r0 (s.fibre r0 0).window).map fun j =>
      (j, j, (s.fibre r0 0).coord + BitVec.ofNat 64 (4 * ((s.fibre r0 0).pos + j)), 4)) lost = .ok ls) ∧
    (∃ ls, s.fibreAccs r0 (if (s.fibre r0 0).value = 0 then [] else (s.windowLanes r0 (s.fibre r0 0).window).map fun j =>
      (j, j, (s.fibre r0 0).value + BitVec.ofNat 64 (2 ^ (s.fibre r0 0).vlog * ((s.fibre r0 0).pos + j)), 2 ^ (s.fibre r0 0).vlog)) lost = .ok ls) ∧
    (∃ ls, s.fibreAccs r0 (if (s.fibre r0 2).value = 0 then [] else (s.windowLanes r0 (s.fibre r0 2).window).map fun j =>
      (j, j, (s.fibre r0 2).value + BitVec.ofNat 64 (2 ^ (s.fibre r0 2).vlog * (((s.fibre r0 2).matched[j]?).map (·.2.1)).getD 0), 2 ^ (s.fibre r0 2).vlog)) lost = .ok ls) := by
  refine ⟨.v 9, fibred (plainOf 2) (plainOf 2) { plainOf 0 with kind := .merged, matched := [(1, 0, 0)] }, withWarp fun w => { w with cur := 0 }, fun _ => false,
    runs (by decide +kernel), runs (by decide +kernel), rfl, ⟨by decide +kernel, awaits (by decide +kernel)⟩, by decide +kernel, by decide +kernel, clean (by decide +kernel),
    fun x => kept (by decide +kernel) x, awaits (by decide +kernel), awaits (by decide +kernel), writes (by decide +kernel), by decide +kernel, by decide +kernel, okOf (by decide +kernel), okOf (by decide +kernel),
    okOf (by decide +kernel)⟩

/-- An entry of the apply stack whose block returns to `ret`. -/
def entryTo (ret : Word) (gathered : Bool) : Entry := Entry.mk (BitVec.allOnes 32) ret gathered 0 0 1 1 0

/-- The warp with set register 1 as given and `n` open applies that run lanes 0 and 1. -/
def applying (x : DWord) (n : Nat) : State :=
  withWarp fun w => { w with sets := Tab.set 0 w.sets 1 x, stack := List.replicate n (entryTo 64 false), cur := if n = 0 then w.cur else 3 }

/-- The premises of APPLY of set register 1 with `ret` one word ahead. -/
def applyFits (s : State) (m : Members) : Prop := s.warpRuns r0 ∧ s.setOf r0 1 = .ok m ∧ 1 ≤ BitVec.toInt (1 : BitVec 20) ∧
  s.mayGo r0 (s.branchTo r0 (BitVec.toInt (1 : BitVec 20)))

/-- ApplyBlocks: an empty set, a nested set outside the mask, a block entered at depth 0, the 64th entry, and one too deep. -/
theorem witness_ApplyBlocks :
    (∃ s m, applyFits s m ∧ (s.warp r0).stack = [] ∧ s.liveOf r0 m = []) ∧
    (∃ s m, applyFits s m ∧ (s.warp r0).stack ≠ [] ∧ s.carried r0 (s.liveOf r0 m) = true ∧ s.lanesFor r0 (s.liveOf r0 m) &&& (s.warp r0).cur = 0) ∧
    (∃ s m, applyFits s m ∧ (s.warp r0).stack = [] ∧ s.liveOf r0 m ≠ [] ∧ s.carried r0 (s.liveOf r0 m) = true ∧
      isWide ((s.warp r0).sreg 1) = false) ∧
    (∃ s m, applyFits s m ∧ (s.warp r0).stack ≠ [] ∧ s.carried r0 (s.liveOf r0 m) = true ∧ s.lanesFor r0 (s.liveOf r0 m) &&& (s.warp r0).cur ≠ 0 ∧
      (s.warp r0).stack.length < Config.applyDepth) ∧
    (∃ s m, applyFits s m ∧ s.carried r0 (s.liveOf r0 m) = true ∧ s.lanesFor r0 (s.liveOf r0 m) &&& (s.warp r0).cur ≠ 0 ∧
      Config.applyDepth ≤ (s.warp r0).stack.length) :=
  ⟨⟨applying 0 0, _, ⟨runs (by decide +kernel), rfl, by decide, goes (by decide +kernel)⟩, by decide +kernel, by decide +kernel⟩,
    ⟨applying (inlineSet 0 4) 1, _, ⟨runs (by decide +kernel), rfl, by decide, goes (by decide +kernel)⟩, by decide +kernel, by decide +kernel, by decide +kernel⟩,
    ⟨applying (inlineSet 0 4) 0, _, ⟨runs (by decide +kernel), rfl, by decide, goes (by decide +kernel)⟩, by decide +kernel, by decide +kernel, by decide +kernel,
      by decide +kernel⟩,
    ⟨applying (inlineSet 0 2) 63, _, ⟨runs (by decide +kernel), rfl, by decide, goes (by decide +kernel)⟩, by decide +kernel, by decide +kernel, by decide +kernel,
      by decide +kernel⟩,
    ⟨applying (inlineSet 0 2) 64, _, ⟨runs (by decide +kernel), rfl, by decide, goes (by decide +kernel)⟩, by decide +kernel, by decide +kernel,
      by decide +kernel⟩⟩

/-- Warp 1 of the workgroup with a status, and set register 1 of warp 0 as lanes 0 and 1 of it. -/
def twoWarps (st : Status) (stack : List Entry) : State :=
  (withWarp fun w => { w with sets := Tab.set 0 w.sets 1 (inlineSet 1 3), stack := stack }).modWgOf r0 fun g =>
    { g with warpsN := 2, warps := Tab.set Warp.init g.warps 1 { Warp.start 1 1 24 0 1 0 0 0 0 [] with status := st } }

/-- The premises of a gathered apply of registers 190 and 191 that fits. -/
def gatherFits (s : State) (m : Members) : Prop := applyFits s m ∧ s.carried r0 (s.liveOf r0 m) = false ∧ (s.warp r0).stack = [] ∧
  190 + 2 ≤ 8 * (s.warp r0).gran ∧ (∀ k ∈ otherHomes r0.index (s.liveOf r0 m), 190 + 2 ≤ 8 * (s.warpAt r0.core r0.set k).gran) ∧
  otherHomes r0.index (s.liveOf r0 m) ≠ []

/-- Warp 1 changed. -/
def secondWarp (s : State) (f : Warp → Warp) : State := s.modWgOf r0 fun g => { g with warps := Tab.set Warp.init g.warps 1 (f (g.warp 1)) }

/-- GatheredApply: the checks of the apply's form, at a range that passes the allocation; a home warp about to be swapped out; and one
that cannot be pinned. -/
theorem witness_GatheredTraps :
    (∃ s m, applyFits s m ∧ s.carried r0 (s.liveOf r0 m) = false ∧ (s.warp r0).stack ≠ []) ∧
    (∃ s m, applyFits s m ∧ s.carried r0 (s.liveOf r0 m) = false ∧ (s.warp r0).stack = [] ∧ ¬(191 + 2 ≤ 8 * (s.warp r0).gran)) ∧
    (∃ s m, gatherFits s m ∧ ∃ k ∈ otherHomes r0.index (s.liveOf r0 m), (s.warpAt r0.core r0.set k).swapDue = true) ∧
    (∃ s m, gatherFits s m ∧ (∀ k ∈ otherHomes r0.index (s.liveOf r0 m), (s.warpAt r0.core r0.set k).swapDue = false) ∧
      ∃ k ∈ otherHomes r0.index (s.liveOf r0 m), (s.warpAt r0.core r0.set k).mayPin = false) :=
  ⟨⟨twoWarps .ended [entryTo 64 false], _, ⟨runs (by decide +kernel), rfl, by decide, goes (by decide +kernel)⟩, by decide +kernel, by decide +kernel⟩,
    ⟨twoWarps .ended [], _, ⟨runs (by decide +kernel), rfl, by decide, goes (by decide +kernel)⟩, by decide +kernel, by decide +kernel, by decide +kernel⟩,
    ⟨secondWarp (twoWarps (.growing 1) []) fun w => { w with swapDue := true }, _, ⟨⟨runs (by decide +kernel), rfl, by decide, goes (by decide +kernel)⟩,
      by decide +kernel⟩, by decide +kernel⟩,
    ⟨twoWarps .running [], _, ⟨⟨runs (by decide +kernel), rfl, by decide, goes (by decide +kernel)⟩, by decide +kernel⟩, by decide +kernel⟩⟩

/-- GatheredApply: a start from a warp that holds its registers, one from a save area, and one with a home register that fails its error
check. -/
theorem witness_GatheredApply : ∃ s t u m n l,
    (∀ x ∈ [(s, m), (t, n), (u, l)], gatherFits x.1 x.2 ∧
      (∀ k ∈ otherHomes r0.index (x.1.liveOf r0 x.2), (x.1.warpAt r0.core r0.set k).mayPin = true ∧ (x.1.warpAt r0.core r0.set k).swapDue = false ∧
        x.1.homeQuiet r0 k 190 2 = true) ∧ (∀ i, i < 2 → x.1.pendingV r0 (190 + i) = false) ∧ x.1.soundOwn r0 190 2 = .ok ()) ∧
    (s.soundHomes r0 (s.liveOf r0 m) 190 2 0 = .ok () ∧ (s.warpAt 0 0 1).area = none) ∧
    (t.soundHomes r0 (t.liveOf r0 n) 190 2 0 = .ok () ∧ (t.warpAt 0 0 1).area = some 4096 ∧ isWide ((t.warp r0).sreg 1) = false) ∧
    (∃ x, u.soundHomes r0 (u.liveOf r0 l) 190 2 0 = .error (.trap x)) := by
  obtain ⟨x, h⟩ := trapOf (e := (secondWarp (twoWarps .ended []) fun w => { w with bad := [.v 191 0] }).soundHomes r0
    ((secondWarp (twoWarps .ended []) fun w => { w with bad := [.v 191 0] }).liveOf r0 [(1, 3)]) 190 2 0) (by decide +kernel)
  refine ⟨twoWarps .ended [], secondWarp (twoWarps (.swapped none) []) (fun w => { w with area := some 4096, slot := none }),
    secondWarp (twoWarps .ended []) (fun w => { w with bad := [.v 191 0] }), [(1, 3)], [(1, 3)], [(1, 3)], ?_,
    ⟨okUnit (by decide +kernel), by decide +kernel⟩, ⟨okUnit (by decide +kernel), by decide +kernel, by decide +kernel⟩, x, h⟩
  simp only [List.forall_mem_cons]
  exact ⟨⟨⟨⟨runs (by decide +kernel), rfl, by decide, goes (by decide +kernel)⟩, by decide +kernel⟩, by decide +kernel, by decide +kernel, okUnit (by decide +kernel)⟩,
    ⟨⟨⟨runs (by decide +kernel), rfl, by decide, goes (by decide +kernel)⟩, by decide +kernel⟩, by decide +kernel, by decide +kernel, okUnit (by decide +kernel)⟩,
    ⟨⟨⟨runs (by decide +kernel), rfl, by decide, goes (by decide +kernel)⟩, by decide +kernel⟩, by decide +kernel, by decide +kernel, okUnit (by decide +kernel)⟩,
    fun _ h => (List.not_mem_nil h).elim⟩

/-- A gathered block with `n` members in its chunk list. -/
def gathered (n : Nat) : State :=
  withWarp fun w => { w with stack := [entryTo 64 true], gather := some { members := (List.range n).map fun i => (0, i % 32), buf := [rowZero], start := 8 } }

/-- BlocksAndWarpsEnd: a block that runs in place, the end of a last chunk and of an earlier one, an empty stack, and a block that the
running handler did not open. -/
theorem witness_ApplyEnds :
    (∃ s : State, s.issues r0 ∧ ∃ e es, (s.warp r0).stack = e :: es ∧ e.gathered = false ∧
      ¬((s.warp r0).active = true ∧ (s.warp r0).stack.length = (s.warp r0).tbase) ∧ s.intact r0 .stack ∧ s.mayGo r0 e.ret.toNat ∧ isWide e.setv = false) ∧
    (∃ s : State, s.issues r0 ∧ ∃ e es g t, (s.warp r0).stack = e :: es ∧ e.gathered = true ∧ (s.warp r0).gather = some g ∧
      ¬((s.warp r0).active = true ∧ (s.warp r0).stack.length = (s.warp r0).tbase) ∧ s.intact r0 .stack ∧ s.endChunk r0 g e = .ok t) ∧
    (∃ s : State, s.issues r0 ∧ ∃ e es g, (s.warp r0).stack = e :: es ∧ e.gathered = true ∧ (s.warp r0).gather = some g ∧
      ¬((s.warp r0).active = true ∧ (s.warp r0).stack.length = (s.warp r0).tbase) ∧ s.intact r0 .stack ∧ 32 * (e.chunk + 1) < g.members.length ∧
      (∀ i, i < max e.nin e.nout → s.pendingV r0 (e.base + i) = false) ∧
      (∀ k ∈ otherHomes r0.index g.members, s.homeQuiet r0 k e.base (max e.nin e.nout) = true) ∧
      s.soundRun r0 e.base e.nout = .ok () ∧ s.soundHomes r0 g.members e.base e.nin (e.chunk + 1) = .ok ()) ∧
    (∃ s : State, s.issues r0 ∧ (s.warp r0).stack = [] ∧ ¬((s.warp r0).active = true ∧ (s.warp r0).stack.length = (s.warp r0).tbase)) ∧
    (∃ s : State, s.issues r0 ∧ (s.warp r0).active = true ∧ (s.warp r0).stack.length = (s.warp r0).tbase) := by
  obtain ⟨t, h⟩ := okOf (e := (gathered 32).endChunk r0 { members := (List.range 32).map fun i => (0, i % 32), buf := [rowZero], start := 8 } (entryTo 64 true))
    (by decide +kernel)
  exact ⟨⟨applying 0 1, selects (by decide +kernel), entryTo 64 false, [], by decide +kernel, rfl, by decide +kernel, clean (by decide +kernel) _,
      goes (by decide +kernel), by decide +kernel⟩,
    ⟨gathered 32, selects (by decide +kernel), entryTo 64 true, [], _, t, by decide +kernel, rfl, by decide +kernel, by decide +kernel,
      clean (by decide +kernel) _, h⟩,
    ⟨gathered 33, selects (by decide +kernel), entryTo 64 true, [], { members := (List.range 33).map fun i => (0, i % 32), buf := [rowZero], start := 8 },
      by decide +kernel, rfl, by decide +kernel, by decide +kernel, clean (by decide +kernel) _, by decide +kernel, by decide +kernel, by decide +kernel,
      okUnit (by decide +kernel), okUnit (by decide +kernel)⟩,
    ⟨base, selects (by decide +kernel), by decide +kernel, by decide +kernel⟩,
    ⟨withWarp fun w => { w with active := true, tbase := 0 }, selects (by decide +kernel), by decide +kernel, by decide +kernel⟩⟩

/-- BlocksAndWarpsEnd: a warp that may end, one in a gathered block, one with a deferred fault owed, one with a load in flight; an EXIT that
leaves one lane, and one that leaves none. -/
theorem witness_WarpEnds :
    (∃ s : State, s.issues r0 ∧ (s.warp r0).inGathered = false ∧ s.owedAny r0 = none ∧ s.drained r0 = true ∧ (s.warp r0).gather = none ∧
      (s.warp r0).area = none ∧ s.applied r0 ≠ 0 ∧ (s.warp r0).live &&& ~~~s.applied r0 = 0) ∧
    (∃ s : State, s.issues r0 ∧ s.intact r0 .stack ∧ (s.warp r0).inGathered = true ∧ s.fallsThrough r0) ∧
    (∃ (s : State) (x : Trap), s.issues r0 ∧ (s.warp r0).inGathered = false ∧ s.owedAny r0 = some x) ∧
    (∃ s : State, s.issues r0 ∧ (s.warp r0).inGathered = false ∧ s.owedAny r0 = none ∧ s.drained r0 = false) ∧
    (∃ s : State, s.issues r0 ∧ (s.warp r0).inGathered = false ∧ (s.warp r0).gather = none ∧ (s.warp r0).area = none ∧ s.fallsThrough r0 ∧
      (s.warp r0).live &&& ~~~s.applied r0 ≠ 0) :=
  ⟨⟨base, selects (by decide +kernel), by decide +kernel, by decide +kernel, by decide +kernel, by decide +kernel, by decide +kernel, by decide +kernel,
      by decide +kernel⟩,
    ⟨gathered 32, selects (by decide +kernel), clean (by decide +kernel) _, by decide +kernel, falls (by decide +kernel)⟩,
    ⟨withMissed, _, selects (by decide +kernel), by decide +kernel, rfl⟩,
    ⟨withWarp fun w => { w with ldOps := [(1, false)] }, selects (by decide +kernel), by decide +kernel, by decide +kernel, by decide +kernel⟩,
    ⟨withWarp fun w => { w with cur := 0x7FFFFFFF }, selects (by decide +kernel), by decide +kernel, by decide +kernel, by decide +kernel,
      falls (by decide +kernel), by decide +kernel⟩⟩

/-- The warp with `g` granules and warp 1 with a status. -/
def growable (g : Nat) (st : Status) (gr : Nat) : State :=
  (withWarp fun w => { w with gran := g }).modWgOf r0 fun x =>
    { x with warpsN := 2, warps := Tab.set Warp.init x.warps 1 { Warp.start 1 1 gr 0 1 0 0 0 0 [] with status := st } }

/-- RegisterFileGrowth: a gathered block, a total of 25 and of 0, a growth to 24, one that waits, and a return of all granules but one. -/
theorem witness_RegistersGrow :
    (∃ s : State, s.warpRuns r0 ∧ (s.warp r0).inGathered = true) ∧
    (∃ (n : BitVec 8) (s : State), s.warpRuns r0 ∧ (s.warp r0).inGathered = false ∧ 24 < (s.warp r0).gran + n.toNat) ∧
    (∃ (n : BitVec 8) (s : State), s.warpRuns r0 ∧ (s.warp r0).inGathered = false ∧ (s.warp r0).gran < n.toNat + 1) ∧
    (∃ (n : BitVec 8) (s : State), s.warpRuns r0 ∧ (s.warp r0).inGathered = false ∧ (s.warp r0).gran + n.toNat = 24 ∧
      n.toNat ≤ (s.core r0.core).freeGranules ∧ ∀ x ∈ (s.core r0.core).growers, older x ((s.wgOf r0).seq, r0.index, r0.set) = false) ∧
    (∃ (n : BitVec 8) (s : State), s.warpRuns r0 ∧ (s.warp r0).inGathered = false ∧ (s.warp r0).gran + n.toNat ≤ 24 ∧
      ¬n.toNat ≤ (s.core r0.core).freeGranules) ∧
    (∃ (n : BitVec 8) (s : State), s.warpRuns r0 ∧ (s.warp r0).inGathered = false ∧ n.toNat + 1 = (s.warp r0).gran ∧
      ∀ i, i < 8 * n.toNat → s.pendingV r0 (8 * ((s.warp r0).gran - n.toNat) + i) = false) :=
  ⟨⟨gathered 32, runs (by decide +kernel), by decide +kernel⟩,
    ⟨1, base, runs (by decide +kernel), by decide +kernel, by decide +kernel⟩,
    ⟨24, base, runs (by decide +kernel), by decide +kernel, by decide +kernel⟩,
    ⟨20, growable 4 .ended 24, runs (by decide +kernel), by decide +kernel, by decide +kernel, by decide +kernel, by decide +kernel⟩,
    ⟨20, growable 4 .running 4096, runs (by decide +kernel), by decide +kernel, by decide +kernel, by decide +kernel⟩,
    ⟨23, base, runs (by decide +kernel), by decide +kernel, by decide +kernel, by decide +kernel⟩⟩

/-- RegisterFileGrowth: a core stalled for 1,024 cycles, one stalled for fewer, a Growing warp whose granules are free, and none. -/
theorem witness_GrowthIsGranted :
    (∃ (s : State) (q w k : Nat), (s.core 0).stuck = true ∧ (s.core 0).growStall = 1024 ∧ (s.core 0).growVictim = some (q, w, k)) ∧
    (∃ s : State, (s.core 0).growStall = 1023 ∧ (s.core 0).growNext = none) ∧
    (∃ (s : State) (k w n : Nat), (s.core 0).growNext = some (k, w, n)) :=
  ⟨⟨(((growable 4 (.parked (.waitph 0 0)) 24).modWarp r0 fun w => { w with status := .growing 20 }).modCore 0 fun c => { c with growStall := 1024 }), 0, 1, 0,
      by decide +kernel, by decide +kernel, by decide +kernel⟩,
    ⟨base.modCore 0 fun c => { c with growStall := 1023 }, by decide +kernel, by decide +kernel⟩,
    ⟨(growable 4 .ended 24).modWarp r0 fun w => { w with status := .growing 20 }, 0, 0, 20, by decide +kernel⟩⟩

/-- A record of a kind for queue set 0 of core 0, of domain 1. -/
def recOf (k : RecKind) (warp : Nat) (frame : DWord) (l : Option LaunchRec) : Rec := Rec.mk k 8 0 frame 1 0 0 0 false warp 0 1 .off l

/-- A launch record of one warp of one granule, with a completion target and a determinism bit. -/
def lrecOf (done : DWord) (det : Bool) : LaunchRec := LaunchRec.mk 8 none 0 0 1 1 0 0 0 0 done 0 det

/-- Core 0 with continuation queue 0, its backing area and its size as given. -/
def queued (s : State) (q b : List Rec) (size : Nat) : State :=
  s.modCore 0 fun c => { c with queues := Tab.set [] c.queues 0 q, backing := Tab.set [] c.backing 0 b, backsize := size }

/-- The premises of SPAWN and LAUNCH. -/
def workFits (s : State) : Prop := s.warpRuns r0 ∧ s.canReadUni r0 (.g 2) 2 ∧ s.pendingG r0 5 = false ∧ s.quiet r0 = true ∧ s.dirtyHeld 0 (s.domOf r0) = false

/-- NewWorkIsQueued: a SPAWN record with a bad code address, and good ones with room on chip, in the backing area, and nowhere. -/
theorem witness_Spawn :
    (∃ s bs s1, workFits s ∧ s.readStruct r0 (s.pairOf r0 2) 32 32 = .ok (bs, s1) ∧ codeOk (field bs 0 4) = false) ∧
    (∃ s bs s1, workFits s ∧ s.readStruct r0 (s.pairOf r0 2) 32 32 = .ok (bs, s1) ∧ (codeOk (field bs 0 4) = true ∧ field bs 30 2 = 0) ∧
      ((s.core 0).onchip (field bs 28 1 % 4)).length < Config.contQueue) ∧
    (∃ s bs s1, workFits s ∧ s.readStruct r0 (s.pairOf r0 2) 32 32 = .ok (bs, s1) ∧ (codeOk (field bs 0 4) = true ∧ field bs 30 2 = 0) ∧
      Config.contQueue ≤ ((s.core 0).onchip (field bs 28 1 % 4)).length ∧ (s.core 0).backRoom 32 = true) ∧
    (∃ s bs s1, workFits s ∧ s.readStruct r0 (s.pairOf r0 2) 32 32 = .ok (bs, s1) ∧ (codeOk (field bs 0 4) = true ∧ field bs 30 2 = 0) ∧
      Config.contQueue ≤ ((s.core 0).onchip (field bs 28 1 % 4)).length ∧ (s.core 0).backRoom 32 = false) :=
  ⟨⟨described [(0, 4, 262144)], _, _, ⟨runs (by decide +kernel), readsUni (by decide +kernel), by decide +kernel⟩, structs (by decide +kernel),
      by decide +kernel⟩,
    ⟨queued (described [(0, 4, 262140)]) (List.replicate 63 (recOf .spawned 0 0 none)) [] 0, _, _,
      ⟨runs (by decide +kernel), readsUni (by decide +kernel), by decide +kernel⟩, structs (by decide +kernel), by decide +kernel, by decide +kernel⟩,
    ⟨queued (described [(0, 4, 8)]) (List.replicate 64 (recOf .spawned 0 0 none)) [] 1568, _, _,
      ⟨runs (by decide +kernel), readsUni (by decide +kernel), by decide +kernel⟩, structs (by decide +kernel), by decide +kernel, by decide +kernel,
      by decide +kernel⟩,
    ⟨queued (described [(0, 4, 8)]) (List.replicate 64 (recOf .spawned 0 0 none)) [] 1567, _, _,
      ⟨runs (by decide +kernel), readsUni (by decide +kernel), by decide +kernel⟩, structs (by decide +kernel), by decide +kernel, by decide +kernel,
      by decide +kernel⟩⟩

/-- A launch record in memory with values of its warp count and of byte 40. -/
def launching (warps byte40 : Nat) : State := described [(0, 4, 8), (4, 4, 0xFFFFFFFF), (20, 1, warps), (21, 1, 24), (40, 1, byte40)]

/-- NewWorkIsQueued: LAUNCH records that are bad at their head and at their tail, and good ones with room in the pending queue, in the
backing area, and nowhere. -/
theorem witness_Launch :
    (∃ s bs s1, workFits s ∧ s.readStruct r0 (s.pairOf r0 2) 64 64 = .ok (bs, s1) ∧ launchHead bs = false) ∧
    (∃ s bs s1, workFits s ∧ s.readStruct r0 (s.pairOf r0 2) 64 64 = .ok (bs, s1) ∧ launchHead bs = true ∧ (launchRec bs).done = 0 ∧
      launchTail bs = false) ∧
    (∃ s bs s1 tgt, workFits s ∧ s.readStruct r0 (s.pairOf r0 2) 64 64 = .ok (bs, s1) ∧ launchHead bs = true ∧
      s.doneTarget r0 (launchRec bs).done = .ok tgt ∧ launchTail bs = true ∧ (s.core 0).pendingL.length < Config.pendingQueue) ∧
    (∃ s bs s1 tgt, workFits s ∧ s.readStruct r0 (s.pairOf r0 2) 64 64 = .ok (bs, s1) ∧ launchHead bs = true ∧
      s.doneTarget r0 (launchRec bs).done = .ok tgt ∧ launchTail bs = true ∧ Config.pendingQueue ≤ (s.core 0).pendingL.length ∧
      (s.core 0).backRoom 64 = true) ∧
    (∃ s bs s1 tgt, workFits s ∧ s.readStruct r0 (s.pairOf r0 2) 64 64 = .ok (bs, s1) ∧ launchHead bs = true ∧
      s.doneTarget r0 (launchRec bs).done = .ok tgt ∧ launchTail bs = true ∧ Config.pendingQueue ≤ (s.core 0).pendingL.length ∧
      (s.core 0).backRoom 64 = false) := by
  have full (n : Nat) : LaunchReq := ⟨lrecOf 0 false, ⟨1, none, 0, n⟩, none⟩
  refine ⟨?_, ?_, ?_, ?_, ?_⟩
  · exact ⟨launching 17 0, _, _, ⟨runs (by decide +kernel), readsUni (by decide +kernel), by decide +kernel⟩, structs (by decide +kernel), by decide +kernel⟩
  · exact ⟨launching 16 8, _, _, ⟨runs (by decide +kernel), readsUni (by decide +kernel), by decide +kernel⟩, structs (by decide +kernel), by decide +kernel,
      by decide +kernel, by decide +kernel⟩
  · obtain ⟨tgt, h⟩ := okOf (e := (launching 16 7).doneTarget r0 (launchRec (structOf (launching 16 7) r0 ((launching 16 7).pairOf r0 2) 64 64).1).done)
      (by decide +kernel)
    exact ⟨launching 16 7, _, _, tgt, ⟨runs (by decide +kernel), readsUni (by decide +kernel), by decide +kernel⟩, structs (by decide +kernel),
      by decide +kernel, h, by decide +kernel, by decide +kernel⟩
  · let s := (launching 16 7).modCore 0 fun c => { c with pendingL := List.replicate 4 ⟨lrecOf 0 false, ⟨1, none, 0, 0⟩, none⟩, backsize := 1600 }
    obtain ⟨tgt, h⟩ := okOf (e := s.doneTarget r0 (launchRec (structOf s r0 (s.pairOf r0 2) 64 64).1).done) (by decide +kernel)
    exact ⟨s, _, _, tgt, ⟨runs (by decide +kernel), readsUni (by decide +kernel), by decide +kernel⟩, structs (by decide +kernel),
      by decide +kernel, h, by decide +kernel, by decide +kernel, by decide +kernel⟩
  · let s := (launching 16 7).modCore 0 fun c => { c with pendingL := List.replicate 4 ⟨lrecOf 0 false, ⟨1, none, 0, 0⟩, none⟩, backsize := 1599 }
    obtain ⟨tgt, h⟩ := okOf (e := s.doneTarget r0 (launchRec (structOf s r0 (s.pairOf r0 2) 64 64).1).done) (by decide +kernel)
    exact ⟨s, _, _, tgt, ⟨runs (by decide +kernel), readsUni (by decide +kernel), by decide +kernel⟩, structs (by decide +kernel),
      by decide +kernel, h, by decide +kernel, by decide +kernel, by decide +kernel⟩

/-- NewWorkIsQueued: a LAUNCH whose completion target names a shadow slot that is not bound. -/
theorem witness_LaunchTarget : ∃ s bs s1 x, workFits s ∧ s.readStruct r0 (s.pairOf r0 2) 64 64 = .ok (bs, s1) ∧ launchHead bs = true ∧
    s.doneTarget r0 (launchRec bs).done = .error (.trap x) := by
  let s := described [(0, 4, 8), (4, 4, 0xFFFFFFFF), (20, 1, 1), (21, 1, 24), (32, 8, 0x60000000000000)]
  obtain ⟨x, h⟩ := trapOf (e := s.doneTarget r0 (launchRec (structOf s r0 (s.pairOf r0 2) 64 64).1).done) (by decide +kernel)
  exact ⟨s, _, _, x, ⟨runs (by decide +kernel), readsUni (by decide +kernel), by decide +kernel⟩, structs (by decide +kernel),
    by decide +kernel, h⟩

/-- A launch of one workgroup on die 0, with a target, counts and partials. -/
def launchOf (done : DWord) (ref : Option Ref) (det : Bool) (pushed ended : Nat) (area : List (Nat × Nat × Partial)) : Launch :=
  Launch.mk 1 (lrecOf done det) ⟨1, ref, 0, 0⟩ 1 det .off 0 pushed ended [] 0 area

/-- NewWorkIsQueued: RFLUSH outside a deterministic launch and in one, with room in the reduction area and none. -/
theorem witness_EpochFlush : ∃ s t u : State, s.warpRuns r0 ∧ t.warpRuns r0 ∧ u.warpRuns r0 ∧ (s.wgOf r0).det = false ∧ (t.wgOf r0).det = true ∧
    (u.wgOf r0).det = true ∧ t.flushWaits 0 0 = false ∧ u.flushWaits 0 0 = true :=
  ⟨base, base.modWgOf r0 fun g => { g with det := true },
    { base.modWgOf r0 (fun g => { g with det := true, redEpoch := 1, partials := [⟨0, 0, ⟨0, 1, 0, true, false, 0⟩, 0, 0⟩] }) with
      launches := [{ launchOf 0 none true 1 0 (List.replicate 16384 (0, 0, ⟨0, 0, ⟨0, 1, 0, true, false, 0⟩, 0, 0⟩)) with number := (base.wgOf r0).launch }] },
    runs (by decide +kernel), runs (by decide +kernel), runs (by decide +kernel), by decide +kernel, by decide +kernel, by decide +kernel,
    by decide +kernel, by decide +kernel⟩

/-- LaunchSequencing: no source, a core's launch, an admitted push that is refused and one that is accepted. -/
theorem witness_LaunchAccept :
    (∃ s : State, s.nextSource 0 = none) ∧
    (∃ (s : State) (p : Nat) (q : LaunchReq) (qs : List LaunchReq), s.nextSource 0 = some (p + 1) ∧ (s.core (64 * 0 + p)).pendingL = q :: qs) ∧
    (∃ (s : State) (p : Push) (ps : List Push) (reason : Nat), s.nextSource 0 = some 0 ∧ s.admission = p :: ps ∧
      ({ s.modDie 0 fun x => { x with rotation := 1 } with admission := ps }).takePush p = .error reason) ∧
    (∃ (s : State) (p : Push) (ps : List Push) (x : LaunchRec), s.nextSource 0 = some 0 ∧ s.admission = p :: ps ∧
      ({ s.modDie 0 fun x => { x with rotation := 1 } with admission := ps }).takePush p = .ok x) := by
  let good : State := { ((base.modCore 256 fun c => { c with tlb := [TlbEntry.mk 1 0 0 65536 65536 1 0 true true true 0 true] }).physStore 65536
    (leBytes 8 (8 + 2 ^ 32 * 0xFFFFFFFF))).physStore (65536 + 20) [1, 1] with admission := [⟨0, 1, 0, 7, 0⟩], tags := [(1024, (1, 1))] }
  obtain ⟨x, h⟩ := okOf (e := ({ good.modDie 0 fun x => { x with rotation := 1 } with admission := [] }).takePush ⟨0, 1, 0, 7, 0⟩) (by decide +kernel)
  refine ⟨⟨base, by decide +kernel⟩, ⟨base.modCore 0 fun c => { c with pendingL := [⟨lrecOf 0 false, ⟨1, none, 0, 0⟩, none⟩] }, 0,
    ⟨lrecOf 0 false, ⟨1, none, 0, 0⟩, none⟩, [], by decide +kernel, by decide +kernel⟩, ?_, ⟨good, _, _, x, by decide +kernel, rfl, h⟩⟩
  obtain ⟨reason, h2⟩ := errOf (e := ({ ({ base with admission := [⟨0, 1, 0, 7, 0⟩] } : State).modDie 0 fun x => { x with rotation := 1 } with
    admission := [] }).takePush ⟨0, 1, 0, 7, 0⟩) (by decide +kernel)
  exact ⟨{ base with admission := [⟨0, 1, 0, 7, 0⟩] }, _, _, reason, by decide +kernel, rfl, h2⟩

/-- LaunchSequencing: the record of a workgroup of a deterministic launch and of another, and the refills. -/
theorem witness_LaunchPushes :
    (∃ (s : State) (l : Launch) (c : Nat), s.nextPush 0 = some (l, c) ∧ l.det = true) ∧
    (∃ (s : State) (l : Launch) (c : Nat), s.nextPush 0 = some (l, c) ∧ l.det = false) ∧
    (∃ (s : State) (q : LaunchReq) (qs : List LaunchReq), (s.core 0).backL = q :: qs ∧ (s.core 0).pendingL.length < Config.pendingQueue) ∧
    (∃ (s : State) (x : Rec) (xs : List Rec), (s.core 0).inBacking 0 = x :: xs ∧ ((s.core 0).onchip 0).length < Config.contQueue) :=
  ⟨⟨{ base with launches := [launchOf 0 none true 0 0 []] }, launchOf 0 none true 0 0 [], 0, by decide +kernel, rfl⟩,
    ⟨{ base with launches := [launchOf 0 none false 0 0 []] }, launchOf 0 none false 0 0 [], 1, by decide +kernel, rfl⟩,
    ⟨base.modCore 0 fun c => { c with backL := [⟨lrecOf 0 false, ⟨1, none, 0, 0⟩, none⟩] }, ⟨lrecOf 0 false, ⟨1, none, 0, 0⟩, none⟩, [], by decide +kernel, by decide +kernel⟩,
    ⟨queued base [] [recOf .spawned 0 0 none] 4096, recOf .spawned 0 0 none, [], by decide +kernel, by decide +kernel⟩⟩

/-- RecordsStart: a workgroup, a swapped warp, a pre-empted workgroup and a spawned warp. -/
theorem witness_RecordsStart :
    (∃ (s : State) (x : Rec) (l : LaunchRec), s.nextRecord 0 = some (0, x) ∧ x.log = .off ∧ x.kind = .start ∧ x.lrec = some l) ∧
    (∃ (s : State) (x : Rec), s.nextRecord 0 = some (0, x) ∧ x.log = .off ∧ x.kind = .resume) ∧
    (∃ (s : State) (x : Rec) (ps : List BRef), s.nextRecord 0 = some (0, x) ∧ x.log = .off ∧ x.kind = .preempted ∧
      ((s.modCore 0 fun c => { c with queues := Tab.set [] c.queues x.prio ((c.onchip x.prio).erase x) }).discardClean 0).areaPages 0 x.dom
        x.frame.toNat (((s.modCore 0 fun c => { c with queues := Tab.set [] c.queues x.prio ((c.onchip x.prio).erase x) }).discardClean 0).wg 0
          x.set).areaBytes = some ps) ∧
    (∃ (s : State) (x : Rec) (i n : Nat), s.nextRecord 0 = some (0, x) ∧ x.log = .off ∧ x.kind = .spawned ∧ (s.wg 0 x.set).freeIndex = some i ∧
      (s.core 0).freeSlots.head? = some n) := by
  have some_ {α : Type} {x : Option α} (h : x.isSome = true) : x = some (x.get h) := by cases x <;> simp_all
  exact ⟨⟨queued base [recOf .start 0 0 (some (lrecOf 0 false))] [] 0, recOf .start 0 0 (some (lrecOf 0 false)), _, by decide +kernel, rfl, rfl, rfl⟩,
    ⟨queued (withWarp fun w => { w with status := .swapped none, slot := none }) [recOf .resume 0 0 none] [] 0, recOf .resume 0 0 none, by decide +kernel,
      rfl, rfl⟩,
    ⟨queued ((base.modCore 0 fun c => { c with tlb := [TlbEntry.mk 1 0 0 (2 ^ 30) (2 ^ 30) 1 0 true true true 0 true] }).setWg 0 16
      { Workgroup.init with dom := 1 }) [{ recOf .preempted 0 0 none with set := 16 }] [] 0, { recOf .preempted 0 0 none with set := 16 }, _, by decide +kernel, rfl, rfl,
      some_ (by decide +kernel)⟩,
    ⟨queued base [recOf .spawned 0 0 none] [] 0, recOf .spawned 0 0 none, 1, 1, by decide +kernel, rfl, rfl, by decide +kernel, by decide +kernel⟩⟩

/-- A partial of workgroup 0 in epoch 0. -/
def partialOf : Nat × Nat × Partial := (0, 0, ⟨64, 64, ⟨65600, 1, 1, true, false, 0⟩, 0, 0x3F800000⟩)

/-- The package with one launch, over a state. -/
def launched (s : State) (l : Launch) : State := { s with launches := [l] }

/-- WorkEnds: a workgroup that is done and one that is not; a grid that is not complete, one without target, one whose object takes the
arrival, one whose object does not, and one whose target is a word of memory. -/
theorem witness_WorkEnds :
    (∃ s : State, s.wgDone 0 0 = true) ∧ (∃ s : State, s.wgDone 0 0 = false) ∧
    (∃ s l, s = launched base l ∧ (l.complete && l.reachable && !(s.die l.home).tripped) = false ∧ l.mayClose = false) ∧
    (∃ s l, s = launched base l ∧ (l.complete && l.reachable && !(s.die l.home).tripped) = true ∧ l.tgt.ref = none ∧ l.lrec.done = 0) ∧
    (∃ s l r s1, s = launched (barred (bar3 1 0 0) 0) l ∧ (l.complete && l.reachable && !(s.die l.home).tripped) = true ∧ l.tgt.ref = some r ∧
      s.arriveAt r.core r.set (winOff l.lrec.done) 0 = .ok s1) ∧
    (∃ s l r c, s = launched (barred (bar3 0 0 0) 0) l ∧ (l.complete && l.reachable && !(s.die l.home).tripped) = true ∧ l.tgt.ref = some r ∧
      s.arriveAt r.core r.set (winOff l.lrec.done) 0 = .error c) ∧
    (∃ s l refs, s = launched (base.modCore 256 fun c => { c with tlb := [TlbEntry.mk 1 0 0 65536 65536 1 0 true true true 0 true] }) l ∧
      (l.complete && l.reachable && !(s.die l.home).tripped) = true ∧ l.tgt.ref = none ∧ l.lrec.done ≠ 0 ∧
      resolve s .atomic (sequencer l.dom) l.lrec.done 4 4 = .ok refs ∧ ∀ b ∈ refs, s.held b.pa = false) := by
  obtain ⟨s1, h1⟩ := okOf (e := (launched (barred (bar3 1 0 0) 0) (launchOf 0x40000000000000 (some r0) false 1 1 [])).arriveAt 0 0 0 0) (by decide +kernel)
  obtain ⟨c, h2⟩ := errOf (e := (launched (barred (bar3 0 0 0) 0) (launchOf 0x40000000000000 (some r0) false 1 1 [])).arriveAt 0 0 0 0) (by decide +kernel)
  exact ⟨⟨{ withWarp (fun w => { w with status := .ended, slot := none }) with turn := [] }, by decide +kernel⟩, ⟨base, by decide +kernel⟩,
    ⟨_, launchOf 0 none false 1 0 [], rfl, by decide +kernel, by decide +kernel⟩,
    ⟨_, launchOf 0 none false 1 1 [], rfl, by decide +kernel, rfl, rfl⟩,
    ⟨_, launchOf 0x40000000000000 (some r0) false 1 1 [], r0, s1, rfl, by decide +kernel, rfl, h1⟩,
    ⟨_, launchOf 0x40000000000000 (some r0) false 1 1 [], r0, c, rfl, by decide +kernel, rfl, h2⟩,
    ⟨_, launchOf 64 none false 1 1 [], _, rfl, by decide +kernel, rfl, by decide, resolves (by decide +kernel), by decide +kernel⟩⟩

/-- A state whose supervisor holds a mapping of the first page of domain 1. -/
def holding (s : State) : State := s.modDom 1 fun d => { d with holds := [{ va := 0, size := 65536, entry := 1048576, value := 0 }] }

/-- The package in which the sequencers find the first page of domain 1 at 65536. -/
def mapped : State := { base.modCore 256 (fun c => { c with tlb := [TlbEntry.mk 1 0 0 65536 65536 1 0 true true true 0 true] }) with tags := [(1025, (1, 1))] }

/-- A launch of which an epoch may close, over a state: with a partial, and no longer with a target. -/
def closing : Launch := launchOf 0 none true 1 1 [partialOf]

/-- The partials of the epoch of a launch that closes next. -/
def closes (l : Launch) : List (Nat × Nat × Partial) := l.area.filter fun p => decide (p.1 = l.closed)

/-- The next epoch of a launch closes at its state's next event. -/
def closesB (s : State) (l : Launch) : Bool := decide (s.launches.find? (fun x => decide (x.number = l.number)) = some l) && l.mayClose && s.sumsMay l.dom (closes l) && !(s.die l.home).tripped

/-- WorkEnds: an epoch whose target is mapped, one whose target the supervisor maps, one whose target nobody maps, and epochs that may not
close, as their vault is held or their die is tripped. -/
theorem witness_EpochCloses :
    (∃ s, s = launched mapped closing ∧ closesB s closing = true ∧ s.sumsMap 1 (closes closing) = none ∧
      ∃ b, s.sumHome 1 partialOf.2.2 = .ok b ∧ ((List.range 4).map fun i => { b with pa := b.pa + i }).any s.badAt = false) ∧
    (∃ s m, s = launched (holding base) closing ∧ closesB s closing = true ∧ s.sumsMap 1 (closes closing) = some m) ∧
    (∃ s c, s = launched base closing ∧ closesB s closing = true ∧ s.sumsMap 1 (closes closing) = none ∧ s.sumHome 1 partialOf.2.2 = .error c) ∧
    closesB (launched (mapped.modVault 0 fun v => { v with quiesce := true }) closing) closing = false ∧
    closesB (launched (mapped.modDie 0 fun d => { d with tripped := true }) closing) closing = false := by
  refine ⟨⟨_, rfl, by decide +kernel, by decide +kernel, _, rfl, by decide +kernel⟩,
    ⟨_, { va := 0, size := 65536, entry := 1048576, value := 0 }, rfl, by decide +kernel, by decide +kernel⟩,
    ⟨_, .pageNotPresent, rfl, by decide +kernel, by decide +kernel, rfl⟩, by decide +kernel, by decide +kernel⟩

/-- The sum of an epoch that closes is added at its target. -/
theorem test_epoch_sum : (match exec (.epochClose 1) (launched mapped closing) with
    | .next t => decide (t.phys64 65600 = 0x3F800000 ∧ (t.launches.map (·.closed)) = [1])
    | _ => false) = true := by decide +kernel

/-- The slice with a load of its row in progress from an address. -/
def loadingRow (s : State) (a : DWord) : State :=
  s.modWgOf r0 fun g => { g with slice := { g.slice with present := true, pending := some { q := 1, seqNo := 0, addr := a, pc := 0 } } }

/-- SliceLoads: an ALD with room in its queue and one without, one of a warp, a row that returns, and one whose address is not legal. -/
theorem witness_SliceLoads :
    (∃ s : State, s.issues sliceRef ∧ s.fallsThrough sliceRef ∧ s.canReadUni sliceRef (.g 2) 2 ∧ (s.wgOf sliceRef).slice.faulted = none ∧
      ((s.wgOf sliceRef).queue 1).rows.length < Config.queueRows) ∧
    (∃ s : State, s.issues sliceRef ∧ s.fallsThrough sliceRef ∧ s.canReadUni sliceRef (.g 2) 2 ∧ (s.wgOf sliceRef).slice.faulted = none ∧
      Config.queueRows ≤ ((s.wgOf sliceRef).queue 1).rows.length) ∧
    (∃ s : State, s.issues r0 ∧ r0.isSlice = false) ∧
    (∃ (s : State) (op : AldOp) (refs : List BRef), (s.wg 0 0).slice.pending = some op ∧ (s.wg 0 0).slice.faulted = none ∧
      (s.wg 0 0).slice.halted = false ∧ ((s.wg 0 0).queue op.q).rows.length < Config.queueRows ∧
      s.engineHeld { core := 0, set := 0, dom := (s.wg 0 0).dom, superv := false } .load op.addr.toNat 128 = false ∧
      resolve s .load { core := 0, set := 0, dom := (s.wg 0 0).dom, superv := false } op.addr 128 128 = .ok refs ∧ ∀ b ∈ refs, s.lostAt 0 false b = false) ∧
    (∃ (s : State) (op : AldOp) (c : Cause) (a2 : Option DWord), (s.wg 0 0).slice.pending = some op ∧ (s.wg 0 0).slice.faulted = none ∧
      (s.wg 0 0).slice.halted = false ∧ ((s.wg 0 0).queue op.q).rows.length < Config.queueRows ∧
      resolve s .load { core := 0, set := 0, dom := (s.wg 0 0).dom, superv := false } op.addr 128 128 = .error (c, a2) ∧ c ≠ .pageNotPresent ∧
      c ≠ .pageProt) :=
  ⟨⟨withSlice, selects (by decide +kernel), falls (by decide +kernel), readsUni (by decide +kernel), by decide +kernel, by decide +kernel⟩,
    ⟨withSlice.modWgOf r0 fun g => g.setQueue 1 { g.queue 1 with rows := List.replicate 16 { row := rowZero, mark := none, bad := false } }, selects (by decide +kernel),
      falls (by decide +kernel), readsUni (by decide +kernel), by decide +kernel, by decide +kernel⟩,
    ⟨base, selects (by decide +kernel), rfl⟩,
    ⟨loadingRow (window 0) 0x40000000000080, { q := 1, seqNo := 0, addr := 0x40000000000080, pc := 0 }, _, by decide +kernel, by decide +kernel, by decide +kernel, by decide +kernel,
      by decide +kernel, resolves (by decide +kernel), by decide +kernel⟩,
    ⟨loadingRow (window 0) 0x40000000000040, { q := 1, seqNo := 0, addr := 0x40000000000040, pc := 0 }, .misalign, none, by decide +kernel, by decide +kernel,
      by decide +kernel, by decide +kernel, rfl, by decide, by decide⟩⟩

/-- WorkEnds: a target whose byte is lost, one that the supervisor maps, and one that it does not. -/
theorem witness_WorkEndsAtFaults :
    (∃ s l refs, s = launched { base.modCore 256 (fun c => { c with tlb := [TlbEntry.mk 1 0 0 65536 65536 1 0 true true true 0 true] }) with bad := [65600] } l ∧
      (l.complete && l.reachable && !(s.die l.home).tripped) = true ∧ l.tgt.ref = none ∧ l.lrec.done ≠ 0 ∧
      resolve s .atomic (sequencer l.dom) l.lrec.done 4 4 = .ok refs ∧ (∀ b ∈ refs, s.held b.pa = false) ∧ refs.any s.badAt = true) ∧
    (∃ s l c a2 m, s = launched (holding base) l ∧ (l.complete && l.reachable && !(s.die l.home).tripped) = true ∧ l.tgt.ref = none ∧ l.lrec.done ≠ 0 ∧
      resolve s .atomic (sequencer l.dom) l.lrec.done 4 4 = .error (c, a2) ∧ c = .pageNotPresent ∧ s.resolves l.dom l.lrec.done none = some m) ∧
    (∃ s l c a2, s = launched base l ∧ (l.complete && l.reachable && !(s.die l.home).tripped) = true ∧ l.tgt.ref = none ∧ l.lrec.done ≠ 0 ∧
      resolve s .atomic (sequencer l.dom) l.lrec.done 4 4 = .error (c, a2) ∧ s.resolves l.dom l.lrec.done none = none) :=
  ⟨⟨_, launchOf 64 none false 1 1 [], _, rfl, by decide +kernel, rfl, by decide, resolves (by decide +kernel), by decide +kernel, by decide +kernel⟩,
    ⟨_, launchOf 64 none false 1 1 [], .pageNotPresent, none, { va := 0, size := 65536, entry := 1048576, value := 0 }, rfl, by decide +kernel, rfl, by decide,
      rfl, rfl, by decide +kernel⟩,
    ⟨_, launchOf 64 none false 1 1 [], .pageNotPresent, none, rfl, by decide +kernel, rfl, by decide, rfl, by decide +kernel⟩⟩

/-- RecordsStart: a pre-empted workgroup whose save area holds a lost byte. -/
theorem witness_RecordsLost : ∃ (s : State) (x : Rec) (ps : List BRef), s.nextRecord 0 = some (0, x) ∧ x.log = .off ∧ x.kind = .preempted ∧
    ((s.modCore 0 fun c => { c with queues := Tab.set [] c.queues x.prio ((c.onchip x.prio).erase x) }).discardClean 0).areaPages 0 x.dom
      x.frame.toNat (((s.modCore 0 fun c => { c with queues := Tab.set [] c.queues x.prio ((c.onchip x.prio).erase x) }).discardClean 0).wg 0
        x.set).areaBytes = some ps ∧ ps.any (fun b => s.badRange b.pa 65536) = true := by
  have some_ {α : Type} {x : Option α} (h : x.isSome = true) : x = some (x.get h) := by cases x <;> simp_all
  exact ⟨{ queued ((base.modCore 0 fun c => { c with tlb := [TlbEntry.mk 1 0 0 (2 ^ 30) (2 ^ 30) 1 0 true true true 0 true] }).setWg 0 16
      { Workgroup.init with dom := 1 }) [{ recOf .preempted 0 0 none with set := 16 }] [] 0 with bad := [2 ^ 30 + 7] },
    { recOf .preempted 0 0 none with set := 16 }, _, by decide +kernel, rfl, rfl, some_ (by decide +kernel), by decide +kernel⟩

/-- The slice's row in progress at an address can be loaded. -/
abbrev rowWaits (s : State) (a : DWord) : Prop := (s.wg 0 0).slice.pending = some { q := 1, seqNo := 0, addr := a, pc := 0 } ∧ (s.wg 0 0).slice.faulted = none ∧
  (s.wg 0 0).slice.halted = false ∧ ((s.wg 0 0).queue 1).rows.length < Config.queueRows

/-- What the slice of workgroup 0 acts as. -/
def sliceActor (s : State) : Actor := { core := 0, set := 0, dom := (s.wg 0 0).dom, superv := false }

/-- SliceLoads: a row that a quiesced vault holds, one with a lost byte, one whose page the supervisor maps, and one whose page it does not. -/
theorem witness_SliceLoadFaults :
    (∃ s a, rowWaits s a ∧ s.engineHeld (sliceActor s) .load a.toNat 128 = true) ∧
    (∃ s a refs, rowWaits s a ∧ s.engineHeld (sliceActor s) .load a.toNat 128 = false ∧ resolve s .load (sliceActor s) a 128 128 = .ok refs ∧
      ∃ b ∈ refs, s.lostAt 0 false b = true) ∧
    (∃ s a c a2 m, rowWaits s a ∧ s.engineHeld (sliceActor s) .load a.toNat 128 = false ∧ resolve s .load (sliceActor s) a 128 128 = .error (c, a2) ∧
      c = .pageNotPresent ∧ s.resolves (sliceActor s).dom a a2 = some m) ∧
    (∃ s a c a2, rowWaits s a ∧ s.engineHeld (sliceActor s) .load a.toNat 128 = false ∧ resolve s .load (sliceActor s) a 128 128 = .error (c, a2) ∧
      s.resolves (sliceActor s).dom a a2 = none) :=
  ⟨⟨(loadingRow (paged 0 0 0 0) 128).modVault 0 fun v => { v with quiesce := true }, 128, by decide +kernel, by decide +kernel⟩,
    ⟨{ loadingRow (window 0) 0x40000000000080 with bad := [2 * 2 ^ 44 + 7 * 4096 + 130], tags := [((2 * 2 ^ 44 + 7 * 4096 + 128) / 64, (1, 0))] }, 0x40000000000080, _, by decide +kernel, by decide +kernel,
      resolves (by decide +kernel), by decide +kernel⟩,
    ⟨loadingRow (holding base) 128, 128, .pageNotPresent, none, { va := 0, size := 65536, entry := 1048576, value := 0 }, by decide +kernel,
      by decide +kernel, rfl, rfl, by decide +kernel⟩,
    ⟨loadingRow base 128, 128, .pageNotPresent, none, by decide +kernel, by decide +kernel, rfl, by decide +kernel⟩⟩

/-- A load of warp 0 in flight that fills the queue register of the slice's row and was issued before it. -/
def loadsBefore : State :=
  loadingRow ((window 0).fly ((window 0).flight r0 .load (modsOf none) 1 (.lanes (.q 1) 1) [])) 0x40000000000080 |>.modWgOf r0
    fun g => { g with slice := { g.slice with pending := some { q := 1, seqNo := 9, addr := 0x40000000000080, pc := 0 } } }

/-- SliceLoads: a row that waits for a load issued before it. LaunchSequencing: a tripped die, and a package that has not booted. -/
theorem witness_Holds : (loadsBefore.pushesBefore 0 0 9 1 = true ∧ ((loadsBefore.wg 0 0).queue 1).rows.length < Config.queueRows) ∧
    ((base.modDie 0 fun d => { d with tripped := true }).die 0).tripped = true ∧ ({ base with boot := .failed } : State).boot ≠ .ready := by
  decide +kernel

/-- A domain 1 with its observation control and break points as given. -/
def observed (octl : Word) (barm : Word) : State := base.modDom 1 fun d => { d with octl := octl, barm := Tab.set 0 d.barm 0 barm }

/-- RegionInstructions: edges that are not armed and that are, and BKPT disabled and enabled, without trace records. -/
theorem witness_RegionInstructions : ∃ (x : BitVec 16) (s t : State), s.warpRuns r0 ∧ t.warpRuns r0 ∧
    ((s.dom (s.domOf r0)).armed x false = false ∧ (s.dom (s.domOf r0)).armed x true = false ∧ (s.dom (s.domOf r0)).octl.getLsbD 1 = false ∧
      (s.dom (s.domOf r0)).octl.getLsbD 2 = false ∧ (s.dom (s.domOf r0)).octl.getLsbD 3 = false) ∧
    ((t.dom (t.domOf r0)).armed x false = true ∧ (t.dom (t.domOf r0)).armed x true = true ∧ (t.dom (t.domOf r0)).octl.getLsbD 3 = true ∧ t.savable r0 = true) :=
  ⟨5, observed 0 0, observed 8 0x30005, runs (by decide +kernel), runs (by decide +kernel), by decide +kernel, by decide +kernel⟩

/-- The warp at supervisor privilege. -/
def supervising : State := withWarp fun w => { w with priv := true }

/-- ControlRegisters: a read at user privilege, one of a supervisor's register at supervisor privilege, and one of it at user privilege. -/
theorem witness_ControlRegisterReads : ∃ (x : Reg) (s t : State), x.isUniDst = true ∧ s.warpRuns r0 ∧ t.warpRuns r0 ∧
    csrSuper .tvec = false ∧ s.isSuper r0 = false ∧ s.canWriteUni r0 [] x ∧ csrSuper .svec = true ∧ t.isSuper r0 = true ∧ t.canWriteUni r0 [] x :=
  ⟨.g 4, base, supervising, rfl, runs (by decide +kernel), runs (by decide +kernel), by decide, by decide +kernel, writesUni (by decide +kernel), by decide,
    by decide +kernel, writesUni (by decide +kernel)⟩

/-- ControlRegisters: a write a user may make, one the user may not, one of a read-only register, and one of a bad value. -/
theorem witness_ControlRegisterWrites : ∃ (x : Reg) (s t : State), x.isUniSrc = true ∧ s.warpRuns r0 ∧ s.canReadUni r0 x 1 ∧ t.warpRuns r0 ∧ t.canReadUni r0 x 1 ∧
    (csrSuper .round = false ∧ csrUserWrites .round = true ∧ csrReadOnly .round = false ∧ s.csrRefuses 0 .round (s.uniRead r0 x) = false) ∧
    ¬(s.isSuper r0 = true ∨ (csrSuper .svec = false ∧ csrUserWrites .svec = true)) ∧
    (t.isSuper r0 = true ∧ csrReadOnly .priv = true) ∧ s.csrRefuses 0 .tvec (s.uniRead r0 x) = true ∧
    (csrBad .svec (t.uniRead r0 x) = false ∧ t.csrRefuses 0 .svec (t.uniRead r0 x) = true) :=
  ⟨.g 4, withG 4 6, supervising, rfl, runs (by decide +kernel), readsUni (by decide +kernel), runs (by decide +kernel), readsUni (by decide +kernel), by decide +kernel,
    by decide +kernel, by decide +kernel, by decide +kernel, by decide +kernel⟩

/-- The warp with a user handler at 16 and a trap area at offset 0 of its quad SRAM. -/
def handled (f : Warp → Warp) : State :=
  ((window 0).modWgOf r0 fun g => { g with qsram := 8192, granules := [7, 8] }).modWarp r0 fun w => f { w with tvec := 16, ftab := 0x40000000000000 }

/-- The premises of an entry at the user's handler, but for the trap area. -/
abbrev entersUser (s : State) (y : Trap) : Prop := s.savable r0 = true ∧ y.supervisorFirst = false ∧ (s.warp r0).tvec ≠ 0 ∧ (s.warp r0).active = false ∧
  (s.warp r0).priv = false

/-- ExceptionEntry: a cause that goes first to the supervisor, a warp without a handler, a pending write of a saved register, and a handler
in a foreign granule. -/
theorem witness_ExceptionEntry : ∃ (s t u : State) (x y : Trap), x.supervisorFirst = true ∧ x.causes = [x.cause] ∧ (s.warp r0).tvec = 0 ∧
    s.savable r0 = true ∧ t.savable r0 = false ∧ y.supervisorFirst = false ∧ y.causes = [y.cause] ∧ entersUser u y ∧
    u.foreign r0 (u.warp r0).tvec = true :=
  ⟨base, base.fly (base.flight r0 .load (modsOf none) 1 (.uni (.g 40) 1) []),
    (handled id).modCore 0 fun c => { c with owners := Tab.set .none c.owners 0 (.dom 2) }, Trap.of .pageNotPresent, Trap.of .illegalOp, by decide, rfl,
    by decide +kernel, by decide +kernel, by decide +kernel, by decide, rfl, by decide +kernel, by decide +kernel⟩

theorem areaTakes {s : State} {r : Ref} (h : (match areaRefs s r .store with | .ok x => s.areaFree r x | .error _ => false) = true) :
    ∃ x, areaRefs s r .store = .ok x ∧ s.areaFree r x = true := by
  split at h
  · exact ⟨_, ‹_›, h⟩
  · cases h

theorem areaWaits {s : State} {r : Ref} (h : (match areaRefs s r .store with | .ok x => !s.areaFree r x | .error _ => false) = true) :
    ∃ x, areaRefs s r .store = .ok x ∧ s.areaFree r x = false := by
  split at h
  · exact ⟨_, ‹_›, by simpa using h⟩
  · cases h

/-- A store of the warp to its trap area is in flight. -/
def areaBusy : State :=
  let b : BRef := { pa := 2 * 2 ^ 44 + 28672, dom := 1, epoch := 0, tagged := true, cached := false, stamp := 0 }
  (handled id).fly ((handled id).flight r0 .store (modsOf none) 1 .none [{ lane := 0, threads := [0], addr := 0x40000000000000, refs := [b], data := [0] }])

/-- ExceptionEntry: a handler whose trap area takes the stores, one that a store in flight touches, one outside the window, and a bad register
to save. -/
theorem witness_ExceptionAreas : ∃ (y : Trap), y.supervisorFirst = false ∧ y.causes = [y.cause] ∧
    (∃ s refs, entersUser s y ∧ s.foreign r0 (s.warp r0).tvec = false ∧ s.saveBad r0 = false ∧ areaRefs s r0 .store = .ok refs ∧ s.areaFree r0 refs = true) ∧
    (∃ s refs, entersUser s y ∧ s.foreign r0 (s.warp r0).tvec = false ∧ s.saveBad r0 = false ∧ areaRefs s r0 .store = .ok refs ∧ s.areaFree r0 refs = false) ∧
    (∃ s e, entersUser s y ∧ s.foreign r0 (s.warp r0).tvec = false ∧ s.saveBad r0 = false ∧ areaRefs s r0 .store = .error e) ∧
    (∃ s, entersUser s y ∧ s.foreign r0 (s.warp r0).tvec = false ∧ s.saveBad r0 = true) := by
  obtain ⟨e, h⟩ := errOf (e := areaRefs ((handled id).modWgOf r0 fun g => { g with qsram := 0 }) r0 .store) (by decide +kernel)
  obtain ⟨x, hx⟩ := areaTakes (s := handled id) (r := r0) (by decide +kernel)
  obtain ⟨y, hy⟩ := areaWaits (s := areaBusy) (r := r0) (by decide +kernel)
  exact ⟨Trap.of .illegalOp, by decide, rfl, ⟨handled id, x, by decide +kernel, by decide +kernel, by decide +kernel, hx⟩,
    ⟨areaBusy, y, by decide +kernel, by decide +kernel, by decide +kernel, hy⟩,
    ⟨_, e, by decide +kernel, by decide +kernel, by decide +kernel, h⟩,
    ⟨(handled id).modWarp r0 fun w => { w with bad := [.g 40] }, by decide +kernel, by decide +kernel, by decide +kernel⟩⟩

/-- TrapAndSyscall: the words of its table, and one with d = 1. -/
theorem witness_TrapWords : (fop 0xF2000007 = 0xF2#8 ∧ fd 0xF2000007 = 0) ∧ (fop 0xF3000007 = 0xF3#8 ∧ fd 0xF3000007 = 0) ∧
    fop 0xF3010007 = 0xF3#8 ∧ fd 0xF3010007 ≠ 0 := by
  decide

/-- A warp with an empty S and a handler of its own, or without one. -/
def calls (h : Bool) : State := if h then handled fun w => { w with cur := 0 } else base

/-- A warp whose next word lies in a granule of another domain. -/
def atEdge : State := (withWarp fun w => { w with pc := 252 }).modCore 0 fun c => { c with owners := Tab.set .none c.owners 1 (.dom 2) }

/-- TrapAndSyscall: a warp without a handler and one with a handler, S empty, and one whose next word is foreign. -/
theorem witness_TrapAndSyscall : (∀ h, (calls h).issues r0 ∧ ((calls h).warp r0).pfx = none ∧ (calls h).foreign r0 (((calls h).warp r0).pc + 4) = false ∧
      (calls h).savable r0 = true ∧ (((calls h).warp r0).tvec ≠ 0 ↔ h = true)) ∧
    (entersUser (calls true) (Trap.of .trap) ∧ (calls true).foreign r0 ((calls true).warp r0).tvec = false ∧ (calls true).saveBad r0 = false ∧
      (calls true).applied r0 = 0 ∧ ∃ refs, areaRefs (calls true) r0 .store = .ok refs ∧ (calls true).areaFree r0 refs = true) ∧
    atEdge.issues r0 ∧ (atEdge.warp r0).pfx = none ∧ atEdge.foreign r0 ((atEdge.warp r0).pc + 4) = true := by
  refine ⟨fun h => ⟨selects ?_, ?_⟩, ⟨?_, ?_, ?_, ?_, areaTakes ?_⟩, selects ?_, ?_, ?_⟩
  iterate 2 cases h <;> decide +kernel
  all_goals decide +kernel

/-- A prefix word at address 0 and a word behind it. -/
def paired (w : Word) : State := base.modCore 0 fun c => { c with imem := Tab.set 0 (Tab.set 0 c.imem 0 0xFF000001) 1 w }

/-- BadWordsAndForeignCode: a pair that is an instruction, one that is not, and a prefix word in the last word of instruction memory. -/
theorem witness_Prefixes :
    (∃ (s : State) (w : Word) (i : Instr), s.issues r0 ∧ s.secondWord r0 = some w ∧ s.codeBad r0 (s.pcOf r0 + 4) = false ∧ s.foreign r0 (s.pcOf r0 + 4) = false ∧
      decodeAt ((s.pcOf r0).toNat + 4) (some 1) w = .ok i) ∧
    (∃ (s : State) (w : Word) (c : Cause), s.issues r0 ∧ s.secondWord r0 = some w ∧ s.codeBad r0 (s.pcOf r0 + 4) = false ∧ s.foreign r0 (s.pcOf r0 + 4) = false ∧
      decodeAt ((s.pcOf r0).toNat + 4) (some 1) w = .error c) ∧
    (∃ (s : State) (w : Word), s.issues r0 ∧ s.secondWord r0 = some w ∧ s.codeBad r0 (s.pcOf r0 + 4) = true) ∧
    (∃ s : State, s.issues r0 ∧ s.secondWord r0 = none) := by
  obtain ⟨i, h1⟩ := okOf (e := decodeAt 4 (some 1) 0x010102FF) (by decide +kernel)
  obtain ⟨c, h2⟩ := errOf (e := decodeAt 4 (some 1) 0) (by decide +kernel)
  exact ⟨⟨paired 0x010102FF, 0x010102FF, i, selects (by decide +kernel), by decide +kernel, by decide +kernel, by decide +kernel, h1⟩,
    ⟨paired 0, 0, c, selects (by decide +kernel), by decide +kernel, by decide +kernel, by decide +kernel, h2⟩,
    ⟨(paired 0).modCore 0 fun c => { c with badWords := [1] }, 0, selects (by decide +kernel), by decide +kernel, by decide +kernel⟩,
    ⟨withWarp fun w => { w with pc := 262140 }, selects (by decide +kernel), by decide +kernel⟩⟩

/-- The warp at supervisor privilege as it serves a cause, to return to address 8. -/
def serving (cause : Word) : State := withWarp fun w => { w with priv := true, sactive := true, scause := cause, sepc := 8 }

/-- The warp of a state as an RTE at supervisor privilege leaves it. -/
def returned (w : Warp) : Warp := { w with priv := w.spriv, sactive := false, service := none, pc := w.sepc, pfx := none }

/-- ExceptionReturn: at supervisor privilege, from a SYSCALL, to a granule that the warp may run and to one that it may not. -/
theorem witness_ExceptionReturn :
    ((serving 0x21).issues r0 ∧ ((serving 0x21).warp r0).priv = true ∧ ((serving 0x21).warp r0).sactive = true ∧
      ((serving 0x21).warp r0).scause.extractLsb' 0 8 ≠ Cause.accessFault.code ∧
      ((serving 0x21).modWarp r0 fun _ => returned ((serving 0x21).warp r0)).foreign r0 ((serving 0x21).warp r0).sepc = false) ∧
    (∃ s : State, s.issues r0 ∧ (s.warp r0).priv = true ∧ (s.warp r0).sactive = true ∧ (s.warp r0).scause.extractLsb' 0 8 ≠ Cause.accessFault.code ∧
      (s.modWarp r0 fun _ => returned (s.warp r0)).foreign r0 (s.warp r0).sepc = true) :=
  ⟨⟨selects (by decide +kernel), by decide +kernel⟩,
    ⟨(serving 0x21).modCore 0 fun c => { c with owners := Tab.set .none c.owners 0 (.dom 2) }, selects (by decide +kernel), by decide +kernel⟩⟩

/-- ExceptionReturn: at supervisor privilege from an ACCESS_FAULT, whose slice restarts, and without a service open. -/
theorem witness_ReturnToSlice :
    ((serving 0x25).issues r0 ∧ ((serving 0x25).warp r0).priv = true ∧ ((serving 0x25).warp r0).sactive = true ∧
      ((serving 0x25).warp r0).scause.extractLsb' 0 8 = Cause.accessFault.code ∧
      (((serving 0x25).restartSlice r0).modWarp r0 fun _ => returned ((serving 0x25).warp r0)).foreign r0 ((serving 0x25).warp r0).sepc = false) ∧
    ∃ s : State, s.issues r0 ∧ (s.warp r0).priv = true ∧ (s.warp r0).sactive = false :=
  ⟨⟨selects (by decide +kernel), by decide +kernel⟩, ⟨supervising, selects (by decide +kernel), by decide +kernel⟩⟩

/-- ExceptionReturn: at user privilege without a handler, and at another depth. -/
theorem witness_NoReturn :
    (∃ s : State, s.issues r0 ∧ (s.warp r0).priv = false ∧ (s.warp r0).active = false) ∧
    ∃ s : State, s.issues r0 ∧ (s.warp r0).priv = false ∧ (s.warp r0).active = true ∧ (s.warp r0).stack.length ≠ (s.warp r0).tbase :=
  ⟨⟨base, selects (by decide +kernel), by decide +kernel⟩,
    ⟨withWarp fun w => { w with active := true, tbase := 1 }, selects (by decide +kernel), by decide +kernel⟩⟩

/-- The warp in a handler of a cause, to return to address 8. -/
def handling (cause : Word) : State := handled fun w => { w with active := true, epc := 8, cause := cause }

/-- ExceptionReturn: at user privilege, from a handler of a trap and of an ACCESS_FAULT. -/
theorem witness_UserReturn : ∀ x ∈ [0x20#32, 0x25#32], (handling x).issues r0 ∧ ((handling x).warp r0).priv = false ∧
    ((handling x).warp r0).active = true ∧ ((handling x).warp r0).cause = x ∧ ((handling x).warp r0).stack.length = ((handling x).warp r0).tbase ∧
    (∀ i, i < 8 → (handling x).pendingG r0 (40 + i) = false) ∧ (handling x).mayGo r0 ((handling x).warp r0).epc.toNat ∧
    ((handling x).warp r0).deferred = .none ∧
    ∃ (bs : List Byte) (s1 : State), (handling x).readStruct r0 ((handling x).warp r0).ftab 64 16 = .ok (bs, s1) := by
  intro x hx
  simp only [List.mem_cons, List.not_mem_nil, or_false] at hx
  rcases hx with rfl | rfl
  · exact ⟨selects (by decide +kernel), rfl, rfl, rfl, rfl, by decide +kernel, goes (by decide +kernel), rfl, _, _, structs (by decide +kernel)⟩
  · exact ⟨selects (by decide +kernel), rfl, rfl, rfl, rfl, by decide +kernel, goes (by decide +kernel), rfl, _, _, structs (by decide +kernel)⟩

/-- CachesAreFlushed: TLBINV at user privilege, with a reserved bit set, of one address, and with an access of its domain outstanding. -/
theorem witness_TranslationsDropped :
    (∃ s : State, s.warpRuns r0 ∧ s.canReadUni r0 (.g 2) 2 ∧ s.isSuper r0 = false) ∧
    (∃ s : State, s.warpRuns r0 ∧ s.canReadUni r0 (.g 2) 2 ∧ s.isSuper r0 = true ∧ bitsOf (s.pairOf r0 2).toNat 62 56 ≠ 0) ∧
    (∃ s : State, s.warpRuns r0 ∧ s.canReadUni r0 (.g 2) 2 ∧ s.isSuper r0 = true ∧ bitsOf (s.pairOf r0 2).toNat 62 56 = 0 ∧
      s.domQuiet (s.warp r0).sdom = true) ∧
    (∃ s : State, s.warpRuns r0 ∧ s.canReadUni r0 (.g 2) 2 ∧ s.isSuper r0 = true ∧ bitsOf (s.pairOf r0 2).toNat 62 56 = 0 ∧
      s.domQuiet (s.warp r0).sdom = false) :=
  ⟨⟨base, runs (by decide +kernel), readsUni (by decide +kernel), by decide +kernel⟩,
    ⟨supervising.setG r0 3 0x01000000, runs (by decide +kernel), readsUni (by decide +kernel), by decide +kernel, by decide +kernel⟩,
    ⟨supervising, runs (by decide +kernel), readsUni (by decide +kernel), by decide +kernel, by decide +kernel, by decide +kernel⟩,
    ⟨(supervising.modWarp r0 fun w => { w with sdom := 1 }).fly (base.flight r0 .load (modsOf none) 1 .none []), runs (by decide +kernel),
      readsUni (by decide +kernel), by decide +kernel, by decide +kernel, by decide +kernel⟩⟩

/-- CachesAreFlushed: CFLUSH of all lines, of a range in one space, and of one that leaves its space, by a warp with a dirty line. -/
theorem witness_LinesFlushed :
    (∃ (b : Reg) (s : State), s.warpRuns r0 ∧ b.isUniSrc = true ∧ s.canReadUni r0 b 1 ∧ s.quiet r0 = true ∧ s.uniRead r0 b = 0 ∧
      s.linesFree ((s.core 0).l1.filter fun l => decide (l.dom = s.domOf r0)) = true ∧ ∃ l ∈ (s.core 0).l1, l.dom = s.domOf r0 ∧ l.dirty ≠ 0) ∧
    (∃ (b : Reg) (s : State), s.warpRuns r0 ∧ b.isUniSrc = true ∧ s.canReadUni r0 b 1 ∧ s.quiet r0 = true ∧ s.uniRead r0 b ≠ 0 ∧ s.canReadUni r0 (.g 2) 2 ∧
      (s.pairOf r0 2).toNat + (s.uniRead r0 b).toNat - 1 < 2 ^ 56 ∧
      bitsOf (s.pairOf r0 2).toNat 55 53 = bitsOf ((s.pairOf r0 2).toNat + (s.uniRead r0 b).toNat - 1) 55 53 ∧
      bitsOf ((s.pairOf r0 2).toNat + (s.uniRead r0 b).toNat - 1) 55 53 ≤ 4 ∧
      s.linesFree (((s.core 0).l1.filter fun l => decide (l.dom = s.domOf r0)).filter fun l =>
        (s.spans 0 (s.domOf r0) (s.pairOf r0 2).toNat (s.uniRead r0 b).toNat).any fun p => l.meets p) = true) ∧
    (∃ (b : Reg) (s : State), s.warpRuns r0 ∧ b.isUniSrc = true ∧ s.canReadUni r0 b 1 ∧ s.quiet r0 = true ∧ s.uniRead r0 b ≠ 0 ∧ s.canReadUni r0 (.g 2) 2 ∧
      bitsOf (s.pairOf r0 2).toNat 55 53 ≠ bitsOf ((s.pairOf r0 2).toNat + (s.uniRead r0 b).toNat - 1) 55 53) :=
  ⟨⟨.zero, base.modCore 0 fun c => { c with l1 := [L1Line.mk 5 1 1 0xFF 1 (List.replicate 128 0)] }, runs (by decide +kernel), rfl, trivial,
      by decide +kernel, by decide +kernel, by decide +kernel, by decide +kernel⟩,
    ⟨.g 5, withG 5 128, runs (by decide +kernel), rfl, readsUni (by decide +kernel), by decide +kernel, by decide +kernel, readsUni (by decide +kernel),
      by decide +kernel, by decide +kernel, by decide +kernel, by decide +kernel⟩,
    ⟨.g 5, ((withG 5 2).setG r0 2 0xFFFFFFFF).setG r0 3 0x1FFFFF, runs (by decide +kernel), rfl, readsUni (by decide +kernel), by decide +kernel, by decide +kernel,
      readsUni (by decide +kernel), by decide +kernel⟩⟩

/-- EventsAndLogControl: a mask with an undefined bit, the empty mask, a mask whose event has happened, and one whose event has not. -/
theorem witness_EventsAndLogControl : ∃ (a : Reg) (s t u v : State), a.isUniSrc = true ∧ a.isUniDst = true ∧ s.warpRuns r0 ∧ s.canReadUni r0 a 1 ∧
    t.warpRuns r0 ∧ t.canReadUni r0 a 1 ∧ u.warpRuns r0 ∧ u.canReadUni r0 a 1 ∧ v.warpRuns r0 ∧ v.canReadUni r0 a 1 ∧ v.canWriteUni r0 [] a ∧
    s.uniRead r0 a &&& ~~~(0xF03#32) ≠ 0 ∧ t.uniRead r0 a = 0 ∧
    (u.uniRead r0 a &&& ~~~(0xF03#32) = 0 ∧ u.eventsOf r0 &&& u.uniRead r0 a ≠ 0) ∧
    (v.uniRead r0 a &&& ~~~(0xF03#32) = 0 ∧ v.uniRead r0 a ≠ 0 ∧ v.eventsOf r0 &&& v.uniRead r0 a = 0) :=
  ⟨.g 4, withG 4 4, base, (withG 4 1).modDom 1 fun d => { d with doorbell := true }, withG 4 1, rfl, rfl, runs (by decide +kernel), readsUni (by decide +kernel),
    runs (by decide +kernel), readsUni (by decide +kernel), runs (by decide +kernel), readsUni (by decide +kernel), runs (by decide +kernel),
    readsUni (by decide +kernel), writesUni (by decide +kernel), by decide +kernel, by decide +kernel, by decide +kernel, by decide +kernel⟩

/-- The candidates that may follow a pick of the uniform pipe in its cycle, as IssueSelection says. -/
def followers (s : State) (x : Turn) (i : Instr) : List Cand :=
  (s.cands 0 4).filter fun y => (x.passed.contains y.ref ||
    (decide (y.ref = x.ref) && decide ((s.warp x.ref).level = 0) && independent i (s.comingUp x.ref))) &&
    (decide ((s.core 0).shareOf y.dom ≠ 0) || (x.ref :: x.passed).all fun p => decide (s.domOf p = y.dom))

/-- The turn of the warp as the first pick of the uniform pipe. -/
def firstPick : Turn := { ref := r0, pipe := 4, second := false, passed := [] }

/-- IssueSelection: the uniform pipe of a running core with a candidate; a pick after which its own warp's next instruction may follow, and
ones after which none does: a dependent one, and one of a domain without a share. -/
theorem witness_IssueSelection : (∃ s : State, s.coreRuns 0 = true ∧ s.turn = [] ∧ ((s.cycle 0).addCredits 0 4).cands 0 4 ≠ []) ∧
    (∃ (s : State) (i : Instr), s.coreRuns 0 = true ∧ followers s firstPick i ≠ []) ∧
    (∃ (s : State) (i : Instr), s.coreRuns 0 = true ∧ s.cands 0 4 ≠ [] ∧ followers s firstPick i = []) ∧
    (∃ s : State, s.coreRuns 0 = true ∧ (s.core 0).shareOf 1 = 0 ∧ followers s { firstPick with passed := [{ r0 with set := 1 }] } (.gmov (.g 1) (.g 2)) = []) :=
  let s := State.reset.withFetchWord 32 0x8CCFD2F3
  ⟨⟨{ base with turn := [] }, by decide +kernel, rfl, by decide +kernel⟩,
    ⟨s, .gmov (.g 1) (.g 2), by decide +kernel, by decide +kernel⟩, ⟨s, .br 5, by decide +kernel, by decide +kernel, by decide +kernel⟩,
    ⟨s.modCore 0 fun c => { c with share := [(2, 256)] }, by decide +kernel, by decide +kernel, by decide +kernel⟩⟩

/-- WarpsWaitAndArePreempted: each event of a waiting warp that may happen, and a state in which none may. -/
theorem witness_WarpsWait :
    (∃ s : State, (s.warpAt 0 0 0).hit = true) ∧
    (∃ s : State, (∃ p, (s.warpAt 0 0 0).status = .parked p) ∧ (s.warpAt 0 0 0).pin = none ∧ (s.warpAt 0 0 0).swapDue = false ∧
      (s.core 0).swapwait ≠ 0xFFFFFF ∧ (s.core 0).swapwait = (s.warpAt 0 0 0).parked ∧ (s.core 0).swapwait ≤ (s.warpAt 0 0 0).parked) ∧
    (∃ s : State, s.swapMay 0 0 0 = true ∧ (s.warpAt 0 0 0).bad = []) ∧ (∃ s : State, s.swapMay 0 0 0 = true ∧ (s.warpAt 0 0 0).bad ≠ []) ∧
    (∃ s : State, (s.warpAt 0 0 0).hit = false ∧ ¬(∃ p, (s.warpAt 0 0 0).status = .parked p) ∧ s.swapMay 0 0 0 = false) :=
  ⟨⟨withWarp fun w => { w with hit := true }, by decide +kernel⟩,
    ⟨withWarp fun w => { w with status := .parked (.waitph 0 0), parked := 100000 }, ⟨.waitph 0 0, by decide +kernel⟩, by decide +kernel, by decide +kernel,
      by decide +kernel, by decide +kernel, by decide +kernel⟩,
    ⟨withWarp fun w => { w with status := .parked (.waitph 0 0), swapDue := true }, by decide +kernel⟩,
    ⟨withWarp fun w => { w with status := .parked (.waitph 0 0), swapDue := true, bad := [.g 3] }, by decide +kernel⟩,
    ⟨base, by decide +kernel, fun ⟨p, h⟩ => absurd (h.symm.trans (show (base.warpAt 0 0 0).status = .running by decide +kernel)) (by simp), by decide +kernel⟩⟩

/-- Core 0 with a 1 GiB page for the save area, its workgroup not selected, and its pre-emption registers as given. -/
def preempting (addr wg : DWord) (k : Option Nat) : State :=
  { base.modCore 0 (fun c => { c with tlb := [TlbEntry.mk 1 0 0 (2 ^ 30) (2 ^ 30) 1 0 true true true 0 true], praddr := addr, prwg := wg, preempt := k, prhold := true }) with
    turn := [] }

/-- Preemption: requests that find one in progress, an absent die, a misaligned area, no such workgroup, and a resident one. -/
theorem witness_Preemption :
    (∃ s : State, (s.core 0).preempt.isSome = true ∧ (s.core 0).heldBack = []) ∧ (∃ s : State, s.hasDie (dieOf 64) = false) ∧
    (∃ s : State, s.hasDie (dieOf 0) = true ∧ (s.core 0).preempt = none ∧ (s.core 0).praddr.toNat % 65536 ≠ 0 ∧ s.preemptMay 0 = none) ∧
    (∃ s : State, s.hasDie (dieOf 0) = true ∧ (s.core 0).preempt = none ∧ (s.core 0).resident.find? (fun k => decide (pair64 (s.wg 0 k).index
      (BitVec.ofNat 32 (s.wg 0 k).launch) = (s.core 0).prwg)) = none) ∧
    (∃ s : State, s.hasDie (dieOf 0) = true ∧ (s.core 0).preempt = none ∧ (s.core 0).praddr.toNat % 65536 = 0 ∧
      (s.core 0).resident.find? (fun k => decide (pair64 (s.wg 0 k).index (BitVec.ofNat 32 (s.wg 0 k).launch) = (s.core 0).prwg)) = some 0) := by
  refine ⟨⟨preempting 0 0 (some 0), ?_⟩, ⟨{ base with part := .ky1s }, ?_⟩, ⟨preempting 4096 0 none, ?_⟩, ⟨preempting 0 0 none, ?_⟩,
    ⟨preempting 0 0x100000000 none, ?_⟩⟩ <;> decide +kernel

/-- Preemption: a save that may happen, one whose warp has a register that fails its check, and a record held back. -/
theorem witness_PreemptSave :
    (∃ (s : State) (k : Nat) (ps : List BRef), s.preemptMay 0 = some (k, ps) ∧ k < 16 ∧ (s.core 0).prhold = true ∧
      (∀ w ∈ (s.wg 0 k).warps, w.2.bad = []) ∧ s.groupBad 0 k (if (s.core 0).array.holder = some k then some (s.core 0).array else (s.wg 0 k).savedArray) = false) ∧
    (∃ (s : State) (k : Nat) (ps : List BRef), s.preemptMay 0 = some (k, ps) ∧ k < 16 ∧
      (s.wg 0 k).warps.any (fun w => w.2.exists_ && !w.2.away && decide (w.2.bad ≠ [])) = true) ∧
    ∃ (s : State) (x : Rec) (xs : List Rec), (s.core 0).heldBack = x :: xs := by
  have some_ {p : Option (Nat × List BRef)} (h : (p.map Prod.fst) = some 0) : ∃ ps, p = some (0, ps) := by
    cases p with
    | none => cases h
    | some q => obtain ⟨a, b⟩ := q; simp only [Option.map_some, Option.some.injEq] at h; exact ⟨b, by rw [h]⟩
  obtain ⟨ps, h⟩ := some_ (p := (preempting 0 0x100000000 (some 0)).preemptMay 0) (by decide +kernel)
  obtain ⟨qs, h2⟩ := some_ (p := ((preempting 0 0x100000000 (some 0)).modWarp r0 fun w => { w with bad := [.stack] }).preemptMay 0) (by decide +kernel)
  exact ⟨⟨_, 0, ps, h, by decide, by decide +kernel⟩, ⟨_, 0, qs, h2, by decide +kernel⟩,
    ⟨base.modCore 0 fun c => { c with heldBack := [recOf .preempted 0 0 none] }, recOf .preempted 0 0 none, [], by decide +kernel⟩⟩

/-- A workgroup with a row in its queue 3 and a warp with a lane register and an apply entry. -/
def laden : State :=
  (base.modWgOf r0 fun g => { g with queues := Tab.set Queue.init g.queues 3 { head := 5, rows := [{ row := List.replicate 32 9, mark := none, bad := false }], last := 9 } }).modWarp r0
    fun w => { w with v := [(2, List.replicate 32 7)] }

/-- The 16 pages of a workgroup's save area. -/
def areaPages : List BRef :=
  (List.range 16).map fun i => { pa := 65536 * (i + 1), dom := 1, epoch := 0, tagged := true, cached := false, stamp := 0 }

/-- SavedStateReturns: a warp and a workgroup that fit their layouts, and the pages of an area. -/
theorem witness_SavedStateReturns : (laden.warpAt 0 0 0).fits ∧ (laden.wg 0 0).fits none ∧ areaFits areaPages (groupAreaBytes + (laden.wg 0 0).qsram) := by
  have none_ : ∀ i w, i < 16 → Tab.get none (laden.wg 0 0).windows i = some w → w.count < 2 ^ 32 ∧ w.zlog < 256 := fun i w _ h => by
    rw [show (laden.wg 0 0).windows = [] by decide +kernel] at h
    cases h
  refine ⟨⟨?_, ?_, ?_, ?_, ?_, ?_, ?_⟩, ⟨?_, ?_, ?_, none_, fun _ _ h => by cases h⟩, ⟨?_, ?_, ?_⟩⟩ <;> decide +kernel

/-- Tables of domain 1 in vault 0: a root that points through three levels to a leaf of a 64 KiB page. -/
def tabled : State :=
  ((((base.modDom 1 fun d => { d with ptbase := 0x10000 }).physStore 0x10000 (leBytes 8 0x20001)).physStore 0x20000 (leBytes 8 0x30001)).physStore 0x30000
    (leBytes 8 0x40001)).physStore 0x40000 (leBytes 8 (2 ^ 48 + 0x50000 + 0x1F))

/-- The entry of domain 1's first page as a walk of those tables finds it. -/
def firstEntry : TlbEntry :=
  match walkOf tabled 1 5 with
  | .ok e => e
  | .error _ => TlbEntry.mk 1 0 0 (2 ^ 30) 0 0 0 true true true 0 true

/-- TranslationMarks: a first use, found by a walk; a use of a cached entry that is marked dirty, and of one that is not; an address that no
table translates, and one whose translation fails. -/
theorem witness_TranslationMarks :
    (∃ s : State, s.translate 0 1 5 = .ok firstEntry ∧ firstEntry ∉ (s.core 0).tlb ∧ firstEntry ∉ (s.quad (quadOf 0)).tlb) ∧
    (∃ (s : State) (e : TlbEntry), s.translate 0 1 5 = .ok e ∧ e ∈ (s.core 0).tlb ∧ e.dirty = true) ∧
    (∃ (s : State) (e : TlbEntry), s.translate 0 1 5 = .ok e ∧ e ∈ (s.core 0).tlb ∧ e.dirty = false) ∧
    (∃ va : Nat, ¬(bitsOf va 55 53 = 0 ∨ bitsOf va 55 53 = 1 ∨ bitsOf va 55 53 = 4)) ∧ ∃ (s : State) (c : Cause), s.translate 0 1 5 = .error c := by
  obtain ⟨c, h⟩ := errOf (e := base.translate 0 1 5) (by decide +kernel)
  exact ⟨⟨tabled, by decide +kernel⟩, ⟨tabled.modCore 0 fun c => { c with tlb := [{ firstEntry with dirty := true }] }, { firstEntry with dirty := true }, by decide +kernel⟩,
    ⟨tabled.modCore 0 fun c => { c with tlb := [firstEntry] }, firstEntry, by decide +kernel⟩, ⟨2 ^ 54, by decide⟩, ⟨base, c, h⟩⟩

/-- CorrectionsAndReplays: a bank that is put at risk, and one at risk already; a bank whose window is open and one whose window is not; a
port of the die; a load in flight; a lane register of a warp; and an access slice. -/
theorem witness_CorrectionsAndReplays :
    (∃ (s : State) (v b : Nat), s.hasDie (dieOf v) = true ∧ (s.vault v).vbmap.getLsbD b = true ∧ (s.vault v).risk.getLsbD b = false) ∧
    (∃ s : State, s.refreshDue 0 0 = true) ∧ (∃ s : State, s.refreshDue 0 0 = false) ∧ (∃ s : State, s.hasPort 0 3 = true) ∧
    (∃ (s : State) (f : Flight), (s.core 0).flights[0]? = some f) ∧
    (∃ (s : State) (n j : Nat), (s.warpAt 0 0 0).exists_ = true ∧ (s.warpAt 0 0 0).away = false ∧ n < 8 * (s.warpAt 0 0 0).gran ∧ j < 32) ∧
    (∃ s : State, (s.wg 0 0).slice.present = true) ∧
    (∃ (s : State) (r : Ref), s.domOf r = 1 ∧ (s.dom 1).tcmp.toNat ≤ (s.guest 1).toNat) ∧ (∃ s : State, (s.guest 1).toNat < (s.dom 1).tcmp.toNat) :=
  ⟨⟨base, 127, 63, by decide +kernel⟩, ⟨{ base with time := 960000 }, by decide +kernel⟩, ⟨base.modDie 0 fun d => d.refresh 0 100000, by decide +kernel⟩,
    ⟨base, by decide +kernel⟩, ⟨loading, firstOf loading, by decide +kernel⟩, ⟨base, 191, 31, by decide +kernel⟩,
    ⟨base.modWgOf r0 fun g => { g with slice := { g.slice with present := true } }, by decide +kernel⟩,
    ⟨base.modDom 1 fun d => { d with tcmp := 0 }, r0, by decide +kernel⟩, ⟨base.modDom 1 fun d => { d with tcmp := 5 }, by decide +kernel⟩⟩

/-- One dirty line of the core's L1, its vault quiesced or not. -/
def lined (q : Bool) : State :=
  (base.modCore 0 fun c => { c with l1 := [L1Line.mk 5 1 1 0xFF 1 (List.replicate 128 0)] }).modVault 0 fun v => { v with quiesce := q }

/-- CachesAndSamples: a line that is written back, one that a quiesced vault holds, a walk that finds its leaf, one that finds none, and one
that waits for its table's vault. -/
theorem witness_CachesWritten :
    (∃ (s : State) (l : L1Line), (s.core 0).l1[0]? = some l ∧ s.held (l.line * 128) = false ∧ l.dirty ≠ 0) ∧
    (∃ (s : State) (l : L1Line), (s.core 0).l1[0]? = some l ∧ s.held (l.line * 128) = true) ∧ (∃ s : State, (s.core 0).l1[0]? = none) ∧
    (∃ (s : State) (e : TlbEntry), (∀ pa ∈ walkReads s 1 ((5 : DWord).toNat % 2 ^ 56), s.held pa = false) ∧ walkOf s 1 ((5 : DWord).toNat % 2 ^ 56) = .ok e ∧
      (5 : DWord).toNat < 2 ^ 56 ∧ bitsOf (5 : DWord).toNat 55 53 = 0) ∧
    (∃ (s : State) (c : Cause), (∀ pa ∈ walkReads s 1 ((5 : DWord).toNat % 2 ^ 56), s.held pa = false) ∧ walkOf s 1 ((5 : DWord).toNat % 2 ^ 56) = .error c) ∧
    (∃ s : State, ∃ pa ∈ walkReads s 1 ((5 : DWord).toNat % 2 ^ 56), s.held pa = true) := by
  obtain ⟨e, h⟩ := okOf (e := walkOf tabled 1 ((5 : DWord).toNat % 2 ^ 56)) (by decide +kernel)
  obtain ⟨c, h2⟩ := errOf (e := walkOf base 1 ((5 : DWord).toNat % 2 ^ 56)) (by decide +kernel)
  exact ⟨⟨lined false, L1Line.mk 5 1 1 0xFF 1 (List.replicate 128 0), by decide +kernel⟩, ⟨lined true, L1Line.mk 5 1 1 0xFF 1 (List.replicate 128 0), by decide +kernel⟩,
    ⟨base, by decide +kernel⟩, ⟨tabled, e, by decide +kernel, h, by decide, by decide⟩, ⟨base, c, by decide +kernel, h2⟩,
    ⟨tabled.modVault 0 fun v => { v with quiesce := true }, by decide +kernel⟩⟩

/-- CachesAndSamples: data lost in a dirty line and by scrubbing, no such line, no move and no version; and samples due and not due. -/
theorem witness_LossesAndSamples :
    (∃ (s : State) (l : L1Line), (s.core 0).l1[0]? = some l ∧ l.dirty ≠ 0) ∧ (∃ (s : State) (pa : Nat), paSpace pa = 0 ∧ s.hasDie (dieOf (paVaultOf pa)) = true) ∧
    (∃ s : State, ∀ l, (s.core 64).l1[0]? = some l → l.dirty = 0 ∨ dieOf 64 ≠ 0) ∧ (∃ s : State, (s.vault 3).busy = false) ∧ (∃ s : State, s.pending[0]? = none) ∧
    (∃ s : State, s.sampleDue 0 = none) ∧ (∃ (s : State) (d : Nat), s.sampleDue 0 = some d) :=
  ⟨⟨lined false, L1Line.mk 5 1 1 0xFF 1 (List.replicate 128 0), by decide +kernel⟩, ⟨base, 4096, by decide +kernel⟩, ⟨base, by decide +kernel⟩,
    ⟨base, by decide +kernel⟩, ⟨base, by decide +kernel⟩, ⟨base, by decide +kernel⟩,
    ⟨(base.modDom 1 fun d => { d with octl := 1 }).modCore 0 fun c => { c with sampleAt := Tab.set 0 c.sampleAt 1 64 }, 1, by decide +kernel⟩⟩

/-- ResetAndBoot: a die that awaits its firmware with a length that is good and one that is not, one that loads, and a verified image. -/
theorem witness_ResetAndBoot :
    (∃ s : State, s.boot = .awaiting ∧ s.fwlen.toNat % 4096 = 0 ∧ s.fwlen.toNat ≤ 64 * 2 ^ 20) ∧
    (∃ s : State, s.boot = .awaiting ∧ s.fwlen.toNat % 4096 = 0 ∧ s.fwlen.toNat = 64 * 2 ^ 20) ∧
    (∃ s : State, s.boot = .awaiting ∧ ¬(s.fwlen.toNat % 4096 = 0 ∧ s.fwlen.toNat ≤ 64 * 2 ^ 20)) ∧
    (∃ s : State, s.boot = .loading) ∧ (∃ s : State, s.boot = .verified) :=
  ⟨⟨State.reset, by decide⟩, ⟨{ State.reset with fwlen := 0x04000000 }, by decide⟩, ⟨{ State.reset with fwlen := 0x04001000 }, by decide⟩,
    ⟨{ State.reset with boot := .loading }, rfl⟩, ⟨{ State.reset with boot := .verified }, rfl⟩⟩

/-- Vault 3 with its controller as given. -/
def vaulted (f : Vault → Vault) : State := base.modVault 3 f

/-- A load of vault 3 in flight, issued before the vault's quiesce. -/
def vaultLoad : State :=
  let b : BRef := { pa := paVault 3 64, dom := 1, epoch := 0, tagged := true, cached := false, stamp := 0 }
  (base.fly (base.flight r0 .load (modsOf none) 1 .none [{ lane := 0, threads := [0], addr := 0, refs := [b], data := [] }])).modVault 3
    fun v => { v with quiesce := true, qseq := 100 }

/-- VaultsAndWindows: a vault that is done and one that has an access in flight, one already quiesced, a proper part of the live banks, the whole
set and none, and a remap that goes on to the map of a stopped one. -/
theorem witness_Vaults :
    (∃ s : State, s.hasDie (dieOf 3) = true ∧ s.vaultBusy 3 = false ∧ s.delayed = [] ∧ (s.vault 3).quiesce = true) ∧
    (∃ s : State, s.hasDie (dieOf 3) = true ∧ s.vaultBusy 3 = true) ∧
    (∃ s : State, s.hasDie (dieOf 3) = true ∧ (s.vault 3).busy = false ∧ (s.vault 3).vbnext ≠ 0 ∧ (s.vault 3).vbnext &&& ~~~(s.vault 3).vbmap = 0) ∧
    (∃ s : State, s.hasDie (dieOf 3) = true ∧ (s.vault 3).busy = false ∧ (s.vault 3).vbnext ≠ 0 ∧ (s.vault 3).vbnext &&& ~~~(s.vault 3).vbmap = 0 ∧
      (s.vault 3).moveTo = (s.vault 3).vbnext ∧ (s.vault 3).moved = 9 ∧ (s.vault 3).moved < capacityOf (s.vault 3).moveTo / 256) ∧
    (∃ s : State, s.hasDie (dieOf 3) = true ∧ (s.vault 3).busy = false ∧ (s.vault 3).vbnext = 0) ∧
    (∃ s : State, s.hasDie (dieOf 3) = true ∧ (s.vault 3).busy = false ∧ (s.vault 3).vbnext &&& ~~~(s.vault 3).vbmap ≠ 0) ∧
    (∃ s : State, s.hasDie (dieOf 64) = false) :=
  by
  refine ⟨⟨vaulted fun v => { v with quiesce := true }, ?_⟩, ⟨vaultLoad, ?_⟩, ⟨vaulted fun v => { v with vbnext := 7 }, ?_⟩,
    ⟨vaulted fun v => { v with vbnext := 7, status := 3, moveTo := 7, moved := 9 }, ?_⟩, ⟨vaulted fun v => { v with vbnext := 0 }, ?_⟩,
    ⟨vaulted fun v => { v with vbmap := 3, vbnext := 7 }, ?_⟩, ⟨{ base with part := .ky1s }, ?_⟩⟩ <;> decide +kernel

/-- The premises of a granule move of vault 3. -/
abbrev moves (s : State) : Prop := s.hasDie (dieOf 3) = true ∧ (s.vault 3).busy = true ∧ (s.die (dieOf 3)).tripped = false

/-- VaultsAndWindows: a remap under way with many granules left, with one left, with one that cannot be read, and on a tripped die. -/
theorem witness_Moves :
    (∃ s : State, (s.vault 3).busy = true ∧ (s.die (dieOf 3)).tripped = true) ∧
    (∃ s : State, moves s ∧ (s.vault 3).moved + 1 < capacityOf (s.vault 3).moveTo / 256 ∧ s.moveBad 3 = false) ∧
    (∃ s : State, moves s ∧ (s.vault 3).moved + 1 = capacityOf (s.vault 3).moveTo / 256 ∧ s.moveBad 3 = false) ∧
    ∃ s : State, moves s ∧ s.moveBad 3 = true :=
  ⟨⟨(vaulted fun v => { v with busy := true }).modDie 0 fun d => { d with tripped := true }, by decide +kernel⟩,
    ⟨vaulted fun v => { v with busy := true, moveTo := 1 }, by decide +kernel⟩,
    ⟨vaulted fun v => { v with busy := true, moveTo := 1, moved := capacityOf 1 / 256 - 1 }, by decide +kernel⟩,
    ⟨{ vaulted (fun v => { v with busy := true, moveTo := 1, moved := 2 }) with bad := [paVault 3 700] }, by decide +kernel⟩⟩

/-- A copy into die 0's weight space under way for domain 1, while the die's window is open. -/
def weightCopy : State :=
  ((copying (base.modCore 0 fun c => { c with tlb := [TlbEntry.mk 1 0 0 (2 ^ 30) (2 ^ 44) 1 1 true true true 0 true] })
    (CopyDesc.mk 0 4096 0 0 64 1 0 0 0 0 false false 0 none) [] none).1).modDie 0 fun d => { d with weightDom := some 1 }

/-- VaultsAndWindows: a weight window to open without and with a kernel of its domain on the die, and one open with and without a copy under way. -/
theorem witness_WeightWindows :
    (∃ s : State, s.hasDie 3 = true ∧ s.kernelOn 3 1 = false ∧ s.windowBusy 3 = false ∧ (s.die 3).weightDom = none) ∧
    (∃ s : State, s.kernelOn 0 1 = true) ∧ (∃ s : State, s.hasDie 3 = true ∧ (s.die 3).weightDom = some 1 ∧ s.windowBusy 3 = false) ∧
    ∃ s : State, s.hasDie 0 = true ∧ (s.die 0).weightDom = some 1 ∧ s.windowBusy 0 = true :=
  ⟨⟨base, by decide +kernel⟩, ⟨base, by decide +kernel⟩, ⟨base.modDie 3 fun d => { d with weightDom := some 1 }, by decide +kernel⟩,
    ⟨weightCopy, by decide +kernel⟩⟩

/-- PowerAndHeat: a pair of the table and one that is not, a clock change under way and none, a parked quad and one in use, a draw above the cap. -/
theorem witness_PowerControl :
    (∃ (s : State) (v : Word), (bitsOf v.toNat 11 0, bitsOf v.toNat 27 16) ∈ s.ptable) ∧
    (∃ (s : State) (v : Word), (bitsOf v.toNat 11 0, bitsOf v.toNat 27 16) ∉ s.ptable) ∧
    (∃ s : State, s.hasDie 0 = true ∧ (s.die 0).clkBusy = true ∧ (s.die 0).tripped = false) ∧ (∃ s : State, (s.die 0).clkBusy = false) ∧
    (∃ s : State, (s.quad (16 * 0 + 0)).slots.any Option.isSome = true) ∧ (∃ s : State, (s.quad (16 * 0 + 1)).slots.any Option.isSome = false) ∧
    (∃ s : State, (s.quad (16 * 0 + 1)).parked = true) ∧ (∃ (s : State) (watts : Nat), s.pcap < watts) ∧
    (∃ s : State, s.hasDie 3 = false) :=
  ⟨⟨{ base with ptable := [(1900, 500)] }, 0x01F4076C, by decide +kernel⟩, ⟨{ base with ptable := [(1900, 500)] }, 0, by decide +kernel⟩,
    ⟨base.modDie 0 fun d => { d with clkBusy := true }, by decide +kernel⟩, ⟨base, by decide +kernel⟩,
    ⟨base.modQuad 0 fun q => { q with slots := [some 1] }, by decide +kernel⟩, ⟨base, by decide +kernel⟩,
    ⟨base.modQuad 1 fun q => { q with parked := true }, by decide +kernel⟩, ⟨base, base.pcap + 1, Nat.lt_succ_self _⟩,
    ⟨{ base with part := .ky1s }, by decide +kernel⟩⟩

/-- PowerAndHeat: a zone below the alert threshold, at it, alerted and not, and at 105 °C, on a tripped die and on one that is not. -/
theorem witness_Heat :
    (∃ (s : State) (temp : Nat), s.hasDie 0 = true ∧ 8 * (s.die 0).talert ≤ temp ∧ (s.die 0).alerted.getLsbD 5 = false ∧ temp < 8 * 105) ∧
    (∃ (s : State) (temp : Nat), s.hasDie 0 = true ∧ 8 * (s.die 0).talert ≤ temp ∧ (s.die 0).alerted.getLsbD 5 = true) ∧
    (∃ (s : State) (temp : Nat), s.hasDie 0 = true ∧ temp < 8 * (s.die 0).talert) ∧
    (∃ (s : State) (temp : Nat), s.hasDie 0 = true ∧ 8 * 105 ≤ temp ∧ (s.die 0).tripped = false) ∧
    ∃ (s : State) (temp : Nat), s.hasDie 0 = true ∧ 8 * 105 ≤ temp ∧ (s.die 0).tripped = true := by
  refine ⟨⟨base, 760, ?_⟩, ⟨base.modDie 0 fun d => { d with alerted := 0x20 }, 760, ?_⟩, ⟨base, 759, ?_⟩, ⟨base, 840, ?_⟩,
    ⟨base.modDie 0 fun d => { d with tripped := true }, 840, ?_⟩⟩ <;> decide +kernel

/-- PowerAndHeat: zones that allow a trip to be cleared and that do not, a zone at its retention limit, counted in its span and not, and a die
that the part lacks. -/
theorem witness_HeatAndLinks :
    (∃ s : State, s.hasDie 0 = true ∧ ∃ x ∈ (s.die 0).zones, 8 * (s.die 0).talert ≤ x.2) ∧
    (∃ s : State, s.hasDie 0 = true ∧ (∀ x ∈ (s.die 0).zones, x.2 < 8 * (s.die 0).talert) ∧ (s.die 0).tripped = true) ∧
    (∃ s : State, s.hasDie 0 = true ∧ 8 * (s.die 0).tretainC ≤ Tab.get 0 (s.die 0).zones 5 ∧ (s.die 0).retained.getLsbD 5 = false) ∧
    (∃ s : State, s.hasDie 0 = true ∧ Tab.get 0 (s.die 0).zones 5 < 8 * (s.die 0).tretainC) ∧ (∃ s : State, s.hasDie 0 = true ∧ (s.die 0).retained.getLsbD 5 = true) ∧
    (∃ s : State, s.hasDie 3 = false) := by
  refine ⟨⟨base.modDie 0 fun d => { d with zones := [(5, 760)] }, ?_⟩, ⟨base.modDie 0 fun d => { d with zones := [(5, 759)], tripped := true }, ?_⟩,
    ⟨base.modDie 0 fun d => { d with zones := [(5, 760)] }, ?_⟩, ⟨base, ?_⟩, ⟨base.modDie 0 fun d => { d with retained := 0x20 }, ?_⟩,
    ⟨{ base with part := .ky1s }, ?_⟩⟩ <;> decide +kernel

/-- The shape that a push of the host must have. -/
abbrev shaped (bs : List Byte) : Prop :=
  field bs 11 5 = 0 ∧ field bs 24 8 = 0 ∧ (field bs 10 1 = 0 ∨ (4 ≤ field bs 10 1 ∧ field bs 10 1 ≤ 63)) ∧ field bs 0 8 % 64 = 0

/-- A push of a record at address 64 for domain 1, with vector 63 and tag 7. -/
def pushBytes : List Byte := leBytes 8 0x40 ++ leBytes 2 1 ++ leBytes 1 63 ++ leBytes 5 0 ++ leBytes 8 7 ++ leBytes 8 0

/-- A package that has booted and takes pushes on link 0. -/
abbrev takesPush (s : State) : Prop := 0 ∈ s.links ∧ s.boot = .ready

/-- HostSignals: a link that is not there, a package that has not booted, a push of another size, of a bad shape, to a domain that does not
hold, beyond the 256 entries, and one that is taken. -/
theorem witness_HostSignals :
    (∃ (s : State) (link : Nat), link ∉ s.links) ∧ (∃ s : State, 0 ∈ s.links ∧ s.boot ≠ .ready) ∧ (∃ bs : List Byte, bs.length ≠ 32) ∧
    (∃ bs : List Byte, bs.length = 32 ∧ ¬shaped bs) ∧ (pushBytes.length = 32 ∧ shaped pushBytes ∧ field pushBytes 8 2 = 1) ∧
    (∃ s : State, takesPush s ∧ ¬((s.dom 1).exists_ = true ∧ s.partition 1 ≠ [])) ∧
    (∃ s : State, takesPush s ∧ (s.dom 1).exists_ = true ∧ s.partition 1 ≠ [] ∧ 256 ≤ s.admission.length) ∧
    (∃ s : State, takesPush s ∧ (s.dom 1).exists_ = true ∧ s.partition 1 ≠ [] ∧ s.admission.length < 256) ∧
    (∃ s : State, s.hasDie 2 = false) ∧ (∃ s : State, s.hasDie 3 = true) := by
  refine ⟨⟨base, 9, ?_⟩, ⟨{ base with boot := .awaiting }, ?_⟩, ⟨[], ?_⟩, ⟨List.replicate 32 1, ?_⟩, ?_, ⟨{ State.reset with boot := .ready }, ?_⟩,
    ⟨{ base with admission := List.replicate 256 ⟨0, 1, 0, 0, 0⟩ }, ?_⟩, ⟨base, ?_⟩, ⟨{ base with part := .ky1s }, ?_⟩, ⟨base, ?_⟩⟩ <;> decide +kernel

/-- DomainControl: a domain may be destroyed. -/
abbrev idle (s : State) (d : Nat) : Prop := (s.dom d).exists_ = true ∧ (∀ c ∈ s.cores, c.2.uses d = false) ∧ ∀ l ∈ s.launches, l.dom ≠ d

/-- Domain 5 exists and shares quad 3 with domain 1. -/
def shared : State := (base.modDom 5 fun d => { d with exists_ := true }).modQuad 3 fun q => { q with slots := [some 1, some 5] }

/-- DomainControl: an id to create before and after boot, one in use, a domain free to be destroyed that leaves one alone on a quad, one that
leaves none, and one with work. -/
theorem witness_DomainLife :
    (∃ s : State, s.boot = .ready ∧ (s.dom 1023).exists_ = false) ∧ (∃ s : State, s.boot ≠ .ready) ∧ (∃ s : State, (s.dom 1).exists_ = true) ∧
    (∃ s : State, idle s 5 ∧ (s.quad 3).lists 5 = true ∧ distinct (((s.quad 3).slots.filterMap id).filter fun e => decide (e ≠ 5)) = [1]) ∧
    (∃ s : State, idle s 5 ∧ (s.quad 3).lists 5 = true ∧ (distinct (((s.quad 3).slots.filterMap id).filter fun e => decide (e ≠ 5))).length ≠ 1) ∧
    ∃ s : State, ¬idle s 1 := by
  refine ⟨⟨base, ?_⟩, ⟨State.reset, ?_⟩, ⟨base, ?_⟩, ⟨shared, ?_⟩, ⟨shared.modQuad 3 fun q => { q with slots := [some 5] }, ?_⟩, ⟨base, ?_⟩⟩ <;> decide +kernel

/-- DomainControl: stopped and running, keyed and not, and shares at 256 and above. -/
theorem witness_DomainControl :
    (∃ s : State, (s.dom 1).stop = false) ∧ (∃ s : State, (s.dom 1).stop = true) ∧
    (∃ s : State, (s.dom 1).exists_ = true ∧ (s.dom 1).keyValid = false) ∧ (∃ s : State, (s.dom 1).keyValid = true) ∧
    (∃ v : BitVec 128, (((List.range 4).map fun i => (bitsOf v.toNat (32 * i + 9) (32 * i), bitsOf v.toNat (32 * i + 24) (32 * i + 16))).map (·.2)).sum = 256) ∧
    (∃ v : BitVec 128, (((List.range 4).map fun i => (bitsOf v.toNat (32 * i + 9) (32 * i), bitsOf v.toNat (32 * i + 24) (32 * i + 16))).map (·.2)).sum = 257) ∧
    ∃ s : State, s.hasDie (dieOf 64) = false := by
  refine ⟨⟨base.modDom 1 fun d => { d with stop := false }, ?_⟩, ⟨base.modDom 1 fun d => { d with stop := true }, ?_⟩,
    ⟨base.modDom 1 fun d => { d with keyValid := false }, ?_⟩, ⟨base.modDom 1 fun d => { d with keyValid := true }, ?_⟩,
    ⟨0x01000000, ?_⟩, ⟨0x00010000000000000000000001000000, ?_⟩, ⟨{ base with part := .ky1s }, ?_⟩⟩ <;> decide +kernel

/-- DomainControl: assignments refused and accepted, with the same domains and others. -/
theorem witness_Assignments :
    (∃ (s : State) (new : List Nat) (reason : Nat), s.boot = .ready ∧ s.hasDie (0 / 16) = true ∧ s.assignRefusal 0 new = some reason) ∧
    (∃ (s : State) (v : DWord), s.boot = .ready ∧ s.hasDie (3 / 16) = true ∧ s.assignRefusal 3 (slotDoms (assignSlots v)) = none ∧
      ∀ e, e ∈ slotDoms (s.quad 3).slots ↔ e ∈ slotDoms (assignSlots v)) ∧
    (∃ (s : State) (v : DWord), s.boot = .ready ∧ s.hasDie (3 / 16) = true ∧ s.assignRefusal 3 (slotDoms (assignSlots v)) = none ∧
      ¬∀ e, e ∈ slotDoms (s.quad 3).slots ↔ e ∈ slotDoms (assignSlots v)) := by
  refine ⟨⟨base, [9], 1, by decide +kernel⟩, ⟨base.modQuad 3 fun q => { q with slots := assignSlots 0x0401 }, 0x0401, by decide +kernel, by decide +kernel,
    by decide +kernel, fun e => ?_⟩,
    ⟨(base.modDom 1 fun d => { d with keyValid := true }).modQuad 3 fun q => { q with slots := [] }, 0x0401, by decide +kernel, by decide +kernel,
      by decide +kernel, fun h => ?_⟩⟩
  · simp
  · exact absurd ((h 1).mpr (by decide +kernel)) (by decide +kernel)

/-- The tables of domain 1 with its memory window 2 at their first page. -/
def windowed : State := { tabled with windows := Tab.set (0, 0, false) tabled.windows 2 (0, 1, true) }

/-- The bytes a window access covers, none where it fails. -/
def windowBytes (s : State) (k : Access) (n : Nat) : List BRef :=
  match s.windowRefs k 2 8 n with
  | .ok x => x
  | .error _ => []

theorem windowOk {s : State} {k : Access} {n : Nat} (h : (windowBytes s k n).isEmpty = false) : s.windowRefs k 2 8 n = .ok (windowBytes s k n) := by
  unfold windowBytes at *
  split at h
  · assumption
  · exact absurd h (by decide)

/-- HostReachesThePackage: memory windows that reach their bytes, in a quiesced vault, at a lost byte and at a good one, one that is refused, and
one beyond its end. -/
theorem witness_HostAccess :
    (∃ s refs, State.windowRefs s .load 2 8 4 = .ok refs ∧ s.windowHeld 2 8 4 refs = true) ∧
    (∃ s refs, State.windowRefs s .load 2 8 4 = .ok refs ∧ s.windowHeld 2 8 4 refs = false ∧ ∀ b ∈ refs, b.pa ∉ s.bad) ∧
    (∃ s refs, State.windowRefs s .load 2 8 4 = .ok refs ∧ s.windowHeld 2 8 4 refs = false ∧ ∃ b ∈ refs, b.pa ∈ s.bad) ∧
    (∃ (s : State) (c : Cause) (va d : Nat), s.windowRefs .load 2 8 4 = .error (c, va, d)) ∧
    (∃ (s : State) (bs : List Byte) (refs : List BRef), s.windowRefs .store 2 8 bs.length = .ok refs ∧ s.windowHeld 2 8 bs.length refs = false) ∧
    (∃ (s : State) (bs : List Byte) (c : Cause) (va d : Nat), s.windowRefs .store 2 8 bs.length = .error (c, va, d)) ∧ (2 ^ 30 < (2 ^ 30 - 1) + 2) := by
  obtain ⟨⟨c, va, d⟩, h2⟩ := errOf (e := base.windowRefs .load 2 8 4) (by decide +kernel)
  obtain ⟨⟨c', va', d'⟩, h4⟩ := errOf (e := base.windowRefs .store 2 8 [(1 : Byte), 2].length) (by decide +kernel)
  exact ⟨⟨_, windowBytes (windowed.modVault 0 fun v => { v with quiesce := true }) .load 4, windowOk (by decide +kernel), by decide +kernel⟩,
    ⟨windowed, windowBytes windowed .load 4, windowOk (by decide +kernel), by decide +kernel, by decide +kernel⟩,
    ⟨{ windowed with bad := [0x50008] }, windowBytes { windowed with bad := [0x50008] } .load 4, windowOk (by decide +kernel), by decide +kernel, by decide +kernel⟩,
    ⟨_, c, va, d, h2⟩, ⟨windowed, [1, 2], windowBytes windowed .store 2, windowOk (by decide +kernel), by decide +kernel⟩, ⟨_, _, c', va', d', h4⟩, by decide⟩

/-- HostReachesThePackage: the state window of a running and of a stopped domain and of no warp, a workgroup that is present and one that is not, and
trace buffer bases aligned and not. -/
theorem witness_HostStates :
    (∃ (s : State) (k w : Nat), (s.core 0).inSlot (s.core 0).wsel = some (k, w) ∧ (s.dom (s.wg 0 k).dom).stop = false) ∧
    (∃ (s : State) (k w : Nat), (s.core 0).inSlot (s.core 0).wsel = some (k, w) ∧ (s.dom (s.wg 0 k).dom).stop = true ∧ 0 + [(1 : Byte)].length ≤ warpAreaBytes) ∧
    (∃ s : State, (s.core 1).inSlot (s.core 1).wsel = none) ∧
    (∃ s : State, (s.wg 0 0).present = true ∧ (s.warpAt 0 0 0).status ≠ .absent) ∧ (∃ s : State, (s.wg 0 0).present = false) ∧
    (∃ v : DWord, v.toNat % 4096 = 0) ∧ (∃ v : DWord, v.toNat % 4096 ≠ 0) :=
  ⟨⟨base, 0, 0, by decide +kernel⟩, ⟨base.modDom 1 fun d => { d with stop := true }, 0, 0, by decide +kernel⟩, ⟨base, by decide +kernel⟩, ⟨base, by decide +kernel⟩,
    ⟨State.reset, by decide +kernel⟩, ⟨4096, by decide⟩, ⟨4095, by decide⟩⟩

/-- MappedRegisters: registers of units that are there, a region of a die that is not, a die that has taken a beacon, and a domain; physical
bytes that can be read; and the supervisor asked too early and in time. -/
theorem witness_MappedRegisters :
    (∃ s : State, s.hasDie 3 = true ∧ s.hasDie (dieOf 255) = true ∧ (s.dom 1).exists_ = true) ∧ (∃ s : State, s.part = .ky1s ∧ s.hasDie (0x30000000 / 2 ^ 28) = false) ∧
    (∃ s : State, s.hasDie 0 = true ∧ (s.die 0).lantern.beaconed = true) ∧ (∃ s : State, s.heldRange 4096 8 = false ∧ s.badRange 4096 8 = false) ∧
    (∃ s : State, ¬(s.boot = .verified ∨ s.boot = .ready)) ∧ (∃ s : State, s.boot = .verified) ∧ (∃ s : State, s.boot = .ready) ∧
    askedOf (.physicalRead 4096 8) = true := by
  refine ⟨⟨base, ?_⟩, ⟨{ base with part := .ky1s }, ?_⟩, ⟨base.modDie 0 fun d => { d with lantern := { d.lantern with beaconed := true } }, ?_⟩, ⟨base, ?_⟩,
    ⟨State.reset, ?_⟩, ⟨{ base with boot := .verified }, ?_⟩, ⟨base, ?_⟩, ?_⟩ <;> decide +kernel

/-- A section table entry with its name, kind, flags, alignment, offset, size and entry size as given (R73). -/
def sectBytes (name kind flags align offset size : Nat) : List Byte :=
  leBytes 4 name ++ leBytes 1 kind ++ leBytes 1 flags ++ leBytes 1 align ++ leBytes 1 0 ++ leBytes 8 offset ++ leBytes 8 size ++ leBytes 24 0

/-- The header of a linked image of 232 bytes with three sections, of which the last holds the strings, and `code` bytes of code (R72). -/
def headBytes (code : Nat) : List Byte :=
  leBytes 4 0x4F465849 ++ leBytes 2 1 ++ leBytes 2 1 ++ leBytes 2 3 ++ leBytes 2 48 ++ leBytes 4 0 ++ leBytes 8 80 ++ leBytes 4 code ++ leBytes 4 2 ++
    leBytes 4 0 ++ leBytes 4 0 ++ leBytes 8 232 ++ leBytes 16 0

/-- A linked image: two words of code at offset 64, a string section of one zero byte, and the section table at offset 80. -/
def smallImage : List Byte :=
  headBytes 8 ++ leBytes 4 0xA9000000 ++ leBytes 4 0xA9000001 ++ leBytes 8 0 ++ leBytes 48 0 ++ sectBytes 0 1 1 2 64 8 ++ sectBytes 0 12 0 0 72 1 ++ leBytes 8 0

/-- The domain's partition is core 0 and its quad alone, none of whose granules has an owner. -/
def roomy : State := (base.modCore 0 fun c => { c with owners := [] }).modQuad 0 fun q => { q with slots := [some 1] }

/-- MappedRegisters: an image that the check passes and one that it refuses. -/
theorem witness_ImageCheck : imageOk smallImage = true ∧ imageOk (headBytes 8) = false := by decide +kernel

/-- MappedRegisters: a domain with a base for the image. -/
theorem witness_ImageFits : roomy.boot = .ready ∧ (roomy.dom 1).exists_ = true ∧ roomy.baseFree 1 (codeSize smallImage) 256 = true ∧
    (roomy.writeEntries []).choiceSuits 1 (dataSects (sectsOf smallImage)) [] = true := by decide +kernel

/-- An image whose code takes one word more than instruction memory holds. -/
def bigImage : List Byte := headBytes 262148 ++ smallImage.drop 64

/-- MappedRegisters: no base for the image. -/
theorem witness_ImageTooBig : imageOk bigImage = true ∧ roomy.anyBase 1 (codeSize bigImage) = false := by decide +kernel

/-- R84: the image's second word stands behind its base on the domain's core. -/
theorem test_image_word : Tab.get 0 ((roomy.loadImage 1 256 smallImage []).core 0).imem 65 = 0xA9000001 := by decide +kernel

/-- MappedRegisters: an image loaded, to be unloaded. -/
def loadedImage : State := { roomy with images := [{ handle := 4, dom := 1, base := 256, size := 8, sections := [], entries := [] }] }

/-- MappedRegisters: the premises of an unload. -/
theorem witness_Unload :
    let s := loadedImage.modCore 0 fun c => { c with owners := [(1, .dom 1)] }
    ∃ x : Image, s.images.find? (fun y => decide (y.handle = 4)) = some x ∧ 0 ∈ s.cores.map Prod.fst ∧ s.hasDie (dieOf 0) = true ∧ x.base % 256 = 0 ∧
      x.base + x.size ≤ Config.imemBytes ∧ ∀ g ∈ codeGrans x.base x.size, Tab.get .none (s.core 0).owners g = .dom x.dom :=
  ⟨{ handle := 4, dom := 1, base := 256, size := 8, sections := [], entries := [] }, by decide +kernel⟩

/-- EncodingRoundTrip and DecodingIsEncoding: a well-formed instruction without and with a prefix word, and words that decode so. -/
theorem witness_Encodings :
    (∃ i : Instr, i.wf = true ∧ encode i ≠ []) ∧ (∃ (w : Word) (i : Instr), decode none w = .ok i) ∧
    (∃ (x : BitVec 24) (w : Word) (i : Instr), decode (some x) w = .ok i) :=
  ⟨⟨.fence .die .rel false, by decide +kernel⟩, ⟨0xBB500000, .fence .die .rel false, by decide +kernel⟩,
    ⟨1, 0x78084143, .trd (.v 8) 2 false 5 3 (some true), by decide +kernel⟩⟩

/-- UnassignedWordsRefused: an unassigned opcode, an assigned one, and one without a prefix class. -/
theorem witness_UnassignedWordsRefused :
    (∃ w : Word, (fop w).toNat ∈ unassignedOps) ∧ (∃ w : Word, (fop w).toNat ∉ unassignedOps) ∧ (∃ w : Word, (fop w).toNat ∈ plainOps) :=
  ⟨⟨0x6D000000, by decide⟩, ⟨0x6C000000, by decide⟩, ⟨0xFF000000, by decide⟩⟩

/-- The package with `w` as the next word of its warp. -/
def loaded (w : Nat) : State := State.reset.withFetchWord 32 w

def lastOf (s : State) (i : Instr) : Option Last :=
  match exec i s with
  | .next v => some v.last
  | _ => none

theorem lastNext {s : State} {i : Instr} {l : Last} (h : lastOf s i = some l) : ∃ v, exec i s = .next v ∧ v.last = l := by
  unfold lastOf at h
  split at h
  · exact ⟨_, ‹_›, by simpa using h⟩
  · cases h

def stepB (s : State) (i : Instr) (l : Last) : Bool :=
  match s.turn with
  | [] => false
  | t :: _ => s.turnLive t.ref && decide (s.serviceDue t.ref = none) && !s.codeBad t.ref (s.wordPc t.ref) &&
      decide (decoded (s.wordPc t.ref).toNat (s.pfxOf t.ref) (s.fetchWord t.ref (s.wordPc t.ref)) = i) &&
      !t.ref.isSlice && decide (lastOf (if isPfx i then s else s.charge t) i = some l)

/-- StepRunsDecoded's hypotheses, with the way the instruction ends. -/
def steps (s : State) (i : Instr) (l : Last) : Prop :=
  ∃ (t : Turn) (rest : List Turn) (v : State), s.turn = t :: rest ∧ s.turnLive t.ref = true ∧ s.serviceDue t.ref = none ∧ s.codeBad t.ref (s.wordPc t.ref) = false ∧
    decoded (s.wordPc t.ref).toNat (s.pfxOf t.ref) (s.fetchWord t.ref (s.wordPc t.ref)) = i ∧ (t.ref.isSlice = true → sliceMay i = true) ∧
    exec i (if isPfx i then s else s.charge t) = .next v ∧ v.last = l

theorem stepOf {s : State} {i : Instr} {l : Last} (h : stepB s i l = true) : steps s i l := by
  unfold stepB at h
  split at h
  · cases h
  · rename_i t rest ht
    simp only [Bool.and_eq_true, decide_eq_true_eq, Bool.not_eq_true'] at h
    obtain ⟨⟨⟨⟨⟨h1, h2⟩, h6⟩, h3⟩, h5⟩, h4⟩ := h
    obtain ⟨v, hv, hl⟩ := lastNext h4
    exact ⟨t, rest, v, ht, h1, h2, h6, h3, fun h => absurd (h5.symm.trans h) Bool.false_ne_true, hv, hl⟩

/-- StepRunsDecoded: an instruction that retires and resets the level, one that keeps it, a prefix word, and one that stalls. -/
theorem witness_StepRunsDecoded :
    steps (loaded 0x01010205) (.add (.v 1) (.v 2) (.reg (.v 5))) .retired ∧ keepsLevel (.add (.v 1) (.v 2) (.reg (.v 5))) = false ∧
    steps (loaded 0xFE000000) .nop .retired ∧ keepsLevel .nop = true ∧ steps (paired 0x010102FF) (.pfx 1) .retired ∧
    steps ((loaded 0xBC000000).modWarp r0 fun w => { w with ldOps := [(1, false)] }) (.waitc 0 0 0 0) .stalled :=
  ⟨stepOf (by decide +kernel), by decide, stepOf (by decide +kernel), by decide, stepOf (by decide +kernel), stepOf (by decide +kernel)⟩

/-- EveryStepGoesOn: a stream is selected; an event. -/
theorem witness_EveryStepGoesOn : (∃ s : State, s.turn ≠ []) ∧ ∃ i : Instr, isEvent i = true :=
  ⟨⟨base, by decide +kernel⟩, .doorbell 0, rfl⟩

def stepsOn (s : State) : Bool :=
  match step s with
  | .next _ => true
  | _ => false

theorem stepNext {s : State} (h : stepsOn s = true) : ∃ t, step s = .next t := by
  unfold stepsOn at h
  split at h
  · exact ⟨_, ‹_›⟩
  · cases h

/-- StepKeepsMemoryForm: a state with bytes listed, in the form, and a step from it. -/
theorem witness_StepKeepsMemoryForm : ∃ s t : State, s.Canonical ∧ s.mem ≠ [] ∧ step s = .next t := by
  obtain ⟨t, h⟩ := stepNext (s := (loaded 0x01010205).physStore 0x10000 (leBytes 8 0x20001)) (by decide +kernel)
  exact ⟨_, t, show Memory.wf _ = true from by decide +kernel, by decide +kernel, h⟩

/-- SignBitInstructions and LowestZeroByte: words of the two kinds, and a warp that may read and write the registers. -/
theorem witness_SignBitAndZeroByte :
    (∃ w : Word, fop w = 0x2A#8 ∧ fb w ≠ 0) ∧ (∃ w : Word, fop w = 0x2B#8 ∧ fb w = 0 ∧ Reg.ofNum (fd w) = some (.v 1) ∧ Reg.ofNum (fa w) = some (.v 2)) ∧
    (∃ w : Word, fop w = 0x45#8 ∧ fb w ≠ 0) ∧ (∃ w : Word, fop w = 0x45#8 ∧ fb w = 0 ∧ Reg.ofNum (fd w) = some (.v 1) ∧ Reg.ofNum (fa w) = some (.v 2)) ∧
    (∃ (d a : Reg) (s : State) (r : Ref), d.isLaneDst = true ∧ s.warpRuns r ∧ s.canRead r a ∧ s.canWriteRoom r [a] d ∧
      (s.laneVal r a 0).extractLsb' 23 8 = 0xFF#8 ∧ (s.laneVal r a 0).extractLsb' 0 23 ≠ 0) ∧
    (∃ (d a : Reg) (s : State) (r : Ref), d.isLaneDst = true ∧ s.warpRuns r ∧ s.canRead r a ∧ s.canWriteRoom r [a] d ∧
      (s.laneVal r a 0).extractLsb' 23 8 ≠ 0xFF#8) :=
  ⟨⟨0x2A010201, by decide⟩, ⟨0x2B010200, by decide⟩, ⟨0x45010201, by decide⟩, ⟨0x45010200, by decide⟩,
    ⟨.v 1, .g 4, withG 4 0x7F800001, r0, by decide, runs (by decide +kernel), reads (by decide +kernel), writesRoom (by decide +kernel), by decide +kernel,
      by decide +kernel⟩,
    ⟨.v 1, .g 4, withG 4 0x80000001, r0, by decide, runs (by decide +kernel), reads (by decide +kernel), writesRoom (by decide +kernel), by decide +kernel⟩⟩

/-- BadWordsAndForeignCode: the last word before a granule of another domain, and a register above the allocation. -/
theorem witness_ForeignWordsAndBounds :
    (∃ s : State, s.issues r0 ∧ r0.isSlice = false ∧ s.foreign r0 (s.nextPc r0) = true) ∧
    (∃ (s : State) (n : Fin 192), s.issues r0 ∧ r0.isSlice = false ∧ s.fallsThrough r0 ∧ 8 * (s.warp r0).gran ≤ n.val) :=
  ⟨⟨(withWarp fun w => { w with pc := 0x4FC }).modCore 0 fun c => { c with owners := Tab.set .none c.owners 5 (.dom 2) }, selects (by decide +kernel), rfl, by decide +kernel⟩,
    ⟨withWarp fun w => { w with gran := 1 }, 8, selects (by decide +kernel), rfl, falls (by decide +kernel), by decide +kernel⟩⟩

/-- UserKeepsDomains: a warp at user privilege and an instruction. -/
theorem witness_UserKeepsDomains : ∃ (i : Instr) (s t : State) (r : Ref), s.issues r ∧ (s.warp r).priv = false ∧ isEvent i = false ∧ exec i s = .next t := by
  obtain ⟨v, h, _⟩ := lastNext (s := base) (i := .nop) (l := .retired) (by decide +kernel)
  exact ⟨.nop, base, v, r0, selects (by decide +kernel), by decide +kernel, rfl, h⟩

/-! ### Well-formedness: an ill-formed term for each check -/

/-- Every instruction of a list is refused by the well-formedness check. -/
def illFormed (xs : List Instr) : Bool := xs.all fun i => !i.wf

/-- Modifiers that a load accepts, with one field changed at a time. -/
def loadM : Mods := Mods.dflt

/-- Register kinds: destinations of lane and uniform instructions, uniform sources, pairs, quadruples and addresses (R36). -/
theorem test_illFormed_registers : illFormed [
    .add (.g 1) (.v 0) (.reg (.v 0)), .add .laneid (.v 0) (.reg (.v 0)), .abs (.g 1) (.v 0), .addi (.g 1) (.v 0) (.short 1), .movi (.g 1) 0, .setv (.g 1) 0,
    .gadd (.v 1) (.g 0) (.reg (.g 0)), .gadd (.g 1) (.v 0) (.reg (.g 0)), .gadd (.g 1) (.g 0) (.reg (.v 0)), .gmov .cyc (.g 0), .gmov (.g 0) (.v 0),
    .grdl (.v 0) 0 (.g 0), .grdl (.g 0) 0 (.v 0), .scount (.v 0) 0, .callr (.v 0), .ret (.v 0), .jmpr (.v 0), .csrr (.v 0) .round, .csrr .laneid .round,
    .csrw (.v 0) .round, .waitev (.v 0), .logctlReadPosition .zero, .fgetc 0 (.g 0), .fgetv 0 (.g 0), .shfl (.g 0) (.v 0) (.v 0) none,
    .redux (.g 0) (.v 0) .add, .scan (.g 0) (.v 0) .add false, .bcmp (.g 0) (.v 0) (.v 0)] = true ∧ illFormed [
    .movxr (.q 0) 0 0, .movxw (.g 0) 0 0, .ld (.v 3) (.v 1) 0 none, .ld (.v 3) (.g 3) 0 none, .ld (.v 3) (.q 0) 0 none, .ld (.g 3) (.g 2) 0 none,
    .ld (.v 3) (.g 2) 0 (some { loadM with size := .b64 }), .ld (.v 6) (.g 2) 0 (some { loadM with size := .b128 }), .ld .zero (.g 2) 0 (some { loadM with size := .b64 }),
    .gld (.v 3) (.g 2) 0 none, .gld (.g 3) (.g 2) 0 (some { loadM with size := .b64 }), .gld (.g 3) (.g 1) 0 none, .gst (.v 0) (.g 2) 0 none, .sld 0 1 0, .sst 0 1 0,
    .ldas (.v 0) (.v 2) (.g 1) none, .sts (.v 0) (.v 2) (.v 2) none, .atom .cas (.v 1) (.g 2) none, .trd (.v 2) 0 false 0 0 none, .twr (.v 1) 0 false 0 0 none,
    .tacc (.g 0) 0 false 0 0 none, .sfromv 1 0, .stov 1 0, .barinit 1 (.g 0), .barinit 0 (.v 0), .arrive 1 (.g 0), .cbinit 0 (.v 0), .cbrel 1 (.g 0),
    .waitph 1 (.g 0) none, .join 0 (.v 0) none, .cbacq 1 (.g 0) none, .copy 1 none, .vchain 1 none, .bindw 1 0, .loadw 1 0, .mloop 1, .mmask 1, .fopen 0 1 (.g 0),
    .fopen 0 0 (.v 0), .fadv 0 (.v 0), .fseek 0 (.v 0), .spawn (.v 0) 0, .spawn (.g 0) 1, .launch (.g 0) 1, .ald 0 1 0, .time 1, .tlbinv 1, .cflush (.g 1) (.g 0),
    .cflush (.g 2) (.v 0)] = true := by decide +kernel

/-- Codes and counts out of their ranges: shifts, roundings, formats, widths, offsets, footprints, fences, granules, regions and fibres
(R37, R39, R43, R44, R47, R255, R316). -/
theorem test_illFormed_codes : illFormed [
    .hadd2b (.v 0) (.v 0) (.imm 0x10000), .shli (.v 0) (.v 0) 32, .shri (.v 0) (.v 0) 32, .sari (.v 0) (.v 0) 32, .frnd (.v 0) (.v 0) 5,
    .cvt (.v 0) (.v 0) 0x00 none, .cvt (.v 0) (.v 0) 0x8D none, .cvt (.v 1) (.v 0) 0x38 none, .cvt (.v 0) (.v 1) 0x83 none, .cvt (.g 2) (.v 0) 0x38 none,
    .pack (.v 0) (.v 0) 4 none, .pack (.v 0) (.v 1) 0 none, .pack (.v 0) (.v 2) 2 none, .qscale (.v 0) (.v 0) 3 none, .qscale (.v 1) (.v 0) 0 none,
    .xpnd (.v 0) (.v 0) 4, .xpnd (.v 1) (.v 0) 0, .shflup (.v 0) (.v 0) 32 none, .shfldn (.v 0) (.v 0) 32 none, .shflx (.v 0) (.v 0) 32 none,
    .stest .eq 3 3 (.v 0) (.reg (.v 0)), .apply 0 0 none, .apply 0 0x80000 none, .apply 0 1 (some ⟨0, 0, 0⟩), .apply 0 1 (some ⟨0, 1, 2⟩),
    .apply 0 1 (some ⟨192, 1, 0⟩), .fence .die .none true, .fence .core .none false, .grow 0, .grow 25, .shrink 0, .shrink 25, .enter 0, .leave 0,
    .fmerge 1 1 2, .fmerge 1 2 1, .fmerge 1 2 2] = true := by decide +kernel

/-- Modifiers that the M layout or the instruction does not allow (R39, R46). -/
theorem test_illFormed_modifiers : illFormed [
    .ld (.v 0) (.g 2) 0 (some { loadM with rp := true }), .ld (.v 0) (.g 2) 0 (some { loadM with scope := .quad }), .ld (.v 0) (.g 2) 0 (some { loadM with sign := true }),
    .ld (.v 0) (.g 2) 0 (some { loadM with noret := true }), .ld (.v 0) (.g 2) 0 (some { loadM with order := .rel }), .ld (.v 0) (.g 2) 0 (some { loadM with order := .ar }),
    .poll (.v 0) (.g 2) 0 (some { loadM with size := .b128 }), .gld (.q 0) (.g 2) 0 (some { loadM with size := .b128 }),
    .st (.v 0) (.g 2) 0 (some { loadM with order := .acq }), .st (.v 0) (.g 2) 0 (some { loadM with size := .b8, sign := true }),
    .st (.v 0) (.g 2) 0 (some { loadM with noret := true }), .gst (.q 0) (.g 2) 0 (some { loadM with size := .b128 }),
    .atom .add (.v 0) (.g 2) (some { loadM with size := .b8 }), .atom .incw (.v 0) (.g 2) (some { loadM with size := .b64 }),
    .atom .cas (.v 2) (.g 2) (some { loadM with size := .b64 }), .ldas (.v 0) (.g 2) (.g 4) (some { loadM with size := .b16 }),
    .ldas (.v 0) (.g 2) (.g 4) (some { loadM with order := .acq }), .sts (.v 0) (.g 2) (.g 4) (some { loadM with order := .rel })] = true := by decide +kernel

/-! ### Decoding

Each word is laid out from the fields of its row of the opcode table and the code tables of the spec. -/

/-- Every word of a list decodes to the instruction beside it. -/
def decodes (xs : List (Nat × Instr)) : Bool := xs.all fun x => decide (decodeTableWord 32 x.1 = some x.2)

/-- ADD to SHLI, as the opcode table lays them out (R35 to R50). -/
theorem test_decode_1 : decodes [
    (0x010000C0, .add (.v 0) (.v 0) (.reg (.g 0))), (0x02F1C507, .sub (.q 1) (.g 5) (.reg (.v 7))), (0x03F8F9FA, .mul .zero .laneid (.reg .warpix)),
    (0x0415FBFC, .mulhi (.v 21) .wgid (.reg .coreix)), (0x05F4FEFD, .mulhn (.q 4) .cyc (.reg .vaultix)), (0x06F823D9, .mad .zero (.v 35) (.reg (.g 25))),
    (0x072ADE2A, .min (.v 42) (.g 30) (.reg (.v 42))), (0x08F7F9FA, .max (.q 7) .laneid (.reg .warpix)), (0x09F8FBFC, .minn .zero .wgid (.reg .coreix)),
    (0x0A3FFEFD, .maxn (.v 63) .cyc (.reg .vaultix)), (0x0B46C400, .abs (.v 70) (.g 4)), (0x0CF8C94D, .and .zero (.g 9) (.reg (.v 77))),
    (0x0D54F9FA, .or (.v 84) .laneid (.reg .warpix)), (0x0EF5FBFC, .xor (.q 5) .wgid (.reg .coreix)), (0x0FF8FEFD, .andn .zero .cyc (.reg .vaultix)),
    (0x106969DD, .shl (.v 105) (.v 105) (.reg (.g 29))), (0x11F0E270, .shr (.q 0) (.g 34) (.reg (.v 112))), (0x12F8F9FA, .sar .zero .laneid (.reg .warpix)),
    (0x137EFBFC, .rotl (.v 126) .wgid (.reg .coreix)), (0x1485C300, .clz (.v 133) (.g 3)), (0x158CF900, .popc (.v 140) .laneid),
    (0x16931E00, .brev (.v 147) (.v 30)), (0x17F6F9FA, .bfx (.q 6) .laneid (.reg .warpix)), (0x18F8FBFC, .bfi .zero .wgid (.reg .coreix)),
    (0x19A8C6F3, .addi (.v 168) (.g 6) (.short 0xF3)), (0x1AAFE11F, .shli (.v 175) (.g 33) 31)] = true := by decide +kernel

/-- SHRI to HMUL2B, as the opcode table lays them out (R35 to R50). -/
theorem test_decode_2 : decodes [
    (0x1BB6E61F, .shri (.v 182) (.g 38) 31), (0x1C04EB1F, .sari (.v 4) (.g 43) 31), (0x1D0B8001, .movi (.v 11) 0x8001),
    (0x1E128001, .movhi (.v 18) 0x8001), (0x1F197800, .mov (.v 25) (.v 120)), (0x2020D000, .setv (.v 32) 13),
    (0x24F8F9FA, .fadd .zero .laneid (.reg .warpix)), (0x252EFBFC, .fsub (.v 46) .wgid (.reg .coreix)), (0x26F2FEFD, .fmul (.q 2) .cyc (.reg .vaultix)),
    (0x27F83CE5, .ffma .zero (.v 60) (.reg (.g 37))), (0x2843EA43, .fmin (.v 67) (.g 42) (.reg (.v 67))), (0x29F5F9FA, .fmax (.q 5) .laneid (.reg .warpix)),
    (0x2A51F900, .fabs (.v 81) .laneid), (0x2B581E00, .fneg (.v 88) (.v 30)), (0x2C5FD000, .frcp (.v 95) (.g 16)),
    (0x2D66F900, .frsq (.v 102) .laneid), (0x2E6D3C00, .fsqrt (.v 109) (.v 60)), (0x2FF3FBFC, .fdiv (.q 3) .wgid (.reg .coreix)),
    (0x307BF900, .fexp2 (.v 123) .laneid), (0x31825A00, .flog2 (.v 130) (.v 90)), (0x3289C000, .fsinp (.v 137) (.g 0)),
    (0x3390F900, .fcosp (.v 144) .laneid), (0x34977800, .ftanh (.v 151) (.v 120)), (0x359ECF04, .frnd (.v 158) (.g 15) 4),
    (0x38F8A5D4, .hadd2b .zero (.v 165) (.reg (.g 20))), (0x39ACD9AC, .hmul2b (.v 172) (.g 25) (.reg (.v 172)))] = true := by decide +kernel

/-- HFMA2B to REDUX, as the opcode table lays them out (R35 to R50). -/
theorem test_decode_3 : decodes [
    (0x3AF4F9FA, .hfma2b (.q 4) .laneid (.reg .warpix)), (0x3BF8FBFC, .hadd2h .zero .wgid (.reg .coreix)), (0x3C08FEFD, .hmul2h (.v 8) .cyc (.reg .vaultix)),
    (0x3DF70FED, .hfma2h (.q 7) (.v 15) (.reg (.g 45))), (0x4016C480, .cvt (.v 22) (.g 4) 0x80 none), (0x40141638, .cvt (.v 20) (.v 22) 0x38 none),
    (0x411EC901, .xpnd (.v 30) (.g 9) 1), (0x42248403, .pack (.v 36) (.v 132) 3 none), (0x43329002, .qscale (.v 50) (.v 144) 2 none),
    (0x4432D83C, .bcmp (.v 50) (.g 24) (.v 60)), (0x4539DD00, .bzero (.v 57) (.g 29)), (0x4640E250, .crc32c (.v 64) (.g 34) (.v 80)),
    (0x4747E75A, .hmix (.v 71) (.g 39) (.v 90)), (0x484EEC85, .movxr (.v 78) 44 0x85), (0x4955C385, .movxw (.v 85) 3 0x85),
    (0x505CC878, .shfl (.v 92) (.g 8) (.v 120) none), (0x5163CD11, .shflup (.v 99) (.g 13) 17 none), (0x526AD211, .shfldn (.v 106) (.g 18) 17 none),
    (0x5371D711, .shflx (.v 113) (.g 23) 17 none), (0x5478DC00, .redux (.v 120) (.g 28) .add), (0x5478DC01, .redux (.v 120) (.g 28) .min),
    (0x5478DC02, .redux (.v 120) (.g 28) .max), (0x5478DC03, .redux (.v 120) (.g 28) .minn), (0x5478DC04, .redux (.v 120) (.g 28) .maxn),
    (0x5478DC05, .redux (.v 120) (.g 28) .and), (0x5478DC06, .redux (.v 120) (.g 28) .or)] = true := by decide +kernel

/-- REDUX to STEST, as the opcode table lays them out (R35 to R50). -/
theorem test_decode_4 : decodes [
    (0x5478DC07, .redux (.v 120) (.g 28) .xor), (0x5478DC08, .redux (.v 120) (.g 28) .fadd), (0x5478DC09, .redux (.v 120) (.g 28) .fmin),
    (0x5478DC0A, .redux (.v 120) (.g 28) .fmax), (0x557FE100, .scan (.v 127) (.g 33) .add false), (0x557FE101, .scan (.v 127) (.g 33) .min false),
    (0x557FE102, .scan (.v 127) (.g 33) .max false), (0x557FE103, .scan (.v 127) (.g 33) .minn false), (0x557FE104, .scan (.v 127) (.g 33) .maxn false),
    (0x557FE105, .scan (.v 127) (.g 33) .and false), (0x557FE106, .scan (.v 127) (.g 33) .or false), (0x557FE107, .scan (.v 127) (.g 33) .xor false),
    (0x557FE108, .scan (.v 127) (.g 33) .fadd false), (0x557FE109, .scan (.v 127) (.g 33) .fmin false), (0x557FE10A, .scan (.v 127) (.g 33) .fmax false),
    (0x600F86E6, .stest .eq 0 15 (.v 134) (.reg (.g 38))), (0x611F86E6, .stest .ne 1 15 (.v 134) (.reg (.g 38))), (0x622F86E6, .stest .lt 2 15 (.v 134) (.reg (.g 38))),
    (0x633F86E6, .stest .ge 3 15 (.v 134) (.reg (.g 38))), (0x644F86E6, .stest .ltn 4 15 (.v 134) (.reg (.g 38))), (0x655F86E6, .stest .gen 5 15 (.v 134) (.reg (.g 38))),
    (0x666F86E6, .stest .flt 6 15 (.v 134) (.reg (.g 38))), (0x677F86E6, .stest .fge 7 15 (.v 134) (.reg (.g 38))), (0x688F86E6, .stest .feq 8 15 (.v 134) (.reg (.g 38))),
    (0x699F86E6, .stest .fne 9 15 (.v 134) (.reg (.g 38))), (0x6AAF86E6, .stest .fun_ 10 15 (.v 134) (.reg (.g 38)))] = true := by decide +kernel

/-- STEST to TWR, as the opcode table lays them out (R35 to R50). -/
theorem test_decode_5 : decodes [
    (0x6BBF86E6, .stest .tst 11 15 (.v 134) (.reg (.g 38))), (0x6CCF86E6, .stest .ntst 12 15 (.v 134) (.reg (.g 38))), (0x708DD884, .ld (.v 141) (.g 24) 0x84 none),
    (0x7194DE84, .st (.v 148) (.g 30) 0x84 none), (0x7294E401, .atom .add (.v 148) (.g 36) none), (0x7294E402, .atom .and (.v 148) (.g 36) none),
    (0x7294E403, .atom .or (.v 148) (.g 36) none), (0x7294E404, .atom .xor (.v 148) (.g 36) none), (0x7294E405, .atom .min (.v 148) (.g 36) none),
    (0x7294E406, .atom .max (.v 148) (.g 36) none), (0x7294E407, .atom .minn (.v 148) (.g 36) none), (0x7294E408, .atom .maxn (.v 148) (.g 36) none),
    (0x7294E409, .atom .xchg (.v 148) (.g 36) none), (0x7294E40A, .atom .cas (.v 148) (.g 36) none), (0x7294E40B, .atom .incw (.v 148) (.g 36) none),
    (0x7294E40C, .atom .decw (.v 148) (.g 36) none), (0x7294E410, .atom .fadd (.v 148) (.g 36) none), (0x7294E411, .atom .fmin (.v 148) (.g 36) none),
    (0x7294E412, .atom .fmax (.v 148) (.g 36) none), (0x73A228EA, .ldas (.v 162) (.v 40) (.g 42) none), (0x74A932C2, .sts (.v 169) (.v 50) (.g 2) none),
    (0x75B0C884, .poll (.v 176) (.g 8) 0x84 none), (0x76A0B700, .fgetc 5 (.v 183)), (0x77A00500, .fgetv 5 (.v 5)),
    (0x7820D969, .trd (.v 32) 6 true 37 41 none), (0x792CD969, .twr (.v 44) 6 true 37 41 none)] = true := by decide +kernel

/-- TACC to BRSE, as the opcode table lays them out (R35 to R50). -/
theorem test_decode_6 : decodes [
    (0x7A38D969, .tacc (.v 56) 6 true 37 41 none), (0x81C6C6EC, .gadd (.g 6) (.g 6) (.reg (.g 44))), (0x82F5F9FA, .gsub (.q 5) .laneid (.reg .warpix)),
    (0x83F8FBFC, .gmul .zero .wgid (.reg .coreix)), (0x84D5F7D0, .gand (.g 21) (.q 7) (.reg (.g 16))), (0x85F0DAFA, .gor (.q 0) (.g 26) (.reg .warpix)),
    (0x86F8F9FC, .gxor .zero .laneid (.reg .coreix)), (0x87E4FBE2, .gshl (.g 36) .wgid (.reg (.g 34))), (0x88F3F3FA, .gshr (.q 3) (.q 3) (.reg .warpix)),
    (0x89F8C0FC, .gsar .zero (.g 0) (.reg .coreix)), (0x8AC5F9C6, .gmin (.g 5) .laneid (.reg (.g 6))), (0x8BF6FBFA, .gmax (.q 6) .wgid (.reg .warpix)),
    (0x8CCFD2F3, .gaddi (.g 15) (.g 18) (.short 0xF3)), (0x8DD48001, .gmovi (.g 20) 0x8001), (0x8ED98001, .gmovhi (.g 25) 0x8001),
    (0x8FDEF200, .gmov (.g 30) (.q 2)), (0x90E38AEA, .grdl (.g 35) 138 (.g 42)), (0x91F4E8FA, .gslt (.q 4) (.g 40) (.reg .warpix)),
    (0x92F8F9FC, .gsltn .zero .laneid (.reg .coreix)), (0x93C4FBCE, .gseq (.g 4) .wgid (.reg (.g 14))), (0x94C9D484, .gld (.g 9) (.g 20) 0x84 none),
    (0x95CEDA84, .gst (.g 14) (.g 26) 0x84 none), (0x98800001, .br 0x800001), (0x99D88001, .brz 24 0x8001),
    (0x9ADD8001, .brnz 29 0x8001), (0x9BE80001, .brse 14 0x80001)] = true := by decide +kernel

/-- BRSNE to FENCE, as the opcode table lays them out (R35 to R50). -/
theorem test_decode_7 : decodes [
    (0x9CE80001, .brsne 14 0x80001), (0x9D800001, .call 0x800001), (0x9E00C300, .callr (.g 3)),
    (0x9F00C800, .ret (.g 8)), (0xA000CD00, .jmpr (.g 13)), (0xA896C000, .sunion 9 6 12),
    (0xA996C000, .sinter 9 6 12), (0xAA96C000, .sdiff 9 6 12), (0xAB960000, .smov 9 6),
    (0xAC900000, .sall 9), (0xAD900000, .snone 9), (0xAEC2D000, .scount (.g 2) 13),
    (0xAF960000, .sfirst 9 6), (0xB090EA86, .sld 9 42 0x86), (0xB190C286, .sst 9 2 0x86),
    (0xB2E7FFFF, .apply 14 0x7FFFF none), (0xB3000000, .aend), (0xB4D4B000, .sfromv 20 11),
    (0xB5DAB000, .stov 26 11), (0xB6900000, .sfree 9), (0xB800E6C1, .barinit 38 (.g 1)),
    (0xB900ECC6, .arrive 44 (.g 6)), (0xBA00C4CB, .waitph 4 (.g 11) none), (0xBB080000, .fence .core .acq false),
    (0xBB340000, .fence .quad .rel true), (0xBB580000, .fence .die .ar false)] = true := by decide +kernel

/-- FENCE to SPAWN, as the opcode table lays them out (R35 to R50). -/
theorem test_decode_8 : decodes [
    (0xBB6C0000, .fence .pkg .acq true), (0xBB900000, .fence .pod .rel false), (0xBC85E333, .waitc 33 30 12 51),
    (0xBD000000, .yield), (0xC000DC00, .copy 28 none), (0xC100E20A, .bindw 34 10),
    (0xC200000A, .unbindw 10), (0xC300C000, .vchain 0 none), (0xC400C601, .loadw 6 1),
    (0xC500CC00, .mloop 12), (0xC600D200, .mmask 18), (0xC7000001, .tcfg 1 none),
    (0xC800000A, .tzero 10), (0xC900000A, .trel 10), (0xCA000000, .rflush),
    (0xCB00C2E8, .cbinit 2 (.g 40)), (0xCC00C8ED, .cbacq 8 (.g 45) none), (0xCD00CEC4, .cbrel 14 (.g 4)),
    (0xCEE80000, .clkiv 10), (0xD0A0DACE, .fopen 5 26 (.g 14)), (0xD1C0D300, .fadv 6 (.g 19)),
    (0xD2A0000B, .ftend 5 11), (0xD3A00000, .fclose 5), (0xD4A00207, .fmerge 5 2 7),
    (0xD5C0E700, .fseek 6 (.g 39)), (0xD8ECD000, .spawn (.g 44) 16)] = true := by decide +kernel

/-- LAUNCH to CSRR, as the opcode table lays them out (R35 to R50). -/
theorem test_decode_9 : decodes [
    (0xD9C3D600, .launch (.g 3) 22), (0xDA000000, .endWarp), (0xDB000000, .exit),
    (0xDC000018, .grow 24), (0xDD000018, .shrink 24), (0xDE00C6DC, .join 6 (.g 28) none),
    (0xE0A0CC87, .ald 5 12 0x87), (0xE8D20000, .time 18), (0xE900C001, .enter 0xC001),
    (0xEA00C001, .leave 0xC001), (0xEB00C001, .mark 0xC001), (0xEC00C001, .bkpt 0xC001),
    (0xF0D10000, .csrr (.g 17) .round), (0xF0D10001, .csrr (.g 17) .tvec), (0xF0D10002, .csrr (.g 17) .cause),
    (0xF0D10003, .csrr (.g 17) .epc), (0xF0D10004, .csrr (.g 17) .ftab), (0xF0D10005, .csrr (.g 17) .ftabhi),
    (0xF0D10006, .csrr (.g 17) .applystk), (0xF0D10007, .csrr (.g 17) .priv), (0xF0D10008, .csrr (.g 17) .vault),
    (0xF0D10009, .csrr (.g 17) .pd), (0xF0D1000A, .csrr (.g 17) .events), (0xF0D1000B, .csrr (.g 17) .tcmp),
    (0xF0D1000C, .csrr (.g 17) .tcmphi), (0xF0D1000D, .csrr (.g 17) .laststamp)] = true := by decide +kernel

/-- CSRR to CSRW, as the opcode table lays them out (R35 to R50). -/
theorem test_decode_10 : decodes [
    (0xF0D1000E, .csrr (.g 17) .laststamphi), (0xF0D1000F, .csrr (.g 17) .region), (0xF0D10010, .csrr (.g 17) .region2),
    (0xF0D10011, .csrr (.g 17) .dmode), (0xF0D10012, .csrr (.g 17) .clkw), (0xF0D10013, .csrr (.g 17) .wrefresh),
    (0xF0D10014, .csrr (.g 17) .swapwait), (0xF0D10015, .csrr (.g 17) .tmode), (0xF0D10016, .csrr (.g 17) .tscale),
    (0xF0D10100, .csrr (.g 17) .svec), (0xF0D10101, .csrr (.g 17) .scause), (0xF0D10102, .csrr (.g 17) .sepc),
    (0xF0D10103, .csrr (.g 17) .ptbase), (0xF0D10104, .csrr (.g 17) .ptbasehi), (0xF0D10105, .csrr (.g 17) .hptbase),
    (0xF0D10106, .csrr (.g 17) .hptbasehi), (0xF0D10107, .csrr (.g 17) .vwbase), (0xF0D10108, .csrr (.g 17) .vwbasehi),
    (0xF0D10109, .csrr (.g 17) .sdom), (0xF0D1010A, .csrr (.g 17) .toffset), (0xF0D1010B, .csrr (.g 17) .toffsethi),
    (0xF1D60000, .csrw (.g 22) .round), (0xF1D60001, .csrw (.g 22) .tvec), (0xF1D60002, .csrw (.g 22) .cause),
    (0xF1D60003, .csrw (.g 22) .epc), (0xF1D60004, .csrw (.g 22) .ftab)] = true := by decide +kernel

/-- CSRW to CSRW, as the opcode table lays them out (R35 to R50). -/
theorem test_decode_11 : decodes [
    (0xF1D60005, .csrw (.g 22) .ftabhi), (0xF1D60006, .csrw (.g 22) .applystk), (0xF1D60007, .csrw (.g 22) .priv),
    (0xF1D60008, .csrw (.g 22) .vault), (0xF1D60009, .csrw (.g 22) .pd), (0xF1D6000A, .csrw (.g 22) .events),
    (0xF1D6000B, .csrw (.g 22) .tcmp), (0xF1D6000C, .csrw (.g 22) .tcmphi), (0xF1D6000D, .csrw (.g 22) .laststamp),
    (0xF1D6000E, .csrw (.g 22) .laststamphi), (0xF1D6000F, .csrw (.g 22) .region), (0xF1D60010, .csrw (.g 22) .region2),
    (0xF1D60011, .csrw (.g 22) .dmode), (0xF1D60012, .csrw (.g 22) .clkw), (0xF1D60013, .csrw (.g 22) .wrefresh),
    (0xF1D60014, .csrw (.g 22) .swapwait), (0xF1D60015, .csrw (.g 22) .tmode), (0xF1D60016, .csrw (.g 22) .tscale),
    (0xF1D60100, .csrw (.g 22) .svec), (0xF1D60101, .csrw (.g 22) .scause), (0xF1D60102, .csrw (.g 22) .sepc),
    (0xF1D60103, .csrw (.g 22) .ptbase), (0xF1D60104, .csrw (.g 22) .ptbasehi), (0xF1D60105, .csrw (.g 22) .hptbase),
    (0xF1D60106, .csrw (.g 22) .hptbasehi), (0xF1D60107, .csrw (.g 22) .vwbase)] = true := by decide +kernel

/-- CSRW to PFX, as the opcode table lays them out (R35 to R50). -/
theorem test_decode_12 : decodes [
    (0xF1D60108, .csrw (.g 22) .vwbasehi), (0xF1D60109, .csrw (.g 22) .sdom), (0xF1D6010A, .csrw (.g 22) .toffset),
    (0xF1D6010B, .csrw (.g 22) .toffsethi), (0xF200C001, .trap 0xC001), (0xF300C001, .syscall 0xC001),
    (0xF4000000, .rte), (0xF500E000, .tlbinv 32), (0xF600E6C1, .cflush (.g 38) (.g 1)),
    (0xF700C600, .waitev (.g 6)), (0xF800CB00, .logctlOff (.g 11)), (0xF800D001, .logctlRecord (.g 16)),
    (0xF800D502, .logctlReplay (.g 21)), (0xF800F403, .logctlReadPosition (.q 4)), (0xFE000000, .nop),
    (0xFFABCDEF, .pfx 0xABCDEF)] = true := by decide +kernel

/-- Pairs of words and what they decode to. -/
def pairs (xs : List (Word × Word × Instr)) : Bool := xs.all fun x => decide (decodeWords [x.1, x.2.1] = .ok x.2.2)

/-- Modifiers by their fields in the order of the layout. -/
def mods (noret : Bool) (c : Cache) (rp : Bool) (o : Order) (sc : Scope) (sign : Bool) (sz : Size) : Mods := ⟨noret, c, rp, o, sc, sign, sz⟩

/-- A prefix word of each class of R39 with the word it modifies: the worked words of R52, and words laid out from the classes. -/
theorem test_decode_prefixes : pairs [
    (0xFF000186, 0x190302A0, .addi (.v 3) (.v 2) (.long 0x186 0xA0)), (0xFF000005, 0x010100FF, .add (.v 1) (.v 0) (.imm 5)),
    (0xFF000005, 0x81C1C2FF, .gadd (.g 1) (.g 2) (.imm 5)), (0xFF00FFFF, 0x380102FF, .hadd2b (.v 1) (.v 2) (.imm 0xFFFF)),
    (0xFF3F8000, 0x661207FF, .stest .flt 1 2 (.v 7) (.imm 0x3F8000)),
    (0xFF000091, 0x7004C208, .ld (.v 4) (.g 2) 8 (some (mods false .dflt false .acq .quad false .b16))),
    (0xFF000A93, 0x7004C208, .ld (.v 4) (.g 2) 8 (some (mods false .cv true .acq .quad false .b64))),
    (0xFF000009, 0x7004C208, .ld (.v 4) (.g 2) 8 (some (mods false .dflt false .relaxed .core true .b16))),
    (0xFF0015C3, 0x7208C20A, .atom .cas (.v 8) (.g 2) (some (mods true .cs false .ar .pod false .b64))),
    (0xFF000404, 0x7104C208, .st (.v 4) (.g 2) 8 (some (mods false .cs false .relaxed .core false .b128))),
    (0xFF000003, 0x50010205, .shfl (.v 1) (.v 2) (.v 5) (some .w8)), (0xFF000005, 0x51010205, .shflup (.v 1) (.v 2) 5 (some .w32)),
    (0xFF020408, 0xB2300005, .apply 3 5 (some ⟨8, 4, 2⟩)), (0xFF000001, 0xBA00C2C4, .waitph 2 (.g 4) (some true)),
    (0xFF000000, 0xDE00C2C4, .join 2 (.g 4) (some false)), (0xFF000004, 0xC000C200, .copy 2 (some .pod)),
    (0xFF000000, 0xC300C200, .vchain 2 (some .core)), (0xFF000001, 0x78084143, .trd (.v 8) 2 false 5 3 (some true)),
    (0xFF000001, 0xC7000001, .tcfg 1 (some true)), (0xFF000001, 0x400102B8, .cvt (.v 1) (.v 2) 0xB8 (some true)),
    (0xFF000001, 0x42010402, .pack (.v 1) (.v 4) 2 (some true)), (0xFF000001, 0x43020402, .qscale (.v 2) (.v 4) 2 (some true))] = true := by
  decide +kernel

/-- Words that are no instruction, with the cause they trap with. -/
def refuses (xs : List (List Word × Cause)) : Bool := xs.all fun x => decide (decodeWords x.1 = .error x.2)

/-- The borderline words of R52, unassigned opcodes with and without a prefix word (R50 to R52), and the prefix defects of R37, R39 and R40. -/
theorem test_refuses_prefixes : refuses [
    ([0], .illegalOp), ([0x6D120304], .illegalOp), ([0xFF000001, 0x21010203], .illegalOp), ([0xFF000001, 0x81010203], .illegalPfx),
    ([0xFF000001, 0xFF000001], .illegalPfx), ([0xFF000001, 0xFE000000], .illegalPfx), ([0xFF000006, 0x50010205], .illegalPfx),
    ([0xFF000000, 0x50010205], .illegalPfx), ([0xFF00000B, 0x50010205], .illegalPfx), ([0xFF000002, 0xBA00C2C4], .illegalPfx),
    ([0xFF000005, 0xC000C200], .illegalPfx), ([0xFF002002, 0x7004C208], .illegalPfx), ([0xFF001002, 0x7004C208], .illegalPfx),
    ([0xFF000C02, 0x7004C208], .illegalPfx), ([0xFF000202, 0x7004C208], .illegalPfx), ([0xFF000102, 0x7004C208], .illegalPfx),
    ([0xFF0000D2, 0x7004C208], .illegalPfx), ([0xFF000012, 0x7004C208], .illegalPfx), ([0xFF00000A, 0x7004C208], .illegalPfx),
    ([0xFF000005, 0x7004C208], .illegalPfx), ([0xFF000004, 0x7504C208], .illegalPfx), ([0xFF000008, 0xB2300005], .illegalPfx),
    ([0xFF030208, 0xB2300005], .illegalPfx), ([0xFF0004BD, 0xB2300005], .illegalPfx), ([0xFF010000, 0x380102FF], .illegalPfx),
    ([0xFF000001, 0x1A010203], .illegalPfx)] = true := by decide +kernel

/-- Codes out of range, nonzero zero fields (R34, R43 to R47) and registers of the wrong kind or alignment (R22, R36), the first
before the second (R52). -/
theorem test_refuses_fields : refuses [
    ([0x0B010201], .illegalField), ([0xBBA80000], .illegalField), ([0xBB000000], .illegalField), ([0x1A010220], .illegalField),
    ([0x40010200], .illegalField), ([0x400102BD], .illegalField), ([0x42010404], .illegalField), ([0x5401020B], .illegalField),
    ([0x54010280], .illegalField), ([0x55010210], .illegalField), ([0xF0C40017], .illegalField), ([0xF0C4010C], .illegalField),
    ([0x7204C200], .illegalField), ([0xFF000003, 0x7204C20B], .illegalField), ([0xC7000002], .illegalField), ([0xDC000019], .illegalField),
    ([0xB2300000], .illegalField), ([0xE9000000], .illegalField), ([0xFE000001], .illegalField), ([0xB2380000], .illegalField),
    ([0x81010203], .illegalOperand), ([0x01C00203], .illegalOperand), ([0x010102FF], .illegalOperand), ([0x0101FF02], .illegalOperand),
    ([0x70040300], .illegalOperand), ([0x7004C300], .illegalOperand), ([0x78064143], .illegalOperand), ([0xDD00C300], .illegalField),
    ([0x0BC00201], .illegalField)] = true := by decide +kernel


/-! ### Results

Expected values are the spec's own worked values (R97, R117, R122 to R138 and the rules named), or small sums done by hand. -/

/-- The package with a word to issue and lane registers filled with one value each. -/
def filled (w : Nat) (vs : List (Nat × Word)) : State := vs.foldl (fun s v => s.setV r0 v.1 (rowOf fun _ => v.2)) (loaded w)

/-- The state after one step. -/
def after (s : State) : State :=
  match step s with
  | .next t => t
  | _ => s

/-- Lane 9 of a register after one step. -/
def lane (w : Nat) (vs : List (Nat × Word)) (d : Nat) : Word := rowGet (((after (filled w vs)).warp r0).vreg d) 9

def lanes (xs : List (Nat × List (Nat × Word) × Nat × Word)) : Bool := xs.all fun x => decide (lane x.1 x.2.1 x.2.2.1 = x.2.2.2)

/-- Integer arithmetic: the worked values of R117 and its corners. -/
theorem test_lane_integer : lanes [
    (0x01030102, [(1, 0xFFFFFFFF), (2, 2)], 3, 1), (0x02030102, [(1, 1), (2, 2)], 3, 0xFFFFFFFF), (0x03030102, [(1, 0x10001), (2, 0x10001)], 3, 0x20001),
    (0x04030102, [(1, 0xFFFFFFFF), (2, 2)], 3, 0xFFFFFFFF), (0x05030102, [(1, 0xFFFFFFFF), (2, 2)], 3, 1),
    (0x06030102, [(1, 3), (2, 5), (3, 7)], 3, 22), (0x07030102, [(1, 0xFFFFFFFF), (2, 2)], 3, 0xFFFFFFFF), (0x08030102, [(1, 0xFFFFFFFF), (2, 2)], 3, 2),
    (0x09030102, [(1, 0xFFFFFFFF), (2, 2)], 3, 2), (0x0A030102, [(1, 0xFFFFFFFF), (2, 2)], 3, 0xFFFFFFFF), (0x0B030100, [(1, 0x80000000)], 3, 0x80000000),
    (0x0B030100, [(1, 0xFFFFFFFB)], 3, 5)] = true ∧ lanes [
    (0x0C030102, [(1, 0xF0F0), (2, 0xFF00)], 3, 0xF000), (0x0D030102, [(1, 0xF0F0), (2, 0xFF00)], 3, 0xFFF0), (0x0E030102, [(1, 0xF0F0), (2, 0xFF00)], 3, 0x0FF0),
    (0x0F030102, [(1, 0xF0F0), (2, 0xFF00)], 3, 0x00F0), (0x10030102, [(1, 0x80000001), (2, 1)], 3, 2), (0x10030102, [(1, 1), (2, 32)], 3, 0),
    (0x11030102, [(1, 0x80000000), (2, 40)], 3, 0), (0x12030102, [(1, 0x80000000), (2, 40)], 3, 0xFFFFFFFF), (0x12030102, [(1, 0x80000000), (2, 4)], 3, 0xF8000000),
    (0x13030102, [(1, 0x80000001), (2, 33)], 3, 3), (0x14030100, [(1, 0)], 3, 32), (0x14030100, [(1, 0x10000)], 3, 15), (0x15030100, [(1, 0xF000000F)], 3, 8),
    (0x16030100, [(1, 0x00000003)], 3, 0xC0000000)] = true ∧ lanes [
    (0x17030102, [(1, 0xABCD1234), (2, 0x0C08)], 3, 0x0D12), (0x18030102, [(1, 0), (2, 0x0408), (3, 0xFFFFFFFF)], 3, 0xFFFFF0FF),
    (0x190301FE, [(1, 1)], 3, 0xFFFFFFFF), (0x1A030107, [(1, 0x03000001)], 3, 0x80000080), (0x1B030107, [(1, 0x80000000)], 3, 0x01000000),
    (0x1C030107, [(1, 0x80000000)], 3, 0xFF000000), (0x1D01FFFE, [], 1, 0xFFFFFFFE), (0x1E011234, [(1, 0xFFFFFFFE)], 1, 0x1234FFFE), (0x1F030100, [(1, 77)], 3, 77)] = true := by
  decide +kernel

/-- Floating point: the fusion of R122, the zeros and infinities of R95, R122 and R123, FRND of R125, and the exact cases of R126. -/
theorem test_lane_float : lanes [
    (0x24030102, [(1, 0x3F800000), (2, 0x40000000)], 3, 0x40400000), (0x24030102, [(1, 0x00000000), (2, 0x80000000)], 3, 0),
    (0x25030102, [(1, 0x3F800000), (2, 0x40000000)], 3, 0xBF800000), (0x26030102, [(1, 0), (2, 0x7F800000)], 3, 0x7FC00000),
    (0x26030102, [(1, 0x3F800800), (2, 0x3F800800)], 3, 0x3F801000), (0x27080607, [(6, 0x3F800800), (7, 0x3F800800), (8, 0xBF801000)], 8, 0x33800000),
    (0x28030102, [(1, 0), (2, 0x80000000)], 3, 0x80000000), (0x28030102, [(1, 0x7FC00000), (2, 0x80000000)], 3, 0x80000000),
    (0x29030102, [(1, 0), (2, 0x80000000)], 3, 0), (0x2A030100, [(1, 0x80000001)], 3, 1), (0x2B030100, [(1, 0xFFC12345)], 3, 0x7FC00000),
    (0x2E030100, [(1, 0x80000000)], 3, 0x80000000), (0x2E030100, [(1, 0x41100000)], 3, 0x40400000), (0x2F030102, [(1, 0xBF800000), (2, 0)], 3, 0xFF800000),
    (0x2F030102, [(1, 0x3F800000), (2, 0x40400000)], 3, 0x3EAAAAAB)] = true ∧ lanes [
    (0x2C030100, [(1, 0x80000000)], 3, 0xFF800000), (0x2C030100, [(1, 0x40800000)], 3, 0x3E800000), (0x2D030100, [(1, 0x41800000)], 3, 0x3E800000),
    (0x2D030100, [(1, 0xBF800000)], 3, 0x7FC00000), (0x30030100, [(1, 0xC3150000)], 3, 1), (0x30030100, [(1, 0x43000000)], 3, 0x7F800000),
    (0x31030100, [(1, 0x41000000)], 3, 0x40400000), (0x31030100, [(1, 0)], 3, 0xFF800000), (0x32030100, [(1, 0xC0400000)], 3, 0x80000000),
    (0x33030100, [(1, 0x40400000)], 3, 0xBF800000), (0x33030100, [(1, 0x3F000000)], 3, 0), (0x34030100, [(1, 0xC1200000)], 3, 0xBF800000),
    (0x35030100, [(1, 0xC0200000)], 3, 0xC0000000), (0x35030102, [(1, 0xC0200000)], 3, 0xC0400000), (0x35030100, [(1, 0xBECCCCCD)], 3, 0x80000000)] = true := by
  decide +kernel

/-- Packed pairs, conversions and quantisation: the worked values of R97 and R128 to R132. -/
theorem test_lane_formats : lanes [
    (0x38030102, [(1, 0x3F803F80), (2, 0x40003F80)], 3, 0x40404000), (0x39030102, [(1, 0x40003F80), (2, 0x40007FC1)], 3, 0x40807FC0),
    (0x3A060405, [(4, 0x40003F80), (5, 0x40003F80), (6, 0x3F803F80)], 6, 0x40A04000), (0x3B030102, [(1, 0x3C003C00), (2, 0x3C007E01)], 3, 0x40007E00),
    (0x3C030102, [(1, 0x40003C00), (2, 0x40003C00)], 3, 0x44003C00), (0x3D060405, [(4, 0x40003C00), (5, 0x40003C00), (6, 0x3C003C00)], 6, 0x45004000)] = true ∧ lanes [
    (0x40020102, [(1, 200)], 2, 0xFFFFFFC8), (0x40020128, [(1, 0xC06CCCCD)], 2, 0xFFFFFFFD), (0x400201B8, [(1, 0x43FA0000)], 2, 0x7F), (0x400201B8, [(1, 0x3DCCCCCD)], 2, 0x1D),
    (0x400201A8, [(1, 0x47C35000)], 2, 0x7C00), (0x40020198, [(1, 0x47C35000)], 2, 0x47C3), (0x400201C8, [(1, 0x43FA0000)], 2, 0x60),
    (0x40020483, [(4, 1), (5, 0x100)], 2, 0x53800000)] = true ∧ lanes [
    (0x410E0901, [(9, 0x7531D982)], 14, 0xC4B08038), (0x410E0901, [(9, 0x7531D982)], 15, 0x4C443C30), (0x41020100, [(1, 8)], 2, 0x000000D0),
    (0x420A0800, [(8, 0x3F800000), (9, 0xC0200000)], 10, 0xC0203F80), (0x42030402, [(4, 0x3F800000), (5, 0xC0200000), (6, 0x3DCCCCCD), (7, 0x43FA0000)], 3, 0x7F1DC238),
    (0x430C0502, [(5, 0x41600000)], 12, 7), (0x430C0502, [(5, 0x41600000)], 13, 128)] = true := by
  decide +kernel

/-- Retrieval helpers and register-indirect moves: the worked values of R133 to R137. -/
theorem test_lane_helpers : lanes [
    (0x44030102, [(1, 0x44434241), (2, 0x44454241)], 3, 0xFFFFFFFD), (0x44030102, [(1, 0x44434241), (2, 0x44434240)], 3, 1), (0x45030100, [(1, 0x41004200)], 3, 0),
    (0x45030100, [(1, 0x01000101)], 3, 2), (0x45030100, [(1, 0x01010101)], 3, 4), (0x46030102, [(1, 0xFFFFFFFF), (2, 0)], 3, 0xB798B438),
    (0x46030102, [(1, 0), (2, 1)], 3, 0xDD45AAB8), (0x47030102, [(1, 1), (2, 0)], 3, 0xEF36CF36), (0x4805C302, [(2, 9)], 5, 9), (0x4905C302, [(5, 9)], 2, 9)] = true := by
  decide +kernel

/-- A state with uniform registers given, the word to issue at address 0. -/
def uniform (w : Nat) (gs : List (Nat × Word)) : State := gs.foldl (fun s v => s.setG r0 v.1 v.2) (loaded w)

def unis (xs : List (Nat × List (Nat × Word) × Nat × Word)) : Bool :=
  xs.all fun x => decide ((after (uniform x.1 x.2.1)).greg r0 x.2.2.1 = x.2.2.2)

/-- The uniform arithmetic of R138: GMOVI, GSLT and GADDI from their worked words, the rest by hand. -/
theorem test_uniform_integer : unis [
    (0x81C3C1C2, [(1, 0xFFFFFFFF), (2, 2)], 3, 1), (0x82C3C1C2, [(1, 1), (2, 2)], 3, 0xFFFFFFFF), (0x83C3C1C2, [(1, 0x10001), (2, 0x10001)], 3, 0x20001),
    (0x84C3C1C2, [(1, 0xF0F0), (2, 0xFF00)], 3, 0xF000), (0x85C3C1C2, [(1, 0xF0F0), (2, 0xFF00)], 3, 0xFFF0), (0x86C3C1C2, [(1, 0xF0F0), (2, 0xFF00)], 3, 0x0FF0),
    (0x87C3C1C2, [(1, 1), (2, 32)], 3, 0), (0x88C3C1C2, [(1, 0x80000000), (2, 4)], 3, 0x08000000), (0x89C3C1C2, [(1, 0x80000000), (2, 40)], 3, 0xFFFFFFFF),
    (0x8AC3C1C2, [(1, 0xFFFFFFFF), (2, 2)], 3, 0xFFFFFFFF), (0x8BC3C1C2, [(1, 0xFFFFFFFF), (2, 2)], 3, 2)] = true ∧ unis [
    (0x8CC4C410, [(4, 0xFFFFFFFF)], 4, 15), (0x8DC40064, [], 4, 100), (0x8EC41234, [(4, 0xFFFFFFFE)], 4, 0x1234FFFE), (0x8FC3C100, [(1, 77)], 3, 77),
    (0x8FC3F900, [], 3, 0), (0x91C7C4C5, [(4, 0xFFFFFFFF), (5, 1)], 7, 1), (0x92C7C4C5, [(4, 0xFFFFFFFF), (5, 1)], 7, 0), (0x93C7C4C5, [(4, 5), (5, 5)], 7, 1),
    (0x9D00000A, [], 47, 4), (0x9E00EF00, [(47, 0x40)], 47, 4), (0xAEC40000, [], 4, 32)] = true := by decide +kernel

def goesTo (xs : List (Nat × List (Nat × Word) × Word)) : Bool := xs.all fun x => decide ((after (uniform x.1 x.2.1)).pcOf r0 = x.2.2)

/-- Transfers of control: taken and not, by the worked words of R309 where it has one. -/
theorem test_transfers : goesTo [
    (0x98000003, [], 16), (0x99C40003, [(4, 0)], 16), (0x99C40003, [(4, 1)], 4), (0x9AC40003, [(4, 0)], 4), (0x9AC40003, [(4, 1)], 16), (0x9D00000A, [], 44),
    (0x9E00C900, [(9, 0x80)], 0x80), (0x9E00EF00, [(47, 0x40)], 0x40), (0x9F00EF00, [(47, 0x3FFFC)], 0x3FFFC), (0xA000CC00, [(12, 0x100)], 0x100),
    (0x9BF00003, [], 16), (0x9CF00003, [], 4), (0x9B000003, [], 4), (0x9C000003, [], 16), (0xFE000000, [], 4)] = true := by decide +kernel

/-- Lanes exchange and combine (R140, R141 and R45): lane 9 takes lanes 8, 10 and 3 of `laneid`, a sum of 32 ones, and scans. -/
theorem test_lane_exchange : lanes [
    (0x5103F901, [], 3, 8), (0x5203F901, [], 3, 10), (0x5303F901, [], 3, 8), (0x5003F902, [(2, 3)], 3, 3), (0x54030100, [(1, 1)], 3, 32),
    (0x55030100, [(1, 1)], 3, 10), (0x55030180, [(1, 1)], 3, 9), (0x54030102, [(1, 0xFFFFFFFF)], 3, 0xFFFFFFFF), (0x5403F904, [], 3, 31), (0x5403F907, [], 3, 0)] = true := by
  decide +kernel

/-- STEST splits the applied set by a condition (R315): `laneid < 4` into `s1`, the rest into `s2`. -/
theorem test_stest_splits : (after (uniform 0x6212F9C4 [(4, 4)])).greg r0 4 = 4 ∧ ((after (uniform 0x6212F9C4 [(4, 4)])).warp r0).sreg 1 = 0xF ∧
    ((after (uniform 0x6212F9C4 [(4, 4)])).warp r0).sreg 2 = 0xFFFFFFF0 := by decide +kernel

/-- The package with a word to issue and the supervisor's entry at 0x100. -/
def entering (w : Nat) : State := (loaded w).modCore 0 fun c => { c with svec := 0x100, owners := Tab.set .none c.owners 1 .supervisor }

/-- `TRAP 7` without a user handler goes to the supervisor (R349, R355): the pc behind it and its number are saved. -/
theorem test_trap_taken :
    let t := after (entering 0xF2000007)
    t.pcOf r0 = 0x100 ∧ (t.warp r0).sepc = 4 ∧ (t.warp r0).scause = 0x00070020 ∧ (t.warp r0).priv = true := by decide +kernel

/-- SYSCALL enters the supervisor with its own saved registers and leaves the user's alone (R349). -/
theorem test_syscall_taken :
    let t := after (entering 0xF3000005)
    t.pcOf r0 = 0x100 ∧ (t.warp r0).sepc = 4 ∧ (t.warp r0).scause = 0x00050021 ∧ (t.warp r0).priv = true ∧ (t.warp r0).epc = 0 := by decide +kernel

/-- An all-zero word is no instruction (R52): without a user handler its trap goes to the supervisor with the pc of the word. -/
theorem test_zero_word :
    let t := after (entering 0)
    t.pcOf r0 = 0x100 ∧ (t.warp r0).sepc = 0 ∧ (t.warp r0).scause = 1 ∧ (t.warp r0).priv = true := by decide +kernel

/-- From reset with a word placed, the next step issues it: a write of the lane register `v1` (log entry 13). -/
theorem test_first_step : lane 0x1D01FFFE [] 1 = 0xFFFFFFFE ∧ decodeTableWord 32 0x1D01FFFE = some (.movi (.v 1) 0xFFFE) := by decide +kernel

/-- At reset no stream is selected and the package awaits its firmware (R388); a step passes time. -/
theorem test_reset_step : (after State.reset).boot = .awaiting ∧ (after State.reset).time = State.reset.time + 1 := by decide +kernel

/-- The check value of the key of zeros: the published digest of 64 zero bytes begins 24 3D (R340). -/
theorem test_key_check : keyCheck 0 = 0x3D24 := by decide +kernel

end Sys2Proof.Tests
end

/-! ## FABS, FNEG and BZERO (R124, R134)

The decoder on one-source words, what the three functions of a word say about its
bits and bytes, and the two statements assembled from them. -/

namespace Sys2Proof

/-! ### One-source words of the L-form map (R35, R116) -/

/-- R35: the field b of a one-source word is zero. -/
theorem decUnL_of_fb_ne_zero {w : Word} (c : Reg → Reg → Instr) (hb : fb w ≠ 0) : decUnL none w c = .error .illegalField := by
  rw [decUnL, noPfx, decide_eq_false hb]; rfl

theorem decUnL_of_fb_eq_zero {w : Word} {d a : Reg} (c : Reg → Reg → Instr) (hd : Reg.ofNum (fd w) = some d)
    (ha : Reg.ofNum (fa w) = some a) (hl : d.isLaneDst = true) (hb : fb w = 0) : decUnL none w c = .ok (c d a) := by
  simp [decUnL, noPfx, zeros, laneDst, laneSrc, regOf, kind, hd, ha, hl, hb]

theorem decode_of_op_fabs {w : Word} (p : Option (BitVec 24)) (h : fop w = 0x2A#8) : decode p w = decUnL p w .fabs := by
  have hn : (fop w).toNat = 42 := by rw [h]; rfl
  unfold decode
  rewrite [hn]
  exact rfl

theorem decode_of_op_fneg {w : Word} (p : Option (BitVec 24)) (h : fop w = 0x2B#8) : decode p w = decUnL p w .fneg := by
  have hn : (fop w).toNat = 43 := by rw [h]; rfl
  unfold decode
  rewrite [hn]
  exact rfl

theorem decode_of_op_bzero {w : Word} (p : Option (BitVec 24)) (h : fop w = 0x45#8) : decode p w = decUnL p w .bzero := by
  have hn : (fop w).toNat = 69 := by rw [h]; rfl
  unfold decode
  rewrite [hn]
  exact rfl

end Sys2Proof

namespace Sys2Proof.Machine

section

variable {s t : State} {r : Ref} {srcs : List Reg} {d a : Reg}

/-! ### One-source instructions -/

/-- Room for a row whatever S holds is more than a write needs. -/
theorem State.canWrite_of_room (h : s.canWriteRoom r srcs d) : s.canWrite r srcs d := by
  cases d with
  | v n => exact h
  | q n => exact .inr h
  | _ => exact trivial

theorem LaneDone.writes {val : Nat → Word} (h : LaneDone s t r srcs d val) : LaneWrites s t r srcs d val where
  last := h.last
  pc := h.pc
  pfx := h.pfx
  lanes := h.lanes
  uniform := h.uniform
  queues := fun h0 q => by rw [h.queues q, if_neg h0]
  frame := h.frame

/-- A one-source instruction whose function reads no mode writes that function of each lane's word. -/
theorem laneUn_writes (f : Word → Word) (hd : d.isLaneDst = true) (h : s.warpRuns r) (ha : s.canRead r a)
    (hw : s.canWriteRoom r [a] d) :
    ∃ t, laneUn (fun _ x => f x) d a s = .next t ∧ LaneWrites s t r [a] d fun j => f (s.laneVal r a j) := by
  obtain ⟨t, ht, hl⟩ := laneUn_done (fun _ x => f x) h hd ha (State.canWrite_of_room hw)
  exact ⟨t, ht, hl.writes⟩

theorem exec_fabs (d a : Reg) (s : State) : exec (.fabs d a) s = laneUn (fun _ x => fabs x) d a s := rfl

theorem exec_fneg (d a : Reg) (s : State) : exec (.fneg d a) s = laneUn (fun _ x => fneg x) d a s := rfl

theorem exec_bzero (d a : Reg) (s : State) : exec (.bzero d a) s = laneUn (fun _ x => bzeroW x) d a s := rfl

end

/-! ### The sign bit (R124) -/

/-- R90: in a format with infinities an encoding is NaN when its exponent is the largest and its fraction is not zero. -/
theorem Fmt.decode_eq_nan_iff {f : Fmt} (hf : f.top = .ieee) (x : Nat) :
    f.decode x = .nan ↔ x / 2 ^ f.fb % 2 ^ f.eb = 2 ^ f.eb - 1 ∧ x % 2 ^ f.fb ≠ 0 := by
  unfold Fmt.decode
  by_cases he : x / 2 ^ f.fb % 2 ^ f.eb = 2 ^ f.eb - 1
  · by_cases h0 : x % 2 ^ f.fb = 0 <;> simp [hf, he, h0]
  · simp only [he, false_and, if_false]
    split <;> simp only [reduceCtorEq]

/-- R89, R92: a binary32 word is NaN when its exponent bits are all ones and its fraction is not zero. -/
theorem isNan_iff (x : Word) : isNan x = true ↔ x.extractLsb' 23 8 = 0xFF#8 ∧ x.extractLsb' 0 23 ≠ 0 := by
  have hexp : x.extractLsb' 23 8 = 0xFF#8 ↔ x.toNat / 2 ^ 23 % 2 ^ 8 = 2 ^ 8 - 1 := by
    simp [← BitVec.toNat_inj, Nat.shiftRight_eq_div_pow]
  have hfrac : x.extractLsb' 0 23 = 0 ↔ x.toNat % 2 ^ 23 = 0 := by
    simp [← BitVec.toNat_inj]
  rw [isNan, decide_eq_true_iff, hexp, ne_eq, hfrac]
  exact Fmt.decode_eq_nan_iff rfl x.toNat

theorem fabs_of_nan {x : Word} (h : isNan x = true) : fabs x = 0x7FC00000#32 := if_pos h

theorem fneg_of_nan {x : Word} (h : isNan x = true) : fneg x = 0x7FC00000#32 := if_pos h

/-- FABS masks bit 31 away. -/
theorem fabs_bits {x : Word} (h : ¬isNan x = true) :
    (fabs x).getLsbD 31 = false ∧ ∀ k, k < 31 → (fabs x).getLsbD k = x.getLsbD k := by
  have hm : (0x7FFFFFFF : Word).getLsbD 31 = false ∧ ∀ k, k < 31 → (0x7FFFFFFF : Word).getLsbD k = true := by decide
  rw [fabs, if_neg h]
  refine ⟨?_, fun k hk => ?_⟩
  · rw [BitVec.getLsbD_and, hm.1, Bool.and_false]
  · rw [BitVec.getLsbD_and, hm.2 k hk, Bool.and_true]

/-- FNEG flips bit 31. -/
theorem fneg_bits {x : Word} (h : ¬isNan x = true) :
    (fneg x).getLsbD 31 = !x.getLsbD 31 ∧ ∀ k, k < 31 → (fneg x).getLsbD k = x.getLsbD k := by
  have hm : (0x80000000 : Word).getLsbD 31 = true ∧ ∀ k, k < 31 → (0x80000000 : Word).getLsbD k = false := by decide
  rw [fneg, if_neg h]
  refine ⟨?_, fun k hk => ?_⟩
  · rw [BitVec.getLsbD_xor, hm.1, Bool.xor_true]
  · rw [BitVec.getLsbD_xor, hm.2 k hk, Bool.xor_false]

/-! ### The lowest zero byte (R134) -/

theorem byteAt_eq_toNat (x : Word) (k : Nat) : byteAt x k = (x.extractLsb' (8 * k) 8).toNat := by
  rw [byteAt, BitVec.extractLsb'_toNat, Nat.shiftRight_eq_div_pow, Nat.pow_mul]

theorem byteAt_eq_zero_iff (x : Word) (k : Nat) : byteAt x k = 0 ↔ x.extractLsb' (8 * k) 8 = 0 := by
  rw [byteAt_eq_toNat, ← BitVec.toNat_inj]; rfl

/-- BZERO gives the place `n` of the first zero byte, or 4: no byte below `n` is zero, and byte `n` is unless `n` is 4. -/
theorem bzeroW_spec (x : Word) : ∃ n, bzeroW x = BitVec.ofNat 32 n ∧ n ≤ 4 ∧
    (∀ k, k < n → x.extractLsb' (8 * k) 8 ≠ 0) ∧ (n < 4 → x.extractLsb' (8 * n) 8 = 0) := by
  unfold bzeroW
  simp only [← byteAt_eq_zero_iff, Ne]
  cases hf : (List.range 4).find? fun k => decide (byteAt x k = 0) with
  | none =>
    rw [List.find?_range_eq_none] at hf
    exact ⟨4, rfl, le_rfl, fun k hk => by simpa using hf k hk, fun h => absurd h (lt_irrefl 4)⟩
  | some n =>
    obtain ⟨hn, hmem, hlow⟩ := List.find?_range_eq_some.mp hf
    exact ⟨n, rfl, (List.mem_range.mp hmem).le, fun k hk => by simpa using hlow k hk, fun _ => of_decide_eq_true hn⟩

/-! ### The statements -/

/-- Settles O58: the decoder on one-source words, and the bits of FABS and FNEG in each lane. -/
theorem signBitInstructions : Obligations.SignBitInstructions := by
  unfold Obligations.SignBitInstructions
  refine ⟨fun w => ⟨?_, fun d a hd ha hl hb => ⟨fun h => ?_, fun h => ?_⟩⟩, fun d a s r hd hs ha hw => ⟨?_, ?_⟩⟩
  · rintro (h | h) hb
    · rw [decode_of_op_fabs none h, decUnL_of_fb_ne_zero _ hb]
    · rw [decode_of_op_fneg none h, decUnL_of_fb_ne_zero _ hb]
  · rw [decode_of_op_fabs none h, decUnL_of_fb_eq_zero _ hd ha hl hb]
  · rw [decode_of_op_fneg none h, decUnL_of_fb_eq_zero _ hd ha hl hb]
  · obtain ⟨t, ht, hl⟩ := laneUn_writes fabs hd hs ha hw
    rw [← exec_fabs] at ht
    exact ⟨t, _, ht, hl, fun j => ⟨fun hn => fabs_of_nan ((isNan_iff _).mpr hn), fun hn => fabs_bits (mt (isNan_iff _).mp hn)⟩⟩
  · obtain ⟨t, ht, hl⟩ := laneUn_writes fneg hd hs ha hw
    rw [← exec_fneg] at ht
    exact ⟨t, _, ht, hl, fun j => ⟨fun hn => fneg_of_nan ((isNan_iff _).mpr hn), fun hn => fneg_bits (mt (isNan_iff _).mp hn)⟩⟩

/-- Settles O59: the decoder on one-source words, and the first zero byte of each lane's word. -/
theorem lowestZeroByte : Obligations.LowestZeroByte := by
  unfold Obligations.LowestZeroByte
  refine ⟨fun w h => ⟨fun hb => ?_, fun d a hd ha hl hb => ?_⟩, fun d a s r hd hs ha hw => ?_⟩
  · rw [decode_of_op_bzero none h, decUnL_of_fb_ne_zero _ hb]
  · rw [decode_of_op_bzero none h, decUnL_of_fb_eq_zero _ hd ha hl hb]
  · obtain ⟨t, ht, hl⟩ := laneUn_writes bzeroW hd hs ha hw
    rw [← exec_bzero] at ht
    exact ⟨t, _, ht, hl, fun j => bzeroW_spec _⟩

end Sys2Proof.Machine

/-! ## TRAP and SYSCALL (R349)

The decoder on their words, what delivery to the supervisor and entry at the user handler
leave in the warp, and the statement assembled from them. -/

namespace Sys2Proof

/-! ### The words of TRAP and SYSCALL (R35, R349) -/

theorem decode_of_op_trap {w : Word} (p : Option (BitVec 24)) (h : fop w = 0xF2#8) :
    decode p w = noPfx p (zeros (fd w = 0) (.ok (.trap (f16 w)))) := by
  have hn : (fop w).toNat = 242 := by rw [h]; rfl
  unfold decode
  rewrite [hn]
  exact rfl

theorem decode_of_op_syscall {w : Word} (p : Option (BitVec 24)) (h : fop w = 0xF3#8) :
    decode p w = noPfx p (zeros (fd w = 0) (.ok (.syscall (f16 w)))) := by
  have hn : (fop w).toNat = 243 := by rw [h]; rfl
  unfold decode
  rewrite [hn]
  exact rfl

theorem noPfx_none (k : Dec) : noPfx none k = k := rfl

theorem zeros_of_true {p : Prop} [Decidable p] (h : p) (k : Dec) : zeros (decide p) k = k := if_pos (decide_eq_true h)

/-- R35, R52: a field that must be zero and is not. -/
theorem zeros_of_false {p : Prop} [Decidable p] (h : ¬p) (k : Dec) : zeros (decide p) k = .error .illegalField := by
  rw [decide_eq_false h]; rfl

end Sys2Proof

namespace Sys2Proof.Machine

section

variable {s : State} {r : Ref} {x : Trap}

/-! ### The selected warp after the parts of a trap entry -/

@[simp] theorem State.warp_withLast (s : State) (r : Ref) (l : Last) : ({ s with last := l } : State).warp r = s.warp r := by
  unfold State.warp; split <;> rfl

@[simp] theorem State.warp_modDom (s : State) (r : Ref) (d : Nat) (f : Domain → Domain) : (s.modDom d f).warp r = s.warp r := by
  unfold State.warp; split <;> rfl

theorem State.warp_setPc (hr : r.isSlice = false) (pc : Word) :
    (s.setPc r pc).warp r = { s.warp r with pc := pc, pfx := none } := by
  obtain ⟨c, k, w⟩ := r
  cases w with
  | slice => cases hr
  | warp w => exact State.warp_modWarp _ _ _ hr

/-- R38: without a prefix word before it, a warp's instruction is one word long. -/
theorem State.nextPc_of_pfx_none (hr : r.isSlice = false) (hp : (s.warp r).pfx = none) :
    s.nextPc r = (s.warp r).pc + 4 := by
  obtain ⟨c, k, w⟩ := r
  cases w with
  | slice => cases hr
  | warp w => simp only [State.nextPc, State.pcOf, State.pfxOf, hp]; rfl

/-! ### Causes and cause words -/

theorem leastCause_self (c : Cause) : leastCause c [c] = c := ite_self c

/-- R346: without a site the cause word holds the cause in its low byte and the code in its upper half. -/
theorem Trap.word_of_site_zero (hs : x.site = 0) (c : Cause) :
    x.word c = c.code.setWidth 32 ||| (x.code.setWidth 32 <<< 16) := by
  have hlow : c.code.toNat < 2 ^ 16 := lt_trans c.code.isLt (by decide)
  have hword : x.word c = BitVec.ofNat 32 (x.code.toNat <<< 16 ||| c.code.toNat) := by
    rw [← Nat.shiftLeft_add_eq_or_of_lt hlow, Nat.shiftLeft_eq, Trap.word, hs]
    congr 1
    simp only [BitVec.ofNat_eq_ofNat, BitVec.toNat_ofNat]
    omega
  have hcode : x.code.toNat % 2 ^ 32 = x.code.toNat := Nat.mod_eq_of_lt (lt_trans x.code.isLt (by decide))
  rw [hword, Nat.or_comm, ← BitVec.toNat_inj]
  simp only [BitVec.toNat_ofNat, BitVec.toNat_or, BitVec.toNat_shiftLeft, BitVec.toNat_setWidth, Nat.or_mod_two_pow, hcode]

/-- The cause that delivery to the supervisor saves: the least of those that go there first, or of all (R355, R356). -/
def Trap.served (x : Trap) : Cause :=
  match x.causes.filter Cause.supervisorFirst with
  | y :: ys => leastCause y ys
  | [] => leastCause x.cause x.causes

theorem Trap.served_of_single (hx : x.causes = [x.cause]) : x.served = x.cause := by
  unfold Trap.served
  rw [hx]
  cases h : Cause.supervisorFirst x.cause
  · rw [List.filter_cons_of_neg (by simp [h])]
    exact leastCause_self _
  · rw [List.filter_cons_of_pos h]
    rfl

/-! ### Where a warp stands once its exception is taken -/

/-- A warp at the supervisor's entry `vec`, with a saved address and cause (R350, R355). -/
structure Warp.atSupervisor (w : Warp) (vec epc cause : Word) : Prop where
  pc : w.pc = vec
  priv : w.priv = true
  sepc : w.sepc = epc
  scause : w.scause = cause

/-- A warp at its own handler `vec`, with a saved address and cause (R358). -/
structure Warp.atHandler (w : Warp) (vec epc cause : Word) : Prop where
  pc : w.pc = vec
  priv : w.priv = false
  epc : w.epc = epc
  cause : w.cause = cause

/-- Delivery to the supervisor sets the warp's saved state and its entry, whatever it does to the trap area and to the domain. -/
theorem State.deliverSupervisor_atSupervisor (hr : r.isSlice = false) (epc : Word) (lost : Bool) :
    ((s.deliverSupervisor r x epc lost).warp r).atSupervisor (s.core r.core).svec epc (x.word x.served) := by
  unfold State.deliverSupervisor
  constructor <;> rw [State.warp_withLast, State.warp_setPc hr]
  all_goals
    simp only [apply_ite (State.warp · r), State.warp_modDom, ite_self, State.warp_modWarp _ _ _ hr]
  case scause => rfl

/-- Entry at the user handler sets the warp's saved state and its entry, whatever it does to the trap area. -/
theorem State.enterUser_atHandler (hr : r.isSlice = false) (hx : x.causes = [x.cause]) (epc : Word) (refs : List BRef) :
    ((s.enterUser r x epc refs).warp r).atHandler (s.warp r).tvec epc (x.word x.cause) := by
  unfold State.enterUser
  rw [hx, leastCause_self]
  constructor <;> rw [State.warp_withLast, State.warp_setPc hr] <;> dsimp only <;> rw [State.warp_modWarp _ _ _ hr]

/-! ### Which way a warp's exception goes (R355, R358) -/

/-- An exception that does not go to the warp's own handler at first (R355). -/
def State.goesUp (s : State) (r : Ref) (x : Trap) : Prop :=
  x.supervisorFirst = true ∨ (s.warp r).tvec = 0 ∨ (s.warp r).active = true ∨ (s.warp r).priv = true

/-- The user handler of a warp can be entered now, with its trap area at `refs` (R357, R358, R373). -/
structure State.handlerReady (s : State) (r : Ref) (refs : List BRef) : Prop where
  savable : s.savable r = true
  granule : s.foreign r (s.warp r).tvec = false
  sound : s.saveBad r = false
  area : areaRefs s r .store = .ok refs
  free : s.areaFree r refs = true

theorem State.goesUp_iff : s.goesUp r x ↔
    (x.supervisorFirst || decide ((s.warp r).tvec = 0) || (s.warp r).active || (s.warp r).priv) = true := by
  simp [State.goesUp, or_assoc]

theorem State.takeTrap_of_warp (hr : r.isSlice = false) (x : Trap) : s.takeTrap r x = s.takeWarpTrap r x := by
  obtain ⟨c, k, w⟩ := r
  cases w with
  | slice => cases hr
  | warp w => rfl

/-- R355, R373: what goes up is delivered, without its records where a saved register is bad. -/
theorem State.takeTrap_of_goesUp (hr : r.isSlice = false) (hs : s.savable r = true) (hup : s.goesUp r x) :
    s.takeTrap r x = s.deliverSupervisor r (if s.saveBad r then { x with recs := [] } else x)
      (if x.after then s.nextPc r else s.pcOf r) (s.saveBad r) := by
  rw [State.takeTrap_of_warp hr]
  unfold State.takeWarpTrap
  simp only [hs, State.goesUp_iff.mp hup]
  rfl

/-- R358: what does not go up enters a handler that is ready. -/
theorem State.takeTrap_of_handlerReady {refs : List BRef} (hr : r.isSlice = false) (hup : ¬s.goesUp r x) (h : s.handlerReady r refs) :
    s.takeTrap r x = s.enterUser r x (if x.after then s.nextPc r else s.pcOf r) refs := by
  obtain ⟨hs, hf, hb, ha, hfree⟩ := h
  rw [State.goesUp_iff, Bool.not_eq_true] at hup
  rw [State.takeTrap_of_warp hr]
  unfold State.takeWarpTrap
  simp only [hs, hup, hf, hb, ha, hfree]
  rfl

/-- The records that a bad register drops are no part of the cause word. -/
theorem State.takeTrap_atSupervisor (hr : r.isSlice = false) (hs : s.savable r = true) (hup : s.goesUp r x) :
    (s.takeTrap r x).last = .trapped ∧ ((s.takeTrap r x).warp r).atSupervisor (s.core r.core).svec
      (if x.after then s.nextPc r else s.pcOf r) (x.word x.served) := by
  have hword : ∀ y, y = (if s.saveBad r then { x with recs := [] } else x) → y.word y.served = x.word x.served := by
    rintro y rfl
    split <;> rfl
  rw [State.takeTrap_of_goesUp hr hs hup, ← hword _ rfl]
  exact ⟨rfl, State.deliverSupervisor_atSupervisor hr _ _⟩

/-! ### The call that TRAP and SYSCALL make (R349) -/

/-- The trap of a TRAP or SYSCALL with the code `i16`. -/
def callOf (c : Cause) (i16 : BitVec 16) : Trap := { Trap.of c with code := i16, site := 0, after := true }

theorem callOf_served (c : Cause) (i16 : BitVec 16) : (callOf c i16).served = c := Trap.served_of_single rfl

theorem callOf_word (c : Cause) (i16 : BitVec 16) :
    (callOf c i16).word c = c.code.setWidth 32 ||| (i16.setWidth 32 <<< 16) := Trap.word_of_site_zero rfl c

/-- R355: of the two calls SYSCALL goes first to the supervisor. -/
theorem callOf_syscall_supervisorFirst (i16 : BitVec 16) : (callOf .syscall i16).supervisorFirst = true := rfl

theorem callOf_trap_supervisorFirst (i16 : BitVec 16) : (callOf .trap i16).supervisorFirst = false := rfl

theorem exec_trap (i16 : BitVec 16) (s : State) : exec (.trap i16) s = callTrap .trap i16 s := rfl

theorem exec_syscall (i16 : BitVec 16) (s : State) : exec (.syscall i16) s = callTrap .syscall i16 s := rfl

theorem State.trapAfter_eq (c : Cause) (i16 : BitVec 16) : s.trapAfter r c i16 0 =
    if (s.takeTrap r (callOf c i16)).last = .stalled then .error .stall
    else .ok { s.takeTrap r (callOf c i16) with last := .retired } := rfl

/-- R308: a call whose saved address the warp may not run traps instead. -/
theorem callTrap_of_foreign (h : s.issues r) (hf : s.foreign r (s.nextPc r) = true) (c : Cause) (i16 : BitVec 16) :
    callTrap c i16 s = .next (s.takeTrap r (Trap.of .priv)) :=
  issue_traps h (by simp only [hf]; rfl) rfl

/-- R355: a call has had its whole effect once its trap is taken, and retires. -/
theorem callTrap_of_taken {c : Cause} {i16 : BitVec 16} (h : s.issues r) (hf : s.fallsThrough r)
    (ht : (s.takeTrap r (callOf c i16)).last = .trapped) :
    callTrap c i16 s = .next { s.takeTrap r (callOf c i16) with last := .retired } := by
  have hafter : s.trapAfter r c i16 0 = .ok { s.takeTrap r (callOf c i16) with last := .retired } :=
    (State.trapAfter_eq c i16).trans (if_neg (by rw [ht]; decide))
  rw [State.fallsThrough] at hf
  exact issue_ok h (by simp only [hf, hafter]; rfl)

theorem callTrap_atSupervisor {c : Cause} {i16 : BitVec 16} (h : s.issues r) (hr : r.isSlice = false) (hf : s.fallsThrough r)
    (hs : s.savable r = true) (hup : s.goesUp r (callOf c i16)) :
    ∃ t, callTrap c i16 s = .next t ∧ t.last = .retired ∧
      (t.warp r).atSupervisor (s.core r.core).svec (s.nextPc r) (c.code.setWidth 32 ||| (i16.setWidth 32 <<< 16)) := by
  obtain ⟨hl, hw⟩ := State.takeTrap_atSupervisor hr hs hup
  refine ⟨_, callTrap_of_taken h hf hl, rfl, ?_⟩
  rw [State.warp_withLast, ← callOf_word]
  rw [callOf_served] at hw
  exact hw

theorem callTrap_atHandler {c : Cause} {i16 : BitVec 16} {refs : List BRef} (h : s.issues r) (hr : r.isSlice = false)
    (hf : s.fallsThrough r) (hup : ¬s.goesUp r (callOf c i16)) (hh : s.handlerReady r refs) :
    ∃ t, callTrap c i16 s = .next t ∧ t.last = .retired ∧
      (t.warp r).atHandler (s.warp r).tvec (s.nextPc r) (c.code.setWidth 32 ||| (i16.setWidth 32 <<< 16)) := by
  have ht := State.takeTrap_of_handlerReady hr hup hh
  refine ⟨_, callTrap_of_taken h hf (by rw [ht]; rfl), rfl, ?_⟩
  rw [State.warp_withLast, ht, ← callOf_word]
  exact State.enterUser_atHandler hr rfl _ _

end

/-! ### The statement -/

/-- Settles O38: the words of TRAP and SYSCALL, then the three ways a call goes: up, refused for the granule behind it, or to the
warp's own handler. -/
theorem trapAndSyscall : Obligations.TrapAndSyscall := by
  unfold Obligations.TrapAndSyscall
  refine ⟨fun w => ⟨fun h hd => ?_, fun h hd => ?_, ?_⟩, rfl, rfl, fun i16 s r h hr hp => ?_⟩
  · rw [decode_of_op_trap none h, noPfx_none, zeros_of_true hd]
  · rw [decode_of_op_syscall none h, noPfx_none, zeros_of_true hd]
  · rintro (h | h) hd
    · rw [decode_of_op_trap none h, noPfx_none, zeros_of_false hd]
    · rw [decode_of_op_syscall none h, noPfx_none, zeros_of_false hd]
  · dsimp only
    rw [← State.nextPc_of_pfx_none hr hp]
    refine ⟨fun hf => ⟨fun hs => ?_, fun hv hs => ?_⟩, fun hf i hi => ?_, fun refs hf hv hact hpriv hg hs hb ha hfree => ?_⟩
    · obtain ⟨t, ht, hl, hw⟩ := callTrap_atSupervisor h hr hf hs (.inl (callOf_syscall_supervisorFirst i16))
      rw [exec_syscall]
      exact ⟨t, ht, hl, hw.pc, hw.priv, hw.sepc, hw.scause⟩
    · obtain ⟨t, ht, hl, hw⟩ := callTrap_atSupervisor (c := .trap) (i16 := i16) h hr hf hs (.inr (.inl hv))
      rw [exec_trap]
      exact ⟨t, ht, hl, hw.pc, hw.priv, hw.sepc, hw.scause⟩
    · rcases List.mem_pair.mp hi with rfl | rfl
      · rw [exec_syscall, callTrap_of_foreign h hf]
      · rw [exec_trap, callTrap_of_foreign h hf]
    · have hup : ¬s.goesUp r (callOf .trap i16) := by
        simp only [State.goesUp, callOf_trap_supervisorFirst, hact, hpriv, Bool.false_eq_true, false_or, or_false]
        exact hv
      obtain ⟨t, ht, hl, hw⟩ := callTrap_atHandler h hr hf hup ⟨hs, hg, hb, ha, hfree⟩
      rw [exec_trap]
      exact ⟨t, ht, hl, hw.pc, hw.priv, hw.epc, hw.cause⟩

end Sys2Proof.Machine
